-- ==== Sys2Proof/Word.lean ====
section
/-! DEFINITION. The word types: the byte of a telegram and the encoder count. A distance to knife or a length of web, in web
units of 0.1 mm ("Units and conventions"), is an Int: a signed count that does not wrap (assumption 11). -/

namespace Sys2Proof

/-- One byte of a telegram as it travels on the ring (R203). -/
abbrev Byte := BitVec 8

/-- The free-running encoder count of a FEED_COUNT item, 0..65,535, which wraps (R3). -/
abbrev FeedCount := BitVec 16

end Sys2Proof
end

