-- ==== Sys2Proof/Syntax.lean ====
section
/-! DEFINITION. The commands: the names the manual fixes, what telegrams and requests carry, and Instr, one
constructor for each row of spec/opcode_table.json. -/

namespace Sys2Proof

/-! ### Names the manual fixes -/

/-- The four speed bands, slowest first (Units, "Speed band"). -/
inductive Band where
  | crawl | low | mid | high
deriving DecidableEq, Repr

/-- The five line speed requests, least restrictive first (Units, "Line speed request"). -/
inductive SpeedReq where
  | noLimit | limitMid | limitLow | limitCrawl | stop
deriving DecidableEq, Repr

/-- The five line states, in the order of the table of R161. -/
inductive LineState where
  | stopped | threading | producing | halting | faulted
deriving DecidableEq, Repr

/-- The two ring ports. -/
inductive RingPort where
  | a | b
deriving DecidableEq, Repr

/-- The two slitter-scorer stations. -/
inductive Slitter where
  | a | b
deriving DecidableEq, Repr

/-- The quality class of an order (R41). -/
inductive Quality where
  | strict | lenient
deriving DecidableEq, Repr

/-- The web edge from which track lists are laid out (R65). -/
inductive OriginSide where
  | operator | drive
deriving DecidableEq, Repr

/-- The kind of a process point (R110). -/
inductive PointKind where
  | preheatWrap | glueGap | plateTemp
deriving DecidableEq, Repr

/-- The mode of the production log (R157). -/
inductive LogMode where
  | wrap | halt
deriving DecidableEq, Repr

/-- The roles of the station table (R176). -/
inductive Role where
  | lineMaster | processStation | scheduler | supervisor | panel | own
deriving DecidableEq, Repr

/-- The thirteen blocks, in the order of the overview's table. -/
inductive Block where
  | rif | irt | wtr | wmp | osq | chg | spl | hgr | knp | stk | plg | lsc | mgr
deriving DecidableEq, Repr

/-- The station item kinds that a subscription may name (R178). -/
inductive StationKind where
  | feedCount | lineStatus | reelDiameter | spareState | spliceDone | spliceFault | zoneValue | slitterState
  | cutDone | stackState
deriving DecidableEq, Repr

/-- The sections of READ_STATUS (R197). -/
inductive Section where
  | line | constants | changeover | heat | knife | stacker | log | ring
deriving DecidableEq, Repr

/-! ### Recipes, orders and constants -/

/-- One track of an order: its width and its score positions from the track's origin edge (R41). -/
structure Track where
  width  : Nat
  scores : List Nat
deriving DecidableEq, Repr

/-- What decides whether a boundary is flying: the track list with each track's score list (R41). -/
abbrev Setting := List Track

/-- One band entry of a setpoint column (R107). -/
structure BandEntry where
  setpoint  : Int
  tolerance : Int
deriving DecidableEq, Repr

/-- A present setpoint column: four band entries (R107). -/
structure Column where
  crawl : BandEntry
  low   : BandEntry
  mid   : BandEntry
  high  : BandEntry
deriving DecidableEq, Repr

/-- A grade record without its code: the paper each stand requires and the setpoint columns, an absent column being
none (R107). -/
structure Grade where
  papers  : Vector Nat 7
  columns : Vector (Option Column) 12
deriving DecidableEq, Repr

/-- The line constants that are numbers, in the index order of R192 (index 13, the track origin side, apart). -/
structure LineNumbers where
  feedScale   : Nat
  jumpLimit   : Nat
  uLow        : Nat
  uMid        : Nat
  uHigh       : Nat
  dLow        : Nat
  dMid        : Nat
  dHigh       : Nat
  dCreate     : Nat
  zSwap       : Nat
  dSs         : Nat
  swapTimeout : Nat
  webWidth    : Nat
  gOff        : Nat
  wMin        : Nat
  wMax        : Nat
  miscut      : Nat
  lateLimit   : Nat
  dwellNear   : Nat
  dwellFar    : Nat
  ringTimeout : Nat
deriving DecidableEq, Repr

/-- The complete set of line constants as a SET_LINE request sends it: the side is none where the field names no
side (R192). -/
structure LineArgs where
  nums : LineNumbers
  side : Option OriginSide
deriving DecidableEq, Repr

/-! ### Arguments of the requests (R190), each field as sent -/

/-- The contents of a LOAD_STATION: code, role (none: it names no role) and level (R176). -/
structure StationFields where
  code  : Nat
  role  : Option Role
  level : Nat
deriving DecidableEq, Repr

/-- LOAD_STATION: an entry and its contents, or none to empty it (R176). -/
structure StationArgs where
  entry    : Nat
  contents : Option StationFields
deriving DecidableEq, Repr

/-- The contents of a LOAD_SUBSCRIPTION (R178); kind and owner are none where the field names none. -/
structure SubscriptionFields where
  source : Nat
  kind   : Option StationKind
  inst   : Nat
  owner  : Option Block
  index  : Nat
  reload : Nat
deriving DecidableEq, Repr

/-- LOAD_SUBSCRIPTION: an entry and its contents, or none to empty it (R178). -/
structure SubscriptionArgs where
  entry    : Nat
  contents : Option SubscriptionFields
deriving DecidableEq, Repr

/-- LOAD_STAND, fields 1 to 9 (R87). -/
structure StandArgs where
  stand   : Nat
  station : Nat
  dist    : Nat
  lead    : Nat
  joint   : Nat
  trig    : Nat
  stop    : Nat
  band    : Option Band
  timeout : Nat
deriving DecidableEq, Repr

/-- LOAD_POINT, fields 1 to 5 (R110). -/
structure PointArgs where
  point   : Nat
  station : Nat
  dist    : Nat
  kind    : Option PointKind
  column  : Nat
deriving DecidableEq, Repr

/-- LOAD_CHANNEL, fields 1 to 8 (R116); point none removes the channel. DESIGN CHOICE (assumption 63): which values of field 6 read
as set and as clear, and which are out of range, the manual does not say; it comes as set or clear, or as none for a value that
is neither. -/
structure ChannelArgs where
  channel : Nat
  sub     : Nat
  point   : Option Nat
  mult    : Nat
  offset  : Int
  invert  : Option Bool
  confirm : Nat
  settle  : Nat
deriving DecidableEq, Repr

/-- LOAD_GRADE: the grade code and the record (R107). -/
structure GradeArgs where
  code  : Nat
  grade : Grade
deriving DecidableEq, Repr

/-- One of the 27 requests of R190 with its arguments. LOAD_ORDER carries its argument bytes, whose layout R206
gives; the others carry their fields. -/
inductive Request where
  | loadStation (a : StationArgs)
  | loadSubscription (a : SubscriptionArgs)
  | setLine (a : LineArgs)
  | loadStand (a : StandArgs)
  | loadPoint (a : PointArgs)
  | loadChannel (a : ChannelArgs)
  | loadScan (channels : List Nat)
  | loadGrade (a : GradeArgs)
  | loadOrder (bytes : List Byte)
  | withdrawOrder (slot : Nat)
  | queueAppend (slot : Nat)
  | queueRemove (position slot : Nat)
  | insertRush (slot : Nat)
  | verifyOrder (slot : Nat)
  | readOrder (slot : Nat)
  | queueRead
  | readStatus (part : Option Section) (first : Nat)
  | readMap
  | readStands
  | readLog (count : Nat)
  | logMode (mode : Option LogMode) (empty : Bool)
  | startThreading
  | startProduction
  | halt
  | lineReset
  | manualSplice (stand : Nat)
  | operatorCutout (distance length : Int)
deriving DecidableEq, Repr

/-- Who asks, and in what request item: the COMM_STATION pins as they read when the request is taken (R177), the
requester station, the length in bytes of the reply space (R204), and how many of the request's fields the arguments
hold whole (R189 check 5). -/
structure Asker where
  comm      : BitVec 6
  requester : Nat
  space     : Nat
  present   : Nat
deriving DecidableEq, Repr

/-! ### Telegrams -/

/-- A reel as a stand reports it: diameter, paper code, caliper and tube diameter. -/
structure Reel where
  paper    : Nat
  caliper  : Nat
  tube     : Nat
  diameter : Nat
deriving DecidableEq, Repr

/-- What a SPARE_STATE item reports. -/
inductive SpareReport where
  | absent | preparing | prepared (reel : Reel)
deriving DecidableEq, Repr

/-- What a SLITTER_STATE item reports (R76). -/
inductive SlitterReport where
  | parked | presetting | ready (id : Nat) | working | fault
deriving DecidableEq, Repr

/-- The state a STACK_STATE item reports (R152). -/
inductive StackReport where
  | ready | settingDown | busy | fault
deriving DecidableEq, Repr

/-- What an arriving station item reports, of a kind whose fields the manual names without giving their bytes. -/
inductive Report where
  | feedCount (count : FeedCount)
  | lineStatus (running : Bool)
  | reelDiameter (reel : Reel)
  | spareState (report : SpareReport)
  | spliceFault (code : Nat)
  | zoneValue (raw : Nat)
  | slitterState (report : SlitterReport)
  | stackState (report : StackReport) (command : Nat)
deriving DecidableEq, Repr

/-- What the bytes of one item's payload spell where the manual gives no byte layout for them (assumption 10): a station item's
report, or a request's arguments with how many of their fields the bytes hold whole. It is nothing for an item whose bytes the
manual lays out, for one that the part takes nothing from, and for a station item that is malformed (R208). -/
inductive Contents where
  | nothing
  | report (r : Report)
  | arguments (r : Request) (present : Nat)
deriving DecidableEq, Repr

/-- A telegram as it arrives: its bytes (R203), and item by item what the payload's bytes spell where the manual gives no layout. -/
structure Arrival where
  bytes    : List Byte
  contents : List Contents
deriving DecidableEq, Repr

/-! ### The commands -/

/-- One constructor for each row of spec/opcode_table.json. -/
inductive Instr where
  /-- POWER_ON (R172): power is applied. -/
  | powerOn
  /-- RST_N (R172): the reset pin is driven low. -/
  | rstN
  /-- PORT_LINK_CHANGE (R173): the port's physical link is now up or down. -/
  | portLinkChange (port : RingPort) (up : Bool)
  /-- CYCLE_TELEGRAM (R174): a cycle telegram arrives at the port. -/
  | cycleTelegram (port : RingPort) (x : Arrival)
  /-- REPEAT_TELEGRAM (R174): a cycle telegram with the cycle number last seen arrives at the port. -/
  | repeatTelegram (port : RingPort) (x : Arrival)
  /-- MANAGEMENT_TELEGRAM (R175): a management telegram arrives at the port while the COMM_STATION pins read comm. -/
  | managementTelegram (port : RingPort) (comm : BitVec 6) (x : Arrival)
  /-- BAD_TELEGRAM (R173): bytes that are no well-formed telegram arrive at the port. -/
  | badTelegram (port : RingPort) (bytes : List Byte)
  /-- RING_LOST (R182): the ring-loss timer runs out. -/
  | ringLost
  /-- SWAP_TIMEOUT (R81): the swap timer runs out. -/
  | swapTimeout
  /-- SPLICE_TIMEOUT (R98): the splice timer of stand k + 1 runs out. -/
  | spliceTimeout (k : Fin 7)
  /-- FRESHNESS_LAPSE (R179): the freshness counter of the entry runs out. -/
  | freshnessLapse (entry : Fin 48)
  /-- SPEED_REQUEST_REFRESH (R19): the refresh counter runs out. -/
  | speedRequestRefresh
  /-- STACK_COMMAND_RESEND (R154): the resend count of a SENT head runs out. -/
  | stackCommandResend
  /-- SETTLE_END (R115): the settle timer of the channel runs out. -/
  | settleEnd (channel : Fin 16)
  | loadStation (q : Asker) (a : StationArgs)
  | loadSubscription (q : Asker) (a : SubscriptionArgs)
  | setLine (q : Asker) (a : LineArgs)
  | loadStand (q : Asker) (a : StandArgs)
  | loadPoint (q : Asker) (a : PointArgs)
  | loadChannel (q : Asker) (a : ChannelArgs)
  | loadScan (q : Asker) (channels : List Nat)
  | loadGrade (q : Asker) (a : GradeArgs)
  | loadOrder (q : Asker) (bytes : List Byte)
  | withdrawOrder (q : Asker) (slot : Nat)
  | queueAppend (q : Asker) (slot : Nat)
  | queueRemove (q : Asker) (position slot : Nat)
  | insertRush (q : Asker) (slot : Nat)
  | verifyOrder (q : Asker) (slot : Nat)
  | readOrder (q : Asker) (slot : Nat)
  | queueRead (q : Asker)
  | readStatus (q : Asker) (part : Option Section) (first : Nat)
  | readMap (q : Asker)
  | readStands (q : Asker)
  | readLog (q : Asker) (count : Nat)
  | logMode (q : Asker) (mode : Option LogMode) (empty : Bool)
  | startThreading (q : Asker)
  | startProduction (q : Asker)
  | halt (q : Asker)
  | lineReset (q : Asker)
  | manualSplice (q : Asker) (stand : Nat)
  | operatorCutout (q : Asker) (distance length : Int)
deriving DecidableEq, Repr

end Sys2Proof
end

