-- ==== Sys2Proof/Decode.lean ====
section
/-! DEFINITION. The commands that a word spells. No row of spec/opcode_table.json gives bits, so no word spells a command:
commands are events at the part's ports, pins and timers, and the byte layouts that telegrams do have (chapter 12) are read
in Sys2Proof/Machine/Layouts.lean. -/

namespace Sys2Proof

/-- The command of an opcode-table word: none, for every width and every word, because no row has bits. -/
def decodeTableWord (_nbits _w : Nat) : Option Instr := none

end Sys2Proof
end

