-- ==== Sys2Proof/Machine/Records.lean ====
section
/-! DEFINITION. The records that the part keeps, sends, logs and answers with: the types of State's parts, of outbound
items, of log records and of replies. -/

namespace Sys2Proof.Machine

/-! ### Speed-request reasons (R15, R16) -/

/-- The ten reasons, in the order of the table of R16. -/
inductive Reason where
  | threading | noOrder | spliceBand | slitterNotReady | gradeNotReady | stackerBehind | halt | fault
  | stoppedState | lineStatusStale
deriving DecidableEq, Repr

/-- A reason instance in the reason set, with the request it carries (R15, R16). -/
structure Raised where
  reason : Reason
  inst   : Nat
  req    : SpeedReq
deriving DecidableEq, Repr

/-- The cause field of a SPEED_REQUEST (R18). -/
inductive SpeedCause where
  | change | refresh
deriving DecidableEq, Repr

/-! ### The web map (R22 to R24) -/

/-- The mark kinds, in the order of R207. -/
inductive MarkKind where
  | boundary | splice | purge | offband | wrongPaper | wrongSlit | dwell | operator
deriving DecidableEq, Repr

/-- The claim kinds (R24). -/
inductive ClaimKind where
  | offband | wrongPaper | wrongSlit
deriving DecidableEq, Repr

/-- An open claim: kind, owner index and pinned end (R24). -/
structure Claim where
  kind   : ClaimKind
  owner  : Nat
  pinned : Int
deriving DecidableEq, Repr

/-- Why a splice is made (R22, R96). -/
inductive SpliceReason where
  | runout | grade | manual
deriving DecidableEq, Repr

/-- The cause of an OFFBAND mark (R22). -/
inductive OffbandCause where
  | deviation | stale
deriving DecidableEq, Repr

/-- The payload of a mark (R22). A BOUNDARY names the outgoing segment by its segment number. The paper code of a
SPLICE is none where the joint brought a reel the part does not know (R100). -/
inductive MarkPayload where
  | none
  | boundary (outgoing : Nat) (incoming : Option Nat) (flying : Bool) (preset : Nat)
  | splice (stand : Nat) (reason : SpliceReason) (paper : Option Nat)
  | offband (channel : Nat) (cause : OffbandCause)
  | wrongPaper (stand : Nat)
  | wrongSlit (station : Slitter)
  | operator (station : Nat)
deriving DecidableEq, Repr

/-- A mark on the web map (R22). -/
structure Mark where
  kind      : MarkKind
  seq       : Nat
  start     : Int
  closedEnd : Int
  claims    : List Claim
  lenient   : Bool
  source    : Block
  payload   : MarkPayload
deriving DecidableEq, Repr

/-- The role of a registered station distance (R31). -/
inductive StationRole where
  | lead (stand : Nat) | splicePoint (stand : Nat) | slitter | point (p : Nat)
deriving DecidableEq, Repr

/-! ### Orders and segments (R41 to R56) -/

/-- An order record (R41). -/
structure OrderRec where
  number   : Nat
  grade    : Nat
  length   : Nat
  cuts     : Nat
  overmake : Nat
  tracks   : List Track
  perStack : Nat
  quality  : Quality
deriving DecidableEq, Repr

/-- The slot states (R43). -/
inductive SlotState where
  | empty | loaded | queued | onWeb | suspended | complete | short
deriving DecidableEq, Repr

/-- A slot of the order table: state, record (none when EMPTY) and the counters of R42. balance is the surplus or
shortfall. -/
structure Slot where
  state         : SlotState
  order         : Option OrderRec
  goodPlanned   : Nat
  goodConfirmed : Nat
  waste         : Nat
  noted         : Nat
  inFlight      : Nat
  outstanding   : Nat
  balance       : Nat
deriving DecidableEq, Repr

/-- A segment (R56). num is the segment number, the model's own name for the segment that a BOUNDARY's payload and a
cut plan refer to. -/
structure Segment where
  num         : Nat
  order       : Option Nat
  target      : Nat
  goodPlanned : Nat
  opening     : Option Nat
  closing     : Option Nat
  planning    : Bool
deriving DecidableEq, Repr

/-- Where an order taken by selection came from (R55, R57). -/
inductive Origin where
  | rush | held | queue
deriving DecidableEq, Repr

/-- What the rush creation evaluation did (R195). -/
inductive RushOutcome where
  | waiting | opened | follows | suspended
deriving DecidableEq, Repr

/-! ### Slitter-scorers (R76 to R84) -/

/-- The tracked state of a slitter-scorer station (R76). -/
inductive SlitterState where
  | parked | presetting | ready (id : Nat) | working | fault | unknown
deriving DecidableEq, Repr

/-- A preset: an id and the setting it names (R75). -/
structure Preset where
  id      : Nat
  setting : Setting
deriving DecidableEq, Repr

/-- The status of a changeover record (R78). -/
inductive ChangeStatus where
  | waiting | presetSent | crossed | swapping
deriving DecidableEq, Repr

/-- A changeover record (R78). -/
structure ChangeRec where
  boundary : Nat
  preset   : Preset
  target   : Option Slitter
  zoneEnd  : Int
  status   : ChangeStatus
deriving DecidableEq, Repr

/-- The cause of R84 for which a WRONG_SLIT claim of a station is held: none, until the station works again or another
is engaged, or until the next confirmed swap. -/
inductive SlitCause where
  | none | untilWorking | untilSwap
deriving DecidableEq, Repr

/-! ### Reel stands (R87, R88) -/

/-- A stand's configuration, less its number (R87). -/
structure StandCfg where
  station : Nat
  dist    : Nat
  lead    : Nat
  joint   : Nat
  trig    : Nat
  stop    : Nat
  band    : Band
  timeout : Nat
deriving DecidableEq, Repr

/-- The splice state of a stand (R88). -/
inductive SpliceState where
  | running | due | splicing | fault
deriving DecidableEq, Repr

/-- A prepared spare reel with its R_spare (R88). -/
structure Spare where
  reel   : Reel
  remain : Nat
deriving DecidableEq, Repr

/-- The paper demand: a paper code with the boundary's sequence number, none for a demand from the splice point
(R94). -/
structure Demand where
  paper    : Nat
  boundary : Option Nat
deriving DecidableEq, Repr

/-- A stand record: configuration, and the runtime record of R88. timedOut says of a stand in FAULT that its splice timer ran
out, which R100 asks for. -/
structure Stand where
  cfg          : Option StandCfg
  running      : Option Reel
  remain       : Nat
  spare        : Option Spare
  splice       : SpliceState
  reason       : Option SpliceReason
  timer        : Nat
  manual       : Bool
  demand       : Option Demand
  need         : Nat
  claim        : Bool
  spareCleared : Bool
  staleNotice  : Bool
  timedOut     : Bool
deriving DecidableEq, Repr

/-- The result field of a SPLICE record (R99, R101). -/
inductive SpliceResult where
  | done | fault | timeout
deriving DecidableEq, Repr

/-- A condition of R96 that is not met: no fit spare, the band, the stand's earlier joint, the line state. -/
inductive WaitCond where
  | noFitSpare | band | joint | lineState
deriving DecidableEq, Repr

/-! ### Heat and glue (R107 to R120) -/

/-- A process point's record, less its number (R110). -/
structure PointCfg where
  station : Nat
  dist    : Nat
  kind    : PointKind
  column  : Nat
deriving DecidableEq, Repr

/-- The mode of a SETPOINT (R113). -/
inductive SetpointMode where
  | run | idle
deriving DecidableEq, Repr

/-- The grade, band and mode of the last SETPOINT queued for a point (R113). -/
structure LastSetpoint where
  grade : Nat
  band  : Band
  mode  : SetpointMode
deriving DecidableEq, Repr

/-- A process point: configuration, current grade (0: none) and last SETPOINT. -/
structure Point where
  cfg   : Option PointCfg
  grade : Nat
  last  : Option LastSetpoint
deriving DecidableEq, Repr

/-- A sensor channel's record, less its number (R116). -/
structure ChannelCfg where
  sub     : Nat
  point   : Nat
  mult    : Nat
  offset  : Int
  invert  : Bool
  confirm : Nat
  settle  : Nat
deriving DecidableEq, Repr

/-- A channel's latest reading (R117). -/
inductive Reading where
  | none | valid (raw : Nat) | invalid
deriving DecidableEq, Repr

/-- A channel's run state with what it holds (R120). -/
inductive RunState where
  | clear
  | suspect (failures : Nat) (moved : Nat)
  | opened (passes : Nat)
deriving DecidableEq, Repr

/-- A sensor channel: configuration, latest reading, stale flag, run state and settle timer. -/
structure Channel where
  cfg     : Option ChannelCfg
  reading : Reading
  stale   : Bool
  run     : RunState
  settle  : Nat
deriving DecidableEq, Repr

/-! ### Knife plans (R126) -/

/-- How a sheet is to be treated. -/
inductive Disposition where
  | good | waste
deriving DecidableEq, Repr

/-- The reasons of a plan, in the order of R126. -/
inductive PlanReason where
  | normal | splice | boundary | offband | wrongPaper | wrongSlit | dwell | operator | purge | overrun | thread
  | noOrder
deriving DecidableEq, Repr

/-- A cut plan (R126). segment is the number of the segment the plan was made for; diverted is the divert field
(LATE_MARK or none). -/
structure Plan where
  seq      : Nat
  stop     : Int
  length   : Int
  disp     : Disposition
  reason   : PlanReason
  order    : Option Nat
  segment  : Nat
  noted    : Bool
  diverted : Bool
  late     : Bool
deriving DecidableEq, Repr

/-- A plan withdrawn by the last CUT_PLAN_CLEAR: number, end and planned length (R140, R145). -/
structure Withdrawn where
  seq    : Nat
  stop   : Int
  length : Int
deriving DecidableEq, Repr

/-- The cause of a DIVERT (R144). -/
inductive DivertCause where
  | lateMark | miscut | withdrawn
deriving DecidableEq, Repr

/-- What a sheet of KNP is to be (R130 to R134), before it is sent. -/
structure Sheet where
  length : Int
  disp   : Disposition
  reason : PlanReason
  noted  : Bool
deriving DecidableEq, Repr

/-- What a confirmed plan comes to (R60, R138). -/
inductive CutOutcome where
  | good | goodNoted | diverted | miscut | waste
deriving DecidableEq, Repr

/-- The reason of a WASTE_CUT record (R138). -/
inductive WasteReason where
  | plan (r : PlanReason) | lateMark | miscut
deriving DecidableEq, Repr

/-! ### Stacks (R148 to R154) -/

/-- A slot's stack count and next stack ordinal (R148). -/
structure Pile where
  count : Nat
  next  : Nat
deriving DecidableEq, Repr

/-- A set-down (R149). -/
structure SetDown where
  slot    : Nat
  number  : Nat
  ordinal : Nat
  cuts    : Nat
  final   : Bool
deriving DecidableEq, Repr

/-- The head state of the set-down queue (R153, R154): the command number and the resend count, from which a SETTING head
counts no further. -/
inductive HeadState where
  | waiting
  | sent (command resend : Nat)
  | setting (command resend : Nat)
deriving DecidableEq, Repr

/-- The tracked stacker state (R152). -/
inductive StackerState where
  | ready | settingDown | busy | fault | unknown
deriving DecidableEq, Repr

/-! ### Faults and line status (R162, R168) -/

/-- The fault codes, in the order of the table of R168. -/
inductive FaultCode where
  | encoderLost | encoderReverse | ringLost | knifeLate | knifeSequence | runout | swapTimeout | slitterConflict
  | stackerOverrun | outboundJam
deriving DecidableEq, Repr

/-- A fault's detail: one number, or two of which the second may be none (R168). -/
inductive Detail where
  | one (n : Nat)
  | two (a : Nat) (b : Option Nat)
deriving DecidableEq, Repr

/-- A fault handed to Line State Control. -/
structure FaultReport where
  code   : FaultCode
  detail : Detail
deriving DecidableEq, Repr

/-- The fault latch when set (R168). -/
structure Latch where
  code   : FaultCode
  detail : Detail
  stamp  : Nat
deriving DecidableEq, Repr

/-- The tracked line status (R162). -/
inductive TrackedStatus where
  | running | stopped | unknown
deriving DecidableEq, Repr

/-- The cause of a change of line state (R161). -/
inductive StateCause where
  | statusStopped
  | request (code : Nat)
  | fault (code : FaultCode)
deriving DecidableEq, Repr

/-! ### The production log (R156) -/

/-- A log record's kind with its fields (R156). -/
inductive LogBody where
  | wasteCut (number : Nat) (reason : WasteReason) (length : Int)
  | divert (seq : Nat) (cause : DivertCause) (third : Int)
  | orderEnd (number : Nat) (complete : Bool) (balance : Nat)
  | splice (stand : Nat) (reason : Option SpliceReason) (result : SpliceResult)
  | swap (boundary : Nat) (station : Slitter) (preset : Nat)
  | band (old new : Band) (v : Nat)
  | fault (code : FaultCode) (following : Bool) (detail : Detail)
  | lineState (old new : LineState) (cause : StateCause)
  | markMerged (surviving new : Nat) (kind : MarkKind)
  | startRejected (slot number check : Nat)
  | encoderJump (delta : Int) (limit elapsed : Nat)
deriving DecidableEq, Repr

/-- A stored log record: log number, cycle stamp, kind and fields (R156). -/
structure LogRecord where
  number : Nat
  stamp  : Nat
  body   : LogBody
deriving DecidableEq, Repr

/-! ### Outbound items (R184) -/

/-- A NOTICE with what it carries. -/
inductive Notice where
  | encoderJump
  | startRejected
  | orderEnd (slot number : Nat) (complete : Bool) (good waste noted balance : Nat)
  | slitterFault (state : SlitterState)
  | slitterUnplanned
  | badReelData (stand : Nat)
  | reelChanged (stand old new : Nat)
  | diameterStale (stand : Nat)
  | spliceWaiting (stand : Nat) (causes : List SpliceReason) (unmet : List WaitCond)
  | spliceDone (stand : Nat) (reason : SpliceReason) (paper : Option Nat) (joint : Int)
  | spliceUnplanned (stand : Nat)
  | spliceFailed (stand : Nat) (reason : Option SpliceReason) (fault : Option Nat)
  | offbandOpened (channel point : Nat) (cause : OffbandCause) (value : Option Int) (setpoint tolerance : Int)
  | offbandClosed (channel point : Nat)
  | stackLost (number ordinal cuts : Nat)
  | stackerFault (command : Nat)
  | stackFinal (number ordinal cuts : Nat)
  | lineHeld (state : LineState)
  | faultLatched (code : FaultCode) (detail : Detail) (state : LineState)
  | portDown (port : RingPort)
  | portUp (port : RingPort)
  | badTelegram (cls length : Option Nat)
  | badRequest (requester code : Nat)
  | badItem (source : Nat) (kind : StationKind) (inst : Nat)
deriving DecidableEq, Repr

/-- The items the part sends (R184). A SLITTER_SWAP names its stations by their numbers, 0 for none (R81, R202). -/
inductive OutItem where
  | speedRequest (req : SpeedReq) (governing : Option (Reason × Nat)) (band : Band) (v : Nat) (cause : SpeedCause)
  | cutPlan (seq : Nat) (length : Int) (disp : Disposition) (reason : PlanReason) (number : Nat)
  | cutPlanClear
  | divert (seq : Nat) (cause : DivertCause)
  | slitterSwap (engage release preset boundary : Nat)
  | spliceGo (stand station : Nat) (reason : SpliceReason) (paper : Nat)
  | setpoint (point station : Nat) (kind : PointKind) (grade : Nat) (band : Band) (mode : SetpointMode)
      (entry : Option BandEntry)
  | slitterPreset (station : Slitter) (preset : Preset) (side : OriginSide)
  | stackCommand (station command number ordinal cuts : Nat) (final : Bool)
  | notice (n : Notice)
deriving DecidableEq, Repr

/-! ### Ring and routing (R173 to R182) -/

/-- The ring state (R182). -/
inductive RingState where
  | notHeard | up | lost
deriving DecidableEq, Repr

/-- A station table entry (R176). -/
structure StationEntry where
  code  : Nat
  role  : Role
  level : Nat
deriving DecidableEq, Repr

/-- A subscription's contents (R178). -/
structure SubCfg where
  source : Nat
  kind   : StationKind
  inst   : Nat
  owner  : Block
  index  : Nat
  reload : Nat
deriving DecidableEq, Repr

/-- A subscription entry with its freshness counter and state (R178, R179). -/
structure SubEntry where
  cfg     : Option SubCfg
  counter : Nat
  fresh   : Bool
deriving DecidableEq, Repr

/-- The line constants in force (R192). -/
structure LineConsts where
  nums : LineNumbers
  side : OriginSide
deriving DecidableEq, Repr

/-! ### Replies (R191) -/

/-- The reply codes; NONE, with which a request is sent, is no reply (R191, R202). -/
inductive ReplyCode where
  | ok | notAuthorised | unknownStation | badState | badSlot | slotInUse | badField | duplicate | full | empty | busy
  | badConfig | truncated
deriving DecidableEq, Repr

/-- Where a slot stands, for READ_ORDER (R48). -/
inductive Place where
  | queue (position : Nat) | held (depth : Nat) | rush | none
deriving DecidableEq, Repr

/-- The flags that READ_MAP gives a byte each (R207). -/
inductive MapFlag where
  | mapValid | purgeArmed | flying
deriving DecidableEq, Repr

/-- One whole field, or one whole entry, of a reply's data. A station that may be none stands by its number (R202). -/
inductive Datum where
  | number (v : Int)
  | rushOutcome (o : RushOutcome)
  | spliceState (s : SpliceState)
  | waitCond (c : WaitCond)
  | faultCode (c : Option FaultCode)
  | flag (b : Bool)
  | optional (v : Option Nat)
  | mode (m : LogMode)
  -- READ_ORDER and QUEUE_READ
  | slotState (s : SlotState)
  | order (r : OrderRec)
  | counters (goodPlanned goodConfirmed waste noted inFlight outstanding : Nat)
  | balance (surplus : Bool) (n : Nat)
  | place (p : Place)
  | positions (l : List Nat)
  | pile (p : Pile)
  | queued (slot number : Nat)
  | heldOrder (slot number : Nat)
  | rushOrder (r : Option (Nat × Nat))
  | segment (order : Option (Nat × Nat)) (target goodPlanned : Nat) (planning : Bool)
  -- READ_STATUS
  | statusOf (s : Section)
  | next (entry : Option Nat)
  | lineFixed (state : LineState) (latch : Option Latch) (seen : List FaultCode) (status : TrackedStatus)
      (staleHeld : Bool) (threading purge : Nat) (mapValid : Bool) (req : SpeedReq)
      (governing : Option (Reason × Nat)) (band : Band) (v : Nat)
  | side (s : OriginSide)
  | changeFixed (stateA stateB : SlitterState) (engaged : Nat) (heldA heldB : Option Nat)
      (expectedKnown : Bool) (forecast : Option Nat) (blocked : Bool) (timer : Nat) (projection : Option Int)
  | changeRec (boundary preset target : Nat) (status : ChangeStatus) (zoneEnd : Int)
  | heatFixed (scan : List Nat) (position : Nat)
  | point (p : Nat) (configured : Bool) (grade : Nat) (last : Option LastSetpoint)
  | channel (c : Nat) (configured stale : Bool) (reading : Reading) (value : Option Int) (run : RunState)
      (settle : Nat)
  | knifeFixed (front cutEdge : Int) (counter : Nat) (noOrderHeld : Bool)
  | plan (seq : Nat) (stop length : Int) (disp : Disposition) (reason : PlanReason) (number : Nat)
      (noted diverted late : Bool)
  | withdrawn (w : Withdrawn)
  | stackFixed (state : StackerState) (tracked counter : Nat) (behind : Bool)
  | setDown (number ordinal cuts : Nat) (final : Bool) (head : Option HeadState)
  | logFixed (records : Nat) (mode : LogMode) (full : Bool) (counter : Nat)
  | ringFixed (portA portB : Bool) (ring : RingState) (cycle : Option Nat) (urgent routine : Nat) (overflow : Bool)
  | sub (entry : Nat) (e : SubEntry)
  -- READ_MAP, READ_STANDS and READ_LOG
  | mapFixed (valid armed : Bool) (structural defects nextSeq returned : Nat)
  | mark (m : Mark) (outgoing : Nat)
  | stand (k : Nat) (s : Stand) (diameterStale : Bool)
  | logHead (mode : LogMode) (full : Bool) (left : Nat)
  | record (r : LogRecord)
deriving DecidableEq, Repr

/-- A reply: the reply header and the reply data written behind it (R191, R204). -/
structure Reply where
  code   : ReplyCode
  index  : Nat
  detail : Nat
  data   : List Datum
deriving DecidableEq, Repr

/-! ### Telegrams as they are read, and what leaves the part -/

/-- What a REQUEST item asks for: the request that its code picks from the table of R190, with the arguments, or a code that
the table does not have (R204). -/
inductive Asked where
  | known (r : Request) | unknown (code : Nat)
deriving DecidableEq, Repr

/-- A REQUEST item's payload as read (R204). argLength is the argument length field; the reply space is what the payload
holds behind the arguments; replyCode is the reply code as it arrives, NONE being 0. -/
structure RequestItem where
  dest      : Nat
  argLength : Nat
  present   : Nat
  replyCode : Nat
  asked     : Asked
deriving DecidableEq, Repr

/-- An item's payload as read by its kind code. illFormed stands for a station item whose payload is shorter than its kind's
fixed part or holds an enumeration value beyond its list (R208); other for an item of a kind that the part takes nothing from. -/
inductive Payload where
  | report (r : Report)
  | spliceDone (counts : Nat)
  | cutDone (seq actual : Nat)
  | illFormed (kind : StationKind)
  | request (r : RequestItem)
  | other (code : Nat)
deriving DecidableEq, Repr

/-- An item as read: its header (R203) with the payload length, and its payload. -/
structure Item where
  source  : Nat
  inst    : Nat
  length  : Nat
  payload : Payload
deriving DecidableEq, Repr

/-- A well-formed telegram as read: its bytes, its header's origin station, cycle number and total length, and its items
(R203). -/
structure Telegram where
  bytes  : List Byte
  origin : Nat
  cycle  : Nat
  total  : Nat
  items  : List Item
deriving DecidableEq, Repr

/-- The bytes of a telegram that left, and the port it left by (R173). -/
structure Passage where
  port  : RingPort
  bytes : List Byte
deriving DecidableEq, Repr

/-! ### Orders of events that the manual leaves open -/

/-- The orders between events of one telegram, or of one start, that the manual leaves open, as one choice
(assumption 3). lapsesLast: stale reports of the telegram come after the telegram's other events (R118);
itemsBeforeAdvance: station items other than FEED_COUNT are taken before the advance (R62, R141); timersBeforeItems:
the swap and splice timers that have reached 0 run out before the telegram's station items are taken (R81, R98);
evalBeforeAdvance: the scan evaluation comes before the advance (R120); spliceBeforeMap: the Splice Planner judges its
stands before the advance's reports and retirements (R96); planBeforePurge: at a start the knife plans before the purge
is on the map (R129); appendAt: after how many of the ring cycle's events RIF appends (R184). -/
structure EventOrder where
  lapsesLast         : Bool
  itemsBeforeAdvance : Bool
  timersBeforeItems  : Bool
  evalBeforeAdvance  : Bool
  spliceBeforeMap    : Bool
  planBeforePurge    : Bool
  appendAt           : Nat
deriving DecidableEq, Repr, Inhabited

end Sys2Proof.Machine
end

