-- ==== Sys2Proof/Config.lean ====
section
/-! DEFINITION. The free values: what the manual leaves open, as constants without a body, of which nothing can be
proved but what holds for every value. -/

namespace Sys2Proof.Config

open Sys2Proof.Machine

/-- DESIGN CHOICE (assumption 3, safe): the order of the events the manual leaves unordered, for the n-th use. -/
opaque order : Nat → EventOrder

/-- DESIGN CHOICE (assumption 4, safe): the payload bytes of an outbound item whose layout the manual does not give (all
but CUT_PLAN and SLITTER_PRESET, R205). -/
opaque payloadBytes : OutItem → List Byte

/-- DESIGN CHOICE (assumption 5, safe): the bytes of a whole field or entry of reply data whose layout the manual does not
give (all but READ_MAP's, R207). -/
opaque datumBytes : Datum → List Byte

/-- DESIGN CHOICE (assumption 6, safe): what waste confirmed holds after a count taken at its ceiling of 4,294,967,295
(R42 gives the range and no rule there). -/
opaque wastePastCeiling : Nat

/-- DESIGN CHOICE (assumption 7, safe): the number that stands in a WASTE_CUT record for LATE_MARK and MISCUT, which no
list of the manual places (R138, R202). -/
opaque wasteReasonCode : WasteReason → Nat

/-- DESIGN CHOICE (assumption 65, safe): what a signed field of n bytes in READ_MAP holds for a value outside its range (R207 gives
the range and no rule there). -/
opaque outsideField (n : Nat) : Int → BitVec (8 * n)

/-- DESIGN CHOICE (assumption 70, safe): the byte of READ_MAP that stands for a flag, set or clear (R207 gives each flag a byte and
no value). -/
opaque flagByte : MapFlag → Bool → Byte

end Sys2Proof.Config
end

