-- ==== Sys2Proof/Machine/Codes.lean ====
section
/-! DEFINITION. The numbers that stand for the manual's names in telegrams, replies and log records (R202, R203,
R204): an enumeration carries the position of its value in the list where the manual first gives it. Where a payload's layout
is a free value (assumptions 4 and 5), these are the numbers its enumerated fields carry. -/

namespace Sys2Proof.Machine

/-- CRAWL 0 to HIGH 3. -/
def bandCode : Band → Nat
  | .crawl => 0 | .low => 1 | .mid => 2 | .high => 3

/-- NO_LIMIT 0 to STOP 4: the order "most restrictive" refers to. -/
def speedReqCode : SpeedReq → Nat
  | .noLimit => 0 | .limitMid => 1 | .limitLow => 2 | .limitCrawl => 3 | .stop => 4

/-- STOPPED 0 to FAULTED 4, as R202 says. -/
def lineStateCode : LineState → Nat
  | .stopped => 0 | .threading => 1 | .producing => 2 | .halting => 3 | .faulted => 4

/-- The place of a reason in the table of R16. -/
def reasonCode : Reason → Nat
  | .threading => 0 | .noOrder => 1 | .spliceBand => 2 | .slitterNotReady => 3 | .gradeNotReady => 4
  | .stackerBehind => 5 | .halt => 6 | .fault => 7 | .stoppedState => 8 | .lineStatusStale => 9

/-- A 1 and B 2 (R202). -/
def slitterCode : Slitter → Nat
  | .a => 1 | .b => 2

/-- The number of a station that may be none, 0 (R202). -/
def stationNumber (st : Option Slitter) : Nat := (st.map slitterCode).getD 0

/-- The place of a fault code in the table of R168. -/
def faultNumber : FaultCode → Nat
  | .encoderLost => 0 | .encoderReverse => 1 | .ringLost => 2 | .knifeLate => 3 | .knifeSequence => 4 | .runout => 5
  | .swapTimeout => 6 | .slitterConflict => 7 | .stackerOverrun => 8 | .outboundJam => 9

/-- Reply codes from OK 1 to TRUNCATED 13; a request is sent with NONE 0 (R202). -/
def replyNumber : ReplyCode → Nat
  | .ok => 1 | .notAuthorised => 2 | .unknownStation => 3 | .badState => 4 | .badSlot => 5 | .slotInUse => 6
  | .badField => 7 | .duplicate => 8 | .full => 9 | .empty => 10 | .busy => 11 | .badConfig => 12 | .truncated => 13

/-- GOOD 0, WASTE 1. -/
def dispositionCode : Disposition → Nat
  | .good => 0 | .waste => 1

/-- The place of a plan's reason in the list of R126. -/
def planReasonCode : PlanReason → Nat
  | .normal => 0 | .splice => 1 | .boundary => 2 | .offband => 3 | .wrongPaper => 4 | .wrongSlit => 5 | .dwell => 6
  | .operator => 7 | .purge => 8 | .overrun => 9 | .thread => 10 | .noOrder => 11

/-- LATE_MARK 0, MISCUT 1, WITHDRAWN 2 (R144). -/
def divertCode : DivertCause → Nat
  | .lateMark => 0 | .miscut => 1 | .withdrawn => 2

/-- The mark kinds in the order of R207. -/
def markKindCode : MarkKind → Nat
  | .boundary => 0 | .splice => 1 | .purge => 2 | .offband => 3 | .wrongPaper => 4 | .wrongSlit => 5 | .dwell => 6
  | .operator => 7

/-- OFFBAND 0, WRONG_PAPER 1, WRONG_SLIT 2 (R24). -/
def claimKindCode : ClaimKind → Nat
  | .offband => 0 | .wrongPaper => 1 | .wrongSlit => 2

/-- The block that created a mark, by its place in the list of R22; the other blocks create none and have no place. -/
def sourceCode : Block → Nat
  | .osq => 0 | .spl => 1 | .hgr => 2 | .chg => 3 | .lsc => 4 | .mgr => 5
  | .rif => 0 | .irt => 0 | .wtr => 0 | .wmp => 0 | .knp => 0 | .stk => 0 | .plg => 0

/-- RUNOUT 0, GRADE 1, MANUAL 2 (R22). -/
def spliceReasonCode : SpliceReason → Nat
  | .runout => 0 | .grade => 1 | .manual => 2

/-- DEVIATION 0, STALE 1 (R22). -/
def offbandCauseCode : OffbandCause → Nat
  | .deviation => 0 | .stale => 1

/-- DONE 0, FAULT 1, TIMEOUT 2 (R156). -/
def spliceResultCode : SpliceResult → Nat
  | .done => 0 | .fault => 1 | .timeout => 2

/-- OPERATOR 0, DRIVE 1. -/
def sideCode : OriginSide → Nat
  | .operator => 0 | .drive => 1

/-! ### Further enumerations (R202)

The number of a READY, SENT or SUSPECT does not depend on what is held with it. The manual lists the kinds of a NOTICE
nowhere, so a notice's kind has no position (assumption 4). -/

/-- LINE_MASTER 0 to SELF 5 (R176). -/
def roleCode : Role → Nat
  | .lineMaster => 0 | .processStation => 1 | .scheduler => 2 | .supervisor => 3 | .panel => 4 | .own => 5

/-- The place of a block in the overview's table, RIF 0 to MGR 12. -/
def blockCode : Block → Nat
  | .rif => 0 | .irt => 1 | .wtr => 2 | .wmp => 3 | .osq => 4 | .chg => 5 | .spl => 6 | .hgr => 7 | .knp => 8 | .stk => 9
  | .plg => 10 | .lsc => 11 | .mgr => 12

/-- STRICT 0, LENIENT 1 (R41). -/
def qualityCode : Quality → Nat
  | .strict => 0 | .lenient => 1

/-- EMPTY 0 to SHORT 6 (R42). -/
def slotStateCode : SlotState → Nat
  | .empty => 0 | .loaded => 1 | .queued => 2 | .onWeb => 3 | .suspended => 4 | .complete => 5 | .short => 6

/-- WAITING 0, OPENED 1, FOLLOWS 2, SUSPENDED 3 (R195). -/
def rushOutcomeCode : RushOutcome → Nat
  | .waiting => 0 | .opened => 1 | .follows => 2 | .suspended => 3

/-- PARKED 0 to UNKNOWN 5 (R76). -/
def slitterStateCode : SlitterState → Nat
  | .parked => 0 | .presetting => 1 | .ready _ => 2 | .working => 3 | .fault => 4 | .unknown => 5

/-- WAITING 0, PRESET_SENT 1, CROSSED 2, SWAPPING 3 (R78). -/
def changeStatusCode : ChangeStatus → Nat
  | .waiting => 0 | .presetSent => 1 | .crossed => 2 | .swapping => 3

/-- RUNNING 0, DUE 1, SPLICING 2, FAULT 3 (R88). -/
def spliceStateCode : SpliceState → Nat
  | .running => 0 | .due => 1 | .splicing => 2 | .fault => 3

/-- NONE 0, PREPARING 1, PREPARED 2: the spare state of a SPARE_STATE item (chapter 5). -/
def spareReportCode : SpareReport → Nat
  | .absent => 0 | .preparing => 1 | .prepared _ => 2

/-- The place of a condition in the list of R96. -/
def waitCondCode : WaitCond → Nat
  | .noFitSpare => 0 | .band => 1 | .joint => 2 | .lineState => 3

/-- PREHEAT_WRAP 0, GLUE_GAP 1, PLATE_TEMP 2 (R110). -/
def pointKindCode : PointKind → Nat
  | .preheatWrap => 0 | .glueGap => 1 | .plateTemp => 2

/-- RUN 0, IDLE 1: the mode of a SETPOINT (R113). -/
def setpointModeCode : SetpointMode → Nat
  | .run => 0 | .idle => 1

/-- CLEAR 0, SUSPECT 1, OPEN 2 (R120). -/
def runStateCode : RunState → Nat
  | .clear => 0 | .suspect _ _ => 1 | .opened _ => 2

/-- READY 0 to UNKNOWN 4 (R152). -/
def stackerStateCode : StackerState → Nat
  | .ready => 0 | .settingDown => 1 | .busy => 2 | .fault => 3 | .unknown => 4

/-- WAITING 0, SENT 1, SETTING 2 (R153). -/
def headStateCode : HeadState → Nat
  | .waiting => 0 | .sent _ _ => 1 | .setting _ _ => 2

/-- WRAP 0, HALT 1 (R157). -/
def logModeCode : LogMode → Nat
  | .wrap => 0 | .halt => 1

/-- The place of a record's kind in the table of R156. -/
def logKindCode : LogBody → Nat
  | .wasteCut .. => 0 | .divert .. => 1 | .orderEnd .. => 2 | .splice .. => 3 | .swap .. => 4 | .band .. => 5
  | .fault .. => 6 | .lineState .. => 7 | .markMerged .. => 8 | .startRejected .. => 9 | .encoderJump .. => 10

/-- RUNNING 0, STOPPED 1, UNKNOWN 2: the tracked line status, and the status of a LINE_STATUS item (chapter 9). -/
def trackedStatusCode : TrackedStatus → Nat
  | .running => 0 | .stopped => 1 | .unknown => 2

/-- CHANGE 0, REFRESH 1: the cause of a SPEED_REQUEST (R18). -/
def speedCauseCode : SpeedCause → Nat
  | .change => 0 | .refresh => 1

/-- UP 0, DOWN 1: the state of a port (chapter 10). -/
def portStateCode (up : Bool) : Nat := if up then 0 else 1

/-- NOT_HEARD 0, UP 1, LOST 2 (R182). -/
def ringStateCode : RingState → Nat
  | .notHeard => 0 | .up => 1 | .lost => 2

/-- FRESH 0, STALE 1 (R179). -/
def freshnessCode (fresh : Bool) : Nat := if fresh then 0 else 1

/-- LINE 0 to RING 7: the sections of READ_STATUS (R197). -/
def sectionCode : Section → Nat
  | .line => 0 | .constants => 1 | .changeover => 2 | .heat => 3 | .knife => 4 | .stacker => 5 | .log => 6 | .ring => 7

/-! ### Items, requests and log records -/

/-- The item kind codes of R203 for station items. -/
def stationKindCode : StationKind → Nat
  | .feedCount => 1 | .lineStatus => 2 | .reelDiameter => 16 | .spareState => 17 | .spliceDone => 18
  | .spliceFault => 19 | .zoneValue => 32 | .slitterState => 48 | .cutDone => 64 | .stackState => 80

/-- The station item kinds, in the order of the table of R203. -/
def stationKinds : List StationKind :=
  [.feedCount, .lineStatus, .reelDiameter, .spareState, .spliceDone, .spliceFault, .zoneValue, .slitterState, .cutDone,
   .stackState]

/-- The station item kind that an item kind code names, if it names one (R203). -/
def kindOfCode (code : Nat) : Option StationKind := stationKinds.find? fun k => stationKindCode k == code

/-- The item kind code of a REQUEST item (R203). -/
def requestKindCode : Nat := 112

/-- The item kind codes of R203 for the items the part sends. -/
def outKindCode : OutItem → Nat
  | .speedRequest .. => 128 | .cutPlan .. => 129 | .cutPlanClear => 130 | .divert .. => 131 | .slitterSwap .. => 132
  | .spliceGo .. => 133 | .setpoint .. => 144 | .slitterPreset .. => 145 | .stackCommand .. => 146 | .notice .. => 147

/-- The header's instance byte of an item the part appends (R203). DESIGN CHOICE (assumption 53): a SLITTER_SWAP's names the
station to engage. -/
def outInst : OutItem → Nat
  | .setpoint p .. => p
  | .slitterPreset st .. => slitterCode st
  | .slitterSwap engage .. => engage
  | .spliceGo k .. => k
  | .speedRequest .. => 0 | .cutPlan .. => 0 | .cutPlanClear => 0 | .divert .. => 0 | .stackCommand .. => 0
  | .notice .. => 0

/-- The request code of R204: the place of the request in the table of R190, from LOAD_STATION 1 to
OPERATOR_CUTOUT 27. -/
def requestCode : Request → Nat
  | .loadStation _ => 1 | .loadSubscription _ => 2 | .setLine _ => 3 | .loadStand _ => 4 | .loadPoint _ => 5
  | .loadChannel _ => 6 | .loadScan _ => 7 | .loadGrade _ => 8 | .loadOrder _ => 9 | .withdrawOrder _ => 10
  | .queueAppend _ => 11 | .queueRemove _ _ => 12 | .insertRush _ => 13 | .verifyOrder _ => 14 | .readOrder _ => 15
  | .queueRead => 16 | .readStatus _ _ => 17 | .readMap => 18 | .readStands => 19 | .readLog _ => 20
  | .logMode _ _ => 21 | .startThreading => 22 | .startProduction => 23 | .halt => 24 | .lineReset => 25
  | .manualSplice _ => 26 | .operatorCutout _ _ => 27

/-- The requests that have no arguments (R190, R195 to R198). -/
def bareRequests : List Request :=
  [.queueRead, .readMap, .readStands, .startThreading, .startProduction, .halt, .lineReset]

/-- The request code of an item: that of the request it asks for, or the one that the table does not have (R204). -/
def askedCode : Asked → Nat
  | .known r => requestCode r
  | .unknown code => code

/-- The number in a WASTE_CUT record: a plan's reason by its place, the two others by a free value. -/
def wasteCode : WasteReason → Nat
  | .plan r => planReasonCode r
  | .lateMark => Config.wasteReasonCode .lateMark
  | .miscut => Config.wasteReasonCode .miscut

/-- The cause field of a LINE_STATE record: 0, the request code, or 256 plus the fault code (R161). -/
def stateCauseCode : StateCause → Nat
  | .statusStopped => 0
  | .request c => c
  | .fault c => 256 + faultNumber c

/-- The second and third field of a FAULT record (R168). -/
def detailFields : Detail → Nat × Nat
  | .one n => (n, 0)
  | .two a (some b) => (a, b)
  | .two a none => (a, 65536)

/-- The three fields of a log record as the record holds them (R156). -/
def logFields : LogBody → Int × Int × Int
  | .wasteCut n r l => (n, wasteCode r, l)
  | .divert q c x => (q, divertCode c, x)
  | .orderEnd n c b => (n, if c then 0 else 1, b)
  | .splice k r x => (k, (r.map spliceReasonCode).getD 3, spliceResultCode x)
  | .swap q st i => (q, slitterCode st, i)
  | .band o n v => (bandCode o, bandCode n, v)
  | .fault c following d =>
    (if following then 256 + faultNumber c else faultNumber c, (detailFields d).1, (detailFields d).2)
  | .lineState o n c => (lineStateCode o, lineStateCode n, stateCauseCode c)
  | .markMerged a b k => (a, b, markKindCode k)
  | .startRejected i n c => (i, n, c)
  | .encoderJump d l e => (d, l, e)

end Sys2Proof.Machine
end

