-- ==== Sys2Proof/Machine/State.lean ====
section
/-! DEFINITION. The state of the part, block by block, and its value after a power-on reset; the faults and refusals of
a step. -/

namespace Sys2Proof.Machine

/-- The reasons a step can stop the machine with a fault. There are none: a fault of the LINE is latched in State by
Line State Control (R168) and the part goes on. Safe. -/
inductive Fault where
deriving DecidableEq, Repr

/-- The reasons a step can be refused. -/
inductive Refusal where
  /-- Raised by exec's arm of a command that has no meaning yet; no arm raises it. Safe. -/
  | notModelled (mnemonic : String)
deriving DecidableEq, Repr

/-- The Web Tracker (chapter 1, R1 to R21). -/
structure Wtr where
  lastCount  : FeedCount
  firstCount : Bool
  elapsed    : Nat
  remainder  : Nat
  debt       : Nat
  history    : List Nat
  fill       : Nat
  speedSum   : Nat
  band       : Band
  reasons    : List Raised
  request    : SpeedReq
  governing  : Option (Reason × Nat)
  refresh    : Nat
deriving DecidableEq, Repr

/-- The Web Map (chapter 2). -/
structure Wmp where
  marks   : List Mark
  valid   : Bool
  armed   : Bool
  nextSeq : Nat
deriving DecidableEq, Repr

/-- The Order Sequencer (chapter 3). nextNum is the number the next segment takes. -/
structure Osq where
  slots     : Vector Slot 64
  queue     : List Nat
  held      : List Nat
  rush      : Option Nat
  segments  : List Segment
  candidate : Option Nat
  nextNum   : Nat
deriving DecidableEq, Repr

/-- The Changeover Unit (chapter 4). sent lists the presets sent to each station, newest first; changeover is the
station that owns the changeover claim while CHG holds one (R80). -/
structure Chg where
  stateA     : SlitterState
  stateB     : SlitterState
  engaged    : Option Slitter
  heldA      : Option Preset
  heldB      : Option Preset
  sent       : List (Slitter × Preset)
  expected   : Option Setting
  idCounter  : Nat
  forecast   : Option (Slitter × Preset)
  records    : List ChangeRec
  timer      : Nat
  blocked    : Bool
  changeover : Option Slitter
  causeA     : SlitCause
  causeB     : SlitCause
deriving DecidableEq, Repr

/-- The Splice Planner (chapter 5): stand records 1..7 at positions 0..6. -/
structure Spl where
  stands : Vector Stand 7
deriving DecidableEq, Repr

/-- The Heat and Glue Regulator (chapter 6): grades 1..24 at positions 0..23. -/
structure Hgr where
  grades   : Vector (Option Grade) 24
  points   : Vector Point 12
  channels : Vector Channel 16
  scan     : List Nat
  position : Nat
deriving DecidableEq, Repr

/-- The Knife Planner (chapter 7). planSent says that a plan has been sent since power-on or RST_N (R140). -/
structure Knp where
  plans     : List Plan
  counter   : Nat
  cutEdge   : Int
  front     : Int
  withdrawn : List Withdrawn
  planSent  : Bool
deriving DecidableEq, Repr

/-- The Stacker Link (chapter 8). -/
structure Stk where
  piles    : Vector Pile 64
  queue    : List SetDown
  head     : HeadState
  overflow : Option SetDown
  state    : StackerState
  tracked  : Nat
  counter  : Nat
deriving DecidableEq, Repr

/-- The Production Log (chapter 8). -/
structure Plg where
  records : List LogRecord
  mode    : LogMode
  full    : Bool
  counter : Nat
deriving DecidableEq, Repr

/-- Line State Control (chapter 9). -/
structure Lsc where
  state     : LineState
  latch     : Option Latch
  seen      : List FaultCode
  status    : TrackedStatus
  held      : Bool
  threading : Nat
  purge     : Nat
deriving DecidableEq, Repr

/-- The Ring Interface (chapter 10). timer is none while the ring-loss timer is stopped, and otherwise the timeout it
was last restarted at. -/
structure Rif where
  portA    : Bool
  portB    : Bool
  ring     : RingState
  cycle    : Option Nat
  timer    : Option Nat
  urgent   : List OutItem
  routine  : List OutItem
  overflow : Option OutItem
deriving DecidableEq, Repr

/-- The Item Router (chapter 10). -/
structure Irt where
  stations : Vector (Option StationEntry) 32
  subs     : Vector SubEntry 48
deriving DecidableEq, Repr

/-- The state of the part. line holds the line constants; commStation and lineStop are the COMM_STATION input and the
LINE_STOP output. The model's own fields: handed (faults handed and not yet taken by Line State Control, empty between
commands), choices (how many free orders of events have been used), passed and reply (what last left the part, and the
last reply written), pending (the commands that wait). -/
structure State where
  line        : LineConsts
  wtr         : Wtr
  wmp         : Wmp
  osq         : Osq
  chg         : Chg
  spl         : Spl
  hgr         : Hgr
  knp         : Knp
  stk         : Stk
  plg         : Plg
  lsc         : Lsc
  rif         : Rif
  irt         : Irt
  commStation : BitVec 6
  lineStop    : Bool
  handed      : List FaultReport
  choices     : Nat
  passed      : Option Passage
  reply       : Option Reply
  pending     : List Instr
deriving DecidableEq, Repr

/-! ### Values after reset -/

/-- The default line constants (R192). -/
def LineConsts.default : LineConsts where
  nums :=
    { feedScale := 65536, jumpLimit := 600, uLow := 240, uMid := 560, uHigh := 880, dLow := 200, dMid := 520,
      dHigh := 840, dCreate := 600000, zSwap := 3000, dSs := 0, swapTimeout := 2000, webWidth := 25000, gOff := 1000,
      wMin := 4000, wMax := 20000, miscut := 30, lateLimit := 500, dwellNear := 0, dwellFar := 0, ringTimeout := 5000 }
  side := .operator

/-- STOPPED_STATE as it stands in the reason set (R16). -/
def Raised.stoppedState : Raised := { reason := .stoppedState, inst := 0, req := .stop }

/-- The Web Tracker after power-on and RST_N (R9, R14, R19, R21). -/
def Wtr.reset : Wtr where
  lastCount := 0
  firstCount := true
  elapsed := 0
  remainder := 0
  debt := 0
  history := List.replicate 16 0
  fill := 0
  speedSum := 0
  band := .crawl
  reasons := [Raised.stoppedState]
  request := .stop
  governing := some (.stoppedState, 0)
  refresh := 0

/-- The Web Map after power-on and RST_N (R40). -/
def Wmp.reset : Wmp where
  marks := []
  valid := false
  armed := false
  nextSeq := 0

/-- An EMPTY slot (R42). -/
def Slot.blank : Slot where
  state := .empty
  order := none
  goodPlanned := 0
  goodConfirmed := 0
  waste := 0
  noted := 0
  inFlight := 0
  outstanding := 0
  balance := 0

/-- The Order Sequencer after power-on and RST_N (R56, R64). -/
def Osq.reset : Osq where
  slots := Vector.replicate 64 Slot.blank
  queue := []
  held := []
  rush := none
  segments :=
    [{ num := 0, order := none, target := 0, goodPlanned := 0, opening := none, closing := none, planning := true }]
  candidate := none
  nextNum := 1

/-- The Changeover Unit after power-on and RST_N (R85). -/
def Chg.reset : Chg where
  stateA := .unknown
  stateB := .unknown
  engaged := none
  heldA := none
  heldB := none
  sent := []
  expected := none
  idCounter := 0
  forecast := none
  records := []
  timer := 0
  blocked := false
  changeover := none
  causeA := .none
  causeB := .none

/-- A stand record with the given configuration and a cleared runtime record (R88, R106). -/
def Stand.cleared (cfg : Option StandCfg) : Stand where
  cfg := cfg
  running := none
  remain := 0
  spare := none
  splice := .running
  reason := none
  timer := 0
  manual := false
  demand := none
  need := 0
  claim := false
  spareCleared := false
  staleNotice := false
  timedOut := false

/-- The Splice Planner after power-on (R106). -/
def Spl.reset : Spl where
  stands := Vector.replicate 7 (Stand.cleared none)

/-- A process point with the given configuration at grade 0, with no SETPOINT sent (R125). -/
def Point.cleared (cfg : Option PointCfg) : Point := { cfg := cfg, grade := 0, last := none }

/-- A channel with the given configuration as after power-on and RST_N (R125). -/
def Channel.cleared (cfg : Option ChannelCfg) : Channel :=
  { cfg := cfg, reading := .none, stale := true, run := .clear, settle := 0 }

/-- The Heat and Glue Regulator after power-on (R125). -/
def Hgr.reset : Hgr where
  grades := Vector.replicate 24 none
  points := Vector.replicate 12 (Point.cleared none)
  channels := Vector.replicate 16 (Channel.cleared none)
  scan := []
  position := 0

/-- The Knife Planner after power-on and RST_N (R147). -/
def Knp.reset : Knp where
  plans := []
  counter := 0
  cutEdge := 0
  front := 0
  withdrawn := []
  planSent := false

/-- The Stacker Link after power-on and RST_N (R148, R155). -/
def Stk.reset : Stk where
  piles := Vector.replicate 64 { count := 0, next := 1 }
  queue := []
  head := .waiting
  overflow := none
  state := .unknown
  tracked := 0
  counter := 0

/-- The Production Log after power-on (R160). -/
def Plg.reset : Plg where
  records := []
  mode := .wrap
  full := false
  counter := 0

/-- Line State Control after power-on and RST_N (R172). -/
def Lsc.reset : Lsc where
  state := .stopped
  latch := none
  seen := []
  status := .unknown
  held := false
  threading := 0
  purge := 0

/-- The Ring Interface after power-on and RST_N (R187). -/
def Rif.reset : Rif where
  portA := false
  portB := false
  ring := .notHeard
  cycle := none
  timer := none
  urgent := []
  routine := []
  overflow := none

/-- A subscription entry with the given contents as after power-on and RST_N (R179). -/
def SubEntry.cleared (cfg : Option SubCfg) : SubEntry := { cfg := cfg, counter := 0, fresh := false }

/-- The Item Router after power-on (R187). -/
def Irt.reset : Irt where
  stations := Vector.replicate 32 none
  subs := Vector.replicate 48 (SubEntry.cleared none)

/-- The part right after a power-on reset: every block at its power-on values, the line STOPPED, LINE_STOP asserted.
DESIGN CHOICE (assumption 8, unsafe): the COMM_STATION pins read 0, which names no station, until a command brings what
they read; the model's own fields are empty or 0. -/
def State.reset : State where
  line := LineConsts.default
  wtr := Wtr.reset
  wmp := Wmp.reset
  osq := Osq.reset
  chg := Chg.reset
  spl := Spl.reset
  hgr := Hgr.reset
  knp := Knp.reset
  stk := Stk.reset
  plg := Plg.reset
  lsc := Lsc.reset
  rif := Rif.reset
  irt := Irt.reset
  commStation := 0
  lineStop := true
  handed := []
  choices := 0
  passed := none
  reply := none
  pending := []

end Sys2Proof.Machine
end

