-- ==== Sys2Proof/Machine/Ops.lean ====
section
/-! DEFINITION. The operations that every block uses: table access, the production log, faults handed over, the two
outbound queues, notices, and the reason set with SPEED_REQUEST and LINE_STOP. -/

namespace Sys2Proof.Machine

/-! ### Access to tables and to the blocks' parts of State -/

/-- The entry of a table with a new value; a place outside the table changes nothing. -/
def put {α : Type} {n : Nat} (v : Vector α n) (i : Nat) (x : α) : Vector α n := v.setIfInBounds i x

/-- Apply a function to the entry at a place. -/
def modify {α : Type} {n : Nat} (v : Vector α n) (i : Nat) (f : α → α) : Vector α n :=
  match v[i]? with
  | some x => put v i (f x)
  | none => v

def State.onWtr (s : State) (f : Wtr → Wtr) : State := { s with wtr := f s.wtr }
def State.onWmp (s : State) (f : Wmp → Wmp) : State := { s with wmp := f s.wmp }
def State.onOsq (s : State) (f : Osq → Osq) : State := { s with osq := f s.osq }
def State.onChg (s : State) (f : Chg → Chg) : State := { s with chg := f s.chg }
def State.onSpl (s : State) (f : Spl → Spl) : State := { s with spl := f s.spl }
def State.onHgr (s : State) (f : Hgr → Hgr) : State := { s with hgr := f s.hgr }
def State.onKnp (s : State) (f : Knp → Knp) : State := { s with knp := f s.knp }
def State.onStk (s : State) (f : Stk → Stk) : State := { s with stk := f s.stk }
def State.onPlg (s : State) (f : Plg → Plg) : State := { s with plg := f s.plg }
def State.onLsc (s : State) (f : Lsc → Lsc) : State := { s with lsc := f s.lsc }
def State.onRif (s : State) (f : Rif → Rif) : State := { s with rif := f s.rif }
def State.onIrt (s : State) (f : Irt → Irt) : State := { s with irt := f s.irt }

/-! ### The production log (R156, R157) -/

/-- The cycle stamp: the cycle number of the last cycle telegram taken, or 0 (R156). -/
def State.stamp (s : State) : Nat := s.rif.cycle.getD 0

/-- PLG takes one record (R157): stored at the tail while there is room, in the oldest record's stead in WRAP mode,
refused with the full flag set in HALT mode. -/
def State.log (s : State) (b : LogBody) : State :=
  let stored (old : List LogRecord) : State :=
    s.onPlg fun p =>
      { p with
        records := old ++ [{ number := p.counter, stamp := s.stamp, body := b }],
        counter := (p.counter + 1) % 65536 }
  if s.plg.records.length < 512 then stored s.plg.records
  else
    match s.plg.mode with
    | .wrap => stored (s.plg.records.drop 1)
    | .halt => s.onPlg fun p => { p with full := true }

/-! ### Faults handed to Line State Control (R168) -/

/-- A block hands a fault. Line State Control takes what was handed at the end of the event (takeFaults). -/
def State.hand (s : State) (code : FaultCode) (detail : Detail) : State :=
  { s with handed := s.handed ++ [{ code := code, detail := detail }] }

/-! ### The outbound queues (R185, R186) -/

/-- Queue an item in the urgent queue; at 16 it is discarded and OUTBOUND_JAM, class URGENT (0), is handed (R185). -/
def State.queueUrgent (s : State) (o : OutItem) : State :=
  if s.rif.urgent.length < 16 then s.onRif fun r => { r with urgent := r.urgent ++ [o] }
  else s.hand .outboundJam (.one 0)

/-- Whether a new item replaces a waiting one: SETPOINTs of one point, SLITTER_PRESETs of one station (R186). -/
def replaces : OutItem → OutItem → Bool
  | .setpoint p .., .setpoint q .. => p == q
  | .slitterPreset p .., .slitterPreset q .. => p == q
  | _, _ => false

/-- Whether an item is a NOTICE. -/
def isNotice : OutItem → Bool
  | .notice _ => true
  | _ => false

/-- Queue an item in the routine queue by the table of R186. -/
def State.queueRoutine (s : State) (o : OutItem) : State :=
  if s.rif.routine.any (replaces o) then
    s.onRif fun r => { r with routine := r.routine.map fun w => if replaces o w then o else w }
  else if s.rif.overflow.any (replaces o) then s.onRif fun r => { r with overflow := some o }
  else if s.rif.routine.length < 48 then s.onRif fun r => { r with routine := r.routine ++ [o] }
  else if isNotice o then s
  else if s.rif.routine.any isNotice then
    s.onRif fun r => { r with routine := r.routine.eraseP isNotice ++ [o] }
  else if s.rif.overflow.isNone then s.onRif fun r => { r with overflow := some o }
  else s.hand .outboundJam (.one 1)

/-- Queue a NOTICE. -/
def State.notify (s : State) (n : Notice) : State := s.queueRoutine (.notice n)

/-! ### The reason set, SPEED_REQUEST and LINE_STOP (R15 to R21) -/

/-- Whether an instance comes before another in the order of R17: by the table of R16, then by the instance number. -/
def Raised.before (x y : Raised) : Bool :=
  reasonCode x.reason < reasonCode y.reason || (x.reason == y.reason && x.inst < y.inst)

/-- Put an instance in its place; one already in the set leaves the set as it is (R15). -/
def addReason (x : Raised) : List Raised → List Raised
  | [] => [x]
  | y :: ys =>
    if y.reason = x.reason ∧ y.inst = x.inst then y :: ys
    else if x.before y then x :: y :: ys
    else y :: addReason x ys

/-- Take an instance out of the set; one not in it leaves the set as it is (R15). -/
def dropReason (reason : Reason) (inst : Nat) (l : List Raised) : List Raised :=
  l.filter fun y => !(y.reason == reason && y.inst == inst)

/-- The more restrictive of two requests. -/
def stricter (a b : SpeedReq) : SpeedReq := if speedReqCode a < speedReqCode b then b else a

/-- The most restrictive request carried, NO_LIMIT for the empty set (R17). -/
def strongest (l : List Raised) : SpeedReq := l.foldl (fun a r => stricter a r.req) .noLimit

/-- The governing reason: the first instance that carries the current request, none under NO_LIMIT (R17). -/
def governingOf (l : List Raised) : Option (Reason × Nat) :=
  match strongest l with
  | .noLimit => none
  | q => (l.find? fun r => r.req == q).map fun r => (r.reason, r.inst)

/-- LINE_STOP follows the current request and the ring state (R20). -/
def State.syncLineStop (s : State) : State :=
  { s with lineStop := s.wtr.request == .stop || s.rif.ring == .lost }

/-- Whether an item is a SPEED_REQUEST. -/
def isSpeedRequest : OutItem → Bool
  | .speedRequest .. => true
  | _ => false

/-- Queue a SPEED_REQUEST, or rewrite the one that waits in place, and reload the refresh counter (R18, R19). -/
def State.sendSpeedRequest (s : State) (cause : SpeedCause) : State :=
  let o := OutItem.speedRequest s.wtr.request s.wtr.governing s.wtr.band s.wtr.speedSum cause
  let s := s.onWtr fun w => { w with refresh := 64 }
  if s.rif.urgent.any isSpeedRequest then
    s.onRif fun r => { r with urgent := r.urgent.map fun w => if isSpeedRequest w then o else w }
  else s.queueUrgent o

/-- WTR takes a new reason set as one alteration: the current request and the governing reason are worked out once,
LINE_STOP follows, and a change of the request is sent (R15, R17, R18, R20). -/
def State.setReasons (s : State) (l : List Raised) : State :=
  let old := s.wtr.request
  let s := (s.onWtr fun w => { w with reasons := l, request := strongest l, governing := governingOf l }).syncLineStop
  if strongest l = old then s else s.sendSpeedRequest .change

/-- A block drops some of its reasons and raises others, as one alteration (R15). -/
def State.alter (s : State) (drops : List (Reason × Nat)) (raises : List Raised) : State :=
  let kept := drops.foldl (fun l d => dropReason d.1 d.2 l) s.wtr.reasons
  s.setReasons (raises.foldl (fun l r => addReason r l) kept)

/-- Raise one instance. -/
def State.raise (s : State) (reason : Reason) (inst : Nat) (req : SpeedReq) : State :=
  s.alter [] [{ reason := reason, inst := inst, req := req }]

/-- Drop one instance. -/
def State.drop (s : State) (reason : Reason) (inst : Nat) : State := s.alter [(reason, inst)] []

/-- Whether an instance is in the reason set. -/
def State.holds (s : State) (reason : Reason) (inst : Nat) : Bool :=
  s.wtr.reasons.any fun r => r.reason == reason && r.inst == inst

end Sys2Proof.Machine
end

