-- ==== Sys2Proof/Machine/MapBasics.lean ====
section
/-! DEFINITION. Marks and zones: their geometry, their order on the map, and the registered station distances (R22 to
R33). -/

namespace Sys2Proof.Machine

/-- A mark with one or more claims is open (R22). -/
def Mark.isOpen (m : Mark) : Bool := !m.claims.isEmpty

/-- The end of a mark: its closed end, or the greatest of it and the pinned ends of its claims (R22). -/
def Mark.zoneEnd (m : Mark) : Int := m.claims.foldl (fun e c => max e c.pinned) m.closedEnd

/-- The end less the start, or 0 when the end is at or below the start (R22). -/
def Mark.zoneLength (m : Mark) : Int := if m.zoneEnd ≤ m.start then 0 else m.zoneEnd - m.start

/-- BOUNDARY, SPLICE and PURGE marks are structural, the others defect marks (R22). -/
def MarkKind.isStructural : MarkKind → Bool
  | .boundary => true | .splice => true | .purge => true
  | .offband => false | .wrongPaper => false | .wrongSlit => false | .dwell => false | .operator => false

/-- Two zones overlap: each one's start lies below the other's end (R23). -/
def rawOverlap (s₁ e₁ s₂ e₂ : Int) : Bool := s₁ < e₂ && s₂ < e₁

/-- A zone overlaps a stretch of board; a zone of length 0 overlaps nothing (R23, R131). -/
def zoneOverlaps (start stop b e : Int) : Bool := start < stop && rawOverlap start stop b e

/-- The gap between two zones (R23). -/
def zoneGap (s₁ e₁ s₂ e₂ : Int) : Int :=
  if rawOverlap s₁ e₁ s₂ e₂ || e₁ == s₂ || e₂ == s₁ then 0
  else if s₁ ≤ s₂ then s₂ - e₁
  else s₁ - e₂

/-- A new mark stands after every mark whose start is at or below its own (R26). -/
def place (m : Mark) : List Mark → List Mark
  | [] => [m]
  | x :: xs => if x.start ≤ m.start then x :: place m xs else m :: x :: xs

/-- Put a changed mark back: in its position, or placed again if its start has fallen (R26). -/
def putBack (l : List Mark) (i : Nat) (old new : Mark) : List Mark :=
  if new.start < old.start then place new (l.eraseIdx i) else l.set i new

/-- Whether a mark holds the claim of an identity (R24). -/
def Mark.holdsClaim (m : Mark) (kind : ClaimKind) (owner : Nat) : Bool :=
  m.claims.any fun c => c.kind == kind && c.owner == owner

/-- The knife floor (R30). -/
def knifeFloor : Int := -100000

/-- A mark moved by an advance: the start held at the knife floor, the closed end not, pinned ends in place (R30). DESIGN CHOICE
(assumption 60): a start that was below the floor already when the mark was inserted comes up to it. -/
def Mark.move (a : Nat) (m : Mark) : Mark :=
  { m with
    start := if m.start - a < knifeFloor then knifeFloor else m.start - a,
    closedEnd := m.closedEnd - a }

/-- A closed mark whose end is at or below 0 is retired (R32). -/
def Mark.retires (m : Mark) : Bool := !m.isOpen && decide (m.zoneEnd ≤ 0)

/-- The mark with a sequence number. -/
def State.findMark (s : State) (seq : Nat) : Option Mark := s.wmp.marks.find? fun m => m.seq == seq

/-- The BOUNDARY mark with a sequence number. -/
def State.findBoundary (s : State) (seq : Nat) : Option Mark :=
  s.wmp.marks.find? fun m => m.kind == .boundary && m.seq == seq

/-- Whether a mark is the SPLICE mark of a stand. -/
def Mark.isJointOf (k : Nat) (m : Mark) : Bool :=
  match m.payload with
  | .splice k' _ _ => m.kind == .splice && k' == k
  | _ => false

/-- Whether a SPLICE mark of the stand is on the map. -/
def State.jointOnMap (s : State) (k : Nat) : Bool := s.wmp.marks.any (Mark.isJointOf k)

/-- How many structural and how many defect marks the map holds (R25). -/
def structuralCount (l : List Mark) : Nat := l.countP fun m => m.kind.isStructural
def defectCount (l : List Mark) : Nat := l.countP fun m => !m.kind.isStructural

/-- The distances a configured stand registers (R31). DESIGN CHOICE (assumption 28): of one boundary's crossings of both, the
splice point's is reported before the lead point's. -/
def standDistances (k : Nat) (st : Stand) : List (Int × StationRole) :=
  match st.cfg with
  | none => []
  | some c => [((c.dist : Int), .splicePoint (k + 1)), ((c.dist + c.lead : Nat), .lead (k + 1))]

/-- The distance a configured point registers (R31). -/
def pointDistances (p : Nat) (pt : Point) : List (Int × StationRole) :=
  match pt.cfg with
  | none => []
  | some c => [((c.dist : Int), .point p)]

/-- The registered station distances (R31): they stand while the configuration that names them is loaded, so they are
read from it. DESIGN CHOICE (assumption 28): the reports that one boundary brings follow this list, the stands by ascending
number, the slitter-scorer, the points by ascending number. -/
def State.registered (s : State) : List (Int × StationRole) :=
  (s.spl.stands.toList.zipIdx.flatMap fun x => standDistances x.2 x.1)
    ++ (if s.line.nums.dSs = 0 then [] else [((s.line.nums.dSs : Int), .slitter)])
    ++ (s.hgr.points.toList.zipIdx.flatMap fun x => pointDistances x.2 x.1)

end Sys2Proof.Machine
end

