-- ==== Sys2Proof/Machine/OrderTable.lean ====
section
/-! DEFINITION. Reading the order table: slots, the validity checks, segments, room, projection and the next-order
candidate (R41 to R59, R66). -/

namespace Sys2Proof.Machine

/-- A slot of the order table; a number outside 0..63 reads as EMPTY. -/
def State.slot (s : State) (i : Nat) : Slot := (s.osq.slots[i]?).getD Slot.blank

/-- Change a slot. -/
def State.onSlot (s : State) (i : Nat) (f : Slot → Slot) : State :=
  s.onOsq fun o => { o with slots := modify o.slots i f }

/-- The order number of a slot, 0 when it holds no record. -/
def State.orderNumber (s : State) (i : Nat) : Nat := ((s.slot i).order.map fun r => r.number).getD 0

/-- The order number that a plan, segment or record names: 0 for NONE (R127). -/
def State.numberOf (s : State) (order : Option Nat) : Nat := (order.map s.orderNumber).getD 0

/-- Whether a grade code names a loaded grade, and the grade (R108). -/
def State.grade (s : State) (code : Nat) : Option Grade :=
  if code = 0 then none else (s.hgr.grades[code - 1]?).join

/-- The outcome of a failed validity check: the check's number, the reply code, field index and detail (R45). -/
structure CheckFailure where
  check  : Nat
  code   : ReplyCode
  index  : Nat
  detail : Nat
deriving DecidableEq, Repr

/-- The position 1..6 of the first track width outside 500..25,000, or none (R45 check 5). -/
def firstBadWidth : List Track → Nat → Option Nat
  | [], _ => none
  | t :: ts, i => if 500 ≤ t.width && t.width ≤ 25000 then firstBadWidth ts (i + 1) else some i

/-- A track's scores: strictly ascending, each above 0 and below the width (R45 check 6). -/
def scoresOk (width : Nat) : Nat → List Nat → Bool
  | _, [] => true
  | below, x :: xs => below < x && x < width && scoresOk width x xs

/-- The position 1..6 of the first track whose score list fails (R45 check 6). -/
def firstBadScores : List Track → Nat → Option Nat
  | [], _ => none
  | t :: ts, i => if scoresOk t.width 0 t.scores then firstBadScores ts (i + 1) else some i

/-- Check 5 of R45: the detail of its failure, or none when it passes. -/
def trackFailure (webWidth : Nat) (l : List Track) : Option Nat :=
  if l.isEmpty then some 0
  else match firstBadWidth l 1 with
    | some i => some i
    | none => if (l.map fun t => t.width).sum ≤ webWidth && l.length ≤ 6 then none else some 0

/-- The record of a slot that is not EMPTY (R45 check 1). -/
def Slot.record (o : Slot) : Option OrderRec := if o.state = .empty then none else o.order

/-- The validity checks of an order, in order; none when every one passes (R45). -/
def State.checkOrder (s : State) (i : Nat) : Option CheckFailure :=
  match (s.slot i).record with
  | none => some { check := 1, code := .badSlot, index := 0, detail := 0 }
  | some r =>
    let bad (check index detail : Nat) : Option CheckFailure :=
      some { check := check, code := .badField, index := index, detail := detail }
    if r.number = 0 then bad 2 1 0
    else if (s.grade r.grade).isNone then bad 3 2 0
    else if !(5000 ≤ r.length && r.length ≤ 65000 && s.line.nums.wMin ≤ r.length) then bad 4 3 0
    else match trackFailure s.line.nums.webWidth r.tracks with
      | some d => bad 5 6 d
      | none => match firstBadScores r.tracks 1 with
        | some d => bad 6 7 d
        | none => if 1 ≤ r.perStack && r.perStack ≤ 2000 then none else bad 7 8 0

/-- Cuts ordered plus overmake. -/
def OrderRec.ceiling (r : OrderRec) : Nat := r.cuts + r.overmake

/-- The lead segment: the newest, last in the list (R56). -/
def State.lead (s : State) : Option Segment := s.osq.segments.getLast?

/-- The segment being planned (R58). -/
def State.planned (s : State) : Option Segment := s.osq.segments.find? fun g => g.planning

/-- Change the segments that a test picks. -/
def State.onSegments (s : State) (test : Segment → Bool) (f : Segment → Segment) : State :=
  s.onOsq fun o => { o with segments := o.segments.map fun g => if test g then f g else g }

/-- The room of a segment (R59). -/
def State.room (s : State) (g : Segment) : Nat :=
  match g.order with
  | none => 0
  | some i =>
    match (s.slot i).order with
    | none => 0
    | some r => min (g.target - g.goodPlanned) (r.ceiling - (s.slot i).goodPlanned)

/-- The base of the lead segment: the plan front while it is being planned, and otherwise the end of its opening
boundary's zone (R66). -/
def State.base (s : State) (g : Segment) : Int :=
  if g.planning then s.knp.front
  else match g.opening.bind s.findBoundary with
    | some m => m.zoneEnd
    | none => s.knp.front

/-- The projection of a segment that holds an order (R66). -/
def State.projectionOf (s : State) (g : Segment) : Option Int :=
  match g.order with
  | none => none
  | some i =>
    match (s.slot i).order with
    | none => none
    | some r => some (s.base g + ((g.target - g.goodPlanned : Nat) : Int) * (r.length : Int))

/-- The lead segment's projection, none for a NONE lead (R66, R86). -/
def State.projection (s : State) : Option Int := s.lead.bind s.projectionOf

/-- The next-order candidate: the pending rush, else the held-stack top, else the queue head (R54). -/
def Osq.nextCandidate (o : Osq) : Option Nat :=
  match o.rush with
  | some i => some i
  | none => match o.held with
    | i :: _ => some i
    | [] => o.queue.head?

/-- The setting of a slot's order (R41). -/
def State.settingOf (s : State) (i : Nat) : Option Setting := (s.slot i).order.map fun r => r.tracks

end Sys2Proof.Machine
end

