-- ==== Sys2Proof/Machine/WebMap.lean ====
section
/-! DEFINITION. The Web Map's insertions, merges and closes, with the report of each to the Knife Planner and the diverts
that follow (R27 to R38, R142 to R144). -/

namespace Sys2Proof.Machine

/-! ### What a reported mark does to the plans at the knife (R142, R144) -/

/-- Whether a zone blocks good sheets for an order of a quality class (R23, R131). -/
def blocks (kind : MarkKind) (lenient : Bool) (q : Quality) : Bool :=
  match kind with
  | .offband => !lenient || q == .strict
  | _ => true

/-- Each plan of the queue with its start: the oldest starts at the cut edge, the next at the end before it (R126). -/
def planStarts : Int → List Plan → List (Int × Plan)
  | _, [] => []
  | b, p :: ps => (b, p) :: planStarts p.stop ps

/-- The quality class of a slot's order. -/
def State.qualityOf (s : State) (order : Option Nat) : Quality :=
  ((order.bind fun i => (s.slot i).order).map fun r => r.quality).getD .strict

/-- Change the plan at a position of the queue. -/
def State.onPlan (s : State) (i : Nat) (f : Plan → Plan) : State :=
  s.onKnp fun k => { k with plans := k.plans.modify i f }

/-- Send a DIVERT with cause LATE_MARK for the plan at a position, because of a mark (R144). -/
def State.divertLate (s : State) (i : Nat) (p : Plan) (mark : Nat) : State :=
  ((s.queueUrgent (.divert p.seq .lateMark)).onPlan i fun p => { p with diverted := true }).log
    (.divert p.seq .lateMark mark)

/-- Judge one plan against the zone of a mark (R142). DESIGN CHOICE (assumption 42): the plan's stretch begins at the cut edge
also where that lies below the knife, so that a zone which ends at or below 0 may divert the plan it overlaps. -/
def State.judgePlan (s : State) (m : Mark) (i : Nat) : State :=
  match (planStarts s.knp.cutEdge s.knp.plans)[i]? with
  | none => s
  | some (b, p) =>
    if p.disp == .good && !p.diverted && zoneOverlaps m.start m.zoneEnd b p.stop then
      if blocks m.kind m.lenient (s.qualityOf p.order) then s.divertLate i p m.seq
      else s.onPlan i fun p => { p with noted := true }
    else s

/-- KNP takes the report of an inserted or widened mark (R34, R142). DESIGN CHOICE (assumption 57): the plans are judged oldest
first. -/
def State.markReport (s : State) (m : Mark) : State :=
  (List.range s.knp.plans.length).foldl (fun s i => s.judgePlan m i) s

/-! ### Insertions -/

/-- The creation sequence counter passes to the next number (R25). -/
def State.bumpSeq (s : State) : State := s.onWmp fun w => { w with nextSeq := (w.nextSeq + 1) % 65536 }

/-- Place a mark and report it (R26, R34). -/
def State.placeMark (s : State) (m : Mark) : State :=
  (s.onWmp fun w => { w with marks := place m w.marks }).markReport m

/-- The better of two candidates for a merge: the smaller gap, the first on equal gaps (R28). -/
def nearerMark (new : Mark) (best : Option (Nat × Mark)) (x : Mark × Nat) : Option (Nat × Mark) :=
  if x.1.kind.isStructural then best
  else match best with
    | none => some (x.2, x.1)
    | some (i, b) =>
      if zoneGap x.1.start x.1.zoneEnd new.start new.zoneEnd < zoneGap b.start b.zoneEnd new.start new.zoneEnd
      then some (x.2, x.1) else some (i, b)

/-- The defect mark into which a new one is merged, with its position (R28). -/
def nearestDefect (new : Mark) (l : List Mark) : Option (Nat × Mark) :=
  l.zipIdx.foldl (nearerMark new) none

/-- The surviving mark of a merge in a full defect area (R28). DESIGN CHOICE (assumption 62): a claim that joins stands at the end of
the claim list. -/
def mergeMarks (old new : Mark) : Mark :=
  { old with
    start := min old.start new.start,
    closedEnd := max old.closedEnd new.closedEnd,
    claims := old.claims ++ new.claims,
    lenient := old.kind == .offband && new.kind == .offband && old.lenient && new.lenient }

/-- Put a widened mark back, log MARK_MERGED, and report the mark when its end rose or its start fell (R28, R34). DESIGN CHOICE
(assumption 51): the MARK_MERGED record stands before the DIVERT records that the report brings. -/
def State.absorb (s : State) (i : Nat) (old wide : Mark) (newSeq : Nat) (newKind : MarkKind) : State :=
  let s := (s.onWmp fun w => { w with marks := putBack w.marks i old wide }).log (.markMerged old.seq newSeq newKind)
  if old.zoneEnd < wide.zoneEnd || wide.start < old.start then s.markReport wide else s

/-- Insert a defect mark (R28). Gives the sequence number of the surviving mark when the new one was merged. -/
def State.insertDefect (s : State) (new : Mark) : State × Option Nat :=
  if new.claims.any fun c => s.wmp.marks.any fun m => m.holdsClaim c.kind c.owner then (s, none)
  else
    let m := { new with seq := s.wmp.nextSeq }
    let s := s.bumpSeq
    if defectCount s.wmp.marks < 32 then (s.placeMark m, none)
    else match nearestDefect m s.wmp.marks with
      | none => (s.placeMark m, none)
      | some (i, old) => (s.absorb i old (mergeMarks old m) m.seq m.kind, some old.seq)

/-- A closed mark as its owner asks for it. -/
def closedMark (kind : MarkKind) (source : Block) (payload : MarkPayload) (start length : Int) : Mark where
  kind := kind
  seq := 0
  start := start
  closedEnd := start + length
  claims := []
  lenient := kind == .offband
  source := source
  payload := payload

/-- An open mark as its owner asks for it: closed end at its start, one claim (R22). -/
def openMark (kind : MarkKind) (source : Block) (payload : MarkPayload) (start : Int) (claim : Claim) : Mark where
  kind := kind
  seq := 0
  start := start
  closedEnd := start
  claims := [claim]
  lenient := kind == .offband
  source := source
  payload := payload

/-- Insert a SPLICE mark, or merge it into the stand's mark that is on the map (R27). -/
def State.insertSplice (s : State) (k : Nat) (reason : SpliceReason) (paper : Option Nat) (start length : Int) :
    State :=
  let m := { closedMark .splice .spl (.splice k reason paper) start length with seq := s.wmp.nextSeq }
  let s := s.bumpSeq
  match s.wmp.marks.zipIdx.find? fun x => x.1.isJointOf k with
  | none => s.placeMark m
  | some (old, i) =>
    s.absorb i old { old with start := min old.start m.start, closedEnd := max old.closedEnd m.closedEnd } m.seq m.kind

/-- LSC asks for a purge: insert it from the knife to D_create, or extend the one on the map; arm the purge (R36). -/
def State.requestPurge (s : State) : State :=
  let d : Int := s.line.nums.dCreate
  let s := s.onWmp fun w => { w with armed := true }
  match s.wmp.marks.zipIdx.find? fun x => x.1.kind == .purge with
  | none =>
    let m := { closedMark .purge .lsc .none 0 d with seq := s.wmp.nextSeq }
    s.bumpSeq.placeMark m
  | some (old, i) =>
    if old.closedEnd < d then
      (s.onWmp fun w => { w with marks := w.marks.set i { old with closedEnd := d } }).markReport
        { old with closedEnd := d }
    else s

/-- An owner closes its claim at a closing distance; a mark closed with its end at or below 0 is retired at once
(R29, R32). -/
def State.closeClaim (s : State) (kind : ClaimKind) (owner : Nat) (x : Int) : State :=
  s.onWmp fun w =>
    { w with
      marks := w.marks.filterMap fun m =>
        if m.holdsClaim kind owner then
          let m' := { m with
            closedEnd := max m.closedEnd x,
            claims := m.claims.filter fun c => !(c.kind == kind && c.owner == owner) }
          if m'.retires then none else some m'
        else some m }

/-- LSC asks for the dwell mark: nothing to mark when the two limits are equal (R37, R167). Says whether it was asked
for. -/
def State.askDwell (s : State) : State × Bool :=
  let near := s.line.nums.dwellNear
  let far := s.line.nums.dwellFar
  if near < far then
    ((s.insertDefect (closedMark .dwell .lsc .none near ((far : Int) - near))).1, true)
  else (s, false)

/-- The web has gone uncounted: clear the map-valid and the purge-armed flag, leave the marks (R35). -/
def State.loseMap (s : State) : State := s.onWmp fun w => { w with valid := false, armed := false }

end Sys2Proof.Machine
end

