-- ==== Sys2Proof/Machine/Stacker.lean ====
section
/-! DEFINITION. The Stacker Link: counting good cuts into stacks, the set-down queue, and the stacker's reports (R148 to
R155). -/

namespace Sys2Proof.Machine

/-- A slot's pile. -/
def State.pile (s : State) (i : Nat) : Pile := (s.stk.piles[i]?).getD { count := 0, next := 1 }

/-- Change a slot's pile. -/
def State.onPile (s : State) (i : Nat) (f : Pile → Pile) : State :=
  s.onStk fun k => { k with piles := modify k.piles i f }

/-- The stacker's station code: that of the STACK_STATE subscription (8.7), 0 when there is none. -/
def State.stackerStation (s : State) : Nat :=
  ((s.irt.subs.toList.filterMap fun e => e.cfg).find? fun c => c.kind == .stackState).elim 0 fun c => c.source

/-- The STACK_COMMAND for a set-down under a command number (R153). -/
def State.stackCommand (s : State) (d : SetDown) (command : Nat) : OutItem :=
  .stackCommand s.stackerStation command d.number d.ordinal d.cuts d.final

/-- Examine a WAITING head: sent when the tracked state is READY (R153). -/
def State.examineSetDown (s : State) : State :=
  match s.stk.queue with
  | [] => s
  | d :: _ =>
    if s.stk.head = .waiting ∧ s.stk.state = .ready then
      let command := if s.stk.counter = 255 then 1 else s.stk.counter + 1
      (s.queueRoutine (s.stackCommand d command)).onStk fun k =>
        { k with counter := command, head := .sent command 64 }
    else s

/-- Place a new set-down by the table of R151. -/
def State.placeSetDown (s : State) (d : SetDown) : State :=
  match s.stk.queue with
  | [] => (s.onStk fun k => { k with queue := [d], head := .waiting }).examineSetDown
  | [x] => s.onStk fun k => { k with queue := [x, d] }
  | _ :: _ :: _ =>
    if s.stk.overflow.isNone then (s.onStk fun k => { k with overflow := some d }).raise .stackerBehind 0 .limitLow
    else (s.hand .stackerOverrun (.two d.number (some d.ordinal))).notify (.stackLost d.number d.ordinal d.cuts)

/-- A good confirmed cut is counted into its order's stack; a full stack makes a set-down (R149). -/
def State.countIntoStack (s : State) (i : Nat) : State :=
  match (s.slot i).order with
  | none => s
  | some r =>
    if (s.pile i).count + 1 = r.perStack then
      (s.onPile i fun p => { count := 0, next := p.next + 1 }).placeSetDown
        { slot := i, number := r.number, ordinal := (s.pile i).next, cuts := r.perStack, final := false }
    else s.onPile i fun p => { p with count := p.count + 1 }

/-- A closing order's partial pile makes a final set-down (R150). -/
def State.finalSetDown (s : State) (i : Nat) : State :=
  if (s.pile i).count = 0 then s
  else
    (s.onPile i fun p => { count := 0, next := p.next + 1 }).placeSetDown
      { slot := i, number := s.orderNumber i, ordinal := (s.pile i).next, cuts := (s.pile i).count, final := true }

/-- The head's set-down is complete (R154): the overflow moves up, STACKER_BEHIND drops, the next head is examined. DESIGN
CHOICE (assumption 41): STACK_FINAL is queued before the next head's STACK_COMMAND. -/
def State.completeSetDown (s : State) : State :=
  match s.stk.queue with
  | [] => s
  | d :: rest =>
    let s' := match s.stk.overflow with
      | none => s.onStk fun k => { k with queue := rest, head := .waiting }
      | some x =>
        (s.onStk fun k => { k with queue := rest ++ [x], overflow := none, head := .waiting }).drop .stackerBehind 0
    let s'' := if d.final then s'.notify (.stackFinal d.number d.ordinal d.cuts) else s'
    s''.examineSetDown

/-- Queue the head's STACK_COMMAND again and reload the resend count (R154). -/
def State.resendSetDown (s : State) : State :=
  match s.stk.queue, s.stk.head with
  | d :: _, .sent command _ =>
    (s.queueRoutine (s.stackCommand d command)).onStk fun k => { k with head := .sent command 64 }
  | _, _ => s

/-- What a stacker's report sets the tracked state to (R152). -/
def trackedStacker : StackReport → StackerState
  | .ready => .ready | .settingDown => .settingDown | .busy => .busy | .fault => .fault

/-- The head moves on by the table of R154 (and by R153 while WAITING). -/
def State.moveHead (s : State) (n : Nat) : State :=
  match s.stk.queue, s.stk.head with
  | [], _ => s
  | _ :: _, .waiting => s.examineSetDown
  | _ :: _, .sent command resend =>
    match s.stk.state with
    | .settingDown => if s.stk.tracked = command then s.onStk fun k => { k with head := .setting command resend } else s
    | .ready =>
      if s.stk.tracked = command then s.completeSetDown
      else if resend ≤ n + 1 then s.resendSetDown
      else s.onStk fun k => { k with head := .sent command (resend - (n + 1)) }
    | .busy => s
    | .fault => s
    | .unknown => s
  | _ :: _, .setting command _ =>
    match s.stk.state with
    | .ready => if s.stk.tracked = command then s.completeSetDown else s
    | .settingDown => s
    | .busy => s
    | .fault => s
    | .unknown => s

/-- STK takes the STACK_STATE items of a telegram with missed-cycle count n; the last one counts (R152 to R154). -/
def State.stackEvent (s : State) (n : Nat) (report : StackReport) (command : Nat) : State :=
  let entersFault := report == .fault && s.stk.state != .fault
  let s := s.onStk fun k => { k with state := trackedStacker report, tracked := command }
  let s := if entersFault then s.notify (.stackerFault command) else s
  s.moveHead n

/-- The STACK_STATE source has gone stale (R152). -/
def State.stackStale (s : State) : State := s.onStk fun k => { k with state := .unknown }

end Sys2Proof.Machine
end

