-- ==== Sys2Proof/Machine/Orders.lean ====
section
/-! DEFINITION. The Order Sequencer: counting, closing orders, retirement of segments, selection and targets (R53 to
R63). -/

namespace Sys2Proof.Machine

/-! ### Closing (R62, R63) -/

/-- Close an order: outcome and balance, the log record, the notice, and the last stack (R63). -/
def State.closeOrder (s : State) (i : Nat) (r : OrderRec) : State :=
  let o := s.slot i
  let done := decide (r.cuts ≤ o.goodConfirmed)
  let balance := if done then o.goodConfirmed - r.cuts else r.cuts - o.goodConfirmed
  let s := s.onSlot i fun o => { o with state := if done then .complete else .short, balance := balance }
  let s := s.log (.orderEnd r.number done balance)
  let s := s.notify (.orderEnd i r.number done o.goodConfirmed o.waste o.noted balance)
  s.finalSetDown i

/-- Close the order if it is ON_WEB with no segment in flight and no plan outstanding (R62). -/
def State.testClose (s : State) (i : Nat) : State :=
  match (s.slot i).order with
  | none => s
  | some r =>
    if (s.slot i).state = .onWeb ∧ (s.slot i).inFlight = 0 ∧ (s.slot i).outstanding = 0 then s.closeOrder i r else s

/-! ### Counting (R59, R60) -/

/-- A sent plan is reported: GOOD raises the segment's and the order's good planned, either disposition raises the
order's plans outstanding (R59). -/
def State.reportPlan (s : State) (p : Plan) : State :=
  match p.order with
  | none => s
  | some i =>
    if p.disp = .good then
      (s.onSegments (fun g => g.num == p.segment) fun g => { g with goodPlanned := g.goodPlanned + 1 }).onSlot i fun o =>
        { o with goodPlanned := o.goodPlanned + 1, outstanding := o.outstanding + 1 }
    else s.onSlot i fun o => { o with outstanding := o.outstanding + 1 }

/-- A withdrawn plan is reported (R59), and its order examined for closing (R62). -/
def State.withdrawPlan (s : State) (p : Plan) : State :=
  match p.order with
  | none => s
  | some i =>
    let s :=
      if p.disp = .good then
        (s.onSegments (fun g => g.num == p.segment) fun g => { g with goodPlanned := g.goodPlanned - 1 }).onSlot i
          fun o => { o with goodPlanned := o.goodPlanned - 1, outstanding := o.outstanding - 1 }
      else s.onSlot i fun o => { o with outstanding := o.outstanding - 1 }
    s.testClose i

/-- One more waste cut; past the ceiling of R42 the count is a free value (assumption 6). -/
def addWaste (w : Nat) : Nat := if w < 4294967295 then w + 1 else Config.wastePastCeiling

/-- The counters after a confirmed cut's outcome (R60). -/
def Slot.count (o : Slot) : CutOutcome → Slot
  | .good => { o with goodConfirmed := o.goodConfirmed + 1, outstanding := o.outstanding - 1 }
  | .goodNoted =>
    { o with goodConfirmed := o.goodConfirmed + 1, noted := o.noted + 1, outstanding := o.outstanding - 1 }
  | .diverted => { o with waste := addWaste o.waste, outstanding := o.outstanding - 1 }
  | .miscut => { o with waste := addWaste o.waste, outstanding := o.outstanding - 1 }
  | .waste => { o with waste := addWaste o.waste, outstanding := o.outstanding - 1 }

/-- A confirmed plan's outcome is counted to the order; a good cut goes on to the Stacker Link (R60). -/
def State.reportOutcome (s : State) (order : Option Nat) (x : CutOutcome) : State :=
  match order with
  | none => s
  | some i =>
    let s := s.onSlot i fun o => o.count x
    let s := match x with
      | .good => s.countIntoStack i
      | .goodNoted => s.countIntoStack i
      | .diverted => s
      | .miscut => s
      | .waste => s
    s.testClose i

/-! ### The planning flag and retirement (R58, R61) -/

/-- Move the planning flag from the segment that has it to the next one, if there is one (R58). -/
def passFlag : List Segment → List Segment
  | [] => []
  | [g] => [g]
  | g :: h :: rest =>
    if g.planning then { g with planning := false } :: { h with planning := true } :: rest
    else g :: passFlag (h :: rest)

/-- The new oldest segment after a removal: it loses its opening boundary, and takes the planning flag if the removed
segment had it (R58, R61). -/
def newOldest (removed : Segment) (g : Segment) : Segment :=
  { g with opening := none, planning := g.planning || removed.planning }

/-- A BOUNDARY has retired: the oldest segment leaves, and its order is examined for closing (R61). -/
def State.retireSegment (s : State) : State :=
  match s.osq.segments with
  | g :: h :: rest =>
    let s := s.onOsq fun o => { o with segments := newOldest g h :: rest }
    match g.order with
    | none => s
    | some i => (s.onSlot i fun o => { o with inFlight := o.inFlight - 1 }).testClose i
  | _ => s

/-! ### Selection and targets (R55, R57) -/

/-- A rejection is noticed and logged (R55). -/
def State.rejected (s : State) (i : Nat) (f : CheckFailure) : State :=
  (s.notify .startRejected).log (.startRejected i (s.orderNumber i) f.check)

/-- A candidate that passes becomes ON_WEB with one more segment in flight (R55). -/
def State.taken (s : State) (i : Nat) : State :=
  s.onSlot i fun o => { o with state := .onWeb, inFlight := o.inFlight + 1 }

/-- Selection: the pending rush, the held-stack top, the queue head, each checked as it is taken (R55). The first
argument bounds how many candidates can be taken. DESIGN CHOICE (assumption 48): the START_REJECTED of a held order comes before
the ORDER_END of its closing. -/
def State.select : Nat → State → State × Option (Nat × Origin)
  | 0, s => (s, none)
  | fuel + 1, s =>
    match s.osq.rush with
    | some i =>
      let t := s.onOsq fun o => { o with rush := none }
      match s.checkOrder i with
      | none => (t.taken i, some (i, .rush))
      | some f => State.select fuel ((t.onSlot i fun o => { o with state := .loaded }).rejected i f)
    | none =>
      match s.osq.held with
      | i :: rest =>
        let t := s.onOsq fun o => { o with held := rest }
        match s.checkOrder i with
        | none => (t.taken i, some (i, .held))
        | some f => State.select fuel (((t.onSlot i fun o => { o with state := .onWeb }).rejected i f).testClose i)
      | [] =>
        match s.osq.queue with
        | i :: rest =>
          let t := s.onOsq fun o => { o with queue := rest }
          match s.checkOrder i with
          | none => (t.taken i, some (i, .queue))
          | some f => State.select fuel ((t.onSlot i fun o => { o with state := .loaded }).rejected i f)
        | [] => (s, none)

/-- Enough for every candidate that can wait. -/
def State.candidates (s : State) : Nat := 1 + s.osq.held.length + s.osq.queue.length

/-- The unplanned board g of a segment of the list, at or above 0 (R57): before says that planning has not reached
it. -/
def State.unplannedBoard (s : State) (g : Segment) (before : Bool) : Nat :=
  match g.closing.bind s.findBoundary with
  | none => 0
  | some c =>
    if g.planning then (c.start - s.knp.front).toNat
    else if before then
      match g.opening.bind s.findBoundary with
      | some o => (c.start - o.zoneEnd).toNat
      | none => 0
    else 0

/-- The tail estimate over a list of segments (R57): reached says that the segment being planned has been met. -/
def State.tailEstimate (s : State) (i length : Nat) (reached : Bool) : List Segment → Nat
  | [] => 0
  | g :: rest =>
    (if g.order = some i then s.unplannedBoard g (reached && !g.planning) / length else 0)
      + s.tailEstimate i length (reached || g.planning) rest

/-- The target of a new lead segment (R57). -/
def State.targetFor (s : State) (i : Nat) (from_ : Origin) : Nat :=
  match (s.slot i).order with
  | none => 0
  | some r =>
    match from_ with
    | .held =>
      r.ceiling - (s.slot i).goodPlanned - s.tailEstimate i r.length false s.osq.segments
    | .rush => r.ceiling - (s.slot i).goodPlanned
    | .queue => r.ceiling - (s.slot i).goodPlanned

/-- Push the lead segment's order onto the held-order stack (R53). -/
def State.suspendLead (s : State) : State :=
  match s.lead.bind fun g => g.order with
  | none => s
  | some i => (s.onOsq fun o => { o with held := i :: o.held }).onSlot i fun o => { o with state := .suspended }

end Sys2Proof.Machine
end

