-- ==== Sys2Proof/Machine/Changeover.lean ====
section
/-! DEFINITION. The Changeover Unit: the flying decision, presets, changeover records, swaps and WRONG_SLIT claims (R73
to R85). -/

namespace Sys2Proof.Machine

/-! ### Stations -/

/-- The other station. -/
def otherStation : Slitter → Slitter
  | .a => .b | .b => .a

/-- The idle station: the one not engaged, A when none is (R77). -/
def Chg.idle (c : Chg) : Slitter := (c.engaged.map otherStation).getD .a

/-- The tracked state of a station. -/
def Chg.stateOf (c : Chg) : Slitter → SlitterState
  | .a => c.stateA | .b => c.stateB

/-- The held preset of a station (R77). -/
def Chg.heldOf (c : Chg) : Slitter → Option Preset
  | .a => c.heldA | .b => c.heldB

/-- The cause of R84 a station's claim is held for. -/
def Chg.causeOf (c : Chg) : Slitter → SlitCause
  | .a => c.causeA | .b => c.causeB

def Chg.setState (c : Chg) (st : Slitter) (x : SlitterState) : Chg :=
  match st with
  | .a => { c with stateA := x } | .b => { c with stateB := x }

def Chg.setHeld (c : Chg) (st : Slitter) (x : Option Preset) : Chg :=
  match st with
  | .a => { c with heldA := x } | .b => { c with heldB := x }

def Chg.setCause (c : Chg) (st : Slitter) (x : SlitCause) : Chg :=
  match st with
  | .a => { c with causeA := x } | .b => { c with causeB := x }

/-- The next preset id: from 255 to 1 (R75). -/
def nextId (c : Nat) : Nat := if 255 ≤ c then 1 else c + 1

/-- Send a preset to a station, and remember that it was sent (R77). DESIGN CHOICE (assumption 40): one that R186 discards counts as
sent. -/
def State.sendPreset (s : State) (st : Slitter) (p : Preset) : State :=
  (s.queueRoutine (.slitterPreset st p s.line.side)).onChg fun c =>
    { c with sent := (st, p) :: c.sent.filter fun x => !(x.1 == st && x.2.id == p.id) }

/-! ### Claims (R80, R84) -/

/-- Ask for an open WRONG_SLIT mark owned by a station and pinned at D_ss (R80, R84). -/
def State.openSlit (s : State) (st : Slitter) (start : Int) : State :=
  if s.line.nums.dSs = 0 then s
  else
    (s.insertDefect
      (openMark .wrongSlit .chg (.wrongSlit st) start
        { kind := .wrongSlit, owner := slitterCode st, pinned := s.line.nums.dSs })).1

/-- Close a station's WRONG_SLIT claim at D_ss once no cause is left for it (R84). -/
def State.closeSlit (s : State) (st : Slitter) : State :=
  if s.chg.changeover = some st ∨ s.chg.causeOf st ≠ .none then s
  else s.closeClaim .wrongSlit (slitterCode st) s.line.nums.dSs

/-- End a station's cause of R84. -/
def State.endCause (s : State) (st : Slitter) : State :=
  if s.chg.causeOf st = .none then s else (s.onChg fun c => c.setCause st .none).closeSlit st

/-- Open the changeover zone for a record, if it is not open (R80). -/
def State.openZone (s : State) (r : ChangeRec) : State :=
  if s.line.nums.dSs = 0 ∨ s.chg.changeover.isSome then s
  else
    let owner := r.target.getD s.chg.idle
    ((s.openSlit owner (min r.zoneEnd s.line.nums.dSs)).onChg fun c => { c with changeover := some owner }).raise
      .slitterNotReady 0 .limitCrawl

/-- Whether the changeover claim still has a cause (R80, R82): a record CROSSED, or one SWAPPING with its zone end at or
below D_ss. -/
def State.zoneNeeded (s : State) : Bool :=
  s.chg.records.any fun (r : ChangeRec) =>
    r.status == .crossed || (r.status == .swapping && decide (r.zoneEnd ≤ (s.line.nums.dSs : Int)))

/-- Close the changeover zone when no cause is left, and drop SLITTER_NOT_READY (R82). -/
def State.settleZone (s : State) : State :=
  match s.chg.changeover with
  | none => s
  | some st =>
    if s.zoneNeeded then s
    else ((s.onChg fun c => { c with changeover := none }).closeSlit st).drop .slitterNotReady 0

/-! ### The forecast (R77) and the flying decision (R74, R75) -/

/-- CHG takes the next-order candidate and keeps its forecast preset (R77). -/
def State.forecastFor (s : State) (candidate : Option Nat) : State :=
  let none_ := s.onChg fun c => { c with forecast := none }
  if s.line.nums.dSs = 0 ∨ s.chg.records ≠ [] then none_
  else match candidate.bind s.settingOf with
    | none => none_
    | some x =>
      if s.chg.expected = some x then none_
      else if (s.chg.forecast.map fun f => f.2.setting) = some x then s
      else
        let p : Preset := { id := nextId s.chg.idCounter, setting := x }
        (s.sendPreset s.chg.idle p).onChg fun c =>
          { c with idCounter := p.id, forecast := some (c.idle, p) }

/-- Give the head record its preset at the idle station, when it has none yet (R78). -/
def State.presetHead (s : State) : State :=
  match s.chg.records with
  | [] => s
  | r :: rest =>
    if r.target.isSome then s
    else
      let st := s.chg.idle
      (s.sendPreset st r.preset).onChg fun c =>
        { c with
          records := { r with target := some st,
                              status := if r.status == .waiting then .presetSent else r.status } :: rest }

/-- Room for one more record in a list of at most 4 (R78): DESIGN CHOICE (assumption 44), the oldest that is not SWAPPING is
superseded. -/
def makeRoom (l : List ChangeRec) : List ChangeRec :=
  if l.length < 4 then l else (l.eraseP fun r => r.status != .swapping).take 3

/-- A swapping boundary under a newly allocated preset id, with its changeover record while D_ss is 1 or more (R75,
R78). -/
def State.newRecord (s : State) (x : Setting) (seq : Nat) (zoneEnd : Int) : State × Bool × Nat :=
  let p : Preset := { id := nextId s.chg.idCounter, setting := x }
  let s := s.onChg fun c => { c with idCounter := p.id }
  if s.line.nums.dSs = 0 then (s, false, p.id)
  else
    ((s.onChg fun c =>
      { c with forecast := none,
               records := makeRoom c.records ++ [{ boundary := seq, preset := p, target := none, zoneEnd := zoneEnd,
                                                   status := .waiting }] }).presetHead, false, p.id)

/-- The flying decision for a boundary about to be created (R74, R75): the flying flag and the preset id. A swapping
boundary makes a changeover record while D_ss is 1 or more (R78). -/
def State.decideFlying (s : State) (incoming : Option Nat) (seq : Nat) (start : Int) : State × Bool × Nat :=
  match incoming.bind s.settingOf with
  | none => (s, true, 0)
  | some x =>
    if s.chg.expected = some x then (s, true, 0)
    else
      let s' := s.onChg fun c => { c with expected := some x }
      let zoneEnd : Int := start + s.line.nums.zSwap
      match s.chg.records, s.chg.forecast with
      | [], some (st, p) =>
        if p.setting = x then
          (s'.onChg fun c =>
            { c with forecast := none,
                     records := [{ boundary := seq, preset := p, target := some st, zoneEnd := zoneEnd,
                                   status := .presetSent }] }, false, p.id)
        else s'.newRecord x seq zoneEnd
      | _, _ => s'.newRecord x seq zoneEnd

/-! ### The swap (R79 to R83) -/

/-- Whether a station is READY with a preset id. -/
def Chg.isReady (c : Chg) (st : Slitter) (id : Nat) : Bool := c.stateOf st == .ready id

/-- Send the swap of the head record (R81). -/
def State.sendSwap (s : State) (r : ChangeRec) (st : Slitter) (rest : List ChangeRec) : State :=
  (s.queueUrgent (.slitterSwap (slitterCode st) (stationNumber s.chg.engaged) r.preset.id r.boundary)).onChg fun c =>
    { c with records := { r with status := .swapping } :: rest, timer := s.line.nums.swapTimeout }

/-- Try to send the head's swap: sent when its target is READY with its id and swaps are not blocked, with the zone
opened when the record's zone end is already at or below D_ss; otherwise the head is CROSSED with its zone open (R79). -/
def State.trySwap (s : State) : State :=
  match s.chg.records with
  | [] => s
  | r :: rest =>
    match r.target with
    | some st =>
      if s.chg.isReady st r.preset.id && !s.chg.blocked then
        let s := s.sendSwap r st rest
        if r.zoneEnd ≤ (s.line.nums.dSs : Int) then s.openZone r else s
      else
        (s.onChg fun c => { c with records := { r with status := .crossed } :: rest }).openZone r
    | none => (s.onChg fun c => { c with records := { r with status := .crossed } :: rest }).openZone r

/-- Re-examine a CROSSED head (R79). -/
def State.examineCrossed (s : State) : State :=
  match s.chg.records with
  | [] => s
  | r :: _ => if r.status = .crossed then s.trySwap else s

/-- A BOUNDARY has crossed D_ss (R79): its record supersedes the earlier ones that are not SWAPPING, and its swap is
sent or its zone opens. A flying boundary has no record, and calls for no action. -/
def State.crossSlitter (s : State) (m : Mark) : State :=
  match s.chg.records.find? fun r => r.boundary == m.seq with
  | none => s
  | some r =>
    if r.status = .swapping then s
    else
      let before := (s.chg.records.takeWhile fun x => !(x.boundary == m.seq)).filter fun x => x.status == .swapping
      let after := (s.chg.records.dropWhile fun x => !(x.boundary == m.seq)).drop 1
      if before.isEmpty then
        (s.onChg fun c => { c with records := r :: after }).presetHead.trySwap
      else
        (s.onChg fun c => { c with records := before ++ { r with status := .crossed } :: after }).openZone r

/-- The swap timer has run out before confirmation (R81). -/
def State.swapExpired (s : State) : State :=
  match s.chg.records with
  | [] => s
  | r :: rest =>
    if r.status = .swapping then
      (((s.hand .swapTimeout (.one r.boundary)).onChg fun c =>
        { c with records := { r with status := .crossed } :: rest, timer := 0, blocked := true })).openZone r
    else s

/-- The swap timer counts n + 1 cycles, stopping at 0 (R81). -/
def State.tickSwap (s : State) (n : Nat) : State := s.onChg fun c => { c with timer := c.timer - (n + 1) }

/-- A SWAPPING head record whose swap timer has reached 0 has run out of time (R81). -/
def State.swapDue (s : State) : State := if s.chg.timer = 0 then s.swapExpired else s

/-- A station becomes the engaged station: a cause of R84 of the other one that waits for it to work again ends. -/
def State.engage (s : State) (st : Slitter) : State :=
  let s := s.onChg fun c => { c with engaged := some st }
  if s.chg.causeOf (otherStation st) = .untilWorking then s.endCause (otherStation st) else s

/-- A cause of R84 that lasts until the next confirmed swap ends. -/
def State.endUntilSwap (s : State) (st : Slitter) : State :=
  if s.chg.causeOf st = .untilSwap then s.endCause st else s

/-- The swap of the head record is confirmed at a station (R82). -/
def State.confirmSwap (s : State) (r : ChangeRec) (st : Slitter) (rest : List ChangeRec) : State :=
  let s := s.onChg fun c => { c with timer := 0 }
  let s := s.engage st
  let s := s.onChg fun c => { c with records := rest }
  let s := s.log (.swap r.boundary st r.preset.id)
  let s := ((s.endUntilSwap .a).endUntilSwap .b).presetHead.examineCrossed.settleZone
  if rest.isEmpty then s.forecastFor s.osq.candidate else s

/-- The station whose WORKING confirms the head record, if one does (R82): the target of a SWAPPING record, or the
target of a CROSSED one that has become WORKING with the record's preset held. -/
def Chg.confirming (old new : Chg) : Option (ChangeRec × Slitter × List ChangeRec) :=
  match new.records with
  | [] => none
  | r :: rest =>
    match r.target with
    | none => none
    | some st =>
      if new.stateOf st = .working ∧
          (r.status = .swapping ∨
            (r.status = .crossed ∧ old.stateOf st ≠ .working ∧
              (new.heldOf st).map (fun p => p.id) = some r.preset.id))
      then some (r, st, rest) else none

/-! ### SLITTER_STATE events (R76 to R78, R84) -/

/-- Whether two tracked states are the same state, READY ids apart. -/
def sameState : SlitterState → SlitterState → Bool
  | .parked, .parked => true
  | .presetting, .presetting => true
  | .ready _, .ready _ => true
  | .working, .working => true
  | .fault, .fault => true
  | .unknown, .unknown => true
  | _, _ => false

/-- Take one station's new tracked state with its held preset (R76, R77). -/
def Chg.track (c : Chg) (st : Slitter) (x : SlitterState) : Chg :=
  let c := c.setState st x
  match x with
  | .parked => c.setHeld st none
  | .ready id =>
    match c.sent.find? fun y => y.1 == st && y.2.id == id with
    | some y => c.setHeld st (some y.2)
    | none => c
  | .presetting => c
  | .working => c
  | .fault => c
  | .unknown => c

/-- Send the head's preset again when its target reports PARKED while the preset is awaited (R78). -/
def State.represet (s : State) (st : Slitter) (report : Option SlitterState) : State :=
  match s.chg.records with
  | [] => s
  | r :: _ =>
    if report = some .parked ∧ r.target = some st ∧ (r.status = .presetSent ∨ r.status = .crossed) then
      s.sendPreset st r.preset
    else s

/-- The engaged station has left WORKING (R84); with D_ss 0 there is no claim to hold (R65). -/
def State.slitterLeft (s : State) (st : Slitter) : State :=
  let s := if s.chg.causeOf st = .none ∧ s.line.nums.dSs ≠ 0 then
      (s.openSlit st s.line.nums.dSs).onChg fun c => c.setCause st .untilWorking
    else s
  s.notify (.slitterFault (s.chg.stateOf st))

/-- The engaged station works again (R84): with a held preset a claim that waited for this ends; without one E becomes unknown
(assumption 15), and that claim waits for the next confirmed swap. -/
def State.slitterBack (s : State) (st : Slitter) : State :=
  let waited := s.chg.causeOf st = .untilWorking
  if (s.chg.heldOf st).isSome then if waited then s.endCause st else s
  else s.onChg fun c => { (if waited then c.setCause st .untilSwap else c) with expected := none }

/-- What a station engaged without a plan slits (R84): unknown, with a claim at D_ss, when it holds no preset; otherwise E
is its setting while no record is held. -/
def State.learnSetting (s : State) (st : Slitter) : State :=
  match s.chg.heldOf st with
  | none =>
    (s.openSlit st s.line.nums.dSs).onChg fun c =>
      { (if s.line.nums.dSs = 0 then c else c.setCause st .untilSwap) with expected := none }
  | some p => if s.chg.records.isEmpty then s.onChg fun c => { c with expected := some p.setting } else s

/-- A head record whose target has been engaged takes the new idle station as its target, with its preset (R84). -/
def State.retarget (s : State) (st : Slitter) : State :=
  match s.chg.records with
  | [] => s
  | r :: rest =>
    if r.target = some st then
      (s.onChg fun c => { c with records := { r with target := none } :: rest }).presetHead.examineCrossed
    else s

/-- A station that is not engaged has become WORKING without confirming a record (R84). -/
def State.slitterUnplanned (s : State) (st : Slitter) : State :=
  (((s.engage st).notify .slitterUnplanned).learnSetting st).retarget st

/-- The further events of R84 at one station, after the state before the reports. A station works again when it was the engaged
station before them; one that has just confirmed a record makes no unplanned engagement, also where the other station has been
engaged after it in the same event (assumption 15). -/
def State.stationEvent (s : State) (old : Chg) (confirmed : Option Slitter) (st : Slitter) : State :=
  let new := s.chg.stateOf st
  if sameState (old.stateOf st) new then s
  else if s.chg.engaged = some st then
    match new with
    | .working => if old.engaged = some st then s.slitterBack st else s
    | .fault => s.slitterLeft st
    | _ => if s.chg.records.any fun r => r.status == ChangeStatus.swapping then s else s.slitterLeft st
  else if new = .working ∧ confirmed ≠ some st then s.slitterUnplanned st
  else s

/-- Take a station's report, if there is one (R76). -/
def State.trackReport (s : State) (st : Slitter) (x : Option SlitterState) : State :=
  match x with
  | some x => s.onChg fun c => c.track st x
  | none => s

/-- Take the confirmation that the reports make, if they make one (R82). -/
def State.takeConfirmation (s : State) (old : Chg) : State :=
  match Chg.confirming old s.chg with
  | some (r, st, rest) => s.confirmSwap r st rest
  | none => s

/-- Judge the forecast again where R84 has changed E (R77, assumption 37). -/
def State.reforecast (s : State) (old : Chg) : State :=
  if s.chg.expected = old.expected ∨ s.chg.records ≠ [] then s else s.forecastFor s.osq.candidate

/-- Both stations are WORKING (R76). -/
def State.judgeConflict (s : State) : State :=
  if s.chg.stateA = .working ∧ s.chg.stateB = .working then s.hand .slitterConflict (.one 0) else s

/-- CHG takes the SLITTER_STATE reports of one telegram, or a station's fall to UNKNOWN, as one event (R76): the tracked
states first, then the confirmation of R82, then R84, then the conflict. DESIGN CHOICE (assumption 47): the CROSSED head is
examined again (R79) after R84 has judged the stations. -/
def State.slitterEvent (s : State) (a b : Option SlitterState) : State :=
  let old := s.chg
  let s := (((s.trackReport .a a).trackReport .b b).represet .a a).represet .b b
  let confirmed := (Chg.confirming old s.chg).map fun x => x.2.1
  let s := s.takeConfirmation old
  let s := (s.stationEvent old confirmed .a).stationEvent old confirmed .b
  (s.examineCrossed.reforecast old).judgeConflict

/-- What a station's report sets its tracked state to (R76). -/
def trackedSlitter : SlitterReport → SlitterState
  | .parked => .parked | .presetting => .presetting | .ready id => .ready id | .working => .working | .fault => .fault

/-- A station's source has gone stale (R76). -/
def State.slitterStale (s : State) (st : Slitter) : State :=
  match st with
  | .a => s.slitterEvent (some .unknown) none
  | .b => s.slitterEvent none (some .unknown)

/-! ### Advance, LINE_RESET and a D_ss of 0 -/

/-- The zone end of a SWAPPING record has come to D_ss or below (R83). -/
def State.swapAdvance (s : State) : State :=
  match s.chg.records.find? fun (r : ChangeRec) =>
      r.status == ChangeStatus.swapping && decide (r.zoneEnd ≤ (s.line.nums.dSs : Int)) with
  | some r => s.openZone r
  | none => s

/-- CHG at LINE_RESET (R81): the timer stops, swaps are unblocked, a SWAPPING record returns to CROSSED and is examined
again. -/
def State.chgLineReset (s : State) : State :=
  let s := s.onChg fun c => { c with timer := 0, blocked := false }
  let s := match s.chg.records with
    | r :: rest =>
      if r.status = ChangeStatus.swapping then
        (s.onChg fun c => { c with records := { r with status := .crossed } :: rest }).openZone r
      else s
    | [] => s
  s.examineCrossed

/-- A SET_LINE makes D_ss 0 (R65): the records, the forecast, the timer and the claims go, closed at the old D_ss. -/
def State.dropSlitter (s : State) : State :=
  let d : Int := s.line.nums.dSs
  let s := if s.chg.changeover = some .a ∨ s.chg.causeA ≠ .none then s.closeClaim .wrongSlit 1 d else s
  let s := if s.chg.changeover = some .b ∨ s.chg.causeB ≠ .none then s.closeClaim .wrongSlit 2 d else s
  (s.onChg fun c =>
    { c with records := [], forecast := none, timer := 0, changeover := none, causeA := .none,
             causeB := .none }).drop .slitterNotReady 0

end Sys2Proof.Machine
end

