-- ==== Sys2Proof/Machine/Splice.lean ====
section
/-! DEFINITION. The Splice Planner: remaining length, causes, examination, splices, wrong paper and run-out (R89 to
R106). Stand k of the manual stands at position k - 1 of the table. -/

namespace Sys2Proof.Machine

/-- The stand record at a position. -/
def State.stand (s : State) (i : Nat) : Stand := (s.spl.stands[i]?).getD (Stand.cleared none)

/-- Change a stand record. -/
def State.onStand (s : State) (i : Nat) (f : Stand → Stand) : State :=
  s.onSpl fun p => { p with stands := modify p.stands i f }

/-- A reel's remaining length from its diameter, tube diameter and caliper (R89). -/
def reelLength (r : Reel) : Nat :=
  if r.diameter ≤ r.tube then 0
  else (r.diameter * r.diameter - r.tube * r.tube) * 7854 / (100 * r.caliper)

/-- The range checks on a reel's data (R90). -/
def reelOk (r : Reel) : Bool := 80 ≤ r.caliper && r.caliper ≤ 900 && r.diameter ≤ 30000 && r.tube ≤ 30000

/-- The paper the running reel is known to carry. -/
def Stand.paper (st : Stand) : Option Nat := st.running.map fun r => r.paper

/-- The causes present at a stand with whether the spare is fit for each, in the order GRADE, RUNOUT, MANUAL (R93 to
R96). -/
def Stand.causes (st : Stand) (c : StandCfg) : List (SpliceReason × Bool) :=
  (match st.demand with
    | some d => [(SpliceReason.grade, (st.spare.map fun x => x.reel.paper) == some d.paper)]
    | none => [])
  ++ (if st.running.isSome && decide (st.remain ≤ c.trig) then [(.runout, st.spare.isSome)] else [])
  ++ (if st.manual then [(.manual, st.spare.isSome)] else [])

/-- The line states in which splices are sent, and sheets planned (R96, R129). -/
def runsLine : LineState → Bool
  | .threading => true | .producing => true | .halting => true
  | .stopped => false | .faulted => false

/-- The conditions of R96 that are not met at a stand, in their order. -/
def State.unmet (s : State) (i : Nat) (c : StandCfg) : List WaitCond :=
  (if ((s.stand i).causes c).any fun x => x.2 then [] else [.noFitSpare])
  ++ (if bandCode s.wtr.band ≤ bandCode c.band then [] else [.band])
  ++ (if s.jointOnMap (i + 1) then [.joint] else [])
  ++ (if runsLine s.lsc.state then [] else [.lineState])

/-- The request that a stand's maximum splice band sets (R16). -/
def bandLimit : Band → SpeedReq
  | .crawl => .limitCrawl | .low => .limitLow | .mid => .limitMid | .high => .noLimit

/-- The reasons that a stand may hold, each with whether its record calls for it: SPLICE_BAND while it is DUE and the band is
above its maximum splice band (R97), GRADE_NOT_READY while its wrong-paper claim is open (R102). -/
def State.standReasons (s : State) (i : Nat) : List (Raised × Bool) :=
  let st := s.stand i
  let top := (st.cfg.map fun c => c.band).getD .high
  [({ reason := .spliceBand, inst := i + 1, req := bandLimit top },
    st.splice == .due && decide (bandCode top < bandCode s.wtr.band)),
   ({ reason := .gradeNotReady, inst := i + 1, req := .limitCrawl }, st.claim)]

/-- At the end of one of its events SPL drops the reasons that the stands concerned no longer call for and raises those that
they call for, as one alteration of the reason set (R15, assumption 46). -/
def State.syncReasons (s : State) (l : List Nat) : State :=
  let reasons := l.flatMap s.standReasons
  s.alter ((reasons.filter fun x => !x.2).map fun x => (x.1.reason, x.1.inst))
    ((reasons.filter fun x => x.2).map fun x => x.1)

/-- Send a splice (R98). -/
def State.sendSplice (s : State) (i : Nat) (c : StandCfg) (reason : SpliceReason) (spare : Spare) : State :=
  (s.queueUrgent (.spliceGo (i + 1) c.station reason spare.reel.paper)).onStand i fun st =>
    { st with splice := .splicing, reason := some reason, timer := c.timeout }

/-- Examine a stand in RUNNING or DUE (R96, R97). -/
def State.examine (s : State) (i : Nat) : State :=
  let st := s.stand i
  match st.cfg with
  | none => s
  | some c =>
    if st.splice = .running ∨ st.splice = .due then
      match st.causes c with
      | [] => s.onStand i fun st => { st with splice := .running }
      | causes =>
        match s.unmet i c, causes.find? (fun x => x.2), st.spare with
        | [], some (reason, _), some spare => s.sendSplice i c reason spare
        | unmet, _, _ =>
          let enters := st.splice == .running
          let s := s.onStand i fun st => { st with splice := .due }
          if enters && unmet.any (fun x => x != .band) then
            s.notify (.spliceWaiting (i + 1) (causes.map fun x => x.1) unmet)
          else s
    else s

/-- All stands, by their places in the table. -/
def everyStand : List Nat := List.range 7

/-- Examine every stand, as one event, in ascending number (assumption 50). -/
def State.examineAll (s : State) : State := (everyStand.foldl (fun s i => s.examine i) s).syncReasons everyStand

/-- The run-out stop: the fault is handed while a known reel is at or below the stop reserve and the stand is not
SPLICING (R104). -/
def State.judgeRunout (s : State) (i : Nat) : State :=
  let st := s.stand i
  match st.cfg with
  | none => s
  | some c =>
    if st.running.isSome ∧ st.remain ≤ c.stop ∧ st.splice ≠ .splicing then s.hand .runout (.one (i + 1)) else s

/-- The wrong-paper condition (R102). -/
def Stand.wrongPaper (st : Stand) : Bool := st.need != 0 && st.paper != some st.need

/-- With an open claim and no demand, the need is the demand (R94). DEDUCED (assumption 56): a demand that has arisen so stands when
the claim closes or the need changes at the splice point. -/
def State.syncDemand (s : State) (i : Nat) : State :=
  s.onStand i fun st =>
    if st.claim && st.demand.isNone then { st with demand := some { paper := st.need, boundary := none } } else st

/-- Judge the wrong-paper condition, with the start of a zone that opens and the closing distance of one that ends
(R102). -/
def State.judgePaper (s : State) (i : Nat) (start closing : Int) : State :=
  let st := s.stand i
  let pinned : Int := (st.cfg.map fun c => (c.dist : Int)).getD 0
  let s :=
    if st.wrongPaper && !st.claim then
      ((s.insertDefect (openMark .wrongPaper .spl (.wrongPaper (i + 1)) start
          { kind := .wrongPaper, owner := i + 1, pinned := pinned })).1).onStand i fun st => { st with claim := true }
    else if !st.wrongPaper && st.claim then
      (s.closeClaim .wrongPaper (i + 1) closing).onStand i fun st => { st with claim := false }
    else s
  s.syncDemand i

/-- The paper an order's grade requires at a stand, 0 meaning any (R94, R102). -/
def State.paperFor (s : State) (order : Option Nat) (i : Nat) : Nat :=
  (((order.bind fun o => (s.slot o).order).bind fun r => s.grade r.grade).bind fun g => g.papers[i]?).getD 0

/-- A BOUNDARY with an incoming order crosses a stand's lead point (R94). -/
def State.crossLead (s : State) (i : Nat) (incoming : Option Nat) (boundary : Nat) : State :=
  match incoming with
  | none => s
  | some o =>
    let p := s.paperFor (some o) i
    let demand := if p = 0 ∨ (s.stand i).paper = some p then none
      else some { paper := p, boundary := some boundary : Demand }
    (((s.onStand i fun st => { st with demand := demand }).syncDemand i).examine i).syncReasons [i]

/-- A BOUNDARY with an incoming order crosses a stand's splice point (R102). -/
def State.crossSplicePoint (s : State) (i : Nat) (incoming : Option Nat) (start : Int) : State :=
  match incoming with
  | none => s
  | some o =>
    (((s.onStand i fun st => { st with need := s.paperFor (some o) i }).judgePaper i start start).examine i).syncReasons [i]

/-- The running reel has come to carry the demanded paper: the demand becomes none (R94). -/
def Stand.meetDemand (st : Stand) : Stand :=
  if (st.demand.map fun d => d.paper) = st.paper then { st with demand := none } else st

/-- R after a reading of the same reel: down at once, up by at most a two-hundredth (R90). -/
def creep (present computed : Nat) : Nat := min computed (present + present / 200)

/-- A reading of the running reel is stored in the record (R90): whole for a reel not known or changed, which is judged as
paper, and with R creeping for the same reel. -/
def State.storeReel (s : State) (i : Nat) (c : StandCfg) (r : Reel) : State :=
  match (s.stand i).running with
  | none =>
    (s.onStand i fun st => { st with running := some r, remain := reelLength r }.meetDemand).judgePaper i c.dist c.dist
  | some old =>
    if old.paper ≠ r.paper ∨ old.caliper ≠ r.caliper ∨ old.tube ≠ r.tube then
      ((s.onStand i fun st => { st with running := some r, remain := reelLength r }.meetDemand).notify
        (.reelChanged (i + 1) old.paper r.paper)).judgePaper i c.dist c.dist
    else s.onStand i fun st => { st with running := some r, remain := creep st.remain (reelLength r) }

/-- A REEL_DIAMETER arrives for a stand (R90): one that changes R, or makes the reel known (assumption 45), is followed by the
examination and the run-out stop (R93, R104), one that changes the reel alone by the examination (R96). -/
def State.reelDiameter (s : State) (i : Nat) (r : Reel) : State :=
  match (s.stand i).cfg with
  | none => s
  | some c =>
    if !reelOk r then s.notify (.badReelData (i + 1))
    else
      let t := s.storeReel i c r
      let sameReel := (s.stand i).running.any fun old =>
        old.paper == r.paper && old.caliper == r.caliper && old.tube == r.tube
      let newR := (s.stand i).running.isNone || (t.stand i).remain != (s.stand i).remain
      let t := if newR || !sameReel then t.examine i else t
      (if newR then t.judgeRunout i else t).syncReasons [i]

/-- A stand reports that it has no prepared spare (R92). -/
def State.spareGone (s : State) (i : Nat) : State :=
  ((s.onStand i fun st =>
    { st with spare := none, spareCleared := st.spareCleared || st.splice == .fault }).examine i).syncReasons [i]

/-- A SPARE_STATE arrives for a stand (R92, R101). -/
def State.spareReport (s : State) (i : Nat) (report : SpareReport) : State :=
  let st := s.stand i
  match st.cfg with
  | none => s
  | some _ =>
    if st.splice = .splicing then s
    else
      match report with
      | .prepared r =>
        if !reelOk r then s.notify (.badReelData (i + 1))
        else
          ((s.onStand i fun st =>
            { st with
              spare := some { reel := r, remain := reelLength r },
              splice := if st.splice == .fault && st.spareCleared then .running else st.splice }).examine i).syncReasons [i]
      | .preparing => s.spareGone i
      | .absent => s.spareGone i

/-- The board between an early grade splice and the boundary it was made for is wrong paper for the outgoing order
(R103). DESIGN CHOICE (assumption 54): a paper that is not known is other than the one required. -/
def State.earlySplice (s : State) (i : Nat) (reason : SpliceReason) (demand : Option Demand) (paper : Option Nat)
    (jointEnd : Int) : State :=
  match (demand.bind fun d => d.boundary).bind s.findBoundary with
  | none => s
  | some m =>
    match m.payload with
    | .boundary outgoing _ _ _ =>
      let order := (s.osq.segments.find? fun g => g.num == outgoing).bind fun g => g.order
      let required := s.paperFor order i
      if reason = .grade ∧ jointEnd < m.start ∧ required ≠ 0 ∧ paper ≠ some required then
        (s.insertDefect (closedMark .wrongPaper .spl (.wrongPaper (i + 1)) jointEnd (m.start - jointEnd))).1
      else s
    | _ => s

/-- The stand runs on the spare (R99), the reason being that of the splice last made (R88). -/
def Stand.spliced (reason : SpliceReason) (st : Stand) : Stand :=
  { st with
    reason := some reason,
    timedOut := false,
    running := st.spare.map fun x => x.reel,
    remain := (st.spare.map fun x => x.remain).getD 0,
    spare := none,
    timer := 0,
    manual := false,
    demand := if (st.demand.map fun d => d.paper) = st.spare.map (fun x => x.reel.paper) then none else st.demand,
    splice := .running }

/-- The notices of a completed splice (R99, R100). -/
def State.noticeSplice (s : State) (i : Nat) (reason : SpliceReason) (paper : Option Nat) (joint : Int)
    (planned : Bool) : State :=
  (if planned then s else s.notify (.spliceUnplanned (i + 1))).notify (.spliceDone (i + 1) reason paper joint)

/-- A splice completes (R99, R100). planned says that the stand was SPLICING. -/
def State.completeSplice (s : State) (i : Nat) (c : StandCfg) (reason : SpliceReason) (counts : Nat)
    (planned : Bool) : State :=
  let st := s.stand i
  let joint : Int := (c.dist : Int) - ((counts * s.line.nums.feedScale / 65536 : Nat) : Int)
  let jointEnd : Int := joint + c.joint
  let paper := st.spare.map fun x => x.reel.paper
  let s := (s.insertSplice (i + 1) reason paper joint c.joint).onStand i (Stand.spliced reason)
  let s := (s.earlySplice i reason st.demand paper jointEnd).judgePaper i jointEnd joint
  let s := (s.log (.splice (i + 1) (some reason) .done)).noticeSplice i reason paper joint planned
  ((s.examine i).judgeRunout i).syncReasons [i]

/-- A SPLICE_DONE arrives for a stand (R99, R100): one of a stand that is not SPLICING is taken with the recorded reason
in FAULT after a timeout, and with MANUAL otherwise. -/
def State.spliceDone (s : State) (i : Nat) (counts : Nat) : State :=
  let st := s.stand i
  match st.cfg with
  | none => s
  | some c =>
    match st.splice with
    | .splicing => s.completeSplice i c (st.reason.getD .manual) counts true
    | .fault => s.completeSplice i c (if st.timedOut then st.reason.getD .manual else .manual) counts false
    | .running => s.completeSplice i c .manual counts false
    | .due => s.completeSplice i c .manual counts false

/-- A SPLICING stand enters FAULT (R101). -/
def State.failSplice (s : State) (i : Nat) (result : SpliceResult) (code : Option Nat) : State :=
  let reason := (s.stand i).reason
  let s := s.onStand i fun st =>
    { st with
      splice := .fault, timer := 0, manual := false, spareCleared := false, timedOut := result == .timeout }
  let s := s.log (.splice (i + 1) reason result)
  (s.notify (.spliceFailed (i + 1) reason code)).judgeRunout i

/-- A SPLICE_FAULT arrives for a stand (R101). -/
def State.spliceFault (s : State) (i : Nat) (code : Nat) : State :=
  let st := s.stand i
  match st.cfg with
  | none => s
  | some _ =>
    if st.splice = .splicing then (s.failSplice i .fault (some code)).syncReasons [i]
    else s.notify (.spliceFailed (i + 1) st.reason (some code))

/-- The splice timer of a stand runs out (R98). -/
def State.spliceExpired (s : State) (i : Nat) : State :=
  if (s.stand i).splice = .splicing then (s.failSplice i .timeout none).syncReasons [i] else s

/-- The splice timers count n + 1 cycles, stopping at 0 (R98). -/
def State.tickSplices (s : State) (n : Nat) : State :=
  everyStand.foldl (fun s i => s.onStand i fun st => { st with timer := st.timer - (n + 1) }) s

/-- A SPLICING stand whose splice timer has reached 0 enters FAULT (R98, R101). -/
def State.spliceDue (s : State) (i : Nat) : State :=
  if (s.stand i).splice = .splicing ∧ (s.stand i).timer = 0 then s.failSplice i .timeout none else s

/-- The splice timers that have reached 0, as one event, in ascending stand number (assumption 50). -/
def State.splicesDue (s : State) : State :=
  (everyStand.foldl (fun s i => s.spliceDue i) s).syncReasons everyStand

/-- The remaining length of each known running reel falls by an advance, stopping at 0 (R91). -/
def State.unwind (s : State) (a : Nat) : State :=
  s.onSpl fun p =>
    { p with stands := p.stands.map fun st => if st.running.isSome then { st with remain := st.remain - a } else st }

/-- After an advance every stand is judged: run-out and examination, then the run-out stop (R91). DESIGN CHOICE (assumption 50):
the stands are taken in ascending number. -/
def State.judgeStands (s : State) : State :=
  (everyStand.foldl (fun s i => (s.examine i).judgeRunout i) s).syncReasons everyStand

/-- A stand's REEL_DIAMETER source has gone stale (R91). -/
def State.diameterStale (s : State) (i : Nat) : State :=
  match (s.stand i).cfg with
  | none => s
  | some _ => (s.notify (.diameterStale (i + 1))).onStand i fun st => { st with staleNotice := true }

/-- A stand's REEL_DIAMETER source is fresh again (R91). -/
def State.diameterFresh (s : State) (i : Nat) : State := s.onStand i fun st => { st with staleNotice := false }

/-- SPL at LINE_RESET: a stand in FAULT returns to RUNNING, and every stand is examined (R96, R106). -/
def State.splLineReset (s : State) : State :=
  (s.onSpl fun p =>
    { p with stands := p.stands.map fun st => if st.splice == .fault then { st with splice := .running } else st }).examineAll

end Sys2Proof.Machine
end

