-- ==== Sys2Proof/Machine/Heat.lean ====
section
/-! DEFINITION. The Heat and Glue Regulator: setpoints, settle timers, readings, evaluation and off-band zones (R107 to
R125). -/

namespace Sys2Proof.Machine

/-! ### Points, channels and columns -/

/-- The process point at a number. -/
def State.point (s : State) (p : Nat) : Point := (s.hgr.points[p]?).getD (Point.cleared none)

/-- The sensor channel at a number. -/
def State.channel (s : State) (c : Nat) : Channel := (s.hgr.channels[c]?).getD (Channel.cleared none)

/-- Change a process point. -/
def State.onPoint (s : State) (p : Nat) (f : Point → Point) : State :=
  s.onHgr fun h => { h with points := modify h.points p f }

/-- Change a sensor channel. -/
def State.onChannel (s : State) (c : Nat) (f : Channel → Channel) : State :=
  s.onHgr fun h => { h with channels := modify h.channels c f }

/-- Whether a channel is tied to a point. -/
def Channel.tiedTo (p : Nat) (ch : Channel) : Bool := (ch.cfg.map fun k => k.point) == some p

/-- The column entry of a band (R107). -/
def columnEntry (c : Column) : Band → BandEntry
  | .crawl => c.crawl | .low => c.low | .mid => c.mid | .high => c.high

/-- The setpoint column of a point's grade, none when it is absent or the point has no grade. -/
def State.columnOf (s : State) (pt : Point) : Option Column :=
  match pt.cfg with
  | none => none
  | some c => (s.grade pt.grade).bind fun g => (g.columns[c.column]?).join

/-! ### Setpoints (R113 to R115) -/

/-- Queue a SETPOINT for a point that has a grade, keep what it carried, and load the settle timers of the point's
channels (R113, R115). DESIGN CHOICE (assumption 40): one that R186 discards counts as queued here. -/
def State.sendSetpoint (s : State) (p : Nat) : State :=
  let pt := s.point p
  match pt.cfg with
  | none => s
  | some c =>
    if pt.grade = 0 then s
    else
      let entry := (s.columnOf pt).map fun col => columnEntry col s.wtr.band
      let mode : SetpointMode := if entry.isSome then .run else .idle
      let s := s.queueRoutine (.setpoint p c.station c.kind pt.grade s.wtr.band mode entry)
      let s := s.onPoint p fun pt => { pt with last := some { grade := pt.grade, band := s.wtr.band, mode := mode } }
      s.onHgr fun h =>
        { h with
          channels := h.channels.map fun ch =>
            match ch.cfg with
            | some k => if k.point = p then { ch with settle := k.settle } else ch
            | none => ch }

/-- A SETPOINT for every point that has a grade, in point-number order (R114). -/
def State.resendSetpoints (s : State) : State := (List.range 12).foldl (fun s p => s.sendSetpoint p) s

/-- The settle timers count n + 1 cycles, stopping at 0 (R115). -/
def State.tickSettle (s : State) (n : Nat) : State :=
  s.onHgr fun h => { h with channels := h.channels.map fun ch => { ch with settle := ch.settle - (n + 1) } }

/-! ### Closing off-band zones (R111, R116, R122, R123) -/

/-- Close the OFFBAND claim of an OPEN channel at its point's distance d_p plus the guard, with a notice, and return
the channel to CLEAR (R122, R123). -/
def State.closeOffband (s : State) (c p dp : Nat) : State :=
  ((s.closeClaim .offband c ((dp : Int) + s.line.nums.gOff)).onChannel c fun ch => { ch with run := .clear }).notify
    (.offbandClosed c p)

/-- Whether a channel is OPEN (R120). -/
def Channel.isOpen (ch : Channel) : Bool :=
  match ch.run with
  | .opened _ => true
  | _ => false

/-- Close the zones of every OPEN channel tied to a point, at the point's distance (R111, R123). DESIGN CHOICE (assumption 50):
the channels are taken in ascending number. -/
def State.closeTied (s : State) (p dp : Nat) : State :=
  (List.range 16).foldl
    (fun s c => if (s.channel c).tiedTo p && (s.channel c).isOpen then s.closeOffband c p dp else s) s

/-- A point that has come to a grade or column that is absent can evaluate no channel: their zones are closed (R123). -/
def State.closeIfIdle (s : State) (p : Nat) : State :=
  match (s.point p).cfg with
  | none => s
  | some c => if (s.columnOf (s.point p)).isNone then s.closeTied p c.dist else s

/-! ### Grade changes (R112) -/

/-- The grade code of a slot's order. -/
def State.gradeCode (s : State) (i : Nat) : Nat := ((s.slot i).order.map fun r => r.grade).getD 0

/-- A BOUNDARY crosses a point: the point takes the incoming order's grade, if it differs (R112). -/
def State.crossPoint (s : State) (p : Nat) (incoming : Option Nat) : State :=
  match incoming with
  | none => s
  | some o =>
    if (s.point p).grade = s.gradeCode o then s
    else ((s.onPoint p fun pt => { pt with grade := s.gradeCode o }).sendSetpoint p).closeIfIdle p

/-! ### Readings and values (R117, R118) -/

/-- A raw value as it is held: above 4,095 it is invalid (R117). -/
def readingOf (raw : Nat) : Reading := if raw ≤ 4095 then .valid raw else .invalid

/-- The value of a valid reading in the point's unit (R117). -/
def ChannelCfg.value (k : ChannelCfg) (raw : Nat) : Int :=
  let r := if k.invert then 4095 - raw else raw
  max (-32768) (min 32767 (((r * k.mult / 256 : Nat) : Int) + k.offset))

/-- A channel's latest value, none without a valid reading. -/
def Channel.value (ch : Channel) : Option Int :=
  match ch.cfg, ch.reading with
  | some k, .valid raw => some (k.value raw)
  | _, _ => none

/-- Whether a subscription entry is loaded with HGR as owner and a channel as owner index (R116). -/
def State.entryFeeds (s : State) (entry channel : Nat) : Bool :=
  match (s.irt.subs[entry]?).bind fun e => e.cfg with
  | some c => c.owner == .hgr && c.index == channel
  | none => false

/-- Whether a channel hears its source: the entry that its record names delivers its readings (R178). Readings of a channel
that is not configured are held too (assumption 25). -/
def State.channelHears (s : State) (c : Nat) : Bool :=
  match (s.channel c).cfg with
  | some k => s.entryFeeds k.sub c
  | none => true

/-- Store the readings of a telegram, in item order, for the channels that hear them (R117, R178). -/
def State.storeReadings (s : State) (l : List (Nat × Nat)) : State :=
  l.foldl (fun s x =>
    if s.channelHears x.1 then s.onChannel x.1 fun ch => { ch with reading := readingOf x.2 } else s) s

/-- A channel's source has gone stale, or has come fresh (R118). DEDUCED (assumption 25): the flag follows the entry that is loaded
for the channel, also one that its record does not name, and a LOAD_CHANNEL leaves it as it is. -/
def State.channelStale (s : State) (c : Nat) (stale : Bool) : State := s.onChannel c fun ch => { ch with stale := stale }

/-! ### Evaluation (R119 to R122) -/

/-- The outcome of one evaluation (R120, R121): a pass, or a failure with the cause of an OFFBAND mark. -/
inductive Verdict where
  | pass
  | fail (cause : OffbandCause)
deriving DecidableEq, Repr

/-- Judge a channel against a band entry; one that is stale, or does not hear its source, fails with cause STALE (R118, R120,
R178). -/
def Channel.judge (ch : Channel) (hears : Bool) (e : BandEntry) : Verdict :=
  if ch.stale || !hears then .fail .stale
  else
    match ch.value with
    | none => .fail .stale
    | some v =>
      if (v - e.setpoint).natAbs > (if ch.settle > 0 then 2 * e.tolerance else e.tolerance) then .fail .deviation
      else .pass

/-- The k-th consecutive failure opens the off-band zone (R121). -/
def State.openOffband (s : State) (c : Nat) (k : ChannelCfg) (pc : PointCfg) (cause : OffbandCause) (moved : Nat)
    (e : BandEntry) : State :=
  let d : Int := pc.dist
  let g : Int := s.line.nums.gOff
  let v := (s.channel c).value
  let s := (s.insertDefect
    (openMark .offband .hgr (.offband c cause) (d - moved - g) { kind := .offband, owner := c, pinned := d + g })).1
  (s.onChannel c fun ch => { ch with run := .opened 0 }).notify
    (.offbandOpened c k.point cause v e.setpoint e.tolerance)

/-- A failure: count it, and open the zone at the confirm count (R120, R121). -/
def State.failChannel (s : State) (c : Nat) (k : ChannelCfg) (pc : PointCfg) (cause : OffbandCause) (e : BandEntry) :
    State :=
  match (s.channel c).run with
  | .clear =>
    if k.confirm ≤ 1 then s.openOffband c k pc cause 0 e
    else s.onChannel c fun ch => { ch with run := .suspect 1 0 }
  | .suspect failures moved =>
    if k.confirm ≤ failures + 1 then s.openOffband c k pc cause moved e
    else s.onChannel c fun ch => { ch with run := .suspect (failures + 1) moved }
  | .opened _ => s.onChannel c fun ch => { ch with run := .opened 0 }

/-- A pass: end a suspicion, or count it and close the zone at the confirm count (R120, R122). -/
def State.passChannel (s : State) (c : Nat) (k : ChannelCfg) (pc : PointCfg) : State :=
  match (s.channel c).run with
  | .clear => s
  | .suspect _ _ => s.onChannel c fun ch => { ch with run := .clear }
  | .opened passes =>
    if k.confirm ≤ passes + 1 then s.closeOffband c k.point pc.dist
    else s.onChannel c fun ch => { ch with run := .opened (passes + 1) }

/-- Evaluate a channel; one that is not configured, or whose point has no grade or an absent column, is passed over
(R119, R120). -/
def State.evaluate (s : State) (c : Nat) : State :=
  match (s.channel c).cfg with
  | none => s
  | some k =>
    match (s.point k.point).cfg, s.columnOf (s.point k.point) with
    | some pc, some col =>
      let e := columnEntry col s.wtr.band
      match (s.channel c).judge (s.channelHears c) e with
      | .pass => s.passChannel c k pc
      | .fail cause => s.failChannel c k pc cause e
    | _, _ => s

/-- Take the entry at the scan position and move the position on (R119). -/
def State.scan (s : State) : State :=
  match s.hgr.scan[s.hgr.position]? with
  | none => s
  | some c =>
    (s.evaluate c).onHgr fun h =>
      { h with position := if h.position + 1 < h.scan.length then h.position + 1 else 0 }

/-- HGR takes a cycle telegram with missed-cycle count n as one event: the readings are stored, the settle timers counted, one
scan entry evaluated (R117). -/
def State.heatCycle (s : State) (n : Nat) (readings : List (Nat × Nat)) : State :=
  ((s.storeReadings readings).tickSettle n).scan

/-- An advance moves the channels in SUSPECT (R120). -/
def Channel.advance (a : Nat) (ch : Channel) : Channel :=
  match ch.run with
  | .suspect failures moved => { ch with run := .suspect failures (min 2147483647 (moved + a)) }
  | .clear => ch
  | .opened _ => ch

end Sys2Proof.Machine
end

