-- ==== Sys2Proof/Machine/Knife.lean ====
section
/-! DEFINITION. The Knife Planner: planning a sheet, sending it, the passing of planning, confirmed cuts, late plans and
CUT_PLAN_CLEAR (R126 to R147). -/

namespace Sys2Proof.Machine

/-! ### Blocking zones (R131) -/

/-- A blocking zone as the planner sees it: its stretch, its kind, the mark it is of, and whether it is the segment's
closing boundary, which blocks all the board from its start upward. -/
structure Zone where
  start   : Int
  stop    : Int
  kind    : MarkKind
  seq     : Nat
  closing : Bool
deriving DecidableEq, Repr

/-- The closing boundary's mark of a segment, when it has one. -/
def State.closingOf (s : State) (g : Segment) : Option Mark := g.closing.bind s.findBoundary

/-- The blocking zones for an order of a quality class, in map order, with the closing boundary among them (R131). -/
def State.zonesFor (s : State) (q : Quality) (closing : Option Nat) : List Zone :=
  s.wmp.marks.filterMap fun m =>
    if m.kind == .boundary && some m.seq == closing then
      some { start := m.start, stop := m.zoneEnd, kind := m.kind, seq := m.seq, closing := true }
    else if blocks m.kind m.lenient q then
      some { start := m.start, stop := m.zoneEnd, kind := m.kind, seq := m.seq, closing := false }
    else none

/-- Whether a blocking zone overlaps a stretch (R131). -/
def Zone.hits (b e : Int) (z : Zone) : Bool :=
  if z.closing then z.start < e else zoneOverlaps z.start z.stop b e

/-- The first zone: the lowest start, the first in map order among equal ones (R133). -/
def firstZone : List Zone → Option Zone
  | [] => none
  | z :: zs =>
    match firstZone zs with
    | none => some z
    | some y => if y.start < z.start then some y else some z

/-- One round of raising the span's end by the zones that overlap or touch it there (R133). -/
def joinZones (zones : List Zone) (e : Int) : Int :=
  zones.foldl (fun e z => if !z.closing && z.start < z.stop && z.start ≤ e && e < z.stop then z.stop else e) e

/-- Rounds repeated until no zone joins; as many as there are zones are enough. -/
def growSpan (zones : List Zone) : Nat → Int → Int
  | 0, e => e
  | fuel + 1, e => growSpan zones fuel (joinZones zones e)

/-- The span's end: held at the closing boundary's zone end when that boundary lies in the span (R133). -/
def spanEnd (zones : List Zone) (first : Zone) : Int :=
  if first.closing then first.stop
  else
    let e := growSpan zones zones.length first.stop
    match zones.find? fun z => z.closing && z.start ≤ e with
    | some c => c.stop
    | none => e

/-- The reason a mark kind gives a plan (R133). -/
def reasonOfKind : MarkKind → PlanReason
  | .boundary => .boundary | .splice => .splice | .purge => .purge | .offband => .offband
  | .wrongPaper => .wrongPaper | .wrongSlit => .wrongSlit | .dwell => .dwell | .operator => .operator

/-! ### Deciding a sheet (R130 to R134) -/

/-- The length of a plain waste sheet (R130). DESIGN CHOICE (assumption 64): an OVERRUN sheet has its nominal length L, or reaches
to the closing boundary below it, also where that is above W_max; R136 calls W_max the longest waste sheet except R134's.
DESIGN CHOICE (assumption 67): it has the length L also where that is below W_min. -/
def plainLength (wMin wMax : Nat) (b nominal : Int) (closing : Option Mark) : Int :=
  match closing with
  | none => nominal
  | some m =>
    if b + nominal ≤ m.start then nominal
    else if (wMin : Int) ≤ m.start - b then m.start - b
    else min (wMax : Int) (max (wMin : Int) (m.zoneEnd - b))

/-- A plain waste sheet (R130). -/
def plainWaste (reason : PlanReason) (length : Int) : Sheet :=
  { length := length, disp := .waste, reason := reason, noted := false }

/-- Whether a stretch touches a lenient OFFBAND zone that does not block a LENIENT order (R132). -/
def State.touchesLenient (s : State) (q : Quality) (b e : Int) : Bool :=
  q == .lenient && s.wmp.marks.any fun m =>
    m.kind == .offband && m.lenient && zoneOverlaps m.start m.zoneEnd b e

/-- A sheet of case 4, judged against the blocking zones (R131 to R133). DESIGN CHOICE (assumption 67): a GOOD sheet has its order's
length L also where a SET_LINE has left that below W_min. -/
def State.bracket (s : State) (g : Segment) (r : OrderRec) (b : Int) : Sheet :=
  let e := b + (r.length : Int)
  let zones := s.zonesFor r.quality g.closing
  match firstZone (zones.filter (Zone.hits b e)) with
  | none => { length := r.length, disp := .good, reason := .normal, noted := s.touchesLenient r.quality b e }
  | some z =>
    plainWaste (reasonOfKind z.kind)
      (min (s.line.nums.wMax : Int) (max (s.line.nums.wMin : Int) (spanEnd zones z - b)))

/-- The sheet by the cases of R130, before R134. A segment without room gets no GOOD sheet: one that case 4 would make GOOD there
is OVERRUN waste (R59, R132, assumption 37). -/
def State.caseSheet (s : State) (g : Segment) (b : Int) : Sheet :=
  let c := s.closingOf g
  let plain (reason : PlanReason) (nominal : Int) : Sheet :=
    plainWaste reason (plainLength s.line.nums.wMin s.line.nums.wMax b nominal c)
  if s.lsc.state = .threading then plain .thread s.line.nums.wMax
  else
    match g.order.bind fun i => (s.slot i).order with
    | none => plain .noOrder s.line.nums.wMax
    | some r =>
      let roomToBoundary := match c with
        | none => true
        | some m => (s.line.nums.wMin : Int) ≤ m.start - b
      let x := s.bracket g r b
      if s.room g = 0 && (roomToBoundary || x.disp == .good) then plain .overrun r.length else x

/-- A sheet that would end below W_min is THREAD waste up to W_min instead (R134). -/
def shortSheet (wMin : Nat) (b : Int) (x : Sheet) : Sheet :=
  if b + x.length < wMin then plainWaste .thread (wMin - b) else x

/-- The next sheet of a segment, planned from the front (R130 to R134). -/
def State.decideSheet (s : State) (g : Segment) : Sheet :=
  shortSheet s.line.nums.wMin s.knp.front (s.caseSheet g s.knp.front)

/-! ### NO_ORDER, the passing of planning and sending a plan (R127, R129, R135) -/

/-- Whether NO_ORDER is to be held (R129). -/
def State.wantsNoOrder (s : State) : Bool :=
  (s.lsc.state == .producing || s.lsc.state == .halting)
    && (match s.planned with
        | some g => g.order.isNone
        | none => false)

/-- KNP raises and drops NO_ORDER as its conditions change (R129). -/
def State.syncNoOrder (s : State) : State :=
  if s.wantsNoOrder == s.holds .noOrder 0 then s
  else if s.wantsNoOrder then s.raise .noOrder 0 .limitCrawl
  else s.drop .noOrder 0

/-- While the front is at or above the closing boundary's zone end, planning passes to the next segment (R135, R58); the
first argument bounds the segments passed. -/
def State.passPlanning : Nat → State → State
  | 0, s => s
  | fuel + 1, s =>
    match s.planned.bind s.closingOf with
    | none => s
    | some m =>
      if m.zoneEnd ≤ s.knp.front then
        State.passPlanning fuel (s.onOsq fun o => { o with segments := passFlag o.segments })
      else s

/-- Send a plan for a segment (R127): CUT_PLAN, the plan at the queue's tail, the counter, the front, the report to
OSQ; then the comparison of R135. -/
def State.sendPlan (s : State) (g : Segment) (x : Sheet) : State :=
  let p : Plan :=
    { seq := s.knp.counter, stop := s.knp.front + x.length, length := x.length, disp := x.disp, reason := x.reason,
      order := g.order, segment := g.num, noted := x.noted, diverted := false, late := false }
  let s := s.queueUrgent (.cutPlan p.seq p.length p.disp p.reason (s.numberOf g.order))
  let s := s.onKnp fun k =>
    { k with
      plans := k.plans ++ [p], counter := (k.counter + 1) % 65536, front := p.stop, withdrawn := [], planSent := true }
  State.passPlanning 4 (s.reportPlan p)

/-- Plan sheets while fewer than two plans are outstanding and the line state is one that plans (R129). -/
def State.planSheets : Nat → State → State
  | 0, s => s
  | fuel + 1, s =>
    if s.knp.plans.length < 2 ∧ runsLine s.lsc.state = true then
      match s.planned with
      | none => s
      | some g => State.planSheets fuel (s.sendPlan g (s.decideSheet g))
    else s

/-- Fill the plan queue, and then bring NO_ORDER in line: the end of each event at KNP that plans (R15, assumption 46). -/
def State.refill (s : State) : State := (State.planSheets 2 s).syncNoOrder

/-! ### Confirmed cuts (R137 to R140) -/

/-- A cut is miscut when its difference lies outside the tolerance (R138). -/
def isMiscut (tolerance : Nat) (d : Int) : Bool := tolerance < d.natAbs

/-- What a confirmed plan comes to (R138). -/
def Plan.outcome (p : Plan) (tolerance : Nat) (d : Int) : CutOutcome :=
  match p.disp with
  | .waste => .waste
  | .good =>
    if p.diverted then .diverted
    else if isMiscut tolerance d then .miscut
    else if p.noted then .goodNoted
    else .good

/-- The reason of the WASTE_CUT record of an outcome, when there is one (R138). -/
def Plan.wasteReason (p : Plan) : CutOutcome → Option WasteReason
  | .good => none
  | .goodNoted => none
  | .diverted => some .lateMark
  | .miscut => some .miscut
  | .waste => some (.plan p.reason)

/-- Settle the removed plan (R138): the DIVERT of a miscut, the WASTE_CUT record, the outcome to OSQ. DESIGN CHOICE (assumption
51): KNP's records stand before the ORDER_END that the outcome brings. -/
def State.settle (s : State) (p : Plan) (actual : Nat) : State :=
  let d : Int := actual - p.length
  let x := p.outcome s.line.nums.miscut d
  let s := if x = .miscut then (s.queueUrgent (.divert p.seq .miscut)).log (.divert p.seq .miscut d) else s
  let s := match p.wasteReason x with
    | some w => s.log (.wasteCut (s.numberOf p.order) w actual)
    | none => s
  s.reportOutcome p.order x

/-- The remaining plan is judged on the board it now covers (R139): the first blocking zone in map order diverts it. -/
def State.rejudge (s : State) : State :=
  match s.knp.plans with
  | [] => s
  | p :: _ =>
    if p.disp = .good ∧ p.diverted = false then
      let closing := (s.osq.segments.find? fun g => g.num == p.segment).bind fun g => g.closing
      match (s.zonesFor (s.qualityOf p.order) closing).find? (Zone.hits s.knp.cutEdge p.stop) with
      | some z => s.divertLate 0 p z.seq
      | none => s
    else s

/-- The knife confirms the oldest plan (R137). -/
def State.confirmCut (s : State) (p : Plan) (rest : List Plan) (actual : Nat) : State :=
  let d : Int := actual - p.length
  let s := s.onKnp fun k =>
    { k with
      plans := rest.map fun q => { q with stop := q.stop + d },
      cutEdge := p.stop + d,
      front := k.front + d }
  (State.passPlanning 4 (s.settle p actual).rejudge).refill

/-- The knife confirms a plan that was withdrawn (R140); the DIVERT record's third field is unused and holds 0 (R144,
R156). -/
def State.confirmWithdrawn (s : State) (w : Withdrawn) (actual : Nat) : State :=
  let edge : Int := w.stop + (actual - w.length)
  ((s.onKnp fun k => { k with cutEdge := edge, front := edge }).queueUrgent (.divert w.seq .withdrawn)).log
    (.divert w.seq .withdrawn 0)

/-- KNP takes a CUT_DONE (R137, R140). -/
def State.cutDone (s : State) (seq actual : Nat) : State :=
  match s.knp.plans, s.knp.withdrawn.find? (fun w => w.seq == seq) with
  | p :: rest, _ =>
    if p.seq = seq then s.confirmCut p rest actual else s.hand .knifeSequence (.two seq (some p.seq))
  | [], some w => s.confirmWithdrawn w actual
  | [], none => if s.knp.planSent then s.hand .knifeSequence (.two seq none) else s

/-! ### At an advance (R128, R140, R141, R143) -/

/-- An advance moves the front, the cut edge, the plans' ends and the withdrawn ends (R128, R140). -/
def Knp.advance (a : Nat) (k : Knp) : Knp :=
  { k with
    plans := k.plans.map fun p => { p with stop := p.stop - a },
    cutEdge := k.cutEdge - a,
    front := k.front - a,
    withdrawn := k.withdrawn.map fun w => { w with stop := w.stop - a } }

/-- Hand KNIFE_LATE once for a plan that has run past the late limit (R141). -/
def State.judgeLate (s : State) (i : Nat) : State :=
  match s.knp.plans[i]? with
  | none => s
  | some p =>
    if !p.late && p.stop < -(s.line.nums.lateLimit : Int) then
      (s.hand .knifeLate (.one p.seq)).onPlan i fun p => { p with late := true }
    else s

/-- Test a plan against every open mark (R143). DESIGN CHOICE (assumption 57): in map order, so that the DIVERT names the first of
several that come to overlap it at one advance. -/
def State.judgeOpen (s : State) (i : Nat) : State :=
  (s.wmp.marks.filter Mark.isOpen).foldl (fun s m => s.judgePlan m i) s

/-- KNP's tests after the plans' ends have moved (R141, R143). DESIGN CHOICE (assumption 61): the late test of every plan comes
before the test of any against the open marks. -/
def State.knifeTests (s : State) : State :=
  let l := List.range s.knp.plans.length
  l.foldl (fun s i => s.judgeOpen i) (l.foldl (fun s i => s.judgeLate i) s)

/-! ### CUT_PLAN_CLEAR (R145) -/

/-- Whether an item is one that a clear takes out of the urgent queue (R145). -/
def isKnifeItem : OutItem → Bool
  | .cutPlan .. => true
  | .divert .. => true
  | _ => false

/-- The clear (R145): the waiting CUT_PLANs and DIVERTs go, CUT_PLAN_CLEAR is queued, the plans are withdrawn oldest
first, and the front returns to the cut edge. -/
def State.clearKnife (s : State) : State :=
  let plans := s.knp.plans
  let s := (s.onRif fun r => { r with urgent := r.urgent.filter fun o => !isKnifeItem o }).queueUrgent .cutPlanClear
  let s := s.onKnp fun k =>
    { k with
      plans := [],
      withdrawn := if plans.isEmpty then k.withdrawn
        else plans.map fun p => { seq := p.seq, stop := p.stop, length := p.length } }
  let s := plans.foldl (fun s p => s.withdrawPlan p) s
  (s.onKnp fun k => { k with front := k.cutEdge }).refill

end Sys2Proof.Machine
end

