-- ==== Sys2Proof/Machine/Boundary.lean ====
section
/-! DEFINITION. Boundaries: crossings, creation, the creation evaluations, the next-order candidate, and what an advance
does on the map and in the blocks that hold moving state (R8, R30 to R33, R54, R65 to R72). -/

namespace Sys2Proof.Machine

/-! ### Crossings (R33) -/

/-- The owner of a registered distance takes the report of a BOUNDARY that crossed it (R33, R72, R79, R94, R102,
R112). -/
def State.crossed (s : State) (m : Mark) (role : StationRole) : State :=
  match m.payload with
  | .boundary _ incoming _ _ =>
    match role with
    | .lead k => s.crossLead (k - 1) incoming m.seq
    | .splicePoint k => s.crossSplicePoint (k - 1) incoming m.start
    | .slitter => s.crossSlitter m
    | .point p => s.crossPoint p incoming
  | _ => s

/-- The distances of a table at or above a start, with their roles (R33, crossing at creation). -/
def rolesAbove (start : Int) (table : List (Int × StationRole)) : List StationRole :=
  (table.filter fun x => start ≤ x.1).map fun x => x.2

/-- The crossings of an advance in map order: each BOUNDARY, as it stands after the advance, with the roles of the
distances its start passed (R33). DESIGN CHOICE (assumption 28): also reports for different distances go boundary by boundary in map
order. -/
def crossingsOf (a : Nat) (table : List (Int × StationRole)) (old : List Mark) : List (Mark × StationRole) :=
  old.flatMap fun m =>
    if m.kind == .boundary then
      (table.filter fun x => x.1 < m.start && (m.move a).start ≤ x.1).map fun x => (m.move a, x.2)
    else []

/-! ### The next-order candidate (R54) -/

/-- Work the candidate out again, and report it to the Changeover Unit when it has changed (R54). -/
def State.reportCandidate (s : State) : State :=
  let new := s.osq.nextCandidate
  if new = s.osq.candidate then s
  else (s.onOsq fun o => { o with candidate := new }).forecastFor new

/-! ### Creation (R71) -/

/-- The BOUNDARY mark of a creation (R27, R71). -/
def boundaryMark (seq : Nat) (start : Int) (length : Nat) (outgoing : Nat) (incoming : Option Nat) (flying : Bool)
    (preset : Nat) : Mark :=
  { closedMark .boundary .osq (.boundary outgoing incoming flying preset) start length with seq := seq }

/-- Steps 1 and 2 of a creation (R71): the new boundary closes the lead segment, and a suspension pushes its order. -/
def State.closeLead (s : State) (lead : Segment) (seq : Nat) (suspend : Bool) : State :=
  let s := s.onSegments (fun g => g.num == lead.num) fun g => { g with closing := some seq }
  if suspend then s.suspendLead else s

/-- Step 5 of a creation (R71): the mark, with its crossings at creation (R33). -/
def State.placeBoundary (s : State) (m : Mark) : State :=
  (rolesAbove m.start s.registered).foldl (fun s role => s.crossed m role) (s.bumpSeq.placeMark m)

/-- Step 6 of a creation (R71): the new lead segment with its target. -/
def State.openSegment (s : State) (taken : Option (Nat × Origin)) (seq : Nat) : State :=
  let target := match taken with
    | some (i, from_) => s.targetFor i from_
    | none => 0
  s.onOsq fun o =>
    { o with
      segments := o.segments ++ [{ num := o.nextNum, order := taken.map fun x => x.1, target := target,
                                   goodPlanned := 0, opening := some seq, closing := none, planning := false }],
      nextNum := o.nextNum + 1 }

/-- Create a boundary at a start, which is never below the lead segment's base (R71): the closing boundary, the
suspension, selection, the flying decision, the mark with its crossings at creation, the new lead segment, the candidate;
then KNP's comparison (R135). -/
def State.createBoundary (s : State) (at_ : Int) (suspend : Bool) : State :=
  match s.lead with
  | none => s
  | some lead =>
    let start := max at_ (s.base lead)
    let seq := s.wmp.nextSeq
    let s := s.closeLead lead seq suspend
    let x := State.select s.candidates s
    let incoming := x.2.map fun y => y.1
    let y := x.1.decideFlying incoming seq start
    let m := boundaryMark seq start (if y.2.1 then 0 else s.line.nums.zSwap) lead.num incoming y.2.1 y.2.2
    (State.passPlanning 4 ((y.1.placeBoundary m).openSegment x.2 seq).reportCandidate).syncNoOrder

/-- What the creation evaluations find due for the lead segment (R67 to R69). -/
inductive Due where
  | nothing
  | endBoundary (p : Int)
  | available
  | suspension
deriving DecidableEq, Repr

/-- Whether a creation is due, and which (R67 to R70): none while the list holds 4 segments. -/
def State.due (s : State) : Due :=
  if 4 ≤ s.osq.segments.length then .nothing
  else
    match s.lead with
    | none => .nothing
    | some g =>
      match s.projectionOf g with
      | none => if g.order.isNone && s.osq.nextCandidate.isSome then .available else .nothing
      | some p =>
        if p ≤ (s.line.nums.dCreate : Int) then .endBoundary p
        else if s.osq.rush.isSome then .suspension
        else .nothing

/-- Make the creation that is due. -/
def State.createDue (s : State) : Due → State
  | .nothing => s
  | .endBoundary p => s.createBoundary p false
  | .available => s.createBoundary s.line.nums.dCreate false
  | .suspension => s.createBoundary s.line.nums.dCreate true

/-- Evaluate at an advance until no creation is due or the list holds 4 segments (R67); the first argument bounds the
creations. -/
def State.evaluateCreation : Nat → State → State
  | 0, s => s
  | fuel + 1, s =>
    match s.due with
    | .nothing => s
    | d => State.evaluateCreation fuel (s.createDue d)

/-- The candidate may have changed by a request: report it, and when it has come from none to an order behind a NONE lead
segment, create the boundary at once (R54, R68). -/
def State.candidateEvent (s : State) : State :=
  let was := s.osq.candidate
  let s := s.reportCandidate
  if was.isNone && s.due == .available then s.createDue .available else s

/-- The rush creation evaluation made at the acceptance of INSERT_RUSH, with its outcome and the boundary's number (R69,
R195). -/
def State.evaluateRush (s : State) : State × RushOutcome × Option Nat :=
  let seq := s.wmp.nextSeq
  match s.due with
  | .nothing => (s, .waiting, none)
  | .available => (s.createDue .available, .opened, some seq)
  | .endBoundary p => (s.createDue (.endBoundary p), .follows, some seq)
  | .suspension => (s.createDue .suspension, .suspended, some seq)

/-! ### Retirement (R32, R36, R61) -/

/-- What follows the retirement of a mark: a BOUNDARY's outgoing segment leaves, and with it perhaps the planning flag
(R61, R129); a PURGE makes the map valid when it was armed (R32, R36). -/
def State.retired (s : State) (m : Mark) : State :=
  match m.kind with
  | .boundary => s.retireSegment.syncNoOrder
  | .purge => if s.wmp.armed then s.onWmp fun w => { w with valid := true, armed := false } else s
  | _ => s

/-- Retire every closed mark whose end is at or below 0, in map order (R32). -/
def State.retireMarks (s : State) : State :=
  let gone := s.wmp.marks.filter Mark.retires
  gone.foldl (fun s m => s.retired m) (s.onWmp fun w => { w with marks := w.marks.filter fun m => !m.retires })

/-! ### The advance (R8) -/

/-- An advance moves the distances that LSC keeps (R171). -/
def Lsc.advance (a : Nat) (l : Lsc) : Lsc :=
  { l with
    threading := if l.state = .threading then min 2147483647 (l.threading + a) else l.threading,
    purge := l.purge - a }

/-- An advance moves the zone ends of the changeover records (R83). -/
def Chg.advance (a : Nat) (c : Chg) : Chg :=
  { c with records := c.records.map fun r => { r with zoneEnd := r.zoneEnd - a } }

/-- Move everything that an advance moves (R8, R30, R83, R91, R120, R128, R171). -/
def State.shift (s : State) (a : Nat) : State :=
  ((((((s.onWmp fun w => { w with marks := w.marks.map (Mark.move a) }).onKnp (Knp.advance a)).unwind a).onChg
    (Chg.advance a)).onHgr fun h => { h with channels := h.channels.map (Channel.advance a) }).onLsc (Lsc.advance a))

/-- The map's reports of an advance: the crossings, then the retirements (R30, R32, R33). -/
def State.mapReports (s : State) (crossings : List (Mark × StationRole)) : State :=
  (crossings.foldl (fun s x => s.crossed x.1 x.2) s).retireMarks

/-- The blocks take an advance (R8); nothing is delivered for an advance of 0. spliceBeforeMap says that the Splice
Planner judges its stands before the map's reports. A list that holds 4 segments when the advance is delivered makes no creation
in it: one that waits behind the boundary this advance retires is made at the next (R61, R68 to R70). -/
def State.advance (s : State) (a : Nat) (spliceBeforeMap : Bool) : State :=
  if a = 0 then s
  else
    let crossings := crossingsOf a s.registered s.wmp.marks
    let full := decide (4 ≤ s.osq.segments.length)
    let s := s.shift a
    let s := if spliceBeforeMap then (s.judgeStands).mapReports crossings else (s.mapReports crossings).judgeStands
    if full then s.swapAdvance.knifeTests else State.evaluateCreation 4 s.swapAdvance.knifeTests

end Sys2Proof.Machine
end

