-- ==== Sys2Proof/Machine/LineControl.lean ====
section
/-! DEFINITION. Line State Control: changes of line state, faults, line status, start checks, starts, halts and
LINE_RESET (R161 to R172). -/

namespace Sys2Proof.Machine

/-! ### Changes of line state (R161) -/

/-- The reason that each line state holds, PRODUCING none (R161, R16). -/
def stateReason : LineState → Option Raised
  | .stopped => some Raised.stoppedState
  | .threading => some { reason := .threading, inst := 0, req := .limitCrawl }
  | .producing => none
  | .halting => some { reason := .halt, inst := 0, req := .stop }
  | .faulted => some { reason := .fault, inst := 0, req := .stop }

/-- What KNP, SPL and HGR do on the report of a new line state (R96, R114, R129, R145). DESIGN CHOICE (assumption 59): in that order,
in which R161 lists them. -/
def State.stateReported (s : State) (old new : LineState) : State :=
  let s := if new = .faulted ∧ old ≠ .faulted then s.clearKnife else s
  let s := s.refill.examineAll
  if old = .stopped ∧ (new = .threading ∨ new = .producing) then s.resendSetpoints else s

/-- The line state becomes another: one alteration of the reason set, which drops the reason of the state left and the
further ones named, the LINE_STATE record, and the report to the other blocks (R161). -/
def State.enterState (s : State) (new : LineState) (cause : StateCause) (further : List (Reason × Nat)) : State :=
  let old := s.lsc.state
  let drops := (stateReason old).toList.map fun r => (r.reason, r.inst)
  let s := s.onLsc fun l => { l with state := new }
  let s := s.alter (drops ++ further) (stateReason new).toList
  (s.log (.lineState old new cause)).stateReported old new

/-! ### Faults (R168, R169) -/

/-- The faults after which the web has gone uncounted (R35). -/
def losesWeb : FaultCode → Bool
  | .encoderLost => true | .encoderReverse => true | .ringLost => true
  | .knifeLate => false | .knifeSequence => false | .runout => false | .swapTimeout => false
  | .slitterConflict => false | .stackerOverrun => false | .outboundJam => false

/-- LSC takes one fault handed to it (R168): latched when the latch is clear, with the line taken to FAULTED if it runs;
otherwise recorded once as following. -/
def State.takeFault (s : State) (f : FaultReport) : State :=
  match s.lsc.latch with
  | none =>
    let s := s.log (.fault f.code false f.detail)
    let s := s.notify (.faultLatched f.code f.detail s.lsc.state)
    let s := if losesWeb f.code then s.loseMap else s
    let s := s.onLsc fun l =>
      { l with
        latch := some { code := f.code, detail := f.detail, stamp := s.stamp },
        seen := if l.seen.contains f.code then l.seen else l.seen ++ [f.code] }
    if runsLine s.lsc.state then s.enterState .faulted (.fault f.code) [] else s
  | some _ =>
    let s :=
      if s.lsc.seen.contains f.code then s
      else (s.onLsc fun l => { l with seen := l.seen ++ [f.code] }).log (.fault f.code true f.detail)
    if losesWeb f.code then s.loseMap else s

/-- LSC takes the faults handed so far, in order. -/
def State.takeHanded (s : State) : State := s.handed.foldl (fun s f => s.takeFault f) { s with handed := [] }

/-- LSC takes the faults handed, and those that entering FAULTED has handed in its turn; with the latch set by then,
nothing more is handed. -/
def State.takeFaults (s : State) : State := s.takeHanded.takeHanded

/-! ### Line status, halt and dwell (R162, R166, R167) -/

/-- The halt is complete: STOPPED, and the dwell mark (R166, R167). -/
def State.completeHalt (s : State) : State := (s.enterState .stopped .statusStopped []).askDwell.1

/-- LSC takes the LINE_STATUS of a telegram, the last in item order (R162). -/
def State.lineStatus (s : State) (running : Bool) : State :=
  if running then s.onLsc fun l => { l with status := .running, held := false }
  else
    let s := s.onLsc fun l => { l with status := .stopped }
    match s.lsc.state with
    | .halting => s.completeHalt
    | .threading =>
      if s.lsc.held then s else (s.notify (.lineHeld .threading)).onLsc fun l => { l with held := true }
    | .producing =>
      if s.lsc.held then s else (s.notify (.lineHeld .producing)).onLsc fun l => { l with held := true }
    | .stopped => s
    | .faulted => s

/-- The LINE_STATUS source has gone stale (R162). -/
def State.statusStale (s : State) : State :=
  (s.onLsc fun l => { l with status := .unknown }).raise .lineStatusStale 0 .stop

/-- The LINE_STATUS source is fresh again (R162). -/
def State.statusFresh (s : State) : State := s.drop .lineStatusStale 0

/-! ### Starts (R163 to R165) -/

/-- The first stand above D_create, by its number (R164 check 1). -/
def State.standAbove (s : State) : Option Nat :=
  (s.spl.stands.toList.zipIdx.find? fun x =>
    match x.1.cfg with
    | some c => s.line.nums.dCreate < c.dist + c.lead
    | none => false).map fun x => x.2 + 1

/-- The first point above D_create (R164 check 2). -/
def State.pointAbove (s : State) : Option Nat :=
  (s.hgr.points.toList.zipIdx.find? fun x =>
    match x.1.cfg with
    | some c => s.line.nums.dCreate < c.dist
    | none => false).map fun x => x.2

/-- The station code of the LINE_MASTER entry (R176). -/
def State.lineMaster (s : State) : Option Nat :=
  ((s.irt.stations.toList.filterMap id).find? fun e => e.role == .lineMaster).map fun e => e.code

/-- Whether a subscription entry names the line master's items of a kind, with their owner (R164 checks 4 and 5). -/
def State.hearsMaster (s : State) (kind : StationKind) (owner : Block) : Bool :=
  match s.lineMaster with
  | none => false
  | some code =>
    (s.irt.subs.toList.filterMap fun e => e.cfg).any fun c => c.source == code && c.kind == kind && c.owner == owner

/-- The start checks in order: the index and detail of the first that fails (R164). -/
def State.startCheck (s : State) : Option (Nat × Nat) :=
  match s.standAbove, s.pointAbove with
  | some k, _ => some (1, k)
  | none, some p => some (2, p)
  | none, none =>
    if s.line.nums.dCreate < s.line.nums.dSs then some (3, 0)
    else if !s.hearsMaster .feedCount .wtr then some (4, 0)
    else if !s.hearsMaster .lineStatus .lsc then some (5, 0)
    else if s.lsc.latch.isSome then some (6, 0)
    else none

/-- A start asks for a purge and loads the purge distance (R163, R165, R171). -/
def State.startPurge (s : State) : State :=
  s.requestPurge.onLsc fun l => { l with purge := s.line.nums.dCreate }

/-- A start that has passed its checks enters its line state, with a purge when the map is not valid; whether KNP plans
before the purge is on the map is open (R129, assumption 3). -/
def State.start (s : State) (new : LineState) (code : Nat) : State :=
  let first := (Config.order s.choices).planBeforePurge
  let s := { s with choices := s.choices + 1 }
  let s := if new = .threading then s.onLsc fun l => { l with threading := 0 } else s
  if s.wmp.valid then s.enterState new (.request code) []
  else if first then (s.enterState new (.request code) []).startPurge
  else s.startPurge.enterState new (.request code) []

/-! ### HALT and LINE_RESET (R166, R170) -/

/-- HALT (R166): HALTING, and straight on to STOPPED when the line master already reports the line stopped. -/
def State.haltLine (s : State) : State :=
  let s := s.enterState .halting (.request 24) []
  if s.lsc.status = .stopped then s.completeHalt else s

/-- LINE_RESET as taken (R170): the dwell, the latch, the threading distance, STOPPED with HALT and FAULT dropped in the
same alteration, and the reset of the blocks that keep running state. Says whether a dwell mark was asked for. -/
def State.resetLine (s : State) : State × Bool :=
  let (s, dwell) := if s.lsc.state = .faulted ∧ s.wmp.valid = true then s.askDwell else (s, false)
  let s := s.onLsc fun l => { l with latch := none, seen := [], threading := 0 }
  let s := s.enterState .stopped (.request 25) [(.halt, 0), (.fault, 0)]
  let s := s.clearKnife.splLineReset.chgLineReset
  (s.onWtr fun w => { w with debt := 0 }, dwell)

end Sys2Proof.Machine
end

