-- ==== Sys2Proof/Machine/Layouts.lean ====
section
/-! DEFINITION. Byte layouts (chapter 12): numbers, the telegram header and its items, CUT_DONE and SPLICE_DONE, request items,
CUT_PLAN and SLITTER_PRESET, LOAD_ORDER's arguments, READ_MAP's reply, the reply space. -/

namespace Sys2Proof.Machine

/-! ### Numbers, most significant byte first (R202) -/

/-- The unsigned number that bytes hold. -/
def readNat (l : List Byte) : Nat := l.foldl (fun n b => n * 256 + b.toNat) 0

/-- A number in n bytes; a negative one in two's complement, and one too large by its low bytes. -/
def writeInt : Nat → Int → List Byte
  | 0, _ => []
  | n + 1, v => writeInt n (v / 256) ++ [BitVec.ofInt 8 v]

/-- The first n bytes and the rest, when there are as many. -/
def takeBytes (n : Nat) (l : List Byte) : Option (List Byte × List Byte) :=
  if n ≤ l.length then some (l.take n, l.drop n) else none

/-- The next field of n bytes, and the rest. -/
def takeField (n : Nat) (l : List Byte) : Option (Nat × List Byte) :=
  (takeBytes n l).map fun x => (readNat x.1, x.2)

/-- The number in the n bytes at an offset. -/
def fieldAt (offset n : Nat) (l : List Byte) : Nat := readNat ((l.drop offset).take n)

/-- Bytes with others written over them from an offset on. -/
def overwrite (offset : Nat) (new l : List Byte) : List Byte := l.take offset ++ new ++ l.drop (offset + new.length)

/-! ### The form of a telegram (R173, R203) -/

/-- Whether bytes are items laid end to end; the first argument bounds their number. -/
def itemsFill : Nat → List Byte → Bool
  | 0, l => l.isEmpty
  | fuel + 1, l =>
    if l.isEmpty then true
    else if 5 ≤ l.length then
      let n := fieldAt 3 2 l
      if 5 + n ≤ l.length then itemsFill fuel (l.drop (5 + n)) else false
    else false

/-- The class and the length of a telegram's header, as far as they can be read (R173). -/
def headerClass (l : List Byte) : Option Nat := l.head?.map fun b => b.toNat
def headerLength (l : List Byte) : Option Nat := if 6 ≤ l.length then some (fieldAt 4 2 l) else none

/-- Whether bytes are a well-formed telegram (R173, R203). DESIGN CHOICE (assumption 68): bytes that arrive beyond the header's total
length make it one that is not well formed. -/
def bytesWellFormed (l : List Byte) : Bool :=
  match headerLength l with
  | none => false
  | some n =>
    (headerClass l == some 1 || headerClass l == some 2) && n ≤ 1500 && n == l.length
      && itemsFill l.length (l.drop 6)

/-! ### Station items (R205, R208) -/

/-- CUT_DONE: sequence number and actual length; bytes behind them are ignored. -/
def readCutDone (l : List Byte) : Option (Nat × Nat) :=
  if 6 ≤ l.length then some (fieldAt 0 2 l, fieldAt 2 4 l) else none

/-- SPLICE_DONE: the encoder counts since the joint passed the splice point. -/
def readSpliceDone (l : List Byte) : Option Nat := if 2 ≤ l.length then some (fieldAt 0 2 l) else none

/-- The station item kind of a report. -/
def reportKind : Report → StationKind
  | .feedCount _ => .feedCount
  | .lineStatus _ => .lineStatus
  | .reelDiameter _ => .reelDiameter
  | .spareState _ => .spareState
  | .spliceFault _ => .spliceFault
  | .zoneValue _ => .zoneValue
  | .slitterState _ => .slitterState
  | .stackState _ _ => .stackState

/-- A station item's payload: read from its bytes where the manual lays them out, and otherwise what they spell, if that is a
report of the kind (assumption 10). -/
def readStation (k : StationKind) (l : List Byte) (c : Contents) : Payload :=
  match k with
  | .cutDone => (readCutDone l).elim (.illFormed k) fun x => .cutDone x.1 x.2
  | .spliceDone => (readSpliceDone l).elim (.illFormed k) .spliceDone
  | _ =>
    match c with
    | .report r => if reportKind r = k then .report r else .illFormed k
    | .nothing => .illFormed k
    | .arguments _ _ => .illFormed k

/-- The station item kind of a payload; an item of another kind has none. -/
def payloadKind : Payload → Option StationKind
  | .report r => some (reportKind r)
  | .spliceDone _ => some .spliceDone
  | .cutDone _ _ => some .cutDone
  | .illFormed k => some k
  | .request _ => none
  | .other _ => none

/-- Whether a payload is wrong in its form (R208). -/
def payloadMalformed : Payload → Bool
  | .illFormed _ => true
  | .report _ => false
  | .spliceDone _ => false
  | .cutDone _ _ => false
  | .request _ => false
  | .other _ => false

/-- Whether a station item is malformed (R208). -/
def itemMalformed (it : Item) : Bool :=
  (payloadKind it.payload).isSome && (decide (15 < it.inst) || payloadMalformed it.payload)

/-! ### Request items (R204) -/

/-- What a request code with these argument bytes asks for: a request without arguments by its code alone, LOAD_ORDER by the
bytes, and another by what the bytes spell (assumption 10). A code under which they spell no request of that code is taken as none
of the table's; in a well-formed command it is none. -/
def readAsked (code : Nat) (args : List Byte) (c : Contents) : Asked :=
  if code = requestCode (.loadOrder args) then .known (.loadOrder args)
  else
    match bareRequests.find? fun r => requestCode r == code with
    | some r => .known r
    | none =>
      match c with
      | .arguments r _ => if requestCode r = code then .known r else .unknown code
      | .nothing => .unknown code
      | .report _ => .unknown code

/-- How many fields of a request argument bytes hold whole: no more than there are bytes, since no field is without one. -/
def fieldsHeld (args : List Byte) : Contents → Nat
  | .arguments _ present => min present args.length
  | .nothing => 0
  | .report _ => 0

/-- A REQUEST item's payload from its bytes, when they hold its fixed part: destination, request code, argument length, arguments,
and the reply code that opens the reply space. -/
def readRequest (l : List Byte) (c : Contents) : Option RequestItem :=
  if 4 ≤ l.length then
    let a := fieldAt 2 2 l
    let args := (l.drop 4).take a
    some { dest := fieldAt 0 1 l, argLength := a, present := fieldsHeld args c, replyCode := fieldAt (4 + a) 1 l,
           asked := readAsked (fieldAt 1 1 l) args c }
  else none

/-! ### Telegrams (R203) -/

/-- An item's payload by its kind code. -/
def readPayload (code : Nat) (l : List Byte) (c : Contents) : Payload :=
  if code = requestKindCode then (readRequest l c).elim (.other code) .request
  else (kindOfCode code).elim (.other code) fun k => readStation k l c

/-- The item at the head of bytes: source station, kind code, instance, payload length, payload. -/
def readItem (l : List Byte) (c : Contents) : Item :=
  let n := fieldAt 3 2 l
  { source := fieldAt 0 1 l, inst := fieldAt 2 1 l, length := n,
    payload := readPayload (fieldAt 1 1 l) ((l.drop 5).take n) c }

/-- The bytes of each of the items laid end to end, header and payload; the first argument bounds their number. -/
def splitItems : Nat → List Byte → List (List Byte)
  | 0, _ => []
  | fuel + 1, l =>
    if l.isEmpty then []
    else
      let n := 5 + fieldAt 3 2 l
      l.take n :: splitItems fuel (l.drop n)

/-- Items from the bytes of each, with their entries of the contents. -/
def readItems : List (List Byte) → List Contents → List Item
  | [], _ => []
  | l :: rest, contents => readItem l (contents.head?.getD .nothing) :: readItems rest contents.tail

/-- The bytes of the items of a telegram. -/
def itemsOf (l : List Byte) : List (List Byte) := splitItems l.length (l.drop 6)

/-- The telegram in bytes that arrive, when they are a well-formed telegram of the class. -/
def readTelegram (cls : Nat) (x : Arrival) : Option Telegram :=
  if bytesWellFormed x.bytes && headerClass x.bytes == some cls then
    some { bytes := x.bytes, origin := fieldAt 1 1 x.bytes, cycle := fieldAt 2 2 x.bytes, total := fieldAt 4 2 x.bytes,
           items := readItems (itemsOf x.bytes) x.contents }
  else none

/-- The bytes of a telegram as it leaves with items appended: its header's total length counts them, and they stand behind
its own items (R203). -/
def writeAppended (t : Telegram) (appended : List Byte) : List Byte :=
  overwrite 4 (writeInt 2 (t.total + appended.length)) t.bytes ++ appended

/-! ### CUT_PLAN and SLITTER_PRESET (R205) -/

/-- The payload of a CUT_PLAN. -/
def writeCutPlan (seq : Nat) (length : Int) (d : Disposition) (r : PlanReason) (number : Nat) : List Byte :=
  writeInt 2 seq ++ writeInt 4 length ++ writeInt 1 (dispositionCode d) ++ writeInt 1 (planReasonCode r)
    ++ writeInt 4 number

/-- A track entry: width, score count, scores. -/
def writeTrack (t : Track) : List Byte :=
  writeInt 2 t.width ++ writeInt 1 t.scores.length ++ t.scores.flatMap fun x => writeInt 2 x

/-- The payload of a SLITTER_PRESET; knives outside used tracks are always parked. -/
def writePreset (st : Slitter) (p : Preset) (side : OriginSide) : List Byte :=
  writeInt 1 (slitterCode st) ++ writeInt 1 p.id ++ writeInt 1 (sideCode side) ++ writeInt 1 1
    ++ writeInt 1 p.setting.length ++ p.setting.flatMap writeTrack

/-- The payload of an outbound item: by its layout where the manual gives one, and otherwise a free value. -/
def writePayload (o : OutItem) : List Byte :=
  match o with
  | .cutPlan seq length d r number => writeCutPlan seq length d r number
  | .slitterPreset st p side => writePreset st p side
  | _ => Config.payloadBytes o

/-- An item as the part appends it: its header with the part's source code, its kind, its instance and its payload's length,
and the payload (R203). -/
def writeItem (source : Nat) (o : OutItem) : List Byte :=
  writeInt 1 source ++ writeInt 1 (outKindCode o) ++ writeInt 1 (outInst o) ++ writeInt 2 (writePayload o).length
    ++ writePayload o

/-! ### LOAD_ORDER (R44, R206) -/

/-- LOAD_ORDER's arguments as read: the slot, and the record, or the index of the field that the tests refuse and whether
it comes from the bytes ending there. -/
inductive OrderArgs where
  | noSlot
  | short (slot : Nat) (index : Nat)
  | badCount (slot : Nat) (index : Nat) (r : OrderRec)
  | whole (slot : Nat) (quality : Nat) (r : OrderRec)
deriving DecidableEq, Repr

/-- What reading a list of tracks or scores gives: the list, or the index of a field cut off or of a count too large. -/
inductive Listed (α : Type) where
  | read (l : List α) (rest : List Byte)
  | short (index : Nat)
  | badCount (index : Nat)
deriving DecidableEq, Repr

/-- Read n scores of 2 bytes. -/
def readScores : Nat → List Byte → Option (List Nat × List Byte)
  | 0, l => some ([], l)
  | n + 1, l =>
    match takeField 2 l with
    | none => none
    | some (x, rest) => (readScores n rest).map fun y => (x :: y.1, y.2)

/-- Read n track entries: the width (index 6), the score count, at most 4, and the scores (index 7). -/
def readTracks : Nat → List Byte → Listed Track
  | 0, l => .read [] l
  | n + 1, l =>
    match takeField 2 l with
    | none => .short 6
    | some (width, l) =>
      match takeField 1 l with
      | none => .short 7
      | some (count, l) =>
        if 4 < count then .badCount 7
        else
          match readScores count l with
          | none => .short 7
          | some (scores, l) =>
            match readTracks n l with
            | .read ts rest => .read ({ width := width, scores := scores } :: ts) rest
            | .short i => .short i
            | .badCount i => .badCount i

/-- The record of the fixed fields with a track list. -/
def orderOf (number grade length cuts overmake perStack quality : Nat) (tracks : List Track) : OrderRec :=
  { number := number, grade := grade, length := length, cuts := cuts, overmake := overmake, tracks := tracks,
    perStack := perStack, quality := if quality = 0 then .strict else .lenient }

/-- Read the track count and the tracks of a LOAD_ORDER: the count above 6 (index 6) and the score counts above 4
(index 7) are read before the entries (R206). -/
def readOrderTracks (slot quality : Nat) (record : List Track → OrderRec) (l : List Byte) : OrderArgs :=
  match takeField 1 l with
  | none => .short slot 6
  | some (count, l) =>
    if 6 < count then .badCount slot 6 (record [])
    else
      match readTracks count l with
      | .read tracks _ => .whole slot quality (record tracks)
      | .short i => .short slot i
      | .badCount i => .badCount slot i (record [])

/-- The fixed fields of a LOAD_ORDER behind the slot, with their indexes and widths, in layout order (R206). -/
def orderFields : List (Nat × Nat) := [(1, 4), (2, 1), (3, 2), (4, 2), (5, 2), (8, 2), (9, 1)]

/-- Read fields of given widths; none from the first that is cut off, with its index. -/
def readFields : List (Nat × Nat) → List Byte → List Nat × Option Nat × List Byte
  | [], l => ([], none, l)
  | (index, width) :: rest, l =>
    match takeField width l with
    | none => ([], some index, l)
    | some (x, l) =>
      let r := readFields rest l
      (x :: r.1, r.2)

/-- Read the arguments of a LOAD_ORDER (R206). -/
def readOrder (l : List Byte) : OrderArgs :=
  match takeField 1 l with
  | none => .noSlot
  | some (slot, l) =>
    match readFields orderFields l with
    | ([number, grade, length, cuts, overmake, perStack, quality], none, l) =>
      readOrderTracks slot quality (orderOf number grade length cuts overmake perStack quality) l
    | (_, some index, _) => .short slot index
    | (_, none, _) => .noSlot

/-! ### READ_MAP (R207) -/

/-- A flag's byte (R207). DESIGN CHOICE (assumption 70): which value stands for set and which for clear is a free value. -/
def writeFlag (f : MapFlag) (b : Bool) : List Byte := [Config.flagByte f b]

/-- A payload's six bytes in a mark entry; outgoing is the outgoing segment's position. -/
def writeMarkPayload (outgoing : Nat) (p : MarkPayload) : List Byte :=
  let bytes := match p with
    | .none => []
    | .boundary _ incoming flying preset =>
      writeInt 1 outgoing ++ writeInt 1 (incoming.getD 255) ++ writeFlag .flying flying ++ writeInt 1 preset
    | .splice stand reason paper => writeInt 1 stand ++ writeInt 1 (spliceReasonCode reason) ++ writeInt 2 (paper.getD 0)
    | .offband channel cause => writeInt 1 channel ++ writeInt 1 (offbandCauseCode cause)
    | .wrongPaper stand => writeInt 1 stand
    | .wrongSlit station => writeInt 1 (slitterCode station)
    | .operator station => writeInt 1 station
  bytes ++ List.replicate (6 - bytes.length) 0

/-- Whether a signed field of n bytes holds a value. -/
def fitsSigned (n : Nat) (v : Int) : Bool := -(2 ^ (8 * n - 1)) ≤ v && v < 2 ^ (8 * n - 1)

/-- A signed field of n bytes (R202). DESIGN CHOICE (assumption 65): a value outside its range, of which R207 says nothing, is written
as a free value. -/
def writeSigned (n : Nat) (v : Int) : List Byte :=
  writeInt n (if fitsSigned n v then v else (Config.outsideField n v).toInt)

/-- A claim's five bytes (R207). DESIGN CHOICE (assumption 65): a pinned end that lies more than 8,388,607 above the mark's start is
written as a free value. -/
def writeClaim (start : Int) (c : Claim) : List Byte :=
  writeInt 1 (claimKindCode c.kind) ++ writeInt 1 c.owner ++ writeSigned 3 (c.pinned - start)

/-- A mark entry. DEDUCED (assumption 70): the bit of a flag that is set is 1. -/
def writeMark (outgoing : Nat) (m : Mark) : List Byte :=
  writeInt 2 m.seq ++ writeInt 1 (markKindCode m.kind)
    ++ writeInt 1 ((if m.isOpen then 1 else 0) + (if m.lenient then 2 else 0))
    ++ writeSigned 4 m.start ++ writeSigned 4 m.zoneEnd ++ writeInt 1 (sourceCode m.source)
    ++ writeMarkPayload outgoing m.payload ++ writeInt 1 m.claims.length ++ m.claims.flatMap (writeClaim m.start)

/-- READ_MAP's fixed part (R207), its two flags by writeFlag. -/
def writeMapFixed (valid armed : Bool) (structural defects nextSeq returned : Nat) : List Byte :=
  writeFlag .mapValid valid ++ writeFlag .purgeArmed armed ++ writeInt 1 structural
    ++ writeInt 1 defects ++ writeInt 2 nextSeq ++ writeInt 2 returned

/-! ### Replies (R204) -/

/-- The bytes of a whole field or entry of reply data: by its layout where the manual gives one, and otherwise a free
value. -/
def writeDatum (d : Datum) : List Byte :=
  match d with
  | .mapFixed valid armed structural defects nextSeq returned =>
    writeMapFixed valid armed structural defects nextSeq returned
  | .mark m outgoing => writeMark outgoing m
  | _ => Config.datumBytes d

/-- The length of a whole field or entry of reply data. -/
def datumLength (d : Datum) : Nat := (writeDatum d).length

/-- The reply header: reply code, field index and detail in 4 bytes. -/
def writeReplyHeader (r : Reply) : List Byte :=
  writeInt 1 (replyNumber r.code) ++ writeInt 1 r.index ++ writeInt 2 r.detail

/-- A reply space as the part writes it: the header, the reply data, and 0 in the bytes beyond them. -/
def writeReply (space : Nat) (r : Reply) : List Byte :=
  let bytes := writeReplyHeader r ++ r.data.flatMap writeDatum
  bytes ++ List.replicate (space - bytes.length) 0

end Sys2Proof.Machine
end

