-- ==== Sys2Proof/Machine/WebTracker.lean ====
section
/-! DEFINITION. The Web Tracker: feed arithmetic, advance history, speed sum, band and refresh counter (R1 to R14,
R19). -/

namespace Sys2Proof.Machine

/-- The raw delta: the difference modulo 65,536, read as a signed value (R3). -/
def feedDelta (last new : FeedCount) : Int := (new - last).toInt

/-- The delta held to the jump limit (R4). -/
def clampDelta (limit : Nat) (d : Int) : Int :=
  if d > limit then limit else if d < -(limit : Int) then -(limit : Int) else d

/-- What the debt stage gives (R5): the effective count, the new debt, and the debt that would have been reached when it
passes 255. -/
structure DebtStep where
  count   : Nat
  debt    : Nat
  reverse : Option Nat
deriving DecidableEq, Repr

/-- Settle the encoder debt against a clamped delta (R5). -/
def settleDebt (debt : Nat) (d : Int) : DebtStep :=
  if d < 0 then
    if debt + d.natAbs > 255 then { count := 0, debt := 0, reverse := some (debt + d.natAbs) }
    else { count := 0, debt := debt + d.natAbs, reverse := none }
  else if debt ≤ d.toNat then { count := d.toNat - debt, debt := 0, reverse := none }
  else { count := 0, debt := debt - d.toNat, reverse := none }

/-- The advance of an effective count with the carried remainder, and the new remainder (R6). -/
def scaleCount (remainder count scale : Nat) : Nat × Nat :=
  ((remainder + count * scale) / 65536, (remainder + count * scale) % 65536)

/-- WTR takes the feed count of a ring cycle with missed-cycle count n, and gives the cycle's advance (R2 to R6). -/
def State.takeFeed (s : State) (n : Nat) (count : Option FeedCount) : State × Nat :=
  let e := min 65535 (s.wtr.elapsed + n + 1)
  match count with
  | none => (s.onWtr fun w => { w with elapsed := e }, 0)
  | some c =>
    if s.wtr.firstCount then
      (s.onWtr fun w => { w with lastCount := c, firstCount := false, elapsed := 0 }, 0)
    else
      let d := feedDelta s.wtr.lastCount c
      let limit := s.line.nums.jumpLimit * e
      let step := settleDebt s.wtr.debt (clampDelta limit d)
      let out := scaleCount s.wtr.remainder step.count s.line.nums.feedScale
      let s := if clampDelta limit d = d then s else (s.notify .encoderJump).log (.encoderJump d limit e)
      let s := match step.reverse with
        | some x => s.hand .encoderReverse (.one x)
        | none => s
      (s.onWtr fun w => { w with lastCount := c, elapsed := 0, debt := step.debt, remainder := out.2 }, out.1)

/-- The history after n missed cycles and a cycle's own advance: the sixteen most recent ring cycles (R10). -/
def pushHistory (history : List Nat) (n advance : Nat) : List Nat :=
  (history ++ List.replicate (min n 16) 0 ++ [advance]).drop (min n 16 + 1)

/-- WTR writes the history and works out V (R10). -/
def State.takeHistory (s : State) (n advance : Nat) : State :=
  s.onWtr fun w =>
    let h := pushHistory w.history n advance
    let fill := min 16 (w.fill + n + 1)
    { w with history := h, fill := fill, speedSum := if fill = 16 then h.sum else 0 }

/-- The band after one judgement of V: at most one step (R12). -/
def bandAfter (c : LineNumbers) (v : Nat) : Band → Band
  | .crawl => if c.uLow ≤ v then .low else .crawl
  | .low => if c.uMid ≤ v then .mid else if v < c.dLow then .crawl else .low
  | .mid => if c.uHigh ≤ v then .high else if v < c.dMid then .low else .mid
  | .high => if v < c.dHigh then .mid else .high

/-- The refresh counter counts n + 1 cycles, stopping at 0 (R19). -/
def State.tickRefresh (s : State) (n : Nat) : State := s.onWtr fun w => { w with refresh := w.refresh - (n + 1) }

/-- A refresh counter at 0 sends a SPEED_REQUEST with cause REFRESH (R19). -/
def State.refreshDue (s : State) : State := if s.wtr.refresh = 0 then s.sendSpeedRequest .refresh else s

/-- The FEED_COUNT source has gone stale (R7). -/
def State.feedStale (s : State) : State :=
  (s.hand .encoderLost (.one 0)).onWtr fun w => { w with firstCount := true, debt := 0 }

end Sys2Proof.Machine
end

