-- ==== Sys2Proof/Machine/Ring.lean ====
section
/-! DEFINITION. The Ring Interface and the Item Router: passage of telegrams, item routing, freshness, the ring cycle, the
append, ring loss (R173 to R187, R208). -/

namespace Sys2Proof.Machine

/-! ### Ports and the way out (R173) -/

/-- The other ring port. -/
def otherPort : RingPort → RingPort
  | .a => .b | .b => .a

/-- Whether a port is UP. -/
def State.portUp (s : State) : RingPort → Bool
  | .a => s.rif.portA
  | .b => s.rif.portB

/-- The port by which a telegram leaves: the other one while it is UP, and otherwise the one it came by (R173). -/
def State.wayOut (s : State) (p : RingPort) : RingPort := if s.portUp (otherPort p) then otherPort p else p

/-- Bytes that arrived at a port leave the part. -/
def State.leave (s : State) (p : RingPort) (bytes : List Byte) : State :=
  { s with passed := some { port := s.wayOut p, bytes := bytes } }

/-- A port's link changes (R173): the new state, and a notice when it is a change. -/
def State.linkChange (s : State) (p : RingPort) (up : Bool) : State :=
  if s.portUp p = up then s
  else
    (s.onRif fun r =>
      match p with
      | .a => { r with portA := up }
      | .b => { r with portB := up }).notify (if up then .portUp p else .portDown p)

/-- A telegram that is not well formed passes as it arrived, with a notice of its class and length as far as they can be read
(R173). -/
def State.badTelegram (s : State) (p : RingPort) (bytes : List Byte) : State :=
  (s.leave p bytes).notify (.badTelegram (headerClass bytes) (headerLength bytes))

/-! ### The part's own code, and the subscriptions (R175, R176, R178) -/

/-- The part's own station code, while a SELF entry is loaded (R176). -/
def State.selfCode (s : State) : Option Nat :=
  ((s.irt.stations.toList.filterMap id).find? fun e => e.role == .own).map fun e => e.code

/-- The source code of appended items, 0 while no SELF entry is loaded (R176). -/
def State.source (s : State) : Nat := s.selfCode.getD 0

/-- The contents of the subscription table, in entry order. -/
def State.subscriptions (s : State) : List SubCfg := s.irt.subs.toList.filterMap fun e => e.cfg

/-- Whether an item carries the key of an entry (R178). -/
def SubCfg.hears (c : SubCfg) (it : Item) : Bool :=
  it.source == c.source && payloadKind it.payload == some c.kind && it.inst == c.inst

/-- Whether an item is one the router looks up: of a right form, and not from the part itself (R175, R208). -/
def State.looksUp (s : State) (it : Item) : Bool := !itemMalformed it && s.selfCode != some it.source

/-- The items of a telegram that are handed to an owner, in item order, each with its entry's contents (R175). -/
def State.deliveries (s : State) (l : List Item) : List (SubCfg × Payload) :=
  (l.filter s.looksUp).filterMap fun it => (s.subscriptions.find? fun c => c.hears it).map fun c => (c, it.payload)

/-- Whether an item calls for a BAD_ITEM notice: malformed, not the part's own, of a kind some entry names (R208). -/
def State.isBadItem (s : State) (it : Item) : Bool :=
  itemMalformed it && s.selfCode != some it.source
    && s.subscriptions.any fun c => payloadKind it.payload == some c.kind

/-- A BAD_ITEM notice for the first malformed item of a telegram (R208). -/
def State.noticeBadItem (s : State) (l : List Item) : State :=
  match l.find? s.isBadItem with
  | some it =>
    match payloadKind it.payload with
    | some k => s.notify (.badItem it.source k it.inst)
    | none => s
  | none => s

/-! ### Freshness (R179 to R181) -/

/-- An owner is told that a source has gone stale (R180). -/
def State.staleReport (s : State) (c : SubCfg) : State :=
  match c.kind with
  | .feedCount => s.feedStale
  | .lineStatus => s.statusStale
  | .reelDiameter => s.diameterStale (c.index - 1)
  | .zoneValue => s.channelStale c.index true
  | .slitterState => s.slitterStale (if c.index = 1 then .a else .b)
  | .stackState => s.stackStale
  | .cutDone => s
  | .spareState => s
  | .spliceDone => s
  | .spliceFault => s

/-- An owner is told that a source is fresh (R180). -/
def State.freshReport (s : State) (c : SubCfg) : State :=
  match c.kind with
  | .lineStatus => s.statusFresh
  | .reelDiameter => s.diameterFresh (c.index - 1)
  | .zoneValue => s.channelStale c.index false
  | .feedCount => s
  | .slitterState => s
  | .stackState => s
  | .cutDone => s
  | .spareState => s
  | .spliceDone => s
  | .spliceFault => s

/-- One entry over a ring cycle with missed-cycle count n (R179): reloaded and FRESH when its item is heard, and otherwise
n + 1 lower, STALE at 0. -/
def SubEntry.cycle (n : Nat) (l : List Item) (e : SubEntry) : SubEntry :=
  match e.cfg with
  | none => e
  | some c =>
    if l.any c.hears then { e with counter := c.reload, fresh := true }
    else { e with counter := e.counter - (n + 1), fresh := e.fresh && decide (n + 1 < e.counter) }

/-- The contents of the entries whose state changes over a ring cycle to the one named. DESIGN CHOICE (assumption 9): in entry
order, which is that of the fresh reports and of the stale reports that the cycle makes. -/
def changedEntries (n : Nat) (l : List Item) (toFresh : Bool) (subs : List SubEntry) : List SubCfg :=
  subs.filterMap fun e => if e.fresh != toFresh && (e.cycle n l).fresh == toFresh then e.cfg else none

/-- The freshness counter of an entry runs out (R179). -/
def State.lapse (s : State) (entry : Nat) : State :=
  match s.irt.subs[entry]? with
  | none => s
  | some e =>
    match e.cfg with
    | none => s
    | some c =>
      if e.fresh then
        (s.onIrt fun r => { r with subs := put r.subs entry { e with counter := 0, fresh := false } }).staleReport c
      else s

/-! ### Handing items to their owners (R175) -/

/-- The last item of a kind for an owner index. -/
def lastPayload (l : List (SubCfg × Payload)) (kind : StationKind) (index : Nat) : Option Payload :=
  (l.reverse.find? fun x => x.1.kind == kind && x.1.index == index).map fun x => x.2

/-- The count of the first FEED_COUNT (R2). -/
def firstFeed : List (SubCfg × Payload) → Option FeedCount
  | [] => none
  | x :: rest =>
    match x.2 with
    | .report (.feedCount c) => some c
    | _ => firstFeed rest

/-- The ZONE_VALUE readings with their channels, in item order (R117). -/
def zoneReadings (l : List (SubCfg × Payload)) : List (Nat × Nat) :=
  l.filterMap fun x =>
    match x.2 with
    | .report (.zoneValue raw) => some (x.1.index, raw)
    | _ => none

/-- What a station's last SLITTER_STATE reports. -/
def slitterReported (l : List (SubCfg × Payload)) (index : Nat) : Option SlitterState :=
  match lastPayload l .slitterState index with
  | some (.report (.slitterState x)) => some (trackedSlitter x)
  | _ => none

/-- CHG takes the SLITTER_STATE items of a telegram as one event (R76). -/
def State.takeSlitters (s : State) (l : List (SubCfg × Payload)) : State :=
  match slitterReported l 1, slitterReported l 2 with
  | none, none => s
  | a, b => s.slitterEvent a b

/-- SPL takes one item (R90, R92, R99, R101). -/
def State.takeSpliceItem (s : State) (x : SubCfg × Payload) : State :=
  match x.2 with
  | .report (.reelDiameter r) => s.reelDiameter (x.1.index - 1) r
  | .report (.spareState r) => s.spareReport (x.1.index - 1) r
  | .spliceDone counts => s.spliceDone (x.1.index - 1) counts
  | .report (.spliceFault code) => s.spliceFault (x.1.index - 1) code
  | _ => s

/-- KNP takes one item (R137, R140). -/
def State.takeKnifeItem (s : State) (x : SubCfg × Payload) : State :=
  match x.2 with
  | .cutDone seq actual => s.cutDone seq actual
  | _ => s

/-- STK takes the last STACK_STATE of a telegram with missed-cycle count n (R152). -/
def State.takeStack (s : State) (n : Nat) (l : List (SubCfg × Payload)) : State :=
  match lastPayload l .stackState 0 with
  | some (.report (.stackState report command)) => s.stackEvent n report command
  | _ => s

/-- LSC takes the last LINE_STATUS of a telegram (R162). -/
def State.takeStatus (s : State) (l : List (SubCfg × Payload)) : State :=
  match lastPayload l .lineStatus 0 with
  | some (.report (.lineStatus running)) => s.lineStatus running
  | _ => s

/-! ### The append (R184) -/

/-- The length of an item the part appends, with its header (R203). -/
def outLength (o : OutItem) : Nat := 5 + (writePayload o).length

/-- The items from the head of a queue that fit into a room, up to the first that does not. -/
def fitting : Nat → List OutItem → List OutItem
  | _, [] => []
  | room, o :: rest => if outLength o ≤ room then o :: fitting (room - outLength o) rest else []

/-- The items appended to a telegram with a room left: urgent, then routine unless an urgent one has not fitted, the
overflow behind the routine queue once that has made room (R184). -/
def appended (room : Nat) (r : Rif) : List OutItem × List OutItem :=
  let u := fitting room r.urgent
  if u.length < r.urgent.length then (u, [])
  else
    let left := room - (u.map outLength).sum
    let q := fitting left r.routine
    if q.length = r.routine.length ∧ q ≠ [] then (u, fitting left (r.routine ++ r.overflow.toList)) else (u, q)

/-- The queues after an append. -/
def Rif.afterAppend (r : Rif) (u q : List OutItem) : Rif :=
  { r with
    urgent := r.urgent.drop u.length,
    routine := if q.isEmpty then r.routine else (r.routine ++ r.overflow.toList).drop q.length,
    overflow := if q.isEmpty then r.overflow else none }

/-- RIF appends the waiting items to a ring cycle's telegram, and the telegram leaves (R173, R184). -/
def State.appendItems (s : State) (p : RingPort) (t : Telegram) : State :=
  let x := appended (1500 - t.total) s.rif
  let items := x.1 ++ x.2
  (s.leave p (writeAppended t (items.flatMap (writeItem s.source)))).onRif fun r => r.afterAppend x.1 x.2

/-! ### The ring cycle (R174) -/

/-- The ring is heard: the ring is UP, the ring-loss timer restarts, and WTR learns of a recovery (R182, R183, R20). -/
def State.ringHeard (s : State) : State :=
  (s.onRif fun r => { r with ring := .up, timer := some s.line.nums.ringTimeout }).syncLineStop

/-- WTR updates history, V and band, and reports a change of band (R10 to R13). DESIGN CHOICE (assumption 59): to HGR first, then to
SPL. -/
def State.takeBand (s : State) (n a : Nat) : State :=
  let s := s.takeHistory n a
  let old := s.wtr.band
  let new := bandAfter s.line.nums s.wtr.speedSum old
  if new = old then s
  else (((s.onWtr fun w => { w with band := new }).resendSetpoints).examineAll).log (.band old new s.wtr.speedSum)

/-- WTR, CHG and SPL count a telegram with missed-cycle count n (R174): the refresh counter, the swap timer and the splice timers.
It is the first event of a ring cycle, so that a timer which a later event of the same telegram loads stands at its full count
after it, as section 5.9 shows of a splice timer (R98): 2,000 after cycle 480 and 1,980 after cycle 500. DEDUCED (assumption
66): so it is with the other two. The settle timers count within HGR's own event (R117, State.heatCycle). -/
def State.tickTimers (s : State) (n : Nat) : State := ((s.tickRefresh n).tickSwap n).tickSplices n

/-- The swap and splice timers that have reached 0 run out (R81, R98), before or after the telegram's items (assumption 3). -/
def State.timersDue (s : State) : State := s.swapDue.splicesDue

/-- The events at the owners of a telegram's items, in the fixed order of assumption 9, each followed by LSC's taking of
the faults handed. -/
def itemEvents (n : Nat) (l : List (SubCfg × Payload)) : List (State → State) :=
  [fun s => s.takeSlitters l]
    ++ l.map (fun x s => s.takeSpliceItem x)
    ++ l.map (fun x s => s.takeKnifeItem x)
    ++ [fun s => s.takeStack n l, fun s => s.takeStatus l]

/-- Run events one after another, LSC taking the faults that each hands. -/
def runEvents (l : List (State → State)) (s : State) : State := l.foldl (fun s f => (f s).takeFaults) s

/-- The events of a ring cycle in the order that a choice gives (assumptions 3 and 9): the count of the
timers but HGR's first (assumption 66), the clear of the knife at the first cycle telegram (R145), freshness, the lapses,
each kind of report in entry order, the items and the timers that run out, the feed, HGR's cycle, the advance, the
history, the refresh that is due. -/
def cycleEvents (o : EventOrder) (s : State) (t : Telegram) (n : Nat) : List (State → State) :=
  let heard := t.items.filter s.looksUp
  let l := s.deliveries t.items
  let feed := firstFeed l
  let a := (s.takeFeed n feed).2
  let subs := s.irt.subs.toList
  let clear : List (State → State) := [fun s => s.clearKnife]
  let fresh : List (State → State) :=
    [fun s => (s.noticeBadItem t.items).onIrt fun r => { r with subs := r.subs.map (SubEntry.cycle n heard) }]
      ++ (changedEntries n heard true subs).map fun c s => s.freshReport c
  let lapses : List (State → State) := (changedEntries n heard false subs).map fun c s => s.staleReport c
  let timers : List (State → State) := [fun s => s.timersDue]
  let items := if o.timersBeforeItems then timers ++ itemEvents n l else itemEvents n l ++ timers
  let heat : List (State → State) := [fun s => s.heatCycle n (zoneReadings l)]
  let feedEvent : List (State → State) := [fun s => (s.takeFeed n feed).1]
  let advance : List (State → State) := [fun s => s.advance a o.spliceBeforeMap]
  let band : List (State → State) := [fun s => s.takeBand n a]
  let refresh : List (State → State) := [fun s => s.refreshDue]
  (fun s => s.tickTimers n) :: (if s.rif.cycle.isNone then clear else [])
    ++ fresh
    ++ (if o.lapsesLast then [] else lapses)
    ++ (if o.itemsBeforeAdvance then items else [])
    ++ feedEvent
    ++ (if o.evalBeforeAdvance then heat else [])
    ++ advance
    ++ band
    ++ (if o.itemsBeforeAdvance then [] else items)
    ++ (if o.evalBeforeAdvance then [] else heat)
    ++ refresh
    ++ (if o.lapsesLast then lapses else [])

/-- A ring cycle with missed-cycle count n (R174): RIF's own part, then the events, with RIF's append after as many of
them as the choice says (R184). -/
def State.ringCycle (s : State) (p : RingPort) (t : Telegram) (n : Nat) : State :=
  let o := Config.order s.choices
  let events := cycleEvents o s t n
  let s := { s with choices := s.choices + 1 }
  let s := s.ringHeard.onRif fun r => { r with cycle := some (t.cycle % 65536) }
  runEvents (events.drop o.appendAt) ((runEvents (events.take o.appendAt) s).appendItems p t)

/-- A repeat restarts the ring-loss timer and passes through (R174). DESIGN CHOICE (assumption 69): no BAD_ITEM notice is made for a
malformed item in it. -/
def State.repeatCycle (s : State) (p : RingPort) (t : Telegram) : State := s.ringHeard.leave p t.bytes

/-- The step from the cycle number last seen to a telegram's (R174). -/
def cycleStep (last new : Nat) : Nat := (new % 65536 + 65536 - last) % 65536

/-- A well-formed cycle telegram is a repeat or a ring cycle by its cycle number (R174). -/
def State.takeCycle (s : State) (p : RingPort) (t : Telegram) : State :=
  match s.rif.cycle with
  | none => s.ringCycle p t 0
  | some last =>
    if cycleStep last t.cycle = 0 then s.repeatCycle p t else s.ringCycle p t (cycleStep last t.cycle - 1)

/-- A cycle telegram arrives (R173, R174): read from its bytes, and passed on as it arrived if they are no well-formed one. -/
def State.cycleArrives (s : State) (p : RingPort) (x : Arrival) : State :=
  match readTelegram 1 x with
  | some t => s.takeCycle p t
  | none => s.badTelegram p x.bytes

/-- The ring-loss timer runs out with the ring UP (R182): LOST, the timer stopped, LINE_STOP, fault RING_LOST with the
gap. -/
def State.ringLost (s : State) : State :=
  match s.rif.ring, s.rif.timer with
  | .up, some gap =>
    ((s.onRif fun r => { r with ring := .lost, timer := none }).syncLineStop.hand .ringLost (.one gap)).takeFaults
  | _, _ => s

end Sys2Proof.Machine
end

