-- ==== Sys2Proof/Machine/Replies.lean ====
section
/-! DEFINITION. Replies and reads: reply headers, reply data in its space, and what the read requests return (R39, R48, R51,
R105, R158, R191, R197). -/

namespace Sys2Proof.Machine

/-! ### Replies and their space (R191, R204) -/

/-- A reply without data. -/
def bare (code : ReplyCode) : Reply := { code := code, index := 0, detail := 0, data := [] }

/-- BAD_FIELD with its index and detail. -/
def badField (index detail : Nat) : Reply := { code := .badField, index := index, detail := detail, data := [] }

/-- OK with reply data. -/
def okWith (data : List Datum) : Reply := { code := .ok, index := 0, detail := 0, data := data }

/-- The whole fields or entries from the front that fit into a room. -/
def fitData : Nat → List Datum → List Datum
  | _, [] => []
  | room, d :: rest => if datumLength d ≤ room then d :: fitData (room - datumLength d) rest else []

/-- The room for reply data in a reply space: what is left behind the 4 bytes of the reply header (R204). -/
def dataRoom (space : Nat) : Nat := space - 4

/-- A command's reply data, cut at the last whole field that fits (R191). -/
def Reply.cut (r : Reply) (space : Nat) : Reply := { r with data := fitData (dataRoom space) r.data }

/-- A read's reply: as many whole entries as fit, TRUNCATED when some did not (R191). -/
def readReply (space : Nat) (l : List Datum) : Reply :=
  let data := fitData (dataRoom space) l
  { code := if data.length < l.length then .truncated else .ok, index := 0, detail := 0, data := data }

/-! ### READ_ORDER and QUEUE_READ (R48, R51) -/

/-- The places of a list at which a test holds. -/
def positionsOf {α : Type} (test : α → Bool) (l : List α) : List Nat :=
  l.zipIdx.filterMap fun x => if test x.1 then some x.2 else none

/-- Where a slot stands (R48). -/
def State.placeOf (s : State) (i : Nat) : Place :=
  if s.osq.rush = some i then .rush
  else
    match positionsOf (· == i) s.osq.queue with
    | p :: _ => .queue p
    | [] =>
      match positionsOf (· == i) s.osq.held with
      | d :: _ => .held d
      | [] => .none

/-- What READ_ORDER returns of a slot (R48, R155). DEDUCED (assumption 31): the positions in the segment list count from 0 at the
oldest segment. -/
def State.orderData (s : State) (i : Nat) : List Datum :=
  let o := s.slot i
  if o.state = .empty then [.slotState .empty]
  else
    [.slotState o.state]
      ++ (o.order.map Datum.order).toList
      ++ [.counters o.goodPlanned o.goodConfirmed o.waste o.noted o.inFlight o.outstanding, .pile (s.pile i),
          .place (s.placeOf i)]
      ++ (if o.state = .onWeb ∨ o.state = .suspended then
            [.positions (positionsOf (fun g => g.order == some i) s.osq.segments)] else [])
      ++ (if o.state = .complete then [.balance true o.balance] else [])
      ++ (if o.state = .short then [.balance false o.balance] else [])

/-- What QUEUE_READ returns (R51). -/
def State.queueData (s : State) : List Datum :=
  (s.osq.queue.map fun i => .queued i (s.orderNumber i))
    ++ (s.osq.held.map fun i => .heldOrder i (s.orderNumber i))
    ++ [.rushOrder (s.osq.rush.map fun i => (i, s.orderNumber i))]
    ++ (s.osq.segments.map fun g =>
          .segment (g.order.map fun i => (i, s.orderNumber i)) g.target g.goodPlanned g.planning)

/-! ### READ_STATUS (R197) -/

/-- The line constants in the index order of R192. -/
def constantsData (c : LineConsts) : List Datum :=
  let n (x : Nat) : Datum := .number x
  [n c.nums.feedScale, n c.nums.jumpLimit, n c.nums.uLow, n c.nums.uMid, n c.nums.uHigh, n c.nums.dLow, n c.nums.dMid,
   n c.nums.dHigh, n c.nums.dCreate, n c.nums.zSwap, n c.nums.dSs, n c.nums.swapTimeout, .side c.side,
   n c.nums.webWidth, n c.nums.gOff, n c.nums.wMin, n c.nums.wMax, n c.nums.miscut, n c.nums.lateLimit,
   n c.nums.dwellNear, n c.nums.dwellFar, n c.nums.ringTimeout]

/-- The set-downs, head first, then the overflow (R155). -/
def State.setDownData (s : State) : List Datum :=
  (s.stk.queue.zipIdx.map fun x =>
      .setDown x.1.number x.1.ordinal x.1.cuts x.1.final (if x.2 = 0 then some s.stk.head else none))
    ++ (s.stk.overflow.toList.map fun d => .setDown d.number d.ordinal d.cuts d.final none)

/-- A section's fixed part (R197, R86, R124, R146, R155, R160, R187). -/
def State.fixedData (s : State) : Section → List Datum
  | .line =>
    [.lineFixed s.lsc.state s.lsc.latch s.lsc.seen s.lsc.status (s.holds .lineStatusStale 0) s.lsc.threading s.lsc.purge
      s.wmp.valid s.wtr.request s.wtr.governing s.wtr.band s.wtr.speedSum]
  | .constants => []
  | .changeover =>
    [.changeFixed s.chg.stateA s.chg.stateB (stationNumber s.chg.engaged) (s.chg.heldA.map fun p => p.id) (s.chg.heldB.map fun p => p.id)
      s.chg.expected.isSome (s.chg.forecast.map fun f => f.2.id) s.chg.blocked s.chg.timer s.projection]
  | .heat => [.heatFixed s.hgr.scan s.hgr.position]
  | .knife => [.knifeFixed s.knp.front s.knp.cutEdge s.knp.counter (s.holds .noOrder 0)]
  | .stacker => [.stackFixed s.stk.state s.stk.tracked s.stk.counter (s.holds .stackerBehind 0)]
  | .log => [.logFixed s.plg.records.length s.plg.mode s.plg.full s.plg.counter]
  | .ring =>
    [.ringFixed s.rif.portA s.rif.portB s.rif.ring s.rif.cycle s.rif.urgent.length s.rif.routine.length
      s.rif.overflow.isSome]

/-- A section's list (R197). DEDUCED (assumption 25): a channel's stale flag is reported set also where the channel is
configured and does not hear (R124). -/
def State.listData (s : State) : Section → List Datum
  | .line => []
  | .constants => constantsData s.line
  | .changeover => s.chg.records.map fun r => .changeRec r.boundary r.preset.id (stationNumber r.target) r.status r.zoneEnd
  | .heat =>
    (s.hgr.points.toList.zipIdx.map fun x => .point x.2 x.1.cfg.isSome x.1.grade x.1.last)
      ++ (s.hgr.channels.toList.zipIdx.map fun x =>
            .channel x.2 x.1.cfg.isSome (x.1.stale || !s.channelHears x.2) x.1.reading x.1.value x.1.run x.1.settle)
  | .knife =>
    (s.knp.plans.map fun p =>
        .plan p.seq p.stop p.length p.disp p.reason (s.numberOf p.order) p.noted p.diverted p.late)
      ++ (s.knp.withdrawn.map fun w => .withdrawn w)
  | .stacker => s.setDownData
  | .log => []
  | .ring => s.irt.subs.toList.zipIdx.map fun x => .sub x.2 x.1

/-- The reply to READ_STATUS (R197): section, fixed part, list entries from the first one named, and the number of the
entry that follows. DESIGN CHOICE (assumption 31): the entries of every list count from 0 here. -/
def State.statusReply (s : State) (space : Nat) (x : Section) (first : Nat) : Reply :=
  let head := Datum.statusOf x :: s.fixedData x
  let room := dataRoom space - datumLength (.next none)
  let taken := fitData room head
  if taken.length < head.length ∨ dataRoom space < datumLength (.next none) then
    { code := .truncated, index := 0, detail := 0, data := taken }
  else
    let rest := (s.listData x).drop first
    let entries := fitData (room - (head.map datumLength).sum) rest
    let complete := entries.length == rest.length
    { code := if complete then .ok else .truncated, index := 0, detail := 0,
      data := head ++ entries ++ [.next (if complete then none else some (first + entries.length))] }

/-! ### READ_MAP, READ_STANDS and READ_LOG (R39, R105, R158, R207) -/

/-- The position in the segment list of a BOUNDARY's outgoing segment, 0 for a mark of another kind (R207).
DEDUCED (assumption 31): counted from 0 at the oldest segment. -/
def State.outgoingPosition (s : State) (m : Mark) : Nat :=
  match m.payload with
  | .boundary outgoing _ _ _ => ((positionsOf (fun g => g.num == outgoing) s.osq.segments).head?).getD 0
  | _ => 0

/-- The reply to READ_MAP (R39, R207). -/
def State.mapReply (s : State) (space : Nat) : Reply :=
  let all := s.wmp.marks.map fun m => Datum.mark m (s.outgoingPosition m)
  let fixed (n : Nat) : Datum :=
    .mapFixed s.wmp.valid s.wmp.armed (structuralCount s.wmp.marks) (defectCount s.wmp.marks) s.wmp.nextSeq n
  if datumLength (fixed 0) ≤ dataRoom space then
    let marks := fitData (dataRoom space - datumLength (fixed 0)) all
    { code := if marks.length < all.length then .truncated else .ok, index := 0, detail := 0,
      data := fixed marks.length :: marks }
  else bare .truncated

/-- Whether a stand's REEL_DIAMETER source is stale: no FRESH entry delivers it (R105, R179). DESIGN CHOICE (assumption 55): it is
stale also where no entry is loaded for the stand. -/
def State.diameterIsStale (s : State) (k : Nat) : Bool :=
  !s.irt.subs.toList.any fun e =>
    e.fresh && (match e.cfg with
                | some c => c.kind == .reelDiameter && c.index == k
                | none => false)

/-- A stand record as READ_STANDS returns it: R105's list does not name the two notice flags of R88, nor is the model's own timedOut
the part's, so these are not returned. -/
def Stand.returned (st : Stand) : Stand := { st with spareCleared := false, staleNotice := false, timedOut := false }

/-- What READ_STANDS returns (R105). -/
def State.standData (s : State) : List Datum :=
  s.spl.stands.toList.zipIdx.map fun x => .stand (x.2 + 1) x.1.returned (s.diameterIsStale (x.2 + 1))

/-- READ_LOG (R158): the oldest records, up to the count and to what the space holds, leave the log. The room of the
reply's other fields is taken as that of a full flag clear and no record left (their layout is fixed). -/
def State.readLog (s : State) (space count : Nat) : State × Reply :=
  if !(1 ≤ count && count ≤ 8) then (s, badField 1 0)
  else if s.plg.records.isEmpty then (s, bare .empty)
  else
    let asked := s.plg.records.take count
    let records := fitData (dataRoom space - datumLength (.logHead s.plg.mode false 0)) (asked.map Datum.record)
    let s' := s.onPlg fun p =>
      { p with records := p.records.drop records.length, full := if records.isEmpty then p.full else false }
    (s', { code := if records.length < asked.length then .truncated else .ok, index := 0, detail := 0,
           data := records ++ fitData (dataRoom space - (records.map datumLength).sum)
             [.logHead s'.plg.mode s'.plg.full s'.plg.records.length] })

end Sys2Proof.Machine
end

