-- ==== Sys2Proof/Machine/Loads.lean ====
section
/-! DEFINITION. What the owners do with the configuration and order requests (R44 to R52, R87, R108, R110, R111, R116,
R119, R176, R178, R192 to R195). -/

namespace Sys2Proof.Machine

/-- A request refused: nothing changes. -/
def State.refuse (s : State) (r : Reply) : State × Reply := (s, r)

/-- The first number of a list of index and test pairs whose test fails. -/
def firstBad : List (Nat × Bool) → Option Nat
  | [] => none
  | (i, ok) :: rest => if ok then firstBad rest else some i

/-- Whether a number lies in a range. -/
def within (lo hi x : Nat) : Bool := lo ≤ x && x ≤ hi

/-! ### LOAD_STATION (R176) -/

/-- The level that a role stands for, where it stands for one (R176 check 4). -/
def roleLevel : Role → Option Nat
  | .scheduler => some 0 | .supervisor => some 1 | .panel => some 2
  | .lineMaster => none | .processStation => none | .own => none

/-- Whether another entry satisfies a test. -/
def othersAny {α : Type} (l : List α) (entry : Nat) (test : α → Bool) : Bool :=
  l.zipIdx.any fun x => x.2 != entry && test x.1

/-- LOAD_STATION (R176). -/
def State.loadStation (s : State) (a : StationArgs) : State × Reply :=
  if 31 < a.entry then s.refuse (badField 1 0)
  else
    match a.contents with
    | none => (s.onIrt fun r => { r with stations := put r.stations a.entry none }, bare .ok)
    | some c =>
      if !within 1 62 c.code then s.refuse (badField 2 0)
      else
        match c.role with
        | none => s.refuse (badField 3 0)
        | some role =>
          let others (test : StationEntry → Bool) : Bool :=
            othersAny s.irt.stations.toList a.entry fun e => e.any test
          if 2 < c.level || (roleLevel role).any (· != c.level) then s.refuse (badField 4 0)
          else if others fun e => e.code == c.code then s.refuse (bare .duplicate)
          else if (role == .own || role == .lineMaster) && others fun e => e.role == role then
            s.refuse (bare .duplicate)
          else
            (s.onIrt fun r =>
              { r with stations := put r.stations a.entry (some { code := c.code, role := role, level := c.level }) },
             bare .ok)

/-! ### LOAD_SUBSCRIPTION (R178) -/

/-- The owner of each item kind (R178). -/
def kindOwner : StationKind → Block
  | .feedCount => .wtr | .lineStatus => .lsc
  | .reelDiameter => .spl | .spareState => .spl | .spliceDone => .spl | .spliceFault => .spl
  | .zoneValue => .hgr | .slitterState => .chg | .cutDone => .knp | .stackState => .stk

/-- Whether an owner index lies in its kind's range (R178): stands 1..7, channels 0..15, stations A 1 and B 2. -/
def indexOk (k : StationKind) (i : Nat) : Bool :=
  match kindOwner k with
  | .spl => within 1 7 i
  | .hgr => i ≤ 15
  | .chg => within 1 2 i
  | _ => i == 0

/-- An entry that is replaced or emptied while FRESH is first reported stale to its old owner; the new contents start
STALE with the counter at their reload (R178). -/
def State.replaceEntry (s : State) (entry : Nat) (cfg : Option SubCfg) : State :=
  (s.lapse entry).onIrt fun r =>
    { r with subs := put r.subs entry { cfg := cfg, counter := (cfg.map fun c => c.reload).getD 0, fresh := false } }

/-- LOAD_SUBSCRIPTION (R178). -/
def State.loadSubscription (s : State) (a : SubscriptionArgs) : State × Reply :=
  if 47 < a.entry then s.refuse (badField 1 0)
  else
    match a.contents with
    | none => (s.replaceEntry a.entry none, bare .ok)
    | some c =>
      if !within 1 62 c.source then s.refuse (badField 2 0)
      else
        match c.kind with
        | none => s.refuse (badField 3 0)
        | some kind =>
          let others (test : SubCfg → Bool) : Bool :=
            othersAny s.irt.subs.toList a.entry fun e => e.cfg.any test
          if 15 < c.inst then s.refuse (badField 4 0)
          else if c.owner != some (kindOwner kind) then s.refuse (badField 5 0)
          else if !indexOk kind c.index then s.refuse (badField 6 0)
          else if !within 1 255 c.reload then s.refuse (badField 7 0)
          else if others fun e => e.source == c.source && e.kind == kind && e.inst == c.inst then
            s.refuse (bare .duplicate)
          else if others fun e => e.kind == kind && e.index == c.index then s.refuse (bare .duplicate)
          else
            (s.replaceEntry a.entry
              (some { source := c.source, kind := kind, inst := c.inst, owner := kindOwner kind, index := c.index,
                      reload := c.reload }), bare .ok)

/-! ### SET_LINE (R192, R193) -/

/-- The tests of the line constants, each with its index, in index order (R192). -/
def lineTests (a : LineArgs) : List (Nat × Bool) :=
  let n := a.nums
  [(1, within 1 1048575 n.feedScale), (2, within 1 4095 n.jumpLimit),
   (3, within 1 8388607 n.uLow),
   (4, within 1 8388607 n.uMid && n.uLow < n.uMid),
   (5, within 1 8388607 n.uHigh && n.uMid < n.uHigh),
   (6, within 1 8388607 n.dLow && n.dLow < n.uLow),
   (7, within 1 8388607 n.dMid && n.dLow < n.dMid && n.dMid < n.uMid),
   (8, within 1 8388607 n.dHigh && n.dMid < n.dHigh && n.dHigh < n.uHigh),
   (9, within 1 5000000 n.dCreate), (10, within 500 20000 n.zSwap), (11, n.dSs ≤ 5000000),
   (12, within 1 4000 n.swapTimeout), (13, a.side.isSome), (14, within 500 50000 n.webWidth), (15, n.gOff ≤ 5000),
   (16, within 1500 20000 n.wMin), (17, n.wMax ≤ 65000 && n.wMin ≤ n.wMax), (18, n.miscut ≤ 200),
   (19, n.lateLimit ≤ 2000), (20, n.dwellNear ≤ 5000000),
   (21, n.dwellFar ≤ 5000000 && n.dwellNear ≤ n.dwellFar), (22, within 100 50000 n.ringTimeout)]

/-- The line constants take new values: a D_ss that becomes 0 ends the Changeover Unit's dealings, one that becomes 1 or
more makes it forecast (R65, R193). DESIGN CHOICE (assumption 49): a change from one D_ss above 0 to another leaves the claims and
the records of the Changeover Unit as they are. -/
def State.applyLine (s : State) (c : LineConsts) : State :=
  let was := s.line.nums.dSs
  let s := if was ≠ 0 ∧ c.nums.dSs = 0 then s.dropSlitter else s
  let s := { s with line := c }
  if was = 0 ∧ c.nums.dSs ≠ 0 then s.forecastFor s.osq.candidate else s

/-- SET_LINE (R192). -/
def State.setLine (s : State) (a : LineArgs) : State × Reply :=
  match firstBad (lineTests a), a.side with
  | some i, _ => s.refuse (badField i 0)
  | none, none => s.refuse (badField 13 0)
  | none, some side => (s.applyLine { nums := a.nums, side := side }, bare .ok)

/-! ### LOAD_STAND (R87, R97) -/

/-- The tests of a stand's fields behind its number, in index order (R87). -/
def standTests (a : StandArgs) : List (Nat × Bool) :=
  [(2, a.station ≤ 62), (3, within 1 5000000 a.dist), (4, a.lead ≤ 50000), (5, within 1000 10000 a.joint),
   (6, within 1 100000000 a.trig), (7, a.stop ≤ 100000000 && a.stop < a.trig), (8, a.band.isSome),
   (9, within 10 60000 a.timeout)]

/-- The configuration that a LOAD_STAND carries. -/
def standCfgOf (a : StandArgs) : StandCfg :=
  { station := a.station, dist := a.dist, lead := a.lead, joint := a.joint, trig := a.trig, stop := a.stop,
    band := a.band.getD .crawl, timeout := a.timeout }

/-- Whether a stand is SPLICING or holds an open WRONG_PAPER claim (R87). -/
def Stand.busy (st : Stand) : Bool := st.splice == .splicing || st.claim

/-- An accepted load replaces the configuration; a changed maximum splice band of a DUE stand drops SPLICE_BAND, and
raises it anew when the band stands above the new maximum, as one alteration (R87, R97). -/
def State.configureStand (s : State) (i : Nat) (c : StandCfg) : State :=
  let st := s.stand i
  let s := s.onStand i fun st => { st with cfg := some c }
  if st.splice = .due ∧ (st.cfg.map fun x => x.band) ≠ some c.band then
    s.alter [(.spliceBand, i + 1)]
      (if bandCode c.band < bandCode s.wtr.band then
        [{ reason := .spliceBand, inst := i + 1, req := bandLimit c.band }] else [])
  else s

/-- LOAD_STAND (R87). -/
def State.loadStand (s : State) (a : StandArgs) : State × Reply :=
  if !within 1 7 a.stand then s.refuse (badField 1 0)
  else
    let i := a.stand - 1
    let st := s.stand i
    if a.station = 0 then
      if st.cfg.isSome && st.busy then s.refuse (bare .busy)
      else
        ((s.onStand i fun _ => Stand.cleared none).alter [(.spliceBand, a.stand), (.gradeNotReady, a.stand)] [],
         bare .ok)
    else
      match firstBad (standTests a) with
      | some x => s.refuse (badField x 0)
      | none =>
        let c := standCfgOf a
        if othersAny s.spl.stands.toList i fun o => o.cfg.any fun x => x.station == a.station then
          s.refuse (bare .duplicate)
        else if st.cfg.isSome && st.busy && st.cfg != some c then s.refuse (bare .busy)
        else (s.configureStand i c, bare .ok)

/-! ### LOAD_POINT and LOAD_CHANNEL (R110, R111, R116) -/

/-- LOAD_POINT (R110, R111). DESIGN CHOICE (assumption 38): a removal drops the point's last SETPOINT record. -/
def State.loadPoint (s : State) (a : PointArgs) : State × Reply :=
  match firstBad [(1, a.point ≤ 11), (2, a.station ≤ 62), (3, within 1 5000000 a.dist), (4, a.kind.isSome),
      (5, a.column ≤ 11)], a.kind with
  | some x, _ => s.refuse (badField x 0)
  | none, none => s.refuse (badField 4 0)
  | none, some kind =>
    let old := (s.point a.point).cfg
    if a.station = 0 then
      let s := match old with
        | some c => s.closeTied a.point c.dist
        | none => s
      (s.onPoint a.point fun _ => Point.cleared none, bare .ok)
    else
      let c : PointCfg := { station := a.station, dist := a.dist, kind := kind, column := a.column }
      match old with
      | none => (s.onPoint a.point fun _ => Point.cleared (some c), bare .ok)
      | some o =>
        let s := if o.dist = a.dist then s else s.closeTied a.point o.dist
        ((s.onPoint a.point fun pt => { pt with cfg := some c }).closeIfIdle a.point, bare .ok)

/-- Whether a LOAD_CHANNEL's point is NONE or a configured point (R116). -/
def State.pointOk (s : State) (p : Option Nat) : Bool :=
  match p with
  | none => true
  | some p => p ≤ 11 && (s.point p).cfg.isSome

/-- LOAD_CHANNEL (R116). DESIGN CHOICE (assumption 63): an invert flag that reads as neither set nor clear is the field 6 out of
range. -/
def State.loadChannel (s : State) (a : ChannelArgs) : State × Reply :=
  match firstBad [(1, a.channel ≤ 15), (2, a.sub ≤ 47 && s.entryFeeds a.sub a.channel), (3, s.pointOk a.point),
      (4, within 1 4095 a.mult), (5, -32768 ≤ a.offset && a.offset ≤ 32767), (6, a.invert.isSome),
      (7, within 1 8 a.confirm), (8, a.settle ≤ 60000)] with
  | some x => s.refuse (badField x 0)
  | none =>
    let ch := s.channel a.channel
    let s := match ch.cfg with
      | some k =>
        if ch.isOpen then s.closeOffband a.channel k.point (((s.point k.point).cfg.map fun (c : PointCfg) => c.dist).getD 0)
        else s
      | none => s
    let cfg := a.point.map fun p : Nat =>
      ({ sub := a.sub, point := p, mult := a.mult, offset := a.offset, invert := a.invert.getD false, confirm := a.confirm,
         settle := a.settle } : ChannelCfg)
    (s.onChannel a.channel fun ch => { ch with cfg := cfg, run := .clear, settle := 0 }, bare .ok)

/-! ### LOAD_SCAN and LOAD_GRADE (R119, R108) -/

/-- LOAD_SCAN (R119); the position of the first entry out of range counts from 0, like the scan position. DESIGN CHOICE
(assumption 39): an OPEN channel that the new list leaves out keeps its claim. -/
def State.loadScan (s : State) (l : List Nat) : State × Reply :=
  if 10 < l.length then s.refuse (badField 1 0)
  else
    match positionsOf (fun c => decide (15 < c)) l with
    | p :: _ => s.refuse (badField 2 p)
    | [] => (s.onHgr fun h => { h with scan := l, position := 0 }, bare .ok)

/-- Whether the tolerance of a band entry lies in 0..32,767 (R108). -/
def toleranceOk (e : BandEntry) : Bool := 0 ≤ e.tolerance && e.tolerance ≤ 32767

/-- Whether every tolerance of a column lies in its range (R108). -/
def columnOk (c : Column) : Bool :=
  toleranceOk c.crawl && toleranceOk c.low && toleranceOk c.mid && toleranceOk c.high

/-- Whether an order in a state that holds its grade holds a grade (R42, R108). -/
def Slot.holdsGrade (code : Nat) (o : Slot) : Bool :=
  (o.state == .queued || o.state == .onWeb || o.state == .suspended) && o.order.any fun r => r.grade == code

/-- Whether a grade is in use (R108). -/
def State.gradeInUse (s : State) (code : Nat) : Bool :=
  s.hgr.points.toList.any (fun pt => pt.grade == code) || s.osq.slots.toList.any (Slot.holdsGrade code)

/-- LOAD_GRADE (R108). -/
def State.loadGrade (s : State) (a : GradeArgs) : State × Reply :=
  if !within 1 24 a.code then s.refuse (badField 1 0)
  else
    match positionsOf (fun (c : Option Column) => c.any fun x => !columnOk x) a.grade.columns.toList with
    | c :: _ => s.refuse (badField 3 c)
    | [] =>
      if s.gradeInUse a.code then s.refuse (bare .busy)
      else (s.onHgr fun h => { h with grades := put h.grades (a.code - 1) (some a.grade) }, bare .ok)

/-! ### Orders (R44 to R52, R195) -/

/-- The tests of a LOAD_ORDER's fields up to the one a bad count stands in (R44 check 3). -/
def orderFieldTests (r : OrderRec) : List (Nat × Bool) := [(4, within 1 65535 r.cuts), (5, r.overmake ≤ 500)]

/-- Whether another slot that is not EMPTY holds an order number (R44 check 4). -/
def State.numberHeld (s : State) (slot number : Nat) : Bool :=
  othersAny s.osq.slots.toList slot fun o => o.state != .empty && o.order.any fun r => r.number == number

/-- The slot tests of LOAD_ORDER (R44 checks 1 and 2). -/
def State.slotRefusal (s : State) (slot : Nat) : Option Reply :=
  if 63 < slot then some (bare .badSlot)
  else if (s.slot slot).state = .empty ∨ (s.slot slot).state = .loaded then none
  else some (bare .slotInUse)

/-- LOAD_ORDER with its arguments read (R44, R206); a record or slot that ends too soon is refused before this. -/
def State.loadOrder (s : State) (x : OrderArgs) : State × Reply :=
  match x with
  | .noSlot => s.refuse (bare .badSlot)
  | .short _ i => s.refuse (badField i 0)
  | .badCount slot i r =>
    match s.slotRefusal slot, firstBad (orderFieldTests r) with
    | some reply, _ => s.refuse reply
    | none, some j => s.refuse (badField j 0)
    | none, none => s.refuse (badField i 0)
  | .whole slot quality r =>
    match s.slotRefusal slot, firstBad (orderFieldTests r ++ [(9, decide (quality ≤ 1))]) with
    | some reply, _ => s.refuse reply
    | none, some j => s.refuse (badField j 0)
    | none, none =>
      if r.number ≠ 0 ∧ s.numberHeld slot r.number = true then s.refuse (bare .duplicate)
      else
        ((s.onSlot slot fun _ => { Slot.blank with state := .loaded, order := some r }).onPile slot
          fun _ => { count := 0, next := 1 }, bare .ok)

/-- The reply of a failed validity check (R45). -/
def CheckFailure.reply (f : CheckFailure) : Reply := { code := f.code, index := f.index, detail := f.detail, data := [] }

/-- VERIFY_ORDER (R46). -/
def State.verifyOrder (s : State) (slot : Nat) : Reply :=
  if 63 < slot then bare .badSlot
  else
    match s.checkOrder slot with
    | some f => f.reply
    | none => bare .ok

/-- READ_ORDER (R48). -/
def State.readOrderReply (s : State) (space slot : Nat) : Reply :=
  if 63 < slot then bare .badSlot else readReply space (s.orderData slot)

/-- WITHDRAW_ORDER (R47). -/
def State.withdrawOrder (s : State) (slot : Nat) : State × Reply :=
  if 63 < slot then s.refuse (bare .badSlot)
  else
    let gone := s.onSlot slot fun _ => Slot.blank
    match (s.slot slot).state with
    | .empty => s.refuse (bare .badSlot)
    | .loaded => (gone, bare .ok)
    | .complete => (gone, bare .ok)
    | .short => (gone, bare .ok)
    | .onWeb => s.refuse (bare .busy)
    | .suspended => s.refuse (bare .busy)
    | .queued =>
      let gone := gone.onOsq fun o =>
        { o with queue := o.queue.filter (· != slot), rush := if o.rush = some slot then none else o.rush }
      (gone.candidateEvent, bare .ok)

/-- QUEUE_APPEND (R49); its reply counts the queue as the append leaves it. -/
def State.queueAppend (s : State) (slot : Nat) : State × Reply :=
  if 63 < slot then s.refuse (bare .badSlot)
  else if (s.slot slot).state = .empty then s.refuse (bare .badSlot)
  else if (s.slot slot).state ≠ .loaded then s.refuse (bare .slotInUse)
  else if 32 ≤ s.osq.queue.length then s.refuse (bare .full)
  else
    match s.checkOrder slot with
    | some f => s.refuse f.reply
    | none =>
      let n := s.osq.queue.length
      let s := (s.onSlot slot fun o => { o with state := .queued }).onOsq fun o => { o with queue := o.queue ++ [slot] }
      (s.candidateEvent, okWith [.number n, .number (n + 1)])

/-- QUEUE_REMOVE (R50). -/
def State.queueRemove (s : State) (position slot : Nat) : State × Reply :=
  if s.osq.queue.isEmpty then s.refuse (bare .empty)
  else
    match s.osq.queue[position]? with
    | none => s.refuse (badField 1 0)
    | some i =>
      if i ≠ slot then s.refuse (bare .badSlot)
      else
        let s := (s.onSlot slot fun o => { o with state := .loaded }).onOsq fun o =>
          { o with queue := o.queue.eraseIdx position }
        (s.candidateEvent, okWith [.number slot, .number s.osq.queue.length])

/-- INSERT_RUSH (R52, R69, R195). -/
def State.insertRush (s : State) (slot : Nat) : State × Reply :=
  if 63 < slot then s.refuse (bare .badSlot)
  else if (s.slot slot).state = .empty then s.refuse (bare .badSlot)
  else if (s.slot slot).state ≠ .loaded then s.refuse (bare .slotInUse)
  else if s.osq.rush.isSome then s.refuse (bare .busy)
  else if 3 ≤ s.osq.held.length then s.refuse (bare .full)
  else
    match s.checkOrder slot with
    | some f => s.refuse f.reply
    | none =>
      let s := (s.onSlot slot fun o => { o with state := .queued }).onOsq fun o => { o with rush := some slot }
      let (s, outcome, seq) := s.reportCandidate.evaluateRush
      (s, okWith (.rushOutcome outcome :: (seq.map fun (q : Nat) => Datum.number q).toList))

end Sys2Proof.Machine
end

