-- ==== Sys2Proof/Machine/Management.lean ====
section
/-! DEFINITION. The Management Responder: authority, the checks on a request, the requests themselves, and management
telegrams (R159, R175, R177, R188 to R200). -/

namespace Sys2Proof.Machine

/-! ### Authority (R177) -/

/-- What a requester may do: nothing because it is unknown, nothing because it is a process station, or what a level
allows. -/
inductive Authority where
  | unknown | noAuthority | level (n : Nat)
deriving DecidableEq, Repr

/-- The station that the COMM_STATION pins name, none at 0 and 63 (R177). -/
def commissioning (pins : BitVec 6) : Option Nat :=
  if pins.toNat = 0 ∨ pins.toNat = 63 then none else some pins.toNat

/-- The authority of a requester (R177). -/
def State.authority (s : State) (pins : BitVec 6) (requester : Nat) : Authority :=
  if commissioning pins = some requester then .level 0
  else
    match (s.irt.stations.toList.filterMap id).find? fun e => e.code == requester with
    | none => .unknown
    | some e => if e.role = .processStation then .noAuthority else .level e.level

/-- Whether an authority reaches a minimum level. -/
def Authority.reaches (a : Authority) (minimum : Nat) : Bool :=
  match a with
  | .level n => n ≤ minimum
  | .unknown => false
  | .noAuthority => false

/-! ### The table of requests (R190) -/

/-- The minimum level of each request (R190). -/
def minimumLevel : Request → Nat
  | .loadStation _ => 0 | .loadSubscription _ => 0 | .setLine _ => 0 | .loadStand _ => 0 | .loadPoint _ => 0
  | .loadChannel _ => 0 | .loadScan _ => 0 | .loadGrade _ => 0 | .loadOrder _ => 0 | .withdrawOrder _ => 0
  | .queueAppend _ => 0 | .queueRemove _ _ => 0 | .insertRush _ => 0 | .verifyOrder _ => 2 | .readOrder _ => 2
  | .queueRead => 2 | .readStatus _ _ => 2 | .readMap => 2 | .readStands => 2 | .readLog _ => 2 | .logMode _ _ => 1
  | .startThreading => 1 | .startProduction => 1 | .halt => 2 | .lineReset => 0 | .manualSplice _ => 2
  | .operatorCutout _ _ => 2

/-- Whether a request is available in a line state (R190). -/
def availableIn (r : Request) (x : LineState) : Bool :=
  match r with
  | .loadStation _ => x == .stopped
  | .loadSubscription _ => x == .stopped
  | .setLine _ => x == .stopped
  | .loadStand _ => x == .stopped
  | .loadPoint _ => x == .stopped
  | .loadChannel _ => x == .stopped
  | .loadScan _ => x == .stopped
  | .startThreading => x == .stopped
  | .startProduction => x == .stopped || x == .threading
  | .halt => x == .threading || x == .producing
  | .lineReset => x == .stopped || x == .faulted
  | .manualSplice _ => x == .threading || x == .producing
  | .operatorCutout _ _ => x == .producing
  | .loadGrade _ => true
  | .loadOrder _ => true
  | .withdrawOrder _ => true
  | .queueAppend _ => true
  | .queueRemove _ _ => true
  | .insertRush _ => true
  | .verifyOrder _ => true
  | .readOrder _ => true
  | .queueRead => true
  | .readStatus _ _ => true
  | .readMap => true
  | .readStands => true
  | .readLog _ => true
  | .logMode _ _ => true

/-- How many fields a request needs (R189 check 5). LOAD_ORDER is read from its bytes. DEDUCED (assumption 32): an empty LOAD_SCAN
needs the list's length alone. -/
def fieldsNeeded : Request → Nat
  | .loadStation a => if a.contents.isSome then 4 else 1
  | .loadSubscription a => if a.contents.isSome then 7 else 1
  | .setLine _ => 22
  | .loadStand a => if a.station = 0 then 2 else 9
  | .loadPoint _ => 5
  | .loadChannel _ => 8
  | .loadScan l => if l.isEmpty then 1 else 2
  | .loadGrade _ => 3
  | .loadOrder _ => 0
  | .withdrawOrder _ => 1
  | .queueAppend _ => 1
  | .queueRemove _ _ => 2
  | .insertRush _ => 1
  | .verifyOrder _ => 1
  | .readOrder _ => 1
  | .queueRead => 0
  | .readStatus _ _ => 2
  | .readMap => 0
  | .readStands => 0
  | .readLog _ => 1
  | .logMode _ _ => 2
  | .startThreading => 0
  | .startProduction => 0
  | .halt => 0
  | .lineReset => 0
  | .manualSplice _ => 1
  | .operatorCutout _ _ => 2

/-- The field of a request that is an order slot number, where it has one (R189 check 5). -/
def slotField : Request → Option Nat
  | .withdrawOrder _ => some 1
  | .queueAppend _ => some 1
  | .queueRemove _ _ => some 2
  | .insertRush _ => some 1
  | .verifyOrder _ => some 1
  | .readOrder _ => some 1
  | _ => none

/-- The refusal of a request whose arguments end too soon (R189 check 5, R206). -/
def missingField (r : Request) (present : Nat) : Option Reply :=
  match r with
  | .loadOrder bytes =>
    match readOrder bytes with
    | .noSlot => some (bare .badSlot)
    | .short _ i => some (badField i 0)
    | .badCount _ _ _ => none
    | .whole _ _ _ => none
  | r =>
    if fieldsNeeded r ≤ present then none
    else if slotField r = some (present + 1) then some (bare .badSlot)
    else some (badField (present + 1) 0)

/-- The checks of R189 on a request of the table, in order: the refusal of the first that fails. -/
def State.checkRequest (s : State) (q : Asker) (r : Request) : Option Reply :=
  match s.authority q.comm q.requester with
  | .unknown => some (bare .unknownStation)
  | a =>
    if !a.reaches (minimumLevel r) then some (bare .notAuthorised)
    else if !availableIn r s.lsc.state then
      some { code := .badState, index := 0, detail := lineStateCode s.lsc.state, data := [] }
    else missingField r q.present

/-! ### The remaining requests (R159, R163 to R170, R195 to R200) -/

/-- READ_STATUS (R197). -/
def State.readStatus (s : State) (space : Nat) (part : Option Section) (first : Nat) : Reply :=
  match part with
  | none => badField 1 0
  | some x => s.statusReply space x first

/-- LOG_MODE (R159). -/
def State.logModeRequest (s : State) (mode : Option LogMode) (empty : Bool) : State × Reply :=
  match mode with
  | none => s.refuse (badField 1 0)
  | some m =>
    let removed := if empty then s.plg.records.length else 0
    (s.onPlg fun p =>
      { p with mode := m, records := if empty then [] else p.records, full := if empty then false else p.full },
     okWith [.mode m, .number removed])

/-- START_THREADING and START_PRODUCTION (R163, R165, R196): BAD_CONFIG with the failing check, or the start, with
whether a purge was asked for and the distance loaded. -/
def State.startRequest (s : State) (new : LineState) (code : Nat) : State × Reply :=
  match s.startCheck with
  | some (i, d) => s.refuse { code := .badConfig, index := i, detail := d, data := [] }
  | none =>
    (s.start new code,
     okWith (if s.wmp.valid then [.flag false] else [.flag true, .number s.line.nums.dCreate]))

/-- LINE_RESET (R170, R196). -/
def State.lineResetRequest (s : State) : State × Reply :=
  if s.lsc.state = .faulted ∧ s.lsc.status ≠ .stopped then s.refuse (bare .busy)
  else
    let cleared := s.lsc.latch.map fun l => l.code
    (s.resetLine.1, okWith [.faultCode cleared, .flag s.resetLine.2])

/-- MANUAL_SPLICE (R95, R199). -/
def State.manualSplice (s : State) (k : Nat) : State × Reply :=
  if !within 1 7 k then s.refuse (badField 1 0)
  else
    let i := k - 1
    let st := s.stand i
    match st.cfg with
    | none => s.refuse (badField 1 0)
    | some c =>
      if st.splice = .splicing ∨ st.splice = .fault then s.refuse (bare .busy)
      else if st.spare.isNone then s.refuse (bare .empty)
      else
        let s := ((s.onStand i fun st => { st with manual := true }).examine i).syncReasons [i]
        let x := (s.stand i).splice
        (s, okWith (.spliceState x :: (if x = .due then (s.unmet i c).head?.toList.map Datum.waitCond else [])))

/-- OPERATOR_CUTOUT (R38, R200), with the effect of any mark on the plans (assumption 42): the number the new mark took, and that
of the surviving mark when it was merged. Every GOOD plan that the cut-out's zone overlaps is diverted under the cut-out's number,
also where it is merged into a mark that it does not widen. DESIGN CHOICE (assumption 52): at a merge these DIVERTs come before the
merge, and those that the widened mark brings beside them name the surviving mark (R34). -/
def State.operatorCutout (s : State) (requester : Nat) (distance length : Int) : State × Reply :=
  if !(-100000 ≤ distance && distance ≤ 5000000) then s.refuse (badField 1 0)
  else if !(1 ≤ length && length ≤ 5000000) then s.refuse (badField 2 0)
  else
    let cutout : Mark := { closedMark .operator .mgr (.operator requester) distance length with seq := s.wmp.nextSeq }
    let x := (s.markReport cutout).insertDefect cutout
    (x.1, okWith [.number s.wmp.nextSeq, .optional x.2])

/-! ### Serving a request (R189, R191) -/

/-- Serve a request that MGR has taken (R189): its checks, then the owner; the reply's data fits its space, and the faults
handed go to LSC. -/
def State.serve (s : State) (q : Asker) (r : Request) (owner : State → State × Reply) : State × Reply :=
  match s.checkRequest q r with
  | some refusal => (s, refusal)
  | none =>
    let x := owner s
    (x.1.takeFaults, x.2.cut q.space)

/-- A request carried by a command or by an item: one whose reply space is shorter than the reply header is not taken, and
a BAD_REQUEST notice is queued (R188). The reply stands in the state as what was last written. -/
def State.answer (s : State) (q : Asker) (r : Request) (owner : State → State × Reply) : State :=
  let s := { s with commStation := q.comm }
  if q.space < 4 then s.notify (.badRequest q.requester (requestCode r))
  else
    let x := s.serve q r owner
    { x.1 with reply := some x.2 }

/-- The owner's part of each request. -/
def owned (q : Asker) : Request → State → State × Reply
  | .loadStation a, s => s.loadStation a
  | .loadSubscription a, s => s.loadSubscription a
  | .setLine a, s => s.setLine a
  | .loadStand a, s => s.loadStand a
  | .loadPoint a, s => s.loadPoint a
  | .loadChannel a, s => s.loadChannel a
  | .loadScan l, s => s.loadScan l
  | .loadGrade a, s => s.loadGrade a
  | .loadOrder bytes, s => s.loadOrder (readOrder bytes)
  | .withdrawOrder i, s => s.withdrawOrder i
  | .queueAppend i, s => s.queueAppend i
  | .queueRemove p i, s => s.queueRemove p i
  | .insertRush i, s => s.insertRush i
  | .verifyOrder i, s => (s, s.verifyOrder i)
  | .readOrder i, s => (s, s.readOrderReply q.space i)
  | .queueRead, s => (s, readReply q.space s.queueData)
  | .readStatus part first, s => (s, s.readStatus q.space part first)
  | .readMap, s => (s, s.mapReply q.space)
  | .readStands, s => (s, readReply q.space s.standData)
  | .readLog count, s => s.readLog q.space count
  | .logMode mode empty, s => s.logModeRequest mode empty
  | .startThreading, s => s.startRequest .threading 22
  | .startProduction, s => s.startRequest .producing 23
  | .halt, s => (s.haltLine, bare .ok)
  | .lineReset, s => s.lineResetRequest
  | .manualSplice k, s => s.manualSplice k
  | .operatorCutout d l, s => s.operatorCutout q.requester d l

/-! ### Management telegrams (R175, R188) -/

/-- Whether a request item is addressed to the part: to its own code, or to 63 (R175). -/
def addressed (own : Option Nat) (dest : Nat) : Bool := own == some dest || dest == 63

/-- The length of a request item's reply space, 0 when its argument length runs past its payload (R204, R208). -/
def replySpace (it : Item) (r : RequestItem) : Nat := it.length - (4 + r.argLength)

/-- The asker of a request item. -/
def askerOf (pins : BitVec 6) (it : Item) (r : RequestItem) (space : Nat) : Asker :=
  { comm := pins, requester := it.source, space := space, present := r.present }

/-- A request whose code the table does not have (R189 checks 1 and 2). -/
def State.unknownRequest (s : State) (q : Asker) : Reply :=
  match s.authority q.comm q.requester with
  | .unknown => bare .unknownStation
  | .noAuthority => badField 0 0
  | .level _ => badField 0 0

/-- Serve what a request item asks for. -/
def State.serveAsked (s : State) (q : Asker) : Asked → State × Reply
  | .known r => s.serve q r (owned q r)
  | .unknown _ => (s, s.unknownRequest q)

/-- One item of a management telegram: a request that is taken is served, and gives its reply space's offset in the item and
its bytes (R175, R188, R204). DESIGN CHOICE (assumption 43): in a payload that ends before the reply code (a reply space of
length 0, or arguments that run past the payload) there is no code to have been answered, and BAD_REQUEST is queued. -/
def State.takeRequest (s : State) (own : Option Nat) (pins : BitVec 6) (it : Item) :
    State × Option (Nat × List Byte) :=
  match it.payload with
  | .request r =>
    let space := replySpace it r
    if it.inst ≤ 15 ∧ 4 ≤ it.length ∧ addressed own r.dest = true ∧ (r.replyCode = 0 ∨ space = 0) then
      if space < 4 then (s.notify (.badRequest it.source (askedCode r.asked)), none)
      else
        let x := s.serveAsked (askerOf pins it r space) r.asked
        ({ x.1 with reply := some x.2 }, some (9 + r.argLength, writeReply space x.2))
    else (s, none)
  | _ => (s, none)

/-- The items of a management telegram, in item order from an offset in its bytes, with the written reply spaces by their
offsets. -/
def State.takeRequests (s : State) (own : Option Nat) (pins : BitVec 6) :
    Nat → List Item → State × List (Nat × List Byte)
  | _, [] => (s, [])
  | offset, it :: rest =>
    let x := s.takeRequest own pins it
    let y := State.takeRequests x.1 own pins (offset + 5 + it.length) rest
    (y.1, (x.2.toList.map fun r => (offset + r.1, r.2)) ++ y.2)

/-- A well-formed management telegram (R175): its requests are taken under the part's code as the telegram finds it, and it leaves
with their replies written in their reply spaces, its other bytes as they came. DESIGN CHOICE (assumption 58): the BAD_ITEM notice
is judged and queued before any of the requests is served. -/
def State.takeManagement (s : State) (p : RingPort) (pins : BitVec 6) (t : Telegram) : State :=
  let x := (s.noticeBadItem t.items).takeRequests s.selfCode pins 6 t.items
  x.1.leave p (x.2.foldl (fun l r => overwrite r.1 r.2 l) t.bytes)

/-- A management telegram arrives (R173, R175): read from its bytes, and passed on as it arrived if they are no well-formed
one. -/
def State.managementArrives (s : State) (p : RingPort) (pins : BitVec 6) (x : Arrival) : State :=
  let s := { s with commStation := pins }
  match readTelegram 2 x with
  | some t => s.takeManagement p pins t
  | none => s.badTelegram p x.bytes

end Sys2Proof.Machine
end

