-- ==== Sys2Proof/Machine/Commands.lean ====
section
/-! DEFINITION. The meaning of each command, one definition for each row of spec/opcode_table.json. No command ends in a
fault or a refusal. A request row is the request taken with its asker; a refused request changes nothing but the reply. -/

namespace Sys2Proof.Machine

/-- A command's answer. -/
abbrev Answer := Host.Outcome State Fault Refusal

/-- What RST_N keeps and what it resets (the reset tables R9, R14, R21, R40, R64, R85, R106, R109, R125, R147, R155, R160,
R172, R187). -/
def State.pinReset (s : State) : State :=
  { State.reset with
    line := s.line,
    spl := { stands := s.spl.stands.map fun st => Stand.cleared st.cfg },
    hgr :=
      { grades := s.hgr.grades,
        points := s.hgr.points.map fun pt => Point.cleared pt.cfg,
        channels := s.hgr.channels.map fun ch => Channel.cleared ch.cfg,
        scan := s.hgr.scan,
        position := s.hgr.position },
    plg := { Plg.reset with mode := s.plg.mode },
    irt := { stations := s.irt.stations, subs := s.irt.subs.map fun e => SubEntry.cleared e.cfg },
    commStation := s.commStation,
    choices := s.choices,
    pending := s.pending }

/-- The resend count of a SENT head runs out (R154): the same STACK_COMMAND goes again while the stacker is READY under
another number. -/
def State.resendDue (s : State) : State :=
  match s.stk.queue, s.stk.head with
  | _ :: _, .sent command _ =>
    if s.stk.state = .ready ∧ s.stk.tracked ≠ command then s.resendSetDown else s
  | _, _ => s

/-- POWER_ON (R9, R14, R21, R40, R64, R85, R106, R109, R125, R147, R155, R160, R172, R187, R201): every block takes its
power-on values. What belongs to no block stays: the commands that wait, the COMM_STATION pins, and how many free orders of
events have been used. -/
def execPowerOn (s : State) : Answer :=
  .next { State.reset with pending := s.pending, commStation := s.commStation, choices := s.choices }

/-- RST_N (the same rules): the configuration is kept, the rest takes its reset values. -/
def execRstN (s : State) : Answer :=
  .next s.pinReset

/-- PORT_LINK_CHANGE (R173). -/
def execPortLinkChange (port : RingPort) (up : Bool) (s : State) : Answer :=
  .next (s.linkChange port up)

/-- CYCLE_TELEGRAM (R174): a cycle telegram, taken as a ring cycle unless it repeats the cycle number last seen. -/
def execCycleTelegram (port : RingPort) (x : Arrival) (s : State) : Answer :=
  .next (s.cycleArrives port x)

/-- REPEAT_TELEGRAM (R174): a cycle telegram with the cycle number last seen; one with another number is a ring cycle. -/
def execRepeatTelegram (port : RingPort) (x : Arrival) (s : State) : Answer :=
  .next (s.cycleArrives port x)

/-- MANAGEMENT_TELEGRAM (R175, R188). -/
def execManagementTelegram (port : RingPort) (comm : BitVec 6) (x : Arrival) (s : State) : Answer :=
  .next (s.managementArrives port comm x)

/-- BAD_TELEGRAM (R173): passed on as it arrived, with a notice of its class and length as far as they can be read. -/
def execBadTelegram (port : RingPort) (bytes : List Byte) (s : State) : Answer :=
  .next (s.badTelegram port bytes)

/-- RING_LOST (R182): the ring-loss timer runs out; while it does not run, nothing happens. -/
def execRingLost (s : State) : Answer :=
  .next s.ringLost

/-- SWAP_TIMEOUT (R81): the swap timer runs out; while it does not run, nothing happens. -/
def execSwapTimeout (s : State) : Answer :=
  .next (if s.chg.timer = 0 then s else s.swapExpired.takeFaults)

/-- SPLICE_TIMEOUT (R98, R101): the splice timer of a SPLICING stand runs out; of another stand, nothing happens. -/
def execSpliceTimeout (k : Fin 7) (s : State) : Answer :=
  .next ((s.spliceExpired k).takeFaults)

/-- FRESHNESS_LAPSE (R179): the freshness counter of a FRESH entry runs out; of another entry, nothing happens. -/
def execFreshnessLapse (entry : Fin 48) (s : State) : Answer :=
  .next ((s.lapse entry).takeFaults)

/-- SPEED_REQUEST_REFRESH (R19): the refresh counter runs out. -/
def execSpeedRequestRefresh (s : State) : Answer :=
  .next ((s.sendSpeedRequest .refresh).takeFaults)

/-- STACK_COMMAND_RESEND (R154): the resend count of a SENT head runs out under a READY stacker that reports another number;
otherwise nothing happens. -/
def execStackCommandResend (s : State) : Answer :=
  .next s.resendDue.takeFaults

/-- SETTLE_END (R115): the settle timer of a channel runs out. -/
def execSettleEnd (channel : Fin 16) (s : State) : Answer :=
  .next (s.onChannel channel fun ch => { ch with settle := 0 })

/-- LOAD_STATION (R176, R194). -/
def execLoadStation (q : Asker) (a : StationArgs) (s : State) : Answer :=
  .next (s.answer q (.loadStation a) fun s => s.loadStation a)

/-- LOAD_SUBSCRIPTION (R178, R194). -/
def execLoadSubscription (q : Asker) (a : SubscriptionArgs) (s : State) : Answer :=
  .next (s.answer q (.loadSubscription a) fun s => s.loadSubscription a)

/-- SET_LINE (R192, R193). -/
def execSetLine (q : Asker) (a : LineArgs) (s : State) : Answer :=
  .next (s.answer q (.setLine a) fun s => s.setLine a)

/-- LOAD_STAND (R87, R194). -/
def execLoadStand (q : Asker) (a : StandArgs) (s : State) : Answer :=
  .next (s.answer q (.loadStand a) fun s => s.loadStand a)

/-- LOAD_POINT (R110, R111, R194). -/
def execLoadPoint (q : Asker) (a : PointArgs) (s : State) : Answer :=
  .next (s.answer q (.loadPoint a) fun s => s.loadPoint a)

/-- LOAD_CHANNEL (R116, R194). -/
def execLoadChannel (q : Asker) (a : ChannelArgs) (s : State) : Answer :=
  .next (s.answer q (.loadChannel a) fun s => s.loadChannel a)

/-- LOAD_SCAN (R119, R194). -/
def execLoadScan (q : Asker) (channels : List Nat) (s : State) : Answer :=
  .next (s.answer q (.loadScan channels) fun s => s.loadScan channels)

/-- LOAD_GRADE (R108, R194). -/
def execLoadGrade (q : Asker) (a : GradeArgs) (s : State) : Answer :=
  .next (s.answer q (.loadGrade a) fun s => s.loadGrade a)

/-- LOAD_ORDER (R44, R195, R206). -/
def execLoadOrder (q : Asker) (bytes : List Byte) (s : State) : Answer :=
  .next (s.answer q (.loadOrder bytes) fun s => s.loadOrder (readOrder bytes))

/-- WITHDRAW_ORDER (R47, R195). -/
def execWithdrawOrder (q : Asker) (slot : Nat) (s : State) : Answer :=
  .next (s.answer q (.withdrawOrder slot) fun s => s.withdrawOrder slot)

/-- QUEUE_APPEND (R49, R195). -/
def execQueueAppend (q : Asker) (slot : Nat) (s : State) : Answer :=
  .next (s.answer q (.queueAppend slot) fun s => s.queueAppend slot)

/-- QUEUE_REMOVE (R50, R195). -/
def execQueueRemove (q : Asker) (position slot : Nat) (s : State) : Answer :=
  .next (s.answer q (.queueRemove position slot) fun s => s.queueRemove position slot)

/-- INSERT_RUSH (R52, R69, R195). -/
def execInsertRush (q : Asker) (slot : Nat) (s : State) : Answer :=
  .next (s.answer q (.insertRush slot) fun s => s.insertRush slot)

/-- VERIFY_ORDER (R46, R195). -/
def execVerifyOrder (q : Asker) (slot : Nat) (s : State) : Answer :=
  .next (s.answer q (.verifyOrder slot) fun s => (s, s.verifyOrder slot))

/-- READ_ORDER (R48, R195). -/
def execReadOrder (q : Asker) (slot : Nat) (s : State) : Answer :=
  .next (s.answer q (.readOrder slot) fun s => (s, s.readOrderReply q.space slot))

/-- QUEUE_READ (R51, R195). -/
def execQueueRead (q : Asker) (s : State) : Answer :=
  .next (s.answer q .queueRead fun s => (s, readReply q.space s.queueData))

/-- READ_STATUS (R197). -/
def execReadStatus (q : Asker) (part : Option Section) (first : Nat) (s : State) : Answer :=
  .next (s.answer q (.readStatus part first) fun s => (s, s.readStatus q.space part first))

/-- READ_MAP (R39, R198, R207). -/
def execReadMap (q : Asker) (s : State) : Answer :=
  .next (s.answer q .readMap fun s => (s, s.mapReply q.space))

/-- READ_STANDS (R105, R198). -/
def execReadStands (q : Asker) (s : State) : Answer :=
  .next (s.answer q .readStands fun s => (s, readReply q.space s.standData))

/-- READ_LOG (R158, R198). -/
def execReadLog (q : Asker) (count : Nat) (s : State) : Answer :=
  .next (s.answer q (.readLog count) fun s => s.readLog q.space count)

/-- LOG_MODE (R159, R198). -/
def execLogMode (q : Asker) (mode : Option LogMode) (empty : Bool) (s : State) : Answer :=
  .next (s.answer q (.logMode mode empty) fun s => s.logModeRequest mode empty)

/-- START_THREADING (R163, R196). -/
def execStartThreading (q : Asker) (s : State) : Answer :=
  .next (s.answer q .startThreading fun s => s.startRequest .threading 22)

/-- START_PRODUCTION (R165, R196). -/
def execStartProduction (q : Asker) (s : State) : Answer :=
  .next (s.answer q .startProduction fun s => s.startRequest .producing 23)

/-- HALT (R166, R196). -/
def execHalt (q : Asker) (s : State) : Answer :=
  .next (s.answer q .halt fun s => (s.haltLine, bare .ok))

/-- LINE_RESET (R170, R196). -/
def execLineReset (q : Asker) (s : State) : Answer :=
  .next (s.answer q .lineReset fun s => s.lineResetRequest)

/-- MANUAL_SPLICE (R95, R199). -/
def execManualSplice (q : Asker) (stand : Nat) (s : State) : Answer :=
  .next (s.answer q (.manualSplice stand) fun s => s.manualSplice stand)

/-- OPERATOR_CUTOUT (R38, R200). -/
def execOperatorCutout (q : Asker) (distance length : Int) (s : State) : Answer :=
  .next (s.answer q (.operatorCutout distance length) fun s => s.operatorCutout q.requester distance length)

end Sys2Proof.Machine
end

