-- ==== Sys2Proof/Machine/Dispatch.lean ====
section
/-! DEFINITION. What each command does: one arm for each constructor of Instr. -/

namespace Sys2Proof.Machine

def exec (i : Instr) (s : State) : Host.Outcome State Fault Refusal :=
  match i with
  | .powerOn => Sys2Proof.Machine.execPowerOn s
  | .rstN => Sys2Proof.Machine.execRstN s
  | .portLinkChange port up => Sys2Proof.Machine.execPortLinkChange port up s
  | .cycleTelegram port x => Sys2Proof.Machine.execCycleTelegram port x s
  | .repeatTelegram port x => Sys2Proof.Machine.execRepeatTelegram port x s
  | .managementTelegram port comm x => Sys2Proof.Machine.execManagementTelegram port comm x s
  | .badTelegram port bytes => Sys2Proof.Machine.execBadTelegram port bytes s
  | .ringLost => Sys2Proof.Machine.execRingLost s
  | .swapTimeout => Sys2Proof.Machine.execSwapTimeout s
  | .spliceTimeout k => Sys2Proof.Machine.execSpliceTimeout k s
  | .freshnessLapse entry => Sys2Proof.Machine.execFreshnessLapse entry s
  | .speedRequestRefresh => Sys2Proof.Machine.execSpeedRequestRefresh s
  | .stackCommandResend => Sys2Proof.Machine.execStackCommandResend s
  | .settleEnd channel => Sys2Proof.Machine.execSettleEnd channel s
  | .loadStation q a => Sys2Proof.Machine.execLoadStation q a s
  | .loadSubscription q a => Sys2Proof.Machine.execLoadSubscription q a s
  | .setLine q a => Sys2Proof.Machine.execSetLine q a s
  | .loadStand q a => Sys2Proof.Machine.execLoadStand q a s
  | .loadPoint q a => Sys2Proof.Machine.execLoadPoint q a s
  | .loadChannel q a => Sys2Proof.Machine.execLoadChannel q a s
  | .loadScan q channels => Sys2Proof.Machine.execLoadScan q channels s
  | .loadGrade q a => Sys2Proof.Machine.execLoadGrade q a s
  | .loadOrder q bytes => Sys2Proof.Machine.execLoadOrder q bytes s
  | .withdrawOrder q slot => Sys2Proof.Machine.execWithdrawOrder q slot s
  | .queueAppend q slot => Sys2Proof.Machine.execQueueAppend q slot s
  | .queueRemove q position slot => Sys2Proof.Machine.execQueueRemove q position slot s
  | .insertRush q slot => Sys2Proof.Machine.execInsertRush q slot s
  | .verifyOrder q slot => Sys2Proof.Machine.execVerifyOrder q slot s
  | .readOrder q slot => Sys2Proof.Machine.execReadOrder q slot s
  | .queueRead q => Sys2Proof.Machine.execQueueRead q s
  | .readStatus q part first => Sys2Proof.Machine.execReadStatus q part first s
  | .readMap q => Sys2Proof.Machine.execReadMap q s
  | .readStands q => Sys2Proof.Machine.execReadStands q s
  | .readLog q count => Sys2Proof.Machine.execReadLog q count s
  | .logMode q mode empty => Sys2Proof.Machine.execLogMode q mode empty s
  | .startThreading q => Sys2Proof.Machine.execStartThreading q s
  | .startProduction q => Sys2Proof.Machine.execStartProduction q s
  | .halt q => Sys2Proof.Machine.execHalt q s
  | .lineReset q => Sys2Proof.Machine.execLineReset q s
  | .manualSplice q stand => Sys2Proof.Machine.execManualSplice q stand s
  | .operatorCutout q distance length => Sys2Proof.Machine.execOperatorCutout q distance length s

end Sys2Proof.Machine
end

