-- ==== Sys2Proof/Safety.lean ====
section
/-! DEFINITION. What holds of the part between commands: the bounds and forms that the manual gives its registers, queues
and tables, gathered as one invariant; the configuration; and when a request is granted. -/

namespace Sys2Proof.Machine

/-! ### Bounds and forms, block by block -/

/-- The feed state and the history (R2, R5, R6, R10, R19): the remainder below 65,536, the debt at most 255, the elapsed
cycles at most 65,535, sixteen history entries, a fill of at most 16, V the history's sum once the history is filled and
0 before, and the refresh counter at most 64. -/
def Wtr.FeedOk (w : Wtr) : Prop :=
  w.remainder < 65536 ∧ w.debt ≤ 255 ∧ w.elapsed ≤ 65535 ∧ w.history.length = 16 ∧ w.fill ≤ 16
    ∧ w.speedSum = (if w.fill = 16 then w.history.sum else 0) ∧ w.refresh ≤ 64

/-- The map (R25, R26): marks in ascending order of start, at most 32 defect marks, a creation counter of 16 bits. -/
def Wmp.MapOk (w : Wmp) : Prop :=
  (w.marks.Pairwise fun x y => x.start ≤ y.start) ∧ defectCount w.marks ≤ 32 ∧ w.nextSeq < 65536

/-- The segment list holds 1 to 4 segments, the run queue at most 32 slots (R49, R56, R70). -/
def Osq.ListsOk (o : Osq) : Prop :=
  1 ≤ o.segments.length ∧ o.segments.length ≤ 4 ∧ o.queue.length ≤ 32

/-- At most four changeover records are held (R78). -/
def Chg.RecordsOk (c : Chg) : Prop := c.records.length ≤ 4

/-- At most two cut plans are outstanding; the plan sequence counter has 16 bits (R126, R127). -/
def Knp.PlansOk (k : Knp) : Prop := k.plans.length ≤ 2 ∧ k.counter < 65536

/-- At most two set-downs are queued, and both places are taken while the overflow is (R151). -/
def Stk.QueueOk (k : Stk) : Prop := k.queue.length ≤ 2 ∧ (k.overflow.isSome = true → k.queue.length = 2)

/-- At most 512 log records, a log counter of 16 bits (R156, R157). -/
def Plg.LogOk (p : Plg) : Prop := p.records.length ≤ 512 ∧ p.counter < 65536

/-- At most 16 urgent and 48 routine items wait (R185, R186). -/
def Rif.QueuesOk (r : Rif) : Prop := r.urgent.length ≤ 16 ∧ r.routine.length ≤ 48

/-- A latched fault goes with STOPPED or FAULTED, and FAULTED with a latched fault (R168, R169). -/
def Lsc.LatchOk (l : Lsc) : Prop :=
  (l.latch.isSome = true → l.state = .stopped ∨ l.state = .faulted) ∧ (l.state = .faulted → l.latch.isSome = true)

/-! ### Relations between blocks -/

/-- The current request and the governing reason are those of the reason set, and LINE_STOP is asserted exactly while the
request is STOP or the ring is lost (R17, R20). -/
def State.RequestOk (s : State) : Prop :=
  s.wtr.request = strongest s.wtr.reasons ∧ s.wtr.governing = governingOf s.wtr.reasons
    ∧ (s.lineStop = true ↔ s.wtr.request = .stop ∨ s.rif.ring = .lost)

/-- The reasons that Line State Control holds for a line state (R161). -/
def isLineReason : Reason → Bool
  | .threading => true | .halt => true | .fault => true | .stoppedState => true
  | .noOrder => false | .spliceBand => false | .slitterNotReady => false | .gradeNotReady => false
  | .stackerBehind => false | .lineStatusStale => false

/-- Of the four reasons of the line states, the set holds that of the present line state alone (R161). -/
def State.LineReasonOk (s : State) : Prop :=
  (s.wtr.reasons.filter fun r => isLineReason r.reason) = (stateReason s.lsc.state).toList

/-- The invariant: what holds after power-on and after every command. -/
structure State.Inv (s : State) : Prop where
  feed       : s.wtr.FeedOk
  map        : s.wmp.MapOk
  lists      : s.osq.ListsOk
  changes    : s.chg.RecordsOk
  plans      : s.knp.PlansOk
  setDowns   : s.stk.QueueOk
  records    : s.plg.LogOk
  queues     : s.rif.QueuesOk
  latch      : s.lsc.LatchOk
  request    : s.RequestOk
  lineReason : s.LineReasonOk
  handed     : s.handed = []

/-! ### What stands once -/

/-- How many marks of a kind the map holds. -/
def kindCount (k : MarkKind) (l : List Mark) : Nat := l.countP fun m => m.kind == k

/-- What the map holds once (R24, R25, R27, R36): a claim of each identity stands on one mark, and on a defect mark; a SPLICE
mark is a stand's, one for each stand; one PURGE. -/
structure Wmp.MarksOk (w : Wmp) : Prop where
  claims : ∀ kind owner, (w.marks.countP fun m => m.holdsClaim kind owner) ≤ 1
  closed : ∀ m ∈ w.marks, m.kind.isStructural = true → m.claims = []
  joints : ∀ m ∈ w.marks, m.kind = .splice → ∃ k, 1 ≤ k ∧ k ≤ 7 ∧ m.isJointOf k = true
  joint  : ∀ k, w.marks.countP (Mark.isJointOf k) ≤ 1
  purge  : kindCount .purge w.marks ≤ 1

/-- A slot of an order table, EMPTY outside it. -/
def Osq.slotAt (o : Osq) (i : Nat) : Slot := (o.slots[i]?).getD Slot.blank

/-- The slots as the lists name them (R41, R49, R52, R53, R55, R56), where l gives the segments' orders, the lead's last: the run
queue names no slot twice, its slots and the pending rush are QUEUED, those on the held-order stack SUSPENDED and named once, the
segments' ON_WEB or SUSPENDED, with as many in flight as hold the order, and the lead's ON_WEB. -/
structure Osq.TableOk (o : Osq) (l : List (Option Nat)) : Prop where
  once      : o.queue.Nodup
  queued    : ∀ i ∈ o.queue, (o.slotAt i).state = .queued
  rush      : ∀ i, o.rush = some i → i ∉ o.queue ∧ (o.slotAt i).state = .queued
  heldOnce  : o.held.Nodup
  suspended : ∀ i ∈ o.held, (o.slotAt i).state = .suspended
  web       : ∀ i, some i ∈ l → (o.slotAt i).state = .onWeb ∨ (o.slotAt i).state = .suspended
  flight    : ∀ i, (o.slotAt i).inFlight = l.count (some i)
  lead      : ∀ i, l.getLast? = some (some i) → (o.slotAt i).state = .onWeb

/-- At most three orders are held, the one that a pending rush is to suspend with them (R52, R53). -/
def Osq.HeldOk (o : Osq) : Prop := o.held.length + o.rush.toList.length ≤ 3

/-- What stands once, and how many stand (R24, R25, R49, R53, R56, R168): beside the invariant, and kept with it. -/
structure State.Consistent (s : State) : Prop where
  marks      : s.wmp.MarksOk
  boundaries : kindCount .boundary s.wmp.marks + 1 = s.osq.segments.length
  area       : structuralCount s.wmp.marks ≤ 16
  table      : s.osq.TableOk (s.osq.segments.map fun g => g.order)
  held       : s.osq.HeldOk
  faults     : s.lsc.seen.Nodup ∧ s.lsc.seen.length ≤ 10

/-! ### The configuration -/

/-- What the seven configuration loads and SET_LINE load: what RST_N keeps of the part's tables (R65, R87, R109, R125, R187,
R192). -/
structure Configuration where
  line     : LineConsts
  stands   : List (Option StandCfg)
  grades   : List (Option Grade)
  points   : List (Option PointCfg)
  channels : List (Option ChannelCfg)
  scan     : List Nat
  stations : List (Option StationEntry)
  subs     : List (Option SubCfg)
deriving DecidableEq, Repr

/-- The configuration loaded. -/
def State.configuration (s : State) : Configuration where
  line := s.line
  stands := s.spl.stands.toList.map fun st => st.cfg
  grades := s.hgr.grades.toList
  points := s.hgr.points.toList.map fun p => p.cfg
  channels := s.hgr.channels.toList.map fun c => c.cfg
  scan := s.hgr.scan
  stations := s.irt.stations.toList
  subs := s.irt.subs.toList.map fun e => e.cfg

/-! ### Requests -/

/-- A request is granted: its reply space holds the reply header, and every check of R189 passes. -/
def State.Grants (s : State) (q : Asker) (r : Request) : Prop := 4 ≤ q.space ∧ s.checkRequest q r = none

/-- The requests that load the configuration. -/
def loadsConfiguration : Request → Bool
  | .loadStation _ => true | .loadSubscription _ => true | .setLine _ => true | .loadStand _ => true
  | .loadPoint _ => true | .loadChannel _ => true | .loadScan _ => true | .loadGrade _ => true
  | .loadOrder _ => false | .withdrawOrder _ => false | .queueAppend _ => false | .queueRemove _ _ => false
  | .insertRush _ => false | .verifyOrder _ => false | .readOrder _ => false | .queueRead => false
  | .readStatus _ _ => false | .readMap => false | .readStands => false | .readLog _ => false
  | .logMode _ _ => false | .startThreading => false | .startProduction => false | .halt => false
  | .lineReset => false | .manualSplice _ => false | .operatorCutout _ _ => false

/-- The command that carries a request (R188, R190). -/
def carrying (q : Asker) : Request → Instr
  | .loadStation a => .loadStation q a
  | .loadSubscription a => .loadSubscription q a
  | .setLine a => .setLine q a
  | .loadStand a => .loadStand q a
  | .loadPoint a => .loadPoint q a
  | .loadChannel a => .loadChannel q a
  | .loadScan l => .loadScan q l
  | .loadGrade a => .loadGrade q a
  | .loadOrder bytes => .loadOrder q bytes
  | .withdrawOrder i => .withdrawOrder q i
  | .queueAppend i => .queueAppend q i
  | .queueRemove p i => .queueRemove q p i
  | .insertRush i => .insertRush q i
  | .verifyOrder i => .verifyOrder q i
  | .readOrder i => .readOrder q i
  | .queueRead => .queueRead q
  | .readStatus part first => .readStatus q part first
  | .readMap => .readMap q
  | .readStands => .readStands q
  | .readLog n => .readLog q n
  | .logMode mode empty => .logMode q mode empty
  | .startThreading => .startThreading q
  | .startProduction => .startProduction q
  | .halt => .halt q
  | .lineReset => .lineReset q
  | .manualSplice k => .manualSplice q k
  | .operatorCutout d l => .operatorCutout q d l

/-- A command that carries no request. -/
def isEvent : Instr → Bool
  | .powerOn => true | .rstN => true | .portLinkChange _ _ => true | .cycleTelegram _ _ => true
  | .repeatTelegram _ _ => true | .managementTelegram _ _ _ => true | .badTelegram _ _ => true | .ringLost => true
  | .swapTimeout => true | .spliceTimeout _ => true | .freshnessLapse _ => true | .speedRequestRefresh => true
  | .stackCommandResend => true | .settleEnd _ => true | .loadStation _ _ => false | .loadSubscription _ _ => false
  | .setLine _ _ => false | .loadStand _ _ => false | .loadPoint _ _ => false | .loadChannel _ _ => false
  | .loadScan _ _ => false | .loadGrade _ _ => false | .loadOrder _ _ => false | .withdrawOrder _ _ => false
  | .queueAppend _ _ => false | .queueRemove _ _ _ => false | .insertRush _ _ => false | .verifyOrder _ _ => false
  | .readOrder _ _ => false | .queueRead _ => false | .readStatus _ _ _ => false | .readMap _ => false
  | .readStands _ => false | .readLog _ _ => false | .logMode _ _ _ => false | .startThreading _ => false
  | .startProduction _ => false | .halt _ => false | .lineReset _ => false | .manualSplice _ _ => false
  | .operatorCutout _ _ _ => false

/-- The ranges and orders of the line constants that are numbers, in index order (R192). -/
def LineNumbersOk (n : LineNumbers) : Prop :=
  (1 ≤ n.feedScale ∧ n.feedScale ≤ 1048575) ∧ (1 ≤ n.jumpLimit ∧ n.jumpLimit ≤ 4095)
    ∧ (1 ≤ n.uLow ∧ n.uLow < n.uMid ∧ n.uMid < n.uHigh ∧ n.uHigh ≤ 8388607)
    ∧ (1 ≤ n.dLow ∧ n.dLow < n.dMid ∧ n.dMid < n.dHigh)
    ∧ (n.dLow < n.uLow ∧ n.dMid < n.uMid ∧ n.dHigh < n.uHigh)
    ∧ (1 ≤ n.dCreate ∧ n.dCreate ≤ 5000000) ∧ (500 ≤ n.zSwap ∧ n.zSwap ≤ 20000) ∧ n.dSs ≤ 5000000
    ∧ (1 ≤ n.swapTimeout ∧ n.swapTimeout ≤ 4000) ∧ (500 ≤ n.webWidth ∧ n.webWidth ≤ 50000) ∧ n.gOff ≤ 5000
    ∧ (1500 ≤ n.wMin ∧ n.wMin ≤ 20000) ∧ (n.wMin ≤ n.wMax ∧ n.wMax ≤ 65000) ∧ n.miscut ≤ 200 ∧ n.lateLimit ≤ 2000
    ∧ (n.dwellNear ≤ n.dwellFar ∧ n.dwellFar ≤ 5000000) ∧ (100 ≤ n.ringTimeout ∧ n.ringTimeout ≤ 50000)

/-! ### The feed -/

/-- The advances of a run of effective counts, summed, and the feed remainder they leave (R6). -/
def feedRun (scale : Nat) : Nat → List Nat → Nat × Nat
  | remainder, [] => (0, remainder)
  | remainder, c :: rest =>
    let x := scaleCount remainder c scale
    let y := feedRun scale x.2 rest
    (x.1 + y.1, y.2)

/-! ### The map -/

/-- A place on the web lies in the zone of a defect mark (R22). -/
def Covered (l : List Mark) (x : Int) : Prop :=
  ∃ m ∈ l, m.kind.isStructural = false ∧ m.start ≤ x ∧ x < m.zoneEnd

/-- The routine queue and the overflow, in the order in which they leave (R186). -/
def Rif.routineItems (r : Rif) : List OutItem := r.routine ++ r.overflow.toList

/-- Of the waiting items none replaces another: at most one SETPOINT waits for a point, and at most one SLITTER_PRESET for
a station (R186). -/
def Rif.OneEach (r : Rif) : Prop := r.routineItems.Pairwise fun x y => replaces x y = false

/-! ### Creations -/

/-- A segment as it stands but for the planning flag, which R135 may pass on in the same event. -/
def Segment.unflagged (g : Segment) : Segment := { g with planning := false }

/-- What the creation of a boundary at a start x leaves, seen from a state s, where the segment g leads and the order r of slot
i is taken (R71): the new boundary closes g, a new lead segment has r's target, and the boundary's mark is on the map, flying
when r's setting is the one expected. -/
structure State.Opened (s u : State) (g : Segment) (i : Nat) (r : OrderRec) (x : Int) : Prop where
  segments : u.osq.segments.map Segment.unflagged
    = (s.osq.segments.map fun h =>
        { h with closing := if h.num = g.num then some s.wmp.nextSeq else h.closing, planning := false })
      ++ [{ num := s.osq.nextNum, order := some i, target := r.cuts + r.overmake - (s.slot i).goodPlanned,
            goodPlanned := 0, opening := some s.wmp.nextSeq, closing := none, planning := false }]
  mark : ∃ m ∈ u.wmp.marks, m.kind = .boundary ∧ m.seq = s.wmp.nextSeq ∧ m.start = x ∧ m.claims = []
    ∧ m.closedEnd = x + (if s.chg.expected = some r.tracks then 0 else (s.line.nums.zSwap : Int))
    ∧ ∃ preset, m.payload = .boundary g.num (some i) (decide (s.chg.expected = some r.tracks)) preset

/-- What the Changeover Unit makes of the next-order candidate c that u has, seen from a state s before it was worked out again
(R54, R77): a candidate that stands, or whose setting the forecast holds, changes nothing; without a slitter distance, behind a
changeover record, and for no order or one with the expected setting the forecast is none; any other setting is preset at the idle
station. -/
structure State.Forecasts (s u : State) (c : Option Nat) : Prop where
  kept : c = s.osq.candidate
      ∨ s.line.nums.dSs ≠ 0 ∧ s.chg.records = [] ∧ c.bind u.settingOf ≠ none ∧ s.chg.expected ≠ c.bind u.settingOf
        ∧ (s.chg.forecast.map fun f => f.2.setting) = c.bind u.settingOf →
    u.chg = s.chg ∧ u.rif = s.rif ∧ u.handed = s.handed
  dropped : c ≠ s.osq.candidate →
      s.line.nums.dSs = 0 ∨ s.chg.records ≠ [] ∨ c.bind u.settingOf = none ∨ s.chg.expected = c.bind u.settingOf →
    u.chg = { s.chg with forecast := none } ∧ u.rif = s.rif ∧ u.handed = s.handed
  preset : ∀ x, c ≠ s.osq.candidate → s.line.nums.dSs ≠ 0 → s.chg.records = [] → c.bind u.settingOf = some x →
      s.chg.expected ≠ some x → (s.chg.forecast.map fun f => f.2.setting) ≠ some x →
    let p : Preset := { id := nextId s.chg.idCounter, setting := x }
    let sent := s.queueRoutine (.slitterPreset s.chg.idle p s.line.side)
    u.chg.forecast = some (s.chg.idle, p) ∧ u.chg.idCounter = p.id ∧ (s.chg.idle, p) ∈ u.chg.sent
      ∧ u.chg.records = [] ∧ u.chg.expected = s.chg.expected ∧ u.rif = sent.rif ∧ u.handed = sent.handed

/-! ### What a granted request leaves -/

/-- A state after a request that changed nothing but what the pins read and the reply. -/
def State.replied (s : State) (q : Asker) (r : Reply) : State := { s with commStation := q.comm, reply := some r }

/-- What a start, a halt and LINE_RESET leave alone: the router's tables, what the ring has told, and the feed state and the
history but for the encoder debt; with what last left the part and the commands that wait. -/
def State.SameFeedAndRing (s t : State) : Prop :=
  t.irt = s.irt
    ∧ (t.rif.portA = s.rif.portA ∧ t.rif.portB = s.rif.portB ∧ t.rif.ring = s.rif.ring ∧ t.rif.cycle = s.rif.cycle
      ∧ t.rif.timer = s.rif.timer)
    ∧ (t.wtr.lastCount = s.wtr.lastCount ∧ t.wtr.firstCount = s.wtr.firstCount ∧ t.wtr.elapsed = s.wtr.elapsed
      ∧ t.wtr.remainder = s.wtr.remainder)
    ∧ (t.wtr.history = s.wtr.history ∧ t.wtr.fill = s.wtr.fill ∧ t.wtr.speedSum = s.wtr.speedSum
      ∧ t.wtr.band = s.wtr.band)
    ∧ t.passed = s.passed ∧ t.pending = s.pending

end Sys2Proof.Machine
end

