-- ==== Sys2Proof/Certificates/Slice0/Obligations.lean ====
section
/-! DEFINITION. The statements for the provers: what the commands do, what every step keeps, and what the blocks compute. -/

open Sys2Proof Sys2Proof.Machine

/-! ### The machine as a whole -/

/-- A step runs the command at the front of the queue on the state with the queue's rest; on an empty queue the part idles
(the model's choice, assumption 1). -/
def Obligations.StepRunsTheFrontCommand : Prop :=
  ∀ s : State, (∀ c rest, s.pending = c :: rest → step s = exec c { s with pending := rest })
    ∧ (s.pending = [] → step s = .next s)

/-- POWER_ON completes, and puts every block at its power-on values: the part is STOPPED with STOPPED_STATE in the reason set
and LINE_STOP asserted, nothing is loaded, nothing is on the map and nothing waits to be sent. What the pins
read, the commands that wait and the count of free orders used belong to no block and stand (the model's choice, assumptions 2,
3 and 8). -/
def Obligations.PowerOnResetsEveryBlock : Prop :=
  ∀ s : State, ∃ t, exec .powerOn s = .next t
    ∧ t = { State.reset with pending := s.pending, commStation := s.commStation, choices := s.choices }
    ∧ (t.line = LineConsts.default ∧ t.lineStop = true ∧ t.lsc.state = .stopped ∧ t.lsc.latch = none ∧ t.lsc.seen = []
      ∧ t.lsc.status = .unknown ∧ t.lsc.held = false ∧ t.lsc.threading = 0 ∧ t.lsc.purge = 0)
    ∧ (t.wtr.reasons = [{ reason := .stoppedState, inst := 0, req := .stop }] ∧ t.wtr.request = .stop
      ∧ t.wtr.governing = some (.stoppedState, 0) ∧ t.wtr.refresh = 0 ∧ t.wtr.lastCount = 0 ∧ t.wtr.firstCount = true
      ∧ t.wtr.elapsed = 0 ∧ t.wtr.remainder = 0 ∧ t.wtr.debt = 0 ∧ t.wtr.history = List.replicate 16 0 ∧ t.wtr.fill = 0
      ∧ t.wtr.speedSum = 0 ∧ t.wtr.band = .crawl)
    ∧ (t.wmp.marks = [] ∧ t.wmp.valid = false ∧ t.wmp.armed = false ∧ t.wmp.nextSeq = 0)
    ∧ ((∀ i, t.slot i = Slot.blank) ∧ t.osq.queue = [] ∧ t.osq.held = [] ∧ t.osq.rush = none
      ∧ t.osq.candidate = none ∧ t.osq.segments.length = 1
      ∧ ∀ g ∈ t.osq.segments, g.order = none ∧ g.target = 0 ∧ g.goodPlanned = 0 ∧ g.opening = none ∧ g.closing = none
        ∧ g.planning = true)
    ∧ (t.chg.stateA = .unknown ∧ t.chg.stateB = .unknown ∧ t.chg.engaged = none ∧ t.chg.heldA = none ∧ t.chg.heldB = none
      ∧ t.chg.expected = none ∧ t.chg.idCounter = 0 ∧ t.chg.forecast = none ∧ t.chg.records = [] ∧ t.chg.timer = 0
      ∧ t.chg.blocked = false ∧ t.chg.changeover = none ∧ t.chg.causeA = .none ∧ t.chg.causeB = .none)
    ∧ ((∀ i, t.stand i = Stand.cleared none) ∧ (∀ i, t.point i = Point.cleared none)
      ∧ (∀ i, t.channel i = Channel.cleared none) ∧ (∀ code, t.grade code = none) ∧ t.hgr.scan = [] ∧ t.hgr.position = 0)
    ∧ (t.knp.plans = [] ∧ t.knp.counter = 0 ∧ t.knp.cutEdge = 0 ∧ t.knp.front = 0 ∧ t.knp.withdrawn = []
      ∧ t.knp.planSent = false)
    ∧ (t.stk.queue = [] ∧ t.stk.head = .waiting ∧ t.stk.overflow = none ∧ t.stk.state = .unknown ∧ t.stk.tracked = 0
      ∧ t.stk.counter = 0 ∧ ∀ i, t.pile i = { count := 0, next := 1 })
    ∧ (t.plg.records = [] ∧ t.plg.mode = .wrap ∧ t.plg.full = false ∧ t.plg.counter = 0)
    ∧ (t.rif.portA = false ∧ t.rif.portB = false ∧ t.rif.ring = .notHeard ∧ t.rif.cycle = none ∧ t.rif.timer = none
      ∧ t.rif.urgent = [] ∧ t.rif.routine = [] ∧ t.rif.overflow = none)
    ∧ ((∀ e ∈ t.irt.stations.toList, e = none) ∧ ∀ e ∈ t.irt.subs.toList, e = SubEntry.cleared none)
    ∧ t.commStation = s.commStation ∧ t.pending = s.pending

/-- RST_N completes, and keeps the configuration, the log mode and the scan position; everything else takes the value it has
after a power-on reset. What the pins read and the commands that wait stand (the model's choice, assumptions 2 and 8). -/
def Obligations.RstNKeepsTheConfiguration : Prop :=
  ∀ s : State, ∃ t, exec .rstN s = .next t
    ∧ t.configuration = s.configuration ∧ t.plg = { Plg.reset with mode := s.plg.mode }
    ∧ t.hgr.position = s.hgr.position
    ∧ t.wtr = Wtr.reset ∧ t.wmp = Wmp.reset ∧ t.osq = Osq.reset ∧ t.chg = Chg.reset ∧ t.knp = Knp.reset
    ∧ t.stk = Stk.reset ∧ t.lsc = Lsc.reset ∧ t.rif = Rif.reset ∧ t.lineStop = true
    ∧ (∀ i, t.stand i = Stand.cleared (s.stand i).cfg) ∧ (∀ i, t.point i = Point.cleared (s.point i).cfg)
    ∧ (∀ i, t.channel i = Channel.cleared (s.channel i).cfg)
    ∧ (∀ e ∈ t.irt.subs.toList, e.fresh = false ∧ e.counter = 0)
    ∧ t.commStation = s.commStation ∧ t.pending = s.pending

/-- The invariant holds of the state right after a power-on reset, and what is to stand once stands so. -/
def Obligations.ResetMeetsTheInvariant : Prop := State.reset.Inv ∧ State.reset.Consistent

/-- The invariant is kept: whatever command stands at the front of the queue, and whatever it carries, a step from a state
that meets the invariant leads to one that meets it. That no handed fault is left between commands is the model's own clause
(assumptions 12 and 24). With it is kept what stands once: a claim of each identity on one mark, one SPLICE mark for each
stand and one PURGE, as many boundaries as segments less one, so that the structural area stays inside its capacity; no slot
twice in the run queue, at most three orders held, each slot in the state that the list or the segments naming it ask for,
with as many segments in flight as hold its order; no fault seen twice, so at most ten. -/
def Obligations.EveryStepKeepsTheInvariant : Prop :=
  ∀ s t : State, s.Inv → step s = .next t → t.Inv ∧ (s.Consistent → t.Consistent)

/-- After every step from a state that meets the invariant, LINE_STOP is asserted exactly while some reason in the set carries
STOP or the ring is lost; so it is asserted in STOPPED, HALTING and FAULTED. -/
def Obligations.LineStopWhileStoppedOrLost : Prop :=
  ∀ s t : State, s.Inv → step s = .next t →
    (t.lineStop = true ↔ (∃ r ∈ t.wtr.reasons, r.req = .stop) ∨ t.rif.ring = .lost)
    ∧ (t.lsc.state = .stopped ∨ t.lsc.state = .halting ∨ t.lsc.state = .faulted → t.lineStop = true)

/-- The configuration is changed by power-on, by the eight requests that load it, and by management telegrams that carry one
of those, and by nothing else: not by any telegram, timer, reset pin, start, halt, fault or order request. -/
def Obligations.ConfigurationChangesOnlyByItsLoads : Prop :=
  ∀ s t : State, s.Inv → step s = .next t →
    (∀ c rest, s.pending = c :: rest →
      c ≠ .powerOn ∧ (∀ q r, c = carrying q r → loadsConfiguration r = false)
      ∧ (∀ p pins x y, c = .managementTelegram p pins x → readTelegram 2 x = some y → ∀ it ∈ y.items, ∀ rq r,
          it.payload = .request rq → rq.asked = .known r → loadsConfiguration r = false)) →
    t.configuration = s.configuration

/-! ### Requests: checks and refusals -/

/-- A request that a check of R189 refuses, or that its owner refuses, changes nothing but what the pins read and the reply;
one whose reply space cannot hold the reply header is not served, and a BAD_REQUEST notice is queued (for a request given as a
command of its own, the model's choice, assumption 33). -/
def Obligations.RefusedRequestsChangeNothing : Prop :=
  ∀ (s : State) (q : Asker) (r : Request),
    (q.space < 4 → exec (carrying q r) s
      = .next (({ s with commStation := q.comm } : State).notify (.badRequest q.requester (requestCode r))))
    ∧ (∀ x, 4 ≤ q.space → s.checkRequest q r = some x → exec (carrying q r) s = .next (s.replied q x))
    ∧ (s.handed = [] → s.Grants q r →
        let x := (owned q r { s with commStation := q.comm }).2
        x.code ≠ .ok → x.code ≠ .truncated → exec (carrying q r) s = .next (s.replied q (x.cut q.space)))

/-- The order of the checks: a requester that neither the pins nor the station table names is UNKNOWN_STATION; a process
station, or a level above the request's minimum, is NOT_AUTHORISED; a line state in which the request is not available is
BAD_STATE with that state as detail. The station that the pins name, 0 and 63 naming none, has level 0; another that the table
names has its entry's level, and none as a PROCESS_STATION. -/
def Obligations.AuthorityComesBeforeState : Prop :=
  ∀ (s : State) (q : Asker) (r : Request),
    (s.authority q.comm q.requester = .unknown ↔
      ¬(q.comm ≠ 0 ∧ q.comm ≠ 63 ∧ q.comm.toNat = q.requester)
        ∧ ∀ e, some e ∈ s.irt.stations.toList → e.code ≠ q.requester)
    ∧ (q.comm ≠ 0 → q.comm ≠ 63 → q.comm.toNat = q.requester → s.authority q.comm q.requester = .level 0)
    ∧ (∀ before e after, ¬(q.comm ≠ 0 ∧ q.comm ≠ 63 ∧ q.comm.toNat = q.requester) →
        s.irt.stations.toList = before ++ some e :: after → (∀ x, some x ∈ before → x.code ≠ q.requester) →
        e.code = q.requester →
        s.authority q.comm q.requester = (if e.role = .processStation then .noAuthority else .level e.level))
    ∧ (s.authority q.comm q.requester = .unknown → s.checkRequest q r = some (bare .unknownStation))
    ∧ (s.authority q.comm q.requester = .noAuthority → s.checkRequest q r = some (bare .notAuthorised))
    ∧ (∀ n, s.authority q.comm q.requester = .level n → minimumLevel r < n →
        s.checkRequest q r = some (bare .notAuthorised))
    ∧ (∀ n, s.authority q.comm q.requester = .level n → n ≤ minimumLevel r → availableIn r s.lsc.state = false →
        s.checkRequest q r
          = some { code := .badState, index := 0, detail := lineStateCode s.lsc.state, data := [] })
    ∧ (∀ n, s.authority q.comm q.requester = .level n → n ≤ minimumLevel r → availableIn r s.lsc.state = true →
        s.checkRequest q r = missingField r q.present)

/-! ### Requests: reads -/

/-- VERIFY_ORDER changes nothing. It replies BAD_SLOT to a slot number outside 0..63, and otherwise by the seven validity checks
in their order: OK when every one passes, and else the code, index and detail of the first that fails: the slot EMPTY, the
number 0, the grade not loaded, the sheet length, the first width out of range or the widths' sum, the first score list that is
not strictly ascending inside its track, the cuts per stack. -/
def Obligations.VerifyOrderReportsTheChecks : Prop :=
  ∀ (s : State) (q : Asker) (i : Nat), s.handed = [] → s.Grants q (.verifyOrder i) →
    let answers (code : ReplyCode) (index detail : Nat) : Prop :=
      exec (.verifyOrder q i) s
        = .next (s.replied q { code := code, index := index, detail := detail, data := [] })
    let n := s.line.nums
    let widthOk (t : Track) : Prop := 500 ≤ t.width ∧ t.width ≤ 25000
    let scored (t : Track) : Prop := t.scores.Pairwise (· < ·) ∧ ∀ x ∈ t.scores, 0 < x ∧ x < t.width
    (63 < i → answers .badSlot 0 0)
    ∧ (i ≤ 63 → (s.slot i).state = .empty → answers .badSlot 0 0)
    ∧ ∀ r, i ≤ 63 → (s.slot i).state ≠ .empty → (s.slot i).order = some r →
        (r.number = 0 → answers .badField 1 0)
        ∧ (r.number ≠ 0 →
          (s.grade r.grade = none → answers .badField 2 0)
          ∧ ((s.grade r.grade).isSome = true →
            (r.length < 5000 ∨ 65000 < r.length ∨ r.length < n.wMin → answers .badField 3 0)
            ∧ (5000 ≤ r.length → r.length ≤ 65000 → n.wMin ≤ r.length →
              (∀ a t b, r.tracks = a ++ t :: b → (∀ x ∈ a, widthOk x) → ¬widthOk t → answers .badField 6 (a.length + 1))
              ∧ (r.tracks = [] ∨ (∀ x ∈ r.tracks, widthOk x) ∧ n.webWidth < (r.tracks.map fun x => x.width).sum →
                  answers .badField 6 0)
              ∧ (6 < r.tracks.length → ∃ detail, answers .badField 6 detail)
              ∧ (1 ≤ r.tracks.length → r.tracks.length ≤ 6 → (∀ x ∈ r.tracks, widthOk x) →
                  (r.tracks.map fun x => x.width).sum ≤ n.webWidth →
                (∀ a t b, r.tracks = a ++ t :: b → (∀ x ∈ a, scored x) → ¬scored t →
                  answers .badField 7 (a.length + 1))
                ∧ ((∀ x ∈ r.tracks, scored x) →
                  (r.perStack < 1 ∨ 2000 < r.perStack → answers .badField 8 0)
                  ∧ (1 ≤ r.perStack → r.perStack ≤ 2000 → answers .ok 0 0))))))

/-- READ_ORDER, QUEUE_READ and READ_STANDS change nothing, and return as many whole entries, from the front of what they
read, as the reply space holds: OK when all fit, TRUNCATED when some did not. READ_ORDER reads of an EMPTY slot its state alone;
of another its state, its record, its counters, its stack count and next ordinal, where it stands (the pending rush, its position
in the run queue or its depth on the held-order stack, counted from 0, or nowhere), of an ON_WEB or SUSPENDED one the positions of
its segments, counted from 0 at the oldest (the model's reading, assumption 31), and the surplus of a COMPLETE one or the shortfall
of a SHORT one. QUEUE_READ reads the run queue from the head, the held-order stack from the top, the pending rush and the segments
from the oldest, each with its order number. READ_STANDS reads of each stand its number, its configuration and its record, but for
two notice flags and the model's own flag, and whether no FRESH entry brings its REEL_DIAMETER (with no entry loaded as well, the
model's choice, assumption 55). Into which fields these divide is the model's choice (assumption 27). -/
def Obligations.ReadsReturnWholeEntries : Prop :=
  ∀ (s : State) (q : Asker), s.handed = [] →
    let returns (c : Instr) (l : List Datum) : Prop :=
      ∃ k, k ≤ l.length ∧ ((l.take k).map datumLength).sum ≤ dataRoom q.space
        ∧ (k < l.length → dataRoom q.space < ((l.take (k + 1)).map datumLength).sum)
        ∧ exec c s = .next (s.replied q
            { code := if k < l.length then .truncated else .ok, index := 0, detail := 0, data := l.take k })
    let number (i : Nat) : Nat := ((s.slot i).order.map fun r => r.number).getD 0
    (∀ i, s.Grants q (.readOrder i) → i ≤ 63 →
      let o := s.slot i
      (o.state = .empty → returns (.readOrder q i) [.slotState .empty])
      ∧ (o.state ≠ .empty → ∃ place positions,
          (s.osq.rush = some i → place = .rush)
          ∧ (∀ l m, s.osq.rush ≠ some i → s.osq.queue = l ++ i :: m → i ∉ l → place = .queue l.length)
          ∧ (∀ l m, s.osq.rush ≠ some i → i ∉ s.osq.queue → s.osq.held = l ++ i :: m → i ∉ l → place = .held l.length)
          ∧ (s.osq.rush ≠ some i → i ∉ s.osq.queue → i ∉ s.osq.held → place = .none)
          ∧ positions.Pairwise (fun x y : Nat => x < y)
          ∧ (∀ n, n ∈ positions ↔ ∃ g, s.osq.segments[n]? = some g ∧ g.order = some i)
          ∧ returns (.readOrder q i) (.slotState o.state :: (o.order.map Datum.order).toList
              ++ [.counters o.goodPlanned o.goodConfirmed o.waste o.noted o.inFlight o.outstanding, .pile (s.pile i),
                  .place place]
              ++ (if o.state = .onWeb ∨ o.state = .suspended then [.positions positions] else [])
              ++ (if o.state = .complete then [.balance true o.balance] else [])
              ++ (if o.state = .short then [.balance false o.balance] else []))))
    ∧ (s.Grants q .queueRead → returns (.queueRead q)
        ((s.osq.queue.map fun i => .queued i (number i)) ++ (s.osq.held.map fun i => .heldOrder i (number i))
          ++ [.rushOrder (s.osq.rush.map fun i => (i, number i))]
          ++ s.osq.segments.map fun g =>
            .segment (g.order.map fun i => (i, number i)) g.target g.goodPlanned g.planning))
    ∧ (s.Grants q .readStands → ∃ stale : Nat → Bool,
        (∀ k, stale k = true ↔ ∀ e ∈ s.irt.subs.toList, ∀ c, e.fresh = true → e.cfg = some c → c.kind = .reelDiameter →
          c.index ≠ k)
        ∧ returns (.readStands q) ((List.finRange 7).map fun (k : Fin 7) =>
            .stand (k.val + 1) { s.spl.stands[k] with spareCleared := false, staleNotice := false, timedOut := false }
              (stale (k.val + 1))))

/-- READ_MAP and READ_STATUS change nothing. READ_MAP returns the map's flags, counts and counter in 8 bytes and then the marks
in map order, each in 20 bytes and 5 for each claim, as many as fit; where the 8 bytes do not fit it is TRUNCATED without data (the
model's choice, assumption 27). READ_STATUS of a section that the request names returns the section, its fixed part, as many whole
list entries from the first asked for as fit, and the number of the entry that follows, or none where the list is complete: OK then,
and TRUNCATED otherwise. The entries count from 0 in every list (the model's choice, assumption 31). Room for the number that
follows is kept as for none, and where the fixed part does not fit beside it the reply is TRUNCATED with what fits; these, and into
which fields the reply divides, are the model's choices (assumption 27). A channel is reported stale also where it does not hear the
entry it names (the model's reading, assumption 25). -/
def Obligations.MapAndStatusReads : Prop :=
  ∀ (s : State) (q : Asker), s.handed = [] →
    (s.Grants q .readMap → q.space < 12 → exec (.readMap q) s = .next (s.replied q (bare .truncated)))
    ∧ (s.Grants q .readMap → 12 ≤ q.space →
      let size (n : Nat) := ((s.wmp.marks.take n).map fun m => 20 + 5 * m.claims.length).sum
      ∃ k, k ≤ s.wmp.marks.length ∧ 12 + size k ≤ q.space ∧ (k < s.wmp.marks.length → q.space < 12 + size (k + 1))
        ∧ exec (.readMap q) s = .next (s.replied q
            { code := if k < s.wmp.marks.length then .truncated else .ok, index := 0, detail := 0,
              data := .mapFixed s.wmp.valid s.wmp.armed (structuralCount s.wmp.marks) (defectCount s.wmp.marks)
                  s.wmp.nextSeq k :: (s.wmp.marks.take k).map fun m => .mark m (s.outgoingPosition m) }))
    ∧ (∀ x first, s.Grants q (.readStatus (some x) first) →
        let held (r : Reason) : Bool := s.wtr.reasons.any fun y => y.reason == r && y.inst == 0
        let n := s.line.nums
        let fixed : List Datum := match x with
          | .line => [.lineFixed s.lsc.state s.lsc.latch s.lsc.seen s.lsc.status (held .lineStatusStale) s.lsc.threading
              s.lsc.purge s.wmp.valid s.wtr.request s.wtr.governing s.wtr.band s.wtr.speedSum]
          | .constants => []
          | .changeover => [.changeFixed s.chg.stateA s.chg.stateB ((s.chg.engaged.map slitterCode).getD 0)
              (s.chg.heldA.map fun p => p.id) (s.chg.heldB.map fun p => p.id) s.chg.expected.isSome
              (s.chg.forecast.map fun f => f.2.id) s.chg.blocked s.chg.timer s.projection]
          | .heat => [.heatFixed s.hgr.scan s.hgr.position]
          | .knife => [.knifeFixed s.knp.front s.knp.cutEdge s.knp.counter (held .noOrder)]
          | .stacker => [.stackFixed s.stk.state s.stk.tracked s.stk.counter (held .stackerBehind)]
          | .log => [.logFixed s.plg.records.length s.plg.mode s.plg.full s.plg.counter]
          | .ring => [.ringFixed s.rif.portA s.rif.portB s.rif.ring s.rif.cycle s.rif.urgent.length s.rif.routine.length
              s.rif.overflow.isSome]
        let list : List Datum := match x with
          | .line => []
          | .constants => ([n.feedScale, n.jumpLimit, n.uLow, n.uMid, n.uHigh, n.dLow, n.dMid, n.dHigh, n.dCreate, n.zSwap,
              n.dSs, n.swapTimeout].map fun v => .number v) ++ .side s.line.side :: ([n.webWidth, n.gOff, n.wMin, n.wMax,
              n.miscut, n.lateLimit, n.dwellNear, n.dwellFar, n.ringTimeout].map fun v => .number v)
          | .changeover => s.chg.records.map fun r =>
              .changeRec r.boundary r.preset.id ((r.target.map slitterCode).getD 0) r.status r.zoneEnd
          | .heat => ((List.finRange 12).map fun (p : Fin 12) =>
                let pt := s.hgr.points[p]
                .point p.val pt.cfg.isSome pt.grade pt.last)
              ++ ((List.finRange 16).map fun (c : Fin 16) =>
                let ch := s.hgr.channels[c]
                .channel c.val ch.cfg.isSome (ch.stale || !s.channelHears c.val) ch.reading ch.value ch.run ch.settle)
          | .knife => (s.knp.plans.map fun p => .plan p.seq p.stop p.length p.disp p.reason
                (((p.order.bind fun i => (s.slot i).order).map fun r => r.number).getD 0) p.noted p.diverted p.late)
              ++ s.knp.withdrawn.map fun w => .withdrawn w
          | .stacker => (s.stk.queue.zipIdx.map fun y => .setDown y.1.number y.1.ordinal y.1.cuts y.1.final
                (if y.2 = 0 then some s.stk.head else none))
              ++ s.stk.overflow.toList.map fun d => .setDown d.number d.ordinal d.cuts d.final none
          | .log => []
          | .ring => (List.finRange 48).map fun (i : Fin 48) => .sub i.val s.irt.subs[i]
        let size (l : List Datum) : Nat := (l.map datumLength).sum
        let room := dataRoom q.space
        let head := .statusOf x :: fixed
        let rest := list.drop first
        ∃ R, exec (.readStatus q (some x) first) s = .next (s.replied q R) ∧ R.index = 0 ∧ R.detail = 0
          ∧ if room < size head + datumLength (.next none) then
              ∃ k, k ≤ head.length ∧ size (head.take k) ≤ room - datumLength (.next none)
                ∧ (k < head.length → room - datumLength (.next none) < size (head.take (k + 1)))
                ∧ R.code = .truncated ∧ R.data = head.take k
            else
              ∃ k, k ≤ rest.length ∧ size head + size (rest.take k) + datumLength (.next none) ≤ room
                ∧ (k < rest.length → room < size head + size (rest.take (k + 1)) + datumLength (.next none))
                ∧ R.code = (if k < rest.length then .truncated else .ok)
                ∧ (let next : Datum := .next (if k < rest.length then some (first + k) else none)
                   R.data = head ++ rest.take k
                     ++ if size head + size (rest.take k) + datumLength next ≤ room then [next] else []))

/-! ### Requests: loads of the configuration -/

/-- A granted LOAD_STATION that passes the checks of R176 replaces one entry of the station table, or empties it, and
changes nothing else. -/
def Obligations.LoadStationReplacesAnEntry : Prop :=
  ∀ (s : State) (q : Asker) (a : StationArgs), s.handed = [] → s.Grants q (.loadStation a) → a.entry ≤ 31 →
    (a.contents = none → exec (.loadStation q a) s
      = .next (({ s with irt := { s.irt with stations := put s.irt.stations a.entry none } } : State).replied q
        (bare .ok)))
    ∧ (∀ c role, a.contents = some c → c.role = some role → 1 ≤ c.code → c.code ≤ 62 → c.level ≤ 2 →
        (∀ n, roleLevel role = some n → c.level = n) →
        (∀ j e, j ≠ a.entry → s.irt.stations[j]? = some (some e) →
          e.code ≠ c.code ∧ (role = .own ∨ role = .lineMaster → e.role ≠ role)) →
        exec (.loadStation q a) s
          = .next (({ s with irt := { s.irt with
              stations := put s.irt.stations a.entry
                (some { code := c.code, role := role, level := c.level }) } } : State).replied q (bare .ok)))

/-- A granted LOAD_SUBSCRIPTION that passes the checks of R178 completes, and replaces one entry of the subscription table, or
empties it. The entry starts STALE with its counter at the reload, an emptied one with 0 (the model's choice, assumption 17).
When the entry replaced was not FRESH nothing else changes; when it was, it goes STALE with its counter at 0 and its old owner
takes the stale report first, as at a lapse, before the new contents take the entry. Line State Control takes the faults handed
when the event is over (the model's choice, assumption 24). -/
def Obligations.LoadSubscriptionReplacesAnEntry : Prop :=
  ∀ (s : State) (q : Asker) (a : SubscriptionArgs) (cfg : Option SubCfg), s.handed = [] →
    s.Grants q (.loadSubscription a) → a.entry ≤ 47 →
    (a.contents = none ∧ cfg = none
      ∨ ∃ c kind, a.contents = some c ∧ c.kind = some kind ∧ c.owner = some (kindOwner kind)
        ∧ 1 ≤ c.source ∧ c.source ≤ 62 ∧ c.inst ≤ 15 ∧ indexOk kind c.index = true ∧ 1 ≤ c.reload ∧ c.reload ≤ 255
        ∧ (∀ j e x, j ≠ a.entry → s.irt.subs[j]? = some e → e.cfg = some x →
            ¬(x.source = c.source ∧ x.kind = kind ∧ x.inst = c.inst) ∧ ¬(x.kind = kind ∧ x.index = c.index))
        ∧ cfg = some { source := c.source, kind := kind, inst := c.inst, owner := kindOwner kind, index := c.index,
                       reload := c.reload }) →
    let loaded : SubEntry := { cfg := cfg, counter := (cfg.map fun c => c.reload).getD 0, fresh := false }
    (∀ e, s.irt.subs[a.entry]? = some e → e.fresh = false ∨ e.cfg = none →
      exec (.loadSubscription q a) s
        = .next (({ s with irt := { s.irt with subs := put s.irt.subs a.entry loaded } } : State).replied q (bare .ok)))
    ∧ (∀ e c, s.irt.subs[a.entry]? = some e → e.fresh = true → e.cfg = some c →
        let lapsed : SubEntry := { cfg := some c, counter := 0, fresh := false }
        let told := ({ s with
          commStation := q.comm, irt := { s.irt with subs := put s.irt.subs a.entry lapsed } } : State).staleReport c
        exec (.loadSubscription q a) s
            = .next { ({ told with irt := { s.irt with subs := put s.irt.subs a.entry loaded } } : State).takeFaults with
                reply := some (bare .ok) }
          ∧ (c.kind = .feedCount → told.wtr.firstCount = true ∧ told.wtr.debt = 0
              ∧ told.handed = [{ code := .encoderLost, detail := .one 0 }])
          ∧ (c.kind = .lineStatus → told.lsc.status = .unknown ∧ told.holds .lineStatusStale 0 = true)
          ∧ (c.kind = .reelDiameter → (s.stand (c.index - 1)).cfg.isSome = true →
              (told.stand (c.index - 1)).staleNotice = true)
          ∧ (c.kind = .zoneValue → c.index ≤ 15 → (told.channel c.index).stale = true)
          ∧ (c.kind = .slitterState →
              told.chg.stateOf (if c.index = 1 then .a else .b) = .unknown)
          ∧ (c.kind = .stackState → told.stk.state = .unknown))
    ∧ ∃ t, exec (.loadSubscription q a) s = .next t ∧ t.reply = some (bare .ok)
      ∧ t.irt = { s.irt with subs := put s.irt.subs a.entry loaded } ∧ t.line = s.line
      ∧ t.configuration.subs = s.configuration.subs.set a.entry cfg

/-- A granted SET_LINE whose constants keep the ranges and orders of R192 replaces the line constants together and no other
configuration; where D_ss keeps being 0, or keeps being 1 or more, it changes nothing else: that a change of D_ss from one
value of 1 or more to another leaves the open WRONG_SLIT claims and the changeover records as they are is the model's choice
(assumption 49). -/
def Obligations.SetLineReplacesTheConstants : Prop :=
  ∀ (s : State) (q : Asker) (a : LineArgs) (side : OriginSide), s.handed = [] → s.Grants q (.setLine a) →
    LineNumbersOk a.nums → a.side = some side →
    (∃ t, exec (.setLine q a) s = .next t ∧ t.reply = some (bare .ok)
      ∧ t.configuration = { s.configuration with line := { nums := a.nums, side := side } })
    ∧ ((s.line.nums.dSs = 0 ↔ a.nums.dSs = 0) →
        exec (.setLine q a) s
          = .next (({ s with line := { nums := a.nums, side := side } } : State).replied q (bare .ok)))

/-- A granted LOAD_STAND in range, naming no other stand's station, configures its stand unless the stand is SPLICING or holds
an open WRONG_PAPER claim; a load that repeats the configuration is accepted in any state (the model's reading, assumption 26).
Where a DUE stand's maximum splice band does not change, nothing else changes. Where it does, the clause on the configuration
alone speaks of it: what the new band makes of SPLICE_BAND is not stated here. -/
def Obligations.LoadStandConfiguresItsStand : Prop :=
  ∀ (s : State) (q : Asker) (a : StandArgs) (band : Band), s.handed = [] → s.Grants q (.loadStand a) →
    1 ≤ a.stand → a.stand ≤ 7 → 1 ≤ a.station → a.station ≤ 62 → 1 ≤ a.dist → a.dist ≤ 5000000 → a.lead ≤ 50000 →
    1000 ≤ a.joint → a.joint ≤ 10000 → 1 ≤ a.trig → a.trig ≤ 100000000 → a.stop < a.trig → a.band = some band →
    10 ≤ a.timeout → a.timeout ≤ 60000 →
    (∀ j x, j ≠ a.stand - 1 → (s.stand j).cfg = some x → x.station ≠ a.station) →
    ((s.stand (a.stand - 1)).cfg = none ∨ (s.stand (a.stand - 1)).cfg = some (standCfgOf a)
      ∨ ((s.stand (a.stand - 1)).splice ≠ .splicing ∧ (s.stand (a.stand - 1)).claim = false)) →
    (∃ t, exec (.loadStand q a) s = .next t ∧ t.reply = some (bare .ok)
      ∧ t.configuration = { s.configuration with
          stands := s.configuration.stands.set (a.stand - 1) (some (standCfgOf a)) })
    ∧ ((s.stand (a.stand - 1)).splice ≠ .due
          ∨ ((s.stand (a.stand - 1)).cfg.map fun x => x.band) = some band →
        exec (.loadStand q a) s
          = .next ((s.onStand (a.stand - 1) fun st => { st with cfg := some (standCfgOf a) }).replied q (bare .ok)))

/-- A granted LOAD_STAND with station 0 removes its stand unless a configured stand is SPLICING or holds an open WRONG_PAPER
claim: its configuration goes, its runtime record takes its reset values, and the reasons it held are dropped. No other
configuration and no other stand changes. -/
def Obligations.LoadStandRemovesItsStand : Prop :=
  ∀ (s : State) (q : Asker) (a : StandArgs), s.handed = [] → s.Grants q (.loadStand a) →
    1 ≤ a.stand → a.stand ≤ 7 → a.station = 0 →
    ((s.stand (a.stand - 1)).cfg = none
      ∨ ((s.stand (a.stand - 1)).splice ≠ .splicing ∧ (s.stand (a.stand - 1)).claim = false)) →
    ∃ t, exec (.loadStand q a) s = .next t ∧ t.reply = some (bare .ok)
      ∧ t.configuration = { s.configuration with stands := s.configuration.stands.set (a.stand - 1) none }
      ∧ t.stand (a.stand - 1) = Stand.cleared none ∧ (∀ j, j ≠ a.stand - 1 → t.stand j = s.stand j)
      ∧ t.wtr.reasons = s.wtr.reasons.filter (fun r =>
          !((r.reason == .spliceBand || r.reason == .gradeNotReady) && r.inst == a.stand))
      ∧ t.holds .spliceBand a.stand = false ∧ t.holds .gradeNotReady a.stand = false

/-- A granted LOAD_POINT in range writes its point's record, or removes it (station 0): a point that was not configured, or is
removed, starts with no grade; one reloaded keeps its grade. That a removal also drops the point's last SETPOINT is the
model's choice (assumption 38). Where no OPEN channel is tied to the point, or a reload moves neither its distance nor its
column to an absent one, nothing else changes. A removal, a new distance, or a column that is absent (the model's reading,
assumption 21) closes the claim of every OPEN channel tied to the point at the distance it had plus the guard: such a channel
is CLEAR, its mark loses the claim, and leaves the map where it holds none and ends at or below 0; the notices go out in
ascending channel number (the model's choice, assumption 50). -/
def Obligations.LoadPointWritesItsPoint : Prop :=
  ∀ (s : State) (q : Asker) (a : PointArgs) (kind : PointKind), s.handed = [] → s.Grants q (.loadPoint a) →
    a.point ≤ 11 → a.station ≤ 62 → 1 ≤ a.dist → a.dist ≤ 5000000 → a.kind = some kind → a.column ≤ 11 →
    let cfg : PointCfg := { station := a.station, dist := a.dist, kind := kind, column := a.column }
    let written (p : Point) : Point :=
      if a.station = 0 then Point.cleared none
      else if p.cfg.isNone then Point.cleared (some cfg) else { p with cfg := some cfg }
    let tied (c : Nat) : Bool := (s.channel c).tiedTo a.point && (s.channel c).isOpen
    let moved (o : PointCfg) : Prop :=
      a.station = 0 ∨ o.dist ≠ a.dist ∨ s.columnOf (written (s.point a.point)) = none
    ((∀ c, tied c = false) ∨ (∃ o, (s.point a.point).cfg = some o ∧ ¬moved o) →
      exec (.loadPoint q a) s = .next ((s.onPoint a.point written).replied q (bare .ok)))
    ∧ (∀ o, (s.point a.point).cfg = some o → moved o →
        let ended (c : Claim) : Bool := c.kind == .offband && tied c.owner
        let closed (m : Mark) : Mark :=
          { m with
            closedEnd := max m.closedEnd ((o.dist : Int) + s.line.nums.gOff),
            claims := m.claims.filter fun c => !ended c }
        ∃ t, exec (.loadPoint q a) s = .next t ∧ t.reply = some (bare .ok)
          ∧ t.point a.point = written (s.point a.point) ∧ (∀ p, p ≠ a.point → t.point p = s.point p)
          ∧ (∀ c, t.channel c = if tied c then { s.channel c with run := .clear } else s.channel c)
          ∧ t.wmp = { s.wmp with
              marks := s.wmp.marks.filterMap fun m =>
                if m.claims.any ended then (if (closed m).retires then none else some (closed m)) else some m }
          ∧ (s.rif.routine.length ≤ 32 →
              let notices := ((List.range 16).filter tied).map fun c => OutItem.notice (.offbandClosed c a.point)
              t.rif = { s.rif with routine := s.rif.routine ++ notices })
          ∧ t.hgr.grades = s.hgr.grades ∧ t.hgr.scan = s.hgr.scan ∧ t.hgr.position = s.hgr.position ∧ t.wtr = s.wtr
          ∧ t.osq = s.osq ∧ t.chg = s.chg ∧ t.spl = s.spl ∧ t.knp = s.knp ∧ t.stk = s.stk ∧ t.plg = s.plg
          ∧ t.lsc = s.lsc ∧ t.irt = s.irt ∧ t.line = s.line)

/-- A granted LOAD_CHANNEL in range, naming an HGR subscription of its channel and a configured point, ties the channel to the
point, or removes it (point NONE); the channel starts CLEAR with its settle timer at 0, and keeps its latest reading. Nothing
else changes where it was not OPEN. Where it was, its claim is closed first at its old point's distance plus the guard: the
mark loses the claim, and leaves the map where it holds none and ends at or below 0, and OFFBAND_CLOSED is noticed. One whose
fields are in range but for an invert flag that reads as neither set nor clear is refused with BAD_FIELD, index 6, and changes
nothing (which values read so is left open, the model's choice, assumption 63). -/
def Obligations.LoadChannelWritesItsChannel : Prop :=
  ∀ (s : State) (q : Asker) (a : ChannelArgs), s.handed = [] → s.Grants q (.loadChannel a) →
    a.channel ≤ 15 → a.sub ≤ 47 →
    (∃ e c, s.irt.subs[a.sub]? = some e ∧ e.cfg = some c ∧ c.owner = .hgr ∧ c.index = a.channel) →
    (∀ p, a.point = some p → p ≤ 11 ∧ (s.point p).cfg.isSome = true) →
    1 ≤ a.mult → a.mult ≤ 4095 → -32768 ≤ a.offset → a.offset ≤ 32767 → 1 ≤ a.confirm → a.confirm ≤ 8 →
    a.settle ≤ 60000 →
    (a.invert = none → exec (.loadChannel q a) s
      = .next (s.replied q { code := .badField, index := 6, detail := 0, data := [] }))
    ∧ ∀ invert, a.invert = some invert →
    let written (ch : Channel) : Channel :=
      { ch with
        cfg := a.point.map fun p => { sub := a.sub, point := p, mult := a.mult, offset := a.offset,
                                      invert := invert, confirm := a.confirm, settle := a.settle },
        run := .clear, settle := 0 }
    ((s.channel a.channel).isOpen = false →
      exec (.loadChannel q a) s = .next ((s.onChannel a.channel written).replied q (bare .ok)))
    ∧ (∀ k pc, (s.channel a.channel).isOpen = true → (s.channel a.channel).cfg = some k →
        (s.point k.point).cfg = some pc →
        let closed (m : Mark) : Mark :=
          { m with
            closedEnd := max m.closedEnd ((pc.dist : Int) + s.line.nums.gOff),
            claims := m.claims.filter fun c => !(c.kind == .offband && c.owner == a.channel) }
        let marks := s.wmp.marks.filterMap fun m =>
          if m.holdsClaim .offband a.channel then (if (closed m).retires then none else some (closed m)) else some m
        exec (.loadChannel q a) s
          = .next (((({ s with wmp := { s.wmp with marks := marks } } : State).onChannel a.channel written).notify
              (.offbandClosed a.channel k.point)).replied q (bare .ok)))

/-- A granted LOAD_SCAN of at most 10 channels replaces the scan list and sets the scan position to 0; one of an empty list is granted
in STOPPED at level 0 where its first field is present (the model's reading, assumption 32); a granted LOAD_GRADE
with tolerances in range, of a grade that no point and no waiting or running order holds, replaces one grade. Nothing else
changes: that a LOAD_SCAN which leaves an OPEN channel out leaves its claim open is the model's choice (assumption 39). -/
def Obligations.ScanAndGradeLoads : Prop :=
  ∀ (s : State) (q : Asker), s.handed = [] →
    (∀ l, s.Grants q (.loadScan l) → l.length ≤ 10 → (∀ c ∈ l, c ≤ 15) →
      exec (.loadScan q l) s
        = .next (({ s with hgr := { s.hgr with scan := l, position := 0 } } : State).replied q (bare .ok)))
    ∧ (4 ≤ q.space → s.authority q.comm q.requester = .level 0 → s.lsc.state = .stopped → 1 ≤ q.present →
        exec (.loadScan q []) s
          = .next (({ s with hgr := { s.hgr with scan := [], position := 0 } } : State).replied q (bare .ok)))
    ∧ (∀ a, s.Grants q (.loadGrade a) → 1 ≤ a.code → a.code ≤ 24 →
        (∀ c, some c ∈ a.grade.columns.toList → ∀ e ∈ [c.crawl, c.low, c.mid, c.high],
          0 ≤ e.tolerance ∧ e.tolerance ≤ 32767) →
        (∀ p ∈ s.hgr.points.toList, p.grade ≠ a.code) →
        (∀ o ∈ s.osq.slots.toList, ∀ r, o.order = some r → r.grade = a.code →
          o.state ≠ .queued ∧ o.state ≠ .onWeb ∧ o.state ≠ .suspended) →
        exec (.loadGrade q a) s
          = .next (({ s with hgr :=
              { s.hgr with grades := put s.hgr.grades (a.code - 1) (some a.grade) } } : State).replied q (bare .ok)))

/-- At power-on no grade is loaded; RST_N and LINE_RESET keep the grade table whole, and after RST_N no grade is in use. -/
def Obligations.GradeTableIsKept : Prop :=
  ∀ s : State,
    (∃ t, exec .powerOn s = .next t ∧ ∀ code, t.grade code = none)
    ∧ (∃ t, exec .rstN s = .next t ∧ t.hgr.grades = s.hgr.grades ∧ (∀ i, (t.slot i).state = .empty)
        ∧ (∀ p ∈ t.hgr.points.toList, p.grade = 0) ∧ ∀ code, 1 ≤ code → t.gradeInUse code = false)
    ∧ (∀ q, s.Inv → s.Grants q .lineReset → ∃ t, exec (.lineReset q) s = .next t ∧ t.hgr.grades = s.hgr.grades)

/-! ### Requests: orders -/

/-- A granted LOAD_ORDER whose record is whole, in range, with a number that no other slot holds, loads an EMPTY or LOADED
slot: the record, cleared counters and a cleared pile. Nothing else changes. -/
def Obligations.LoadOrderFillsItsSlot : Prop :=
  ∀ (s : State) (q : Asker) (bytes : List Byte) (slot quality : Nat) (r : OrderRec), s.handed = [] →
    s.Grants q (.loadOrder bytes) → readOrder bytes = .whole slot quality r → slot ≤ 63 →
    ((s.slot slot).state = .empty ∨ (s.slot slot).state = .loaded) →
    1 ≤ r.cuts → r.cuts ≤ 65535 → r.overmake ≤ 500 → quality ≤ 1 →
    (r.number ≠ 0 → ∀ j x, j ≠ slot → (s.slot j).state ≠ .empty → (s.slot j).order = some x → x.number ≠ r.number) →
    exec (.loadOrder q bytes) s
      = .next (((s.onSlot slot fun _ => { Slot.blank with state := .loaded, order := some r }).onPile slot
          fun _ => { count := 0, next := 1 }).replied q (bare .ok))

/-- WITHDRAW_ORDER acts by the slot's state: LOADED, COMPLETE and SHORT become EMPTY; QUEUED becomes EMPTY and leaves the
queue or the pending rush; ON_WEB and SUSPENDED are BUSY; EMPTY, and a slot number outside 0..63, is BAD_SLOT. While the
next-order candidate stands that is all that changes; where it changes, the new one is reported to the Changeover Unit, which
drops its forecast, keeps it, or presets the idle station for the new setting, with a queue fault where that finds no room.
Line State Control takes the faults handed when the event is over (the model's choice, assumption 24). -/
def Obligations.WithdrawOrderBySlotState : Prop :=
  ∀ (s : State) (q : Asker) (i : Nat), s.handed = [] → s.Grants q (.withdrawOrder i) →
    let gone := s.onSlot i fun _ => Slot.blank
    let taken : Osq := { gone.osq with
      queue := s.osq.queue.filter (· != i), rush := if s.osq.rush = some i then none else s.osq.rush }
    (63 < i → exec (.withdrawOrder q i) s = .next (s.replied q (bare .badSlot)))
    ∧ (i ≤ 63 → (s.slot i).state = .empty → exec (.withdrawOrder q i) s = .next (s.replied q (bare .badSlot)))
    ∧ (i ≤ 63 → (s.slot i).state = .onWeb ∨ (s.slot i).state = .suspended →
        exec (.withdrawOrder q i) s = .next (s.replied q (bare .busy)))
    ∧ (i ≤ 63 → (s.slot i).state = .loaded ∨ (s.slot i).state = .complete ∨ (s.slot i).state = .short →
        exec (.withdrawOrder q i) s = .next (gone.replied q (bare .ok)))
    ∧ (i ≤ 63 → (s.slot i).state = .queued →
        (∃ t, exec (.withdrawOrder q i) s = .next t ∧ t.reply = some (bare .ok))
        ∧ (s.osq.candidate.isSome = true → taken.nextCandidate = s.osq.candidate →
            exec (.withdrawOrder q i) s = .next (({ gone with osq := taken } : State).replied q (bare .ok)))
        ∧ (s.osq.candidate.isSome = true →
            ∃ u : State, exec (.withdrawOrder q i) s = .next { u.takeFaults with reply := some (bare .ok) }
              ∧ u.osq = { taken with candidate := taken.nextCandidate } ∧ u.slot i = Slot.blank
              ∧ s.Forecasts u taken.nextCandidate
              ∧ u.commStation = q.comm ∧ u.wtr = s.wtr ∧ u.wmp = s.wmp ∧ u.spl = s.spl ∧ u.hgr = s.hgr ∧ u.knp = s.knp
              ∧ u.stk = s.stk ∧ u.plg = s.plg ∧ u.lsc = s.lsc ∧ u.irt = s.irt ∧ u.line = s.line))

/-- A granted QUEUE_APPEND of a LOADED slot whose record is valid, with room in the queue, makes the slot QUEUED at the
queue's tail and replies with its position and the queue's length, counted before a boundary that the append itself creates
(the model's reading, assumption 30). While the next-order candidate stands nothing else changes. Where it changes and no
creation is due, the queue and the slot stand so and the candidate is reported to the Changeover Unit, which drops its
forecast, keeps it, or presets the idle station for the new setting. Where the first candidate comes behind a NONE lead
segment, a boundary opens for it at once. Line State Control takes the faults handed when the event is over (the model's
choice, assumption 24). -/
def Obligations.QueueAppendJoinsTheTail : Prop :=
  ∀ (s : State) (q : Asker) (i : Nat), s.handed = [] → s.Grants q (.queueAppend i) → i ≤ 63 →
    (s.slot i).state = .loaded → s.osq.queue.length < 32 → s.checkOrder i = none →
    let u := s.onSlot i fun o => { o with state := .queued }
    let queued : Osq := { u.osq with queue := s.osq.queue ++ [i] }
    let R := (okWith [.number s.osq.queue.length, .number (s.osq.queue.length + 1)]).cut q.space
    (∃ t, exec (.queueAppend q i) s = .next t ∧ t.reply = some R)
    ∧ (s.osq.candidate.isSome = true → queued.nextCandidate = s.osq.candidate →
        exec (.queueAppend q i) s = .next (({ u with osq := queued } : State).replied q R))
    ∧ (s.osq.candidate.isSome = true ∨ 4 ≤ s.osq.segments.length ∨ (∀ g, s.lead = some g → g.order ≠ none) →
        ∃ v : State, exec (.queueAppend q i) s = .next { v.takeFaults with reply := some R }
          ∧ v.osq = { queued with candidate := queued.nextCandidate } ∧ s.Forecasts v queued.nextCandidate
          ∧ v.commStation = q.comm ∧ v.wtr = s.wtr ∧ v.wmp = s.wmp ∧ v.spl = s.spl ∧ v.hgr = s.hgr ∧ v.knp = s.knp
          ∧ v.stk = s.stk ∧ v.plg = s.plg ∧ v.lsc = s.lsc ∧ v.irt = s.irt ∧ v.line = s.line)
    ∧ (∀ g r, s.osq.candidate = none → s.osq.queue = [] → s.osq.rush = none → s.osq.held = [] →
        s.osq.segments.length < 4 → s.lead = some g → g.order = none → (s.slot i).order = some r →
        ∃ v : State, exec (.queueAppend q i) s = .next { v.takeFaults with reply := some R }
          ∧ s.Opened v g i r (max s.line.nums.dCreate (s.base g))
          ∧ v.slot i = { s.slot i with state := .onWeb, inFlight := (s.slot i).inFlight + 1 }
          ∧ v.osq.queue = [] ∧ v.osq.rush = none ∧ v.osq.held = [] ∧ v.osq.candidate = none
          ∧ v.lsc = s.lsc ∧ v.stk = s.stk ∧ v.irt = s.irt ∧ v.line = s.line)

/-- A granted QUEUE_REMOVE that names an entry's position and slot takes the entry out, moves the entries behind it up, and
makes the slot LOADED with its record and counters as they were. While the next-order candidate stands nothing else changes;
where it changes, the new one is reported to the Changeover Unit, which drops its forecast, keeps it, or presets the idle
station for the new setting, with a queue fault where that finds no room. Line State Control takes the faults handed when the
event is over (the model's choice, assumption 24). -/
def Obligations.QueueRemoveTakesTheNamedEntry : Prop :=
  ∀ (s : State) (q : Asker) (position i : Nat), s.handed = [] → s.Grants q (.queueRemove position i) →
    s.osq.queue[position]? = some i →
    let u := s.onSlot i fun o => { o with state := .loaded }
    let left : Osq := { u.osq with queue := s.osq.queue.eraseIdx position }
    let R := (okWith [.number i, .number (s.osq.queue.length - 1)]).cut q.space
    (∃ t, exec (.queueRemove q position i) s = .next t ∧ t.reply = some R)
    ∧ (s.osq.candidate.isSome = true → left.nextCandidate = s.osq.candidate →
        exec (.queueRemove q position i) s = .next (({ u with osq := left } : State).replied q R))
    ∧ (s.osq.candidate.isSome = true →
        ∃ v : State, exec (.queueRemove q position i) s = .next { v.takeFaults with reply := some R }
          ∧ v.osq = { left with candidate := left.nextCandidate } ∧ s.Forecasts v left.nextCandidate
          ∧ v.commStation = q.comm ∧ v.wtr = s.wtr ∧ v.wmp = s.wmp ∧ v.spl = s.spl ∧ v.hgr = s.hgr ∧ v.knp = s.knp
          ∧ v.stk = s.stk ∧ v.plg = s.plg ∧ v.lsc = s.lsc ∧ v.irt = s.irt ∧ v.line = s.line)

/-- A granted INSERT_RUSH of a LOADED slot whose record is valid, with no rush pending and fewer than three orders held, is
accepted, and the creation evaluation made with it goes one of four ways. While the segment list holds four segments no boundary
is created: WAITING, with the slot QUEUED as the pending rush. Behind a NONE lead segment a boundary opens for the rush at
D_create or at the base above it: OPENED. Where the lead order's projection is at or below D_create, its end boundary is created
there: FOLLOWS. Where it is above, a suspension boundary is created at D_create or at the base above it and the lead order goes
onto the held-order stack: SUSPENDED. The reply names the outcome and the boundary. The candidate is reported before the rush is
evaluated (the model's reading, assumption 30); where D_ss is 1 or more and no changeover record is held, a candidate with a new
setting is preset at the idle station. Line State Control takes the faults handed when the event is over (the model's choice,
assumption 24). -/
def Obligations.InsertRushWaitsBehindFourSegments : Prop :=
  ∀ (s : State) (q : Asker) (i : Nat), s.handed = [] → s.Grants q (.insertRush i) → i ≤ 63 →
    (s.slot i).state = .loaded → s.osq.rush = none → s.osq.held.length < 3 → s.checkOrder i = none →
    let reply (l : List Datum) : Option Reply := some ((okWith l).cut q.space)
    let boundary : Datum := .number s.wmp.nextSeq
    let onWeb (o : Slot) : Slot := { o with state := .onWeb, inFlight := o.inFlight + 1 }
    (∃ t, exec (.insertRush q i) s = .next t ∧ t.reply.map (fun R => R.code) = some .ok)
    ∧ (4 ≤ s.osq.segments.length → s.line.nums.dSs = 0 →
        ∃ t, exec (.insertRush q i) s = .next t
          ∧ t.osq = { s.osq with
              slots := modify s.osq.slots i fun o => { o with state := .queued }, rush := some i, candidate := some i }
          ∧ t.reply = some ((okWith [.rushOutcome .waiting]).cut q.space)
          ∧ t.chg = { s.chg with forecast := if s.osq.candidate = some i then s.chg.forecast else none }
          ∧ t.wmp = s.wmp ∧ t.wtr = s.wtr ∧ t.knp = s.knp ∧ t.lsc = s.lsc ∧ t.rif = s.rif
          ∧ t.configuration = s.configuration)
    ∧ (4 ≤ s.osq.segments.length → ∀ r, (s.slot i).order = some r →
        ∃ u : State, exec (.insertRush q i) s = .next { u.takeFaults with reply := reply [.rushOutcome .waiting] }
          ∧ u.osq = { s.osq with
              slots := modify s.osq.slots i fun o => { o with state := .queued }, rush := some i, candidate := some i }
          ∧ (s.line.nums.dSs ≠ 0 → s.chg.records = [] → s.osq.candidate ≠ some i → s.chg.expected ≠ some r.tracks →
              (s.chg.forecast.map fun f => f.2.setting) ≠ some r.tracks →
              let p : Preset := { id := nextId s.chg.idCounter, setting := r.tracks }
              u.chg.forecast = some (s.chg.idle, p) ∧ u.chg.idCounter = p.id
                ∧ u.rif = (s.queueRoutine (.slitterPreset s.chg.idle p s.line.side)).rif)
          ∧ u.wtr = s.wtr ∧ u.wmp = s.wmp ∧ u.spl = s.spl ∧ u.hgr = s.hgr ∧ u.knp = s.knp ∧ u.stk = s.stk
          ∧ u.lsc = s.lsc ∧ u.irt = s.irt ∧ u.line = s.line)
    ∧ ∀ g r, s.osq.segments.length < 4 → s.lead = some g → (s.slot i).order = some r →
        (g.order = none →
          ∃ u : State, exec (.insertRush q i) s
              = .next { u.takeFaults with reply := reply [.rushOutcome .opened, boundary] }
            ∧ s.Opened u g i r (max s.line.nums.dCreate (s.base g))
            ∧ u.osq.slots = modify s.osq.slots i onWeb ∧ u.osq.rush = none ∧ u.osq.held = s.osq.held
            ∧ u.osq.queue = s.osq.queue ∧ u.lsc = s.lsc ∧ u.stk = s.stk ∧ u.irt = s.irt ∧ u.line = s.line)
        ∧ (∀ p, s.projectionOf g = some p → p ≤ s.line.nums.dCreate →
          ∃ u : State, exec (.insertRush q i) s
              = .next { u.takeFaults with reply := reply [.rushOutcome .follows, boundary] }
            ∧ s.Opened u g i r p
            ∧ u.osq.slots = modify s.osq.slots i onWeb ∧ u.osq.rush = none ∧ u.osq.held = s.osq.held
            ∧ u.osq.queue = s.osq.queue ∧ u.lsc = s.lsc ∧ u.stk = s.stk ∧ u.irt = s.irt ∧ u.line = s.line)
        ∧ (∀ p j, s.projectionOf g = some p → s.line.nums.dCreate < p → g.order = some j → j ≠ i →
          ∃ u : State, exec (.insertRush q i) s
              = .next { u.takeFaults with reply := reply [.rushOutcome .suspended, boundary] }
            ∧ s.Opened u g i r (max s.line.nums.dCreate (s.base g))
            ∧ u.osq.slots = modify (modify s.osq.slots j fun o => { o with state := .suspended }) i onWeb
            ∧ u.osq.rush = none ∧ u.osq.held = j :: s.osq.held
            ∧ u.osq.queue = s.osq.queue ∧ u.lsc = s.lsc ∧ u.stk = s.stk ∧ u.irt = s.irt ∧ u.line = s.line)

/-- While the segment list holds four segments nothing is due for creation: neither an advance nor the acceptance of a rush
creates a boundary. -/
def Obligations.FourSegmentsHoldCreation : Prop :=
  ∀ (s : State) (n : Nat), 4 ≤ s.osq.segments.length →
    State.evaluateCreation n s = s ∧ s.evaluateRush = (s, .waiting, none)

/-! ### Requests: the log -/

/-- A granted READ_LOG is refused with BAD_FIELD, index 1, for a count outside 1..8, and replies EMPTY on an empty log, changing
nothing. On a log that holds some it removes the oldest records, as many of those asked for as the reply space holds, and
returns them in their order with the mode, the full flag and the number of records left as the read leaves them. The full flag
clears when a record was removed, and nothing else changes. The reply is TRUNCATED when fewer came back than were asked for and
held. How many fit is reckoned with the room that the reply's other fields take (the model's choice, assumption 27). -/
def Obligations.ReadLogRemovesWhatItReturns : Prop :=
  ∀ (s : State) (q : Asker) (n : Nat), s.handed = [] → s.Grants q (.readLog n) →
    (n = 0 ∨ 8 < n → exec (.readLog q n) s
        = .next (s.replied q { code := .badField, index := 1, detail := 0, data := [] }))
    ∧ (1 ≤ n → n ≤ 8 → s.plg.records = [] → exec (.readLog q n) s = .next (s.replied q (bare .empty)))
    ∧ (1 ≤ n → n ≤ 8 → s.plg.records ≠ [] →
        let held := s.plg.records
        let size (k : Nat) : Nat := ((held.take k).map fun r => datumLength (.record r)).sum
        let room : Nat := dataRoom q.space - datumLength (.logHead s.plg.mode false 0)
        ∃ k R, k ≤ min n held.length ∧ size k ≤ room ∧ (k < min n held.length → room < size (k + 1))
          ∧ exec (.readLog q n) s
              = .next (({ s with plg := { s.plg with records := held.drop k,
                                                     full := if k = 0 then s.plg.full else false } } : State).replied q R)
          ∧ (R.code = if k < min n held.length then .truncated else .ok) ∧ R.index = 0 ∧ R.detail = 0
          ∧ (let last := Datum.logHead s.plg.mode (if k = 0 then s.plg.full else false) (held.length - k)
             R.data = (held.take k).map Datum.record
               ++ (if datumLength last ≤ dataRoom q.space - size k then [last] else [])))

/-- LOG_MODE with a mode outside the two is refused with BAD_FIELD, index 1, and changes nothing; otherwise the mode is set and,
with the empty flag, every record is removed and the full flag cleared. The log counter is kept. The reply gives the mode and
the number of records removed. -/
def Obligations.LogModeSetsModeAndEmpties : Prop :=
  ∀ (s : State) (q : Asker) (mode : Option LogMode) (empty : Bool), s.handed = [] →
    s.Grants q (.logMode mode empty) →
    (mode = none → exec (.logMode q mode empty) s
      = .next (s.replied q { code := .badField, index := 1, detail := 0, data := [] }))
    ∧ (∀ m, mode = some m → exec (.logMode q mode empty) s
        = .next (({ s with plg :=
            { mode := m, records := if empty then [] else s.plg.records,
              full := if empty then false else s.plg.full, counter := s.plg.counter } } : State).replied q
            ((okWith [.mode m, .number (if empty then s.plg.records.length else 0)]).cut q.space)))

/-! ### Requests: the line -/

/-- A granted start whose start checks pass leaves the line in THREADING or PRODUCING with no fault latched, or FAULTED where
a fault was handed at the start; START_THREADING sets the threading distance to 0, and a start with the map not valid loads
the purge distance and says so: of the reply's form, one flag or a flag and the distance is the model's choice (assumption
27). Such a start also asks for a purge, which is armed: a PURGE mark from the knife to D_create is placed on the map, or the
one that is there is extended to D_create. With the map valid it stands as it was. A PURGE mark that retires makes the map
valid when a purge is armed. The configuration, the feed state and the ring stand. Line State Control takes the faults handed
when the event is over (the model's choice, assumption 24). -/
def Obligations.StartsEnterTheirState : Prop :=
  (∀ (s : State) (q : Asker) (c : Instr) (r : Request) (new : LineState), s.Inv → s.Grants q r →
    (c = .startThreading q ∧ r = .startThreading ∧ new = .threading
      ∨ c = .startProduction q ∧ r = .startProduction ∧ new = .producing) →
    s.startCheck = none →
    ∃ t, exec c s = .next t
      ∧ (t.lsc.state = new ∧ t.lsc.latch = none ∨ t.lsc.state = .faulted ∧ t.lsc.latch.isSome = true)
      ∧ t.lsc.threading = (if new = .threading then 0 else s.lsc.threading)
      ∧ t.lsc.purge = (if s.wmp.valid then s.lsc.purge else s.line.nums.dCreate)
      ∧ t.reply = some ((okWith (if s.wmp.valid then [.flag false]
          else [.flag true, .number s.line.nums.dCreate])).cut q.space)
      ∧ (s.wmp.valid = true → t.wmp = s.wmp)
      ∧ (s.wmp.valid = false → (∀ m ∈ s.wmp.marks, m.kind ≠ .purge) →
          let m : Mark := { closedMark .purge .lsc .none 0 s.line.nums.dCreate with seq := s.wmp.nextSeq }
          t.wmp = { marks := place m s.wmp.marks, valid := false, armed := true,
                    nextSeq := (s.wmp.nextSeq + 1) % 65536 })
      ∧ (∀ a m b, s.wmp.valid = false → s.wmp.marks = a ++ m :: b → (∀ x ∈ a, x.kind ≠ .purge) → m.kind = .purge →
          t.wmp = { marks := a ++ { m with closedEnd := max m.closedEnd s.line.nums.dCreate } :: b, valid := false,
                    armed := true, nextSeq := s.wmp.nextSeq })
      ∧ t.configuration = s.configuration ∧ s.SameFeedAndRing t ∧ t.wtr.debt = s.wtr.debt)
  ∧ ∀ (s : State) (m : Mark), m.kind = .purge →
      s.retired m = if s.wmp.armed then { s with wmp := { s.wmp with valid := true, armed := false } } else s

/-- A granted HALT takes the line to HALTING, and straight on to STOPPED when the line master already reports the line
stopped. A fault handed in the event is taken when it is over (the model's choice, assumption 24): it finds the line HALTING
and takes it to FAULTED, or finds it STOPPED and leaves it so. LINE_STOP is asserted; the configuration, the feed state and
the ring stand. A LINE_STATUS that reports the line running sets the tracked status and ends the holding of LINE_HELD. One
that reports it stopped completes a halt: STOPPED with its reason in the place of HALT, and the dwell mark from D_dwell_near
to D_dwell_far where the limits differ and the defect area has room, or its stretch marked where it is merged; in THREADING or
PRODUCING it queues LINE_HELD once, and in STOPPED or FAULTED it sets the tracked status alone. -/
def Obligations.HaltBringsTheLineDown : Prop :=
  (∀ (s : State) (q : Asker), s.Inv → s.Grants q .halt →
    ∃ t, exec (.halt q) s = .next t ∧ t.reply = some (bare .ok)
      ∧ (s.lsc.status = .stopped → t.lsc.state = .stopped)
      ∧ (s.lsc.status ≠ .stopped →
          t.lsc.state = .halting ∧ t.lsc.latch = none ∨ t.lsc.state = .faulted ∧ t.lsc.latch.isSome = true)
      ∧ t.lineStop = true ∧ t.configuration = s.configuration ∧ s.SameFeedAndRing t ∧ t.wtr.debt = s.wtr.debt)
  ∧ ∀ s : State,
    s.lineStatus true = { s with lsc := { s.lsc with status := .running, held := false } }
    ∧ (s.lsc.state = .stopped ∨ s.lsc.state = .faulted →
        s.lineStatus false = { s with lsc := { s.lsc with status := .stopped } })
    ∧ (s.lsc.state = .threading ∨ s.lsc.state = .producing →
        let told : State := { s with lsc := { s.lsc with status := .stopped, held := true } }
        s.lineStatus false = if s.lsc.held then told else told.notify (.lineHeld s.lsc.state))
    ∧ (s.lsc.state = .halting →
        let n := s.line.nums
        let t := s.lineStatus false
        t.lsc = { s.lsc with status := .stopped, state := .stopped }
          ∧ t.holds .halt 0 = false ∧ t.holds .stoppedState 0 = true
          ∧ (n.dwellFar ≤ n.dwellNear → t.wmp = s.wmp)
          ∧ (n.dwellNear < n.dwellFar → defectCount s.wmp.marks < 32 →
              ∃ m ∈ t.wmp.marks, m.kind = .dwell ∧ m.seq = s.wmp.nextSeq ∧ m.start = n.dwellNear
                ∧ m.closedEnd = n.dwellFar ∧ m.claims = [])
          ∧ (n.dwellNear < n.dwellFar → ∀ x : Int, n.dwellNear ≤ x → x < n.dwellFar → Covered t.wmp.marks x)
          ∧ t.irt = s.irt ∧ t.line = s.line)

/-- A granted LINE_RESET is BUSY while the line is FAULTED and not reported stopped; otherwise it leaves the line STOPPED with
the latch, the faults seen, the threading distance and the encoder debt cleared, names the fault it cleared, and keeps the
rest of the feed state, the ring and the configuration. The dwell mark is placed from D_dwell_near to D_dwell_far where it is
asked for and the defect area has room, or its stretch is marked by the mark it is merged into; that it takes the next number,
before any mark of the Changeover Unit, rests on the order of R170's list (the model's choice, assumption 36); the knife's
plans are withdrawn and CUT_PLAN_CLEAR is queued where the urgent queue has the room; no stand stays in FAULT; the swap timer
stops, unless the swap is sent anew, and swaps are unblocked. Faults handed in the event are taken after it (the model's
choice, assumption 24). -/
def Obligations.LineResetStopsTheLine : Prop :=
  ∀ (s : State) (q : Asker), s.Inv → s.Grants q .lineReset →
    (s.lsc.state = .faulted → s.lsc.status ≠ .stopped →
      exec (.lineReset q) s = .next (s.replied q (bare .busy)))
    ∧ (¬(s.lsc.state = .faulted ∧ s.lsc.status ≠ .stopped) →
        let n := s.line.nums
        let dwells := s.lsc.state = .faulted ∧ s.wmp.valid = true ∧ n.dwellNear < n.dwellFar
        ∃ t u, exec (.lineReset q) s = .next t
          ∧ t.lsc.state = .stopped ∧ t.lsc.threading = 0 ∧ t.wtr.debt = 0
          ∧ t.reply = some ((okWith [.faultCode (s.lsc.latch.map fun l => l.code), .flag (decide dwells)]).cut q.space)
          ∧ t.configuration = s.configuration ∧ s.SameFeedAndRing t
          ∧ t = { State.takeFaults u with reply := t.reply }
          ∧ u.lsc = { s.lsc with state := .stopped, latch := none, seen := [], threading := 0 }
          ∧ (dwells → defectCount s.wmp.marks ≤ 30 →
              ∃ m ∈ t.wmp.marks, m.kind = .dwell ∧ m.seq = s.wmp.nextSeq ∧ m.start = n.dwellNear
                ∧ m.closedEnd = n.dwellFar ∧ m.claims = [])
          ∧ (dwells → ∀ x : Int, n.dwellNear ≤ x → x < n.dwellFar → Covered t.wmp.marks x)
          ∧ (∀ x, Covered s.wmp.marks x → Covered t.wmp.marks x)
          ∧ t.knp.plans = [] ∧ t.knp.cutEdge = s.knp.cutEdge ∧ t.knp.front = s.knp.cutEdge
          ∧ (s.knp.plans = [] → t.knp.withdrawn = s.knp.withdrawn)
          ∧ (s.knp.plans ≠ [] → t.knp.withdrawn
              = s.knp.plans.map fun p => { seq := p.seq, stop := p.stop, length := p.length })
          ∧ (∀ o ∈ t.rif.urgent, isKnifeItem o = false) ∧ (s.rif.urgent.length ≤ 12 → .cutPlanClear ∈ t.rif.urgent)
          ∧ (∀ k, (t.stand k).splice ≠ .fault)
          ∧ t.chg.blocked = false
          ∧ (t.chg.timer = 0 ∨ ∃ r rest, t.chg.records = r :: rest ∧ r.status = .swapping))

/-- A granted MANUAL_SPLICE of a configured stand in RUNNING with a prepared spare, whose reel has not run down and which has no
paper demand, sends the splice at once when the conditions of R96 are met: SPLICE_GO is queued with reason MANUAL and the spare's
paper, and the stand is SPLICING under its timeout. A REEL_DIAMETER of a configured stand that is out of its ranges is discarded
with a BAD_REEL_DATA notice. A valid one becomes the running reel: R is taken whole where the reel was not known or is another one,
which is judged as paper and noticed, where it is another, as REEL_CHANGED while the routine queue has room, and otherwise falls at
once and rises by at most a two-hundredth of its value; where R changes, or the reel becomes known (the model's reading, assumption
45), RUNOUT is handed at or below the stop reserve unless the stand is SPLICING. A SPARE_STATE of a SPLICING stand is discarded; of
another one, a PREPARED spare in its ranges is the spare, and brings a stand out of FAULT whose spare has been cleared since, and
another report makes the spare absent, which clears it at a stand in FAULT. -/
def Obligations.ManualSpliceGoesAtOnce : Prop :=
  (∀ (s : State) (q : Asker) (k : Nat) (cfg : StandCfg) (spare : Spare), s.Inv → s.Grants q (.manualSplice k) →
    1 ≤ k → k ≤ 7 → (s.stand (k - 1)).cfg = some cfg → (s.stand (k - 1)).splice = .running →
    (s.stand (k - 1)).spare = some spare → (s.stand (k - 1)).demand = none → cfg.trig < (s.stand (k - 1)).remain →
    (s.stand (k - 1)).claim = false → bandCode s.wtr.band ≤ bandCode cfg.band → s.jointOnMap k = false →
    s.holds .spliceBand k = false → s.holds .gradeNotReady k = false →
    s.rif.urgent.length < 16 →
    exec (.manualSplice q k) s
      = .next (({ (s.onStand (k - 1) fun st =>
            { st with manual := true, splice := .splicing, reason := some .manual, timer := cfg.timeout }) with
          rif := { s.rif with
            urgent := s.rif.urgent ++ [.spliceGo k cfg.station .manual spare.reel.paper] } } : State).replied q
          ((okWith [.spliceState .splicing]).cut q.space)))
  ∧ ∀ (s : State) (i : Nat) (c : StandCfg) (r : Reel), i < 7 → (s.stand i).cfg = some c →
      let st := s.stand i
      let ok : Prop := 80 ≤ r.caliper ∧ r.caliper ≤ 900 ∧ r.diameter ≤ 30000 ∧ r.tube ≤ 30000
      let length : Nat := (r.diameter ^ 2 - r.tube ^ 2) * 7854 / (100 * r.caliper)
      let same : Prop := ∃ old, st.running = some old ∧ old.paper = r.paper ∧ old.caliper = r.caliper ∧ old.tube = r.tube
      let wrong : Prop := st.need ≠ 0 ∧ r.paper ≠ st.need
      let others (t : State) : Prop := (∀ j, j ≠ i → t.stand j = s.stand j) ∧ t.osq = s.osq ∧ t.chg = s.chg
        ∧ t.hgr = s.hgr ∧ t.stk = s.stk ∧ t.lsc = s.lsc ∧ t.irt = s.irt ∧ t.line = s.line
      (let t := s.reelDiameter i r
       let u := t.stand i
       (¬ok → t = s.notify (.badReelData (i + 1)))
       ∧ (ok → u.running = some r ∧ u.cfg = some c ∧ u.spare = st.spare ∧ u.manual = st.manual ∧ u.need = st.need
          ∧ (¬same → u.remain = length ∧ (u.claim = true ↔ wrong)
            ∧ (¬wrong → u.demand = if (st.demand.map fun d => d.paper) = some r.paper then none else st.demand))
          ∧ (same → u.remain = min length (st.remain + st.remain / 200) ∧ u.claim = st.claim ∧ u.demand = st.demand
            ∧ t.wmp = s.wmp)
          ∧ (∀ old, st.running = some old → ¬same → s.rif.routine.length ≤ 40 →
            .notice (.reelChanged (i + 1) old.paper r.paper) ∈ t.rif.routine)
          ∧ (st.running = none ∨ u.remain ≠ st.remain → u.remain ≤ c.stop → u.splice ≠ .splicing →
            ({ code := .runout, detail := .one (i + 1) } : FaultReport) ∈ t.handed)
          ∧ others t))
      ∧ ∀ report : SpareReport,
        let t := s.spareReport i report
        let u := t.stand i
        (st.splice = .splicing → t = s)
        ∧ (report = .prepared r → st.splice ≠ .splicing → ¬ok → t = s.notify (.badReelData (i + 1)))
        ∧ (report = .prepared r → st.splice ≠ .splicing → ok →
            u.spare = some { reel := r, remain := length } ∧ u.spareCleared = st.spareCleared
            ∧ (u.splice = .fault ↔ st.splice = .fault ∧ st.spareCleared = false))
        ∧ (report = .preparing ∨ report = .absent → st.splice ≠ .splicing →
            u.spare = none ∧ (u.spareCleared = true ↔ st.spareCleared = true ∨ st.splice = .fault)
            ∧ (u.splice = .fault ↔ st.splice = .fault))
        ∧ u.cfg = some c ∧ u.running = st.running ∧ u.remain = st.remain ∧ u.manual = st.manual ∧ u.need = st.need
        ∧ u.claim = st.claim ∧ u.demand = st.demand ∧ others t ∧ t.wmp = s.wmp

/-- A granted OPERATOR_CUTOUT in range completes. Where the defect area has room, a closed OPERATOR mark of the requester
stands on the map afterwards, with the start and the length named and the number that the reply gives; where it is full, the
mark that the reply names as surviving holds the stretch. What was marked before stays marked. Every GOOD plan that the
stretch overlaps is diverted, with a DIVERT record that names the number the cut-out took where it was not diverted before and
the log has the room: the number is the model's choice where the mark is merged (assumption 52), and so is the divert of a
plan that begins below the knife by a cut-out that ends there (assumption 42). -/
def Obligations.OperatorCutoutIsMarked : Prop :=
  ∀ (s : State) (q : Asker) (d l : Int), s.Inv → s.Grants q (.operatorCutout d l) → -100000 ≤ d → d ≤ 5000000 →
    1 ≤ l → l ≤ 5000000 → s.rif.urgent.length ≤ 14 →
    ∃ t surviving, exec (.operatorCutout q d l) s = .next t
      ∧ t.reply = some ((okWith [.number s.wmp.nextSeq, .optional surviving]).cut q.space)
      ∧ t.wmp.nextSeq = (s.wmp.nextSeq + 1) % 65536
      ∧ (surviving = none ↔ defectCount s.wmp.marks < 32)
      ∧ (surviving = none →
          let m : Mark := { closedMark .operator .mgr (.operator q.requester) d l with seq := s.wmp.nextSeq }
          t.wmp.marks = place m s.wmp.marks)
      ∧ (∀ n, surviving = some n →
          ∃ m ∈ t.wmp.marks, m.kind.isStructural = false ∧ m.seq = n ∧ m.start ≤ d ∧ d + l ≤ m.zoneEnd)
      ∧ (∀ (i : Nat) (b : Int) (p : Plan), (planStarts s.knp.cutEdge s.knp.plans)[i]? = some (b, p) → p.disp = .good →
          d < p.stop → b < d + l →
          t.knp.plans[i]? = some { p with diverted := true }
          ∧ (p.diverted = false → s.plg.mode = .wrap ∨ s.plg.records.length ≤ 509 →
              ∃ r ∈ t.plg.records, r.body = .divert p.seq .lateMark s.wmp.nextSeq))
      ∧ (∀ x, d ≤ x → x < d + l → Covered t.wmp.marks x) ∧ (∀ x, Covered s.wmp.marks x → Covered t.wmp.marks x)
      ∧ t.wtr = s.wtr ∧ t.osq = s.osq ∧ t.lsc = s.lsc ∧ t.configuration = s.configuration

/-! ### Ports and telegrams -/

/-- PORT_LINK_CHANGE sets the port's state, and a change queues a notice of it, which is discarded when the routine queue is
full. Nothing else changes. -/
def Obligations.PortLinkChangeIsNoticed : Prop :=
  ∀ (s : State) (up : Bool),
    (∀ p, s.portUp p = up → exec (.portLinkChange p up) s = .next s)
    ∧ (s.rif.portA ≠ up → exec (.portLinkChange .a up) s = .next { s with rif := { s.rif with
          portA := up, routine := s.rif.routine ++ (if s.rif.routine.length < 48 then
            [.notice (if up then .portUp .a else .portDown .a)] else []) } })
    ∧ (s.rif.portB ≠ up → exec (.portLinkChange .b up) s = .next { s with rif := { s.rif with
          portB := up, routine := s.rif.routine ++ (if s.rif.routine.length < 48 then
            [.notice (if up then .portUp .b else .portDown .b)] else []) } })

/-- A well-formed cycle telegram, the first one or one whose cycle number is not the last one seen, completes a ring cycle:
its number is the last one seen, the ring is UP, the ring-loss timer restarts at the ring timeout, and the telegram leaves by
the other port while that is UP, its bytes as they came but for the total length, with items of the part appended, at most
1,500 bytes in all. What the pins read, the last reply, the configuration and the commands that wait stand. The append stands
at some place among the cycle's events (a free order, assumption 3), of which the advance is one; how the other events are
ordered, and that Line State Control takes the faults of each when it is over, are the model's choices (assumptions 9 and 24).
The append takes items from the head of the urgent queue, and of the routine queue and its overflow once every urgent one has
gone, up to the first that does not fit within 1,500 bytes; they leave their queues, and an overflow item joins the routine
queue once that has made room, and may leave with the telegram that made it (the model's reading, assumption 35). An advance
of a moves every mark by a, no start falling below the knife floor and the pinned ends of the claims standing; the plan front,
the cut edge, the ends of the plans and of the withdrawn plans, the zone ends of the changeover records and the known reels
fall by a, and the distances of the channels in SUSPECT and of Line State Control count it; nothing else moves. The reports,
examinations and tests follow the move in the model's order (assumption 9), and leave what is not theirs where the move has
put it: the closed structural marks that end above the knife, the plans' places, the reels and Line State Control. An advance
of 0 moves nothing. -/
def Obligations.RingCycleIsTaken : Prop :=
  (∀ (s : State) (p : RingPort) (x : Arrival) (t : Telegram), s.Inv → readTelegram 1 x = some t →
    (∀ c, s.rif.cycle = some c → cycleStep c t.cycle ≠ 0) →
    ∃ u, ∃ items : List OutItem, exec (.cycleTelegram p x) s = .next u
      ∧ u.rif.cycle = some (t.cycle % 65536) ∧ u.rif.ring = .up ∧ u.rif.timer = some s.line.nums.ringTimeout
      ∧ (let total := x.bytes.length + (items.map outLength).sum
         total ≤ 1500 ∧ u.passed = some
           { port := s.wayOut p,
             bytes := x.bytes.take 4 ++ writeInt 2 total ++ x.bytes.drop 6 ++ items.flatMap (writeItem s.source) })
      ∧ u.rif.portA = s.rif.portA ∧ u.rif.portB = s.rif.portB ∧ u.commStation = s.commStation ∧ u.reply = s.reply
      ∧ u.configuration = s.configuration ∧ u.pending = s.pending
      ∧ ∃ (before after : List (State → State)) (v : State),
          let o := Config.order s.choices
          let n := match s.rif.cycle with
            | none => 0
            | some c => cycleStep c t.cycle - 1
          let a := (s.takeFeed n (firstFeed (s.deliveries t.items))).2
          before ++ after = cycleEvents o s t n ∧ (fun x => x.advance a o.spliceBeforeMap) ∈ before ++ after
          ∧ v = runEvents before { s with
              choices := s.choices + 1,
              rif := { s.rif with ring := .up, timer := some s.line.nums.ringTimeout, cycle := some (t.cycle % 65536) },
              lineStop := decide (s.wtr.request = .stop) }
          ∧ (v.appendItems p t).passed = u.passed ∧ u = runEvents after (v.appendItems p t))
  ∧ (∀ (v : State) (p : RingPort) (t : Telegram),
      let all := v.rif.routine ++ v.rif.overflow.toList
      let size (l : List OutItem) : Nat := (l.map outLength).sum
      let room := 1500 - t.total
      ∃ i j, i ≤ v.rif.urgent.length ∧ j ≤ all.length ∧ (0 < j → i = v.rif.urgent.length)
        ∧ (let items := v.rif.urgent.take i ++ all.take j
           size items ≤ room ∧ (v.appendItems p t).passed = some
             { port := v.wayOut p,
               bytes := t.bytes.take 4 ++ writeInt 2 (t.total + size items) ++ t.bytes.drop 6
                 ++ items.flatMap (writeItem v.source) })
        ∧ (i < v.rif.urgent.length → room < size (v.rif.urgent.take (i + 1)))
        ∧ (i = v.rif.urgent.length → j < v.rif.routine.length ∨ 0 < j ∧ j < all.length →
            room < size (v.rif.urgent ++ all.take (j + 1)))
        ∧ (v.appendItems p t).rif = { v.rif with
            urgent := v.rif.urgent.drop i,
            routine := if j = 0 then v.rif.routine else all.drop j,
            overflow := if j = 0 then v.rif.overflow else none })
  ∧ ∀ (v : State) (a : Nat) (b : Bool), v.advance 0 b = v
      ∧ (0 < a →
        let w := v.shift a
        let reports := crossingsOf a v.registered v.wmp.marks
        let judged := if b then w.judgeStands.mapReports reports else (w.mapReports reports).judgeStands
        v.advance a b = (if 4 ≤ v.osq.segments.length then judged.swapAdvance.knifeTests
          else State.evaluateCreation 4 judged.swapAdvance.knifeTests)
        ∧ w = { v with
            wmp := { v.wmp with
              marks := v.wmp.marks.map fun m =>
                { m with start := max (m.start - a) (-100000), closedEnd := m.closedEnd - a } },
            knp := { v.knp with
              plans := v.knp.plans.map fun x => { x with stop := x.stop - a },
              cutEdge := v.knp.cutEdge - a,
              front := v.knp.front - a,
              withdrawn := v.knp.withdrawn.map fun x => { x with stop := x.stop - a } },
            chg := { v.chg with records := v.chg.records.map fun r => { r with zoneEnd := r.zoneEnd - a } },
            spl := w.spl, hgr := { v.hgr with channels := w.hgr.channels }, lsc := w.lsc }
        ∧ (∀ c, w.channel c = { v.channel c with
            run := match (v.channel c).run with
              | .suspect failures moved => .suspect failures (min 2147483647 (moved + a))
              | run => run })
        ∧ (∀ k, w.stand k = { v.stand k with
            remain := if (v.stand k).running.isSome then (v.stand k).remain - a else (v.stand k).remain })
        ∧ (∀ m ∈ v.wmp.marks, m.kind.isStructural = true → m.claims = [] → (a : Int) < m.closedEnd →
          { m with start := max (m.start - a) (-100000), closedEnd := m.closedEnd - a } ∈ (v.advance a b).wmp.marks)
        ∧ (v.advance a b).knp.withdrawn = w.knp.withdrawn
        ∧ (v.advance a b).knp.front = v.knp.front - a ∧ (v.advance a b).knp.cutEdge = v.knp.cutEdge - a
        ∧ (v.advance a b).knp.plans.map (fun x => (x.seq, x.stop, x.length))
            = v.knp.plans.map (fun x => (x.seq, x.stop - (a : Int), x.length))
        ∧ (∀ k, ((v.advance a b).stand k).running = (v.stand k).running
            ∧ ((v.advance a b).stand k).remain
              = (if (v.stand k).running.isSome then (v.stand k).remain - a else (v.stand k).remain))
        ∧ (v.advance a b).lsc = { v.lsc with
            purge := v.lsc.purge - a,
            threading := if v.lsc.state = .threading then min 2147483647 (v.lsc.threading + a) else v.lsc.threading })

/-- A cycle telegram that repeats the cycle number last seen restarts the ring-loss timer, makes the ring UP, and passes
through; nothing is taken from it and nothing appended, and no notice is made of a malformed item in it (the model's choice,
assumption 69). A telegram leaves by the other port while that is UP, and otherwise by
the one it came by. -/
def Obligations.RepeatPassesThrough : Prop :=
  ∀ (s : State) (p : RingPort) (x : Arrival) (t : Telegram) (c : Nat), readTelegram 1 x = some t → s.rif.cycle = some c →
    cycleStep c t.cycle = 0 →
    exec (.repeatTelegram p x) s = .next { s with
      rif := { s.rif with ring := .up, timer := some s.line.nums.ringTimeout },
      lineStop := decide (s.wtr.request = .stop),
      passed := some { port := s.wayOut p, bytes := x.bytes } }
    ∧ s.wayOut p = (if s.portUp (otherPort p) then otherPort p else p)

/-- The bytes of a BAD_TELEGRAM, which in a well-formed command are no well-formed telegram, leave as they came whatever they
are, and a notice of their class and length is queued, or discarded when the routine queue is full. The ring state, the cycle
number and the timer stand, as does everything else. What is read of a header that is cut short, and that another telegram's
command does the same with such bytes, are the model's choices (assumption 34), and so is that bytes beyond the header's total length
are such (assumption 68). Bytes that are a header followed by items end to
end, in all at most 1,500, are read as that telegram: its origin station, cycle number and total length, and each item's source
station, instance and payload length, with its payload by its kind code. What stands beside the bytes, and is nothing where
nothing is said, is read only where the manual lays no bytes out (assumption 10). -/
def Obligations.BadTelegramPassesUntouched : Prop :=
  (∀ (s : State) (p : RingPort) (bytes : List Byte),
    exec (.badTelegram p bytes) s = .next { s with
      rif := { s.rif with routine := s.rif.routine ++ (if s.rif.routine.length < 48 then
        [.notice (.badTelegram (headerClass bytes) (headerLength bytes))] else []) },
      passed := some { port := s.wayOut p, bytes := bytes } }
    ∧ (bytesWellFormed bytes = false → ∀ contents,
      exec (.cycleTelegram p { bytes := bytes, contents := contents }) s = exec (.badTelegram p bytes) s
      ∧ exec (.repeatTelegram p { bytes := bytes, contents := contents }) s = exec (.badTelegram p bytes) s
      ∧ ∀ pins, exec (.managementTelegram p pins { bytes := bytes, contents := contents }) s
          = exec (.badTelegram p bytes) { s with commStation := pins }))
  ∧ ∀ (cls origin cycle : Nat) (l : List (Nat × Nat × Nat × List Byte)) (contents : List Contents),
      let body := l.flatMap fun i =>
        writeInt 1 i.1 ++ writeInt 1 i.2.1 ++ writeInt 1 i.2.2.1 ++ writeInt 2 i.2.2.2.length ++ i.2.2.2
      let total := 6 + body.length
      let bytes := writeInt 1 cls ++ writeInt 1 origin ++ writeInt 2 cycle ++ writeInt 2 total ++ body
      cls = 1 ∨ cls = 2 → origin < 256 → cycle < 65536 → (∀ i ∈ l, i.1 < 256 ∧ i.2.1 < 256 ∧ i.2.2.1 < 256) → total ≤ 1500 →
      readTelegram cls { bytes := bytes, contents := contents } = some {
        bytes := bytes, origin := origin, cycle := cycle, total := total,
        items := (l.zip (contents ++ List.replicate l.length .nothing)).map fun y =>
          { source := y.1.1, inst := y.1.2.2.1, length := y.1.2.2.2.length, payload := readPayload y.1.2.1 y.1.2.2.2 y.2 } }

/-- A well-formed management telegram whose one item is a request for the part, with a reply space that holds the reply
header, does what that request's command does, and leaves with the reply written in the item, whose length stands: the reply
header and data, and 0 in the rest of the space; its other bytes leave as they came. A request with a code that the table does
not have changes nothing and is answered BAD_FIELD, index 0, or UNKNOWN_STATION. One with nothing for the part passes through.
A REQUEST item's payload is read as its destination, request code, argument length, arguments and reply space, whose first
byte is the reply code; LOAD_ORDER's arguments are the bytes, a request without arguments is read from its code, and another
from what the bytes spell (assumption 10); code 0 and the codes above 27 name none. -/
def Obligations.ManagementTelegramServesItsRequest : Prop :=
  (∀ (s : State) (p : RingPort) (pins : BitVec 6) (y : Arrival) (t : Telegram), readTelegram 2 y = some t →
    (∀ it x space, t.items = [it] → it.payload = .request x → it.inst ≤ 15 → 4 ≤ it.length →
      (s.selfCode = some x.dest ∨ x.dest = 63) → x.replyCode = 0 →
      it.length = 4 + x.argLength + space → 4 ≤ space →
      let q := askerOf pins it x space
      let written (R : Reply) : List Byte := y.bytes.take (15 + x.argLength) ++ writeReply space R
      (∀ r, x.asked = .known r → ∃ u R, exec (carrying q r) s = .next u ∧ u.reply = some R
        ∧ (writeReply space R).length = space
        ∧ exec (.managementTelegram p pins y) s = .next { u with
            passed := some { port := u.wayOut p, bytes := written R } })
      ∧ (∀ code, x.asked = .unknown code →
        let R : Reply := if s.authority pins it.source = .unknown then bare .unknownStation else badField 0 0
        (writeReply space R).length = space ∧ exec (.managementTelegram p pins y) s = .next { s with
          commStation := pins, reply := some R,
          passed := some { port := s.wayOut p, bytes := written R } })
      ∧ ∀ R : Reply, writeReply space R = writeReplyHeader R ++ R.data.flatMap writeDatum
          ++ List.replicate (space - (writeReplyHeader R ++ R.data.flatMap writeDatum).length) 0)
    ∧ ((∀ it ∈ t.items, s.isBadItem it = false
          ∧ ∀ x, it.payload = .request x → x.dest ≠ 63 ∧ s.selfCode ≠ some x.dest) →
        exec (.managementTelegram p pins y) s = .next { s with
          commStation := pins,
          passed := some { port := s.wayOut p, bytes := y.bytes } }))
  ∧ (∀ (dest code : Nat) (args space : List Byte) (c : Contents), dest < 256 → code < 256 → args.length < 65536 →
      readPayload 112
          (writeInt 1 dest ++ writeInt 1 code ++ writeInt 2 args.length ++ args ++ space) c
        = .request {
            dest := dest, argLength := args.length, present := fieldsHeld args c,
            replyCode := (space.head?.map fun b => b.toNat).getD 0, asked := readAsked code args c })
  ∧ (∀ (args : List Byte) (c : Contents), readAsked 9 args c = .known (.loadOrder args)
      ∧ (∀ r ∈ bareRequests, readAsked (requestCode r) args c = .known r)
      ∧ ∀ code, code = 0 ∨ 27 < code → readAsked code args c = .unknown code)
  ∧ ∀ (args : List Byte) (r : Request) (n : Nat), (∀ bytes, r ≠ .loadOrder bytes) →
      readAsked (requestCode r) args (.arguments r n) = .known r
        ∧ fieldsHeld args (.arguments r n) = min n args.length

/-- When the ring-loss timer runs out with the ring UP, the ring is LOST, the timer stops, LINE_STOP is asserted, and
RING_LOST is latched when no fault was, with a running line FAULTED. The configuration stands. That the gap is the timeout the
timer was loaded with, and that nothing happens while the timer does not run, are the model's choices (assumptions 1 and
2). -/
def Obligations.RingLossStopsTheLine : Prop :=
  ∀ s : State, s.Inv →
    (∀ gap, s.rif.ring = .up → s.rif.timer = some gap →
      ∃ t, exec .ringLost s = .next t ∧ t.rif.ring = .lost ∧ t.rif.timer = none ∧ t.lineStop = true
        ∧ (s.lsc.latch = none → (t.lsc.latch.map fun l => (l.code, l.detail)) = some (.ringLost, .one gap))
        ∧ (s.lsc.latch.isSome = true → t.lsc.latch = s.lsc.latch)
        ∧ t.lsc.state = (if runsLine s.lsc.state then .faulted else s.lsc.state)
        ∧ t.configuration = s.configuration ∧ t.pending = s.pending)
    ∧ (s.rif.ring ≠ .up ∨ s.rif.timer = none → exec .ringLost s = .next s)

/-! ### Timers -/

/-- When the swap timer of a SWAPPING head record runs out, the record is CROSSED, swaps are blocked, the changeover zone is
open at a configured slitter distance, and SWAP_TIMEOUT is handed with the boundary's number; Line State Control then takes
the faults handed (the model's choice, assumption 24). A zone that this opens is a WRONG_SLIT claim of the record's target, on
a mark of the map and pinned at D_ss, with SLITTER_NOT_READY raised. With the timer stopped nothing happens (the model's
choice, assumption 2). The SLITTER_STATE reports of one telegram set the tracked states and the held presets, and
SLITTER_CONFLICT is handed where both stations are then WORKING; of the rest this says what one station does while the other
is not WORKING, R84 judging the stations before a CROSSED head is examined again (the model's choice, assumption 47). The head
record's target that is WORKING with the record SWAPPING, or becomes WORKING with the preset of a CROSSED one held, confirms
it: the target is engaged, E stands and the record leaves; with none behind it the swap is logged, the timer stops, and the
changeover zone closes with its claim and SLITTER_NOT_READY. An engaged station that leaves WORKING, for FAULT or while no
swap is under way, opens a WRONG_SLIT claim, kept until it works again, and is noticed. One that works again with a held
preset ends that claim; without one it makes E unknown whatever the claim's cause (the model's reading, assumption 15). A
station that becomes WORKING and confirms nothing is engaged and noticed; without a held preset E is unknown and a claim is
open until the next confirmed swap; with one E is its setting while no record is held. A head record whose target it was takes
the other station. -/
def Obligations.SwapTimeoutBlocksSwaps : Prop :=
  (∀ s : State,
    (s.chg.timer = 0 → exec .swapTimeout s = .next s)
    ∧ (∀ r rest, s.chg.timer ≠ 0 → s.chg.records = r :: rest → r.status = .swapping →
        ∃ u : State, exec .swapTimeout s = .next u.takeFaults
          ∧ u.chg.records = { r with status := .crossed } :: rest ∧ u.chg.timer = 0 ∧ u.chg.blocked = true
          ∧ (s.line.nums.dSs ≠ 0 → u.chg.changeover.isSome = true)
          ∧ (s.line.nums.dSs ≠ 0 → s.chg.changeover = none →
              let owner := r.target.getD s.chg.idle
              let claim : Claim := { kind := .wrongSlit, owner := slitterCode owner, pinned := s.line.nums.dSs }
              u.chg.changeover = some owner ∧ (∃ m ∈ u.wmp.marks, m.holdsClaim .wrongSlit (slitterCode owner) = true)
              ∧ ((∀ m ∈ s.wmp.marks, m.holdsClaim .wrongSlit (slitterCode owner) = false) →
                  ∃ m ∈ u.wmp.marks, claim ∈ m.claims ∧ m.start ≤ min r.zoneEnd s.line.nums.dSs)
              ∧ u.holds .slitterNotReady 0 = true)
          ∧ (s.line.nums.dSs = 0 ∨ s.chg.changeover.isSome = true → u.wmp = s.wmp)
          ∧ { code := .swapTimeout, detail := .one r.boundary : FaultReport } ∈ u.handed
          ∧ u.takeFaults.lsc.latch.isSome = true
          ∧ u.osq = s.osq ∧ u.spl = s.spl ∧ u.hgr = s.hgr ∧ u.stk = s.stk ∧ u.lsc = s.lsc ∧ u.irt = s.irt
          ∧ u.line = s.line))
  ∧ ∀ (s : State) (a b : Option SlitterState) (st : Slitter),
      let report (x : Slitter) : Option SlitterState := match x with | .a => a | .b => b
      let now (x : Slitter) : SlitterState := (report x).getD (s.chg.stateOf x)
      let t := s.slitterEvent a b
      let claimed (x : Slitter) : Prop := ∃ m ∈ t.wmp.marks, m.holdsClaim .wrongSlit (slitterCode x) = true
      let confirms (r : ChangeRec) : Prop := r.target = some st ∧ (r.status = .swapping ∨ r.status = .crossed
        ∧ s.chg.stateOf st ≠ .working ∧ (s.chg.heldOf st).map (fun p => p.id) = some r.preset.id)
      t.chg.stateOf st = now st
      ∧ t.chg.heldOf st = (match report st with
          | some .parked => none
          | some (.ready id) =>
            match s.chg.sent.find? fun y => y.1 == st && y.2.id == id with
            | some y => some y.2
            | none => s.chg.heldOf st
          | _ => s.chg.heldOf st)
      ∧ (now .a = .working → now .b = .working →
          { code := .slitterConflict, detail := .one 0 : FaultReport } ∈ t.handed)
      ∧ (now (otherStation st) ≠ .working →
        (∀ r rest, s.chg.records = r :: rest → report st = some .working → confirms r →
            t.chg.engaged = some st ∧ t.chg.records.map (fun x => x.boundary) = rest.map (fun x => x.boundary)
            ∧ (s.chg.engaged ≠ some st → t.chg.expected = s.chg.expected)
            ∧ (rest = [] → t.chg.timer = 0 ∧ t.chg.changeover = none
              ∧ t.plg = (s.log (.swap r.boundary st r.preset.id)).plg
              ∧ ∀ owner, s.chg.changeover = some owner → t.holds .slitterNotReady 0 = false
                ∧ (owner ≠ st ∨ s.chg.causeOf owner ≠ .untilWorking → ¬claimed owner)))
        ∧ (∀ x, s.chg.engaged = some st → s.chg.stateOf st = .working → report st = some x → x ≠ .working →
            x = .fault ∨ (∀ r ∈ s.chg.records, r.status ≠ .swapping) →
            s.line.nums.dSs ≠ 0 → s.chg.causeOf st = .none → s.rif.routine.length ≤ 40 →
            t.chg.engaged = some st ∧ t.chg.causeOf st = .untilWorking ∧ claimed st ∧ t.chg.expected = s.chg.expected
            ∧ .notice (.slitterFault x) ∈ t.rif.routine)
        ∧ (s.chg.engaged = some st → s.chg.stateOf st ≠ .working → report st = some .working →
            (∀ r rest, s.chg.records = r :: rest → r.target ≠ some st) →
            t.chg.engaged = some st
            ∧ (∀ p, s.chg.heldOf st = some p → t.chg.expected = s.chg.expected
                ∧ (s.chg.causeOf st = .untilWorking → s.chg.changeover ≠ some st →
                    t.chg.causeOf st = .none ∧ ¬claimed st))
            ∧ (s.chg.heldOf st = none → t.chg.expected = none))
        ∧ (s.chg.engaged ≠ some st → s.chg.stateOf st ≠ .working → report st = some .working →
            (∀ r rest, s.chg.records = r :: rest → ¬confirms r) → s.rif.routine.length ≤ 40 →
            t.chg.engaged = some st ∧ .notice .slitterUnplanned ∈ t.rif.routine
            ∧ (∀ p, s.chg.heldOf st = some p →
                t.chg.expected = if s.chg.records = [] then some p.setting else s.chg.expected)
            ∧ (s.chg.heldOf st = none → t.chg.expected = none
                ∧ (s.line.nums.dSs ≠ 0 → t.chg.causeOf st = .untilSwap ∧ claimed st))
            ∧ (∀ r rest, s.chg.records = r :: rest → r.target = some st →
                ∃ r', t.chg.records = r' :: rest ∧ r'.boundary = r.boundary ∧ r'.target = some (otherStation st))))

/-- When the splice timer of a SPLICING stand runs out, the stand is in FAULT with its timer stopped and its manual request
gone; Line State Control then takes the faults handed (the model's choice, assumption 24). Of another stand nothing happens
(the model's choice, assumption 2). The configuration stands. A SPLICE_FAULT puts a SPLICING stand in FAULT in the same way,
and changes no other stand. A SPLICE_DONE of a configured stand, in any splice state, makes it run on its spare, with no
spare, no manual request and its timer stopped, RUNNING or DUE; the reason is the one recorded for a SPLICING stand and for
one in FAULT after a timeout, and MANUAL otherwise. A SPLICE mark stands at the stand's distance less what has been fed since
the splice, in web units, and reaches over the joint length, or the stand's mark on the map is widened to it; a spare that is
not known gives no paper (the model's reading, assumption 14). The demand that the new paper meets ends. While the paper is
not the one needed, a WRONG_PAPER claim is open, at the joint's end where it is new, with GRADE_NOT_READY; a claim that ends
leaves the map. Board between a grade splice made early and the boundary it was made for is marked where the outgoing order
needs another paper, also where the new paper is not known (the model's choice, assumption 54). A SPLICE record is logged; that it
is the last of the event's records is the model's choice (assumption 51). A boundary that crosses the splice point sets the paper
needed, and opens or ends the claim at its start. The first event of a ring cycle counts every splice timer down by the missed
cycles and one, stopping at 0, and changes nothing else of a stand (the model's reading of what the manual's sequence shows,
assumption 66). A later event of the cycle lets timers run out: it takes a SPLICING stand whose timer is at 0 to FAULT, with its
manual request gone, and changes no other stand. -/
def Obligations.SpliceTimeoutFailsTheSplice : Prop :=
  (∀ (s : State) (k : Fin 7), s.Inv →
    ((s.stand k).splice ≠ .splicing → exec (.spliceTimeout k) s = .next s)
    ∧ ((s.stand k).splice = .splicing →
        ∃ u : State, exec (.spliceTimeout k) s = .next u.takeFaults
          ∧ u.spl = (s.onStand k fun st =>
              { st with splice := .fault, timer := 0, manual := false, spareCleared := false, timedOut := true }).spl
          ∧ u.osq = s.osq ∧ u.chg = s.chg ∧ u.wmp = s.wmp ∧ u.hgr = s.hgr ∧ u.knp = s.knp ∧ u.stk = s.stk
          ∧ u.lsc = s.lsc ∧ u.takeFaults.configuration = s.configuration))
  ∧ (∀ (s : State) (i code : Nat), (s.stand i).cfg.isSome = true →
      (s.spliceFault i code).spl = if (s.stand i).splice = .splicing then
        (s.onStand i fun st =>
          { st with splice := .fault, timer := 0, manual := false, spareCleared := false, timedOut := false }).spl
        else s.spl)
  ∧ (∀ (s : State) (i : Nat) (c : StandCfg) (counts : Nat), i < 7 → (s.stand i).cfg = some c →
      let st := s.stand i
      let reason : SpliceReason := if st.splice = .splicing ∨ st.splice = .fault ∧ st.timedOut = true then
        st.reason.getD .manual else .manual
      let joint : Int := c.dist - (counts * s.line.nums.feedScale / 65536 : Nat)
      let jointEnd : Int := joint + c.joint
      let paper := st.spare.map fun x => x.reel.paper
      let wrong : Prop := st.need ≠ 0 ∧ paper ≠ some st.need
      let t := s.spliceDone i counts
      let u := t.stand i
      (u.cfg = some c ∧ u.running = st.spare.map (fun x => x.reel) ∧ u.remain = (st.spare.map fun x => x.remain).getD 0
        ∧ u.spare = none ∧ u.manual = false ∧ u.timer = 0 ∧ u.reason = some reason ∧ u.need = st.need
        ∧ (u.splice = .running ∨ u.splice = .due))
      ∧ (u.claim = true ↔ wrong) ∧ (t.holds .gradeNotReady (i + 1) = true ↔ wrong)
      ∧ (¬wrong → u.demand = if (st.demand.map fun d => d.paper) = paper then none else st.demand)
      ∧ (s.jointOnMap (i + 1) = false →
          ∃ m ∈ t.wmp.marks, m.kind = .splice ∧ m.seq = s.wmp.nextSeq ∧ m.start = joint ∧ m.closedEnd = jointEnd
            ∧ m.claims = [] ∧ m.payload = .splice (i + 1) reason paper)
      ∧ (∀ a m b, s.wmp.marks = a ++ m :: b → (∀ x ∈ a, x.isJointOf (i + 1) = false) → m.isJointOf (i + 1) = true →
          m.claims = [] →
          { m with start := min m.start joint, closedEnd := max m.closedEnd jointEnd } ∈ t.wmp.marks)
      ∧ (wrong → st.claim = false → defectCount s.wmp.marks < 31 →
          (∀ m ∈ s.wmp.marks, m.holdsClaim .wrongPaper (i + 1) = false) →
          ∃ m ∈ t.wmp.marks, m.kind = .wrongPaper ∧ m.start = jointEnd
            ∧ m.claims = [{ kind := .wrongPaper, owner := i + 1, pinned := c.dist }])
      ∧ (¬wrong → st.claim = true → ∀ m ∈ t.wmp.marks, m.holdsClaim .wrongPaper (i + 1) = false)
      ∧ (∀ d n m outgoing incoming flying preset, reason = .grade → st.demand = some d → d.boundary = some n →
          s.findBoundary n = some m → m.payload = .boundary outgoing incoming flying preset → jointEnd < m.start →
          let order := (s.osq.segments.find? fun g => g.num == outgoing).bind fun g => g.order
          s.paperFor order i ≠ 0 → paper ≠ some (s.paperFor order i) → defectCount s.wmp.marks < 32 →
          (wrong → st.claim = false → defectCount s.wmp.marks < 31) →
          ∃ x ∈ t.wmp.marks, x.kind = .wrongPaper ∧ x.start = jointEnd ∧ x.closedEnd = m.start ∧ x.claims = [])
      ∧ (s.plg.mode = .wrap ∨ t.plg.records.length < 512 →
          (t.plg.records.getLast?.map fun x => x.body) = some (.splice (i + 1) (some reason) .done))
      ∧ (∀ j, j ≠ i → t.stand j = s.stand j)
      ∧ t.osq = s.osq ∧ t.chg = s.chg ∧ t.hgr = s.hgr ∧ t.stk = s.stk ∧ t.lsc = s.lsc ∧ t.irt = s.irt
      ∧ t.line = s.line)
  ∧ (∀ (s : State) (i : Nat) (c : StandCfg) (order : Nat) (start : Int), i < 7 → (s.stand i).cfg = some c →
      let need := s.paperFor (some order) i
      let wrong : Prop := need ≠ 0 ∧ (s.stand i).paper ≠ some need
      let t := s.crossSplicePoint i (some order) start
      (t.stand i).need = need ∧ ((t.stand i).claim = true ↔ wrong) ∧ (t.holds .gradeNotReady (i + 1) = true ↔ wrong)
      ∧ (wrong → (s.stand i).claim = false → defectCount s.wmp.marks < 32 →
          (∀ m ∈ s.wmp.marks, m.holdsClaim .wrongPaper (i + 1) = false) →
          ∃ m ∈ t.wmp.marks, m.kind = .wrongPaper ∧ m.seq = s.wmp.nextSeq ∧ m.start = start
            ∧ m.claims = [{ kind := .wrongPaper, owner := i + 1, pinned := c.dist }])
      ∧ (¬wrong → (s.stand i).claim = true → ∀ m ∈ t.wmp.marks, m.holdsClaim .wrongPaper (i + 1) = false))
  ∧ (∀ (o : EventOrder) (s : State) (t : Telegram) (n : Nat),
      ∃ rest, cycleEvents o s t n = (fun u => u.tickTimers n) :: rest ∧ (fun u => u.timersDue) ∈ rest)
  ∧ (∀ (s : State) (n i : Nat),
      (s.tickTimers n).stand i = { s.stand i with timer := (s.stand i).timer - (n + 1) })
  ∧ ∀ (s : State) (i : Nat),
      ((s.stand i).splice = .splicing → (s.stand i).timer = 0 →
        s.timersDue.stand i
          = { s.stand i with splice := .fault, timer := 0, manual := false, spareCleared := false, timedOut := true })
      ∧ ((s.stand i).splice ≠ .splicing ∨ (s.stand i).timer ≠ 0 → s.timersDue.stand i = s.stand i)

/-- When the freshness counter of a FRESH entry runs out, the entry is STALE with its counter at 0 and its owner is told: a
lost FEED_COUNT latches a fault, and the next count seeds the feed state; a lost LINE_STATUS makes the tracked status UNKNOWN and
raises LINE_STATUS_STALE; a configured stand notes its lost REEL_DIAMETER; a channel goes stale; the tracked state of a
slitter-scorer or of the stacker becomes UNKNOWN. Line State Control takes the faults handed when the event is over (the model's
choice, assumption 24). Of another entry nothing happens (the model's choice, assumption 2). A ring cycle reloads the counter of each
entry whose item it carries, of a right form and not from the part itself, and makes the entry FRESH; the counters of the other
entries fall by the missed cycles and one, stopping at 0, where a FRESH entry becomes STALE. An owner told that its source is fresh
drops LINE_STATUS_STALE, the stand's stale notice or the channel's stale flag. -/
def Obligations.FreshnessLapseMakesTheSourceStale : Prop :=
  (∀ (s : State) (i : Fin 48), s.Inv →
    (s.irt.subs[i].fresh = false ∨ s.irt.subs[i].cfg = none → exec (.freshnessLapse i) s = .next s)
    ∧ (∀ c, s.irt.subs[i].fresh = true → s.irt.subs[i].cfg = some c →
        ∃ t, exec (.freshnessLapse i) s = .next t
          ∧ t.irt = { s.irt with subs := put s.irt.subs i { cfg := some c, counter := 0, fresh := false } }
          ∧ (c.kind = .feedCount → t.wtr.firstCount = true ∧ t.wtr.debt = 0 ∧ t.lsc.latch.isSome = true)
          ∧ (c.kind = .lineStatus → t.lsc.status = .unknown ∧ t.holds .lineStatusStale 0 = true)
          ∧ (c.kind = .reelDiameter → (s.stand (c.index - 1)).cfg.isSome = true →
              (t.stand (c.index - 1)).staleNotice = true)
          ∧ (c.kind = .zoneValue → c.index ≤ 15 → (t.channel c.index).stale = true)
          ∧ (c.kind = .slitterState → t.chg.stateOf (if c.index = 1 then .a else .b) = .unknown)
          ∧ (c.kind = .stackState → t.stk.state = .unknown)
          ∧ t.configuration = s.configuration))
  ∧ (∀ (s : State) (p : RingPort) (x : Arrival) (t : Telegram), readTelegram 1 x = some t →
      (∀ c, s.rif.cycle = some c → cycleStep c t.cycle ≠ 0) →
      let n := match s.rif.cycle with
        | none => 0
        | some c => cycleStep c t.cycle - 1
      let heard (c : SubCfg) : Prop := ∃ it ∈ t.items, itemMalformed it = false ∧ s.selfCode ≠ some it.source
        ∧ it.source = c.source ∧ payloadKind it.payload = some c.kind ∧ it.inst = c.inst
      ∃ u, exec (.cycleTelegram p x) s = .next u ∧ u.irt.stations = s.irt.stations ∧ ∀ i : Fin 48,
        let e := s.irt.subs[i]
        (e.cfg = none → u.irt.subs[i] = e)
        ∧ ∀ c, e.cfg = some c →
          (heard c → u.irt.subs[i] = { cfg := some c, counter := c.reload, fresh := true })
          ∧ (¬heard c → u.irt.subs[i]
              = { cfg := some c, counter := e.counter - (n + 1), fresh := e.fresh && decide (n + 1 < e.counter) }))
  ∧ ∀ (s : State) (c : SubCfg),
      let t := s.freshReport c
      (c.kind = .lineStatus → t.holds .lineStatusStale 0 = false)
      ∧ (c.kind = .reelDiameter → (t.stand (c.index - 1)).staleNotice = false)
      ∧ (c.kind = .zoneValue → c.index ≤ 15 → (t.channel c.index).stale = false)

/-- When the refresh counter runs out a SPEED_REQUEST with cause REFRESH is queued with the current request, governing reason,
band and V, or the one that waits is rewritten in its place, and the counter is 64 again. Nothing else changes while the
urgent queue has room; when it is full, the item is discarded and a fault is latched. -/
def Obligations.RefreshRepeatsTheSpeedRequest : Prop :=
  ∀ s : State, s.handed = [] →
    let o := OutItem.speedRequest s.wtr.request s.wtr.governing s.wtr.band s.wtr.speedSum .refresh
    (s.rif.urgent.any isSpeedRequest = true →
      exec .speedRequestRefresh s = .next { s with
        wtr := { s.wtr with refresh := 64 },
        rif := { s.rif with urgent := s.rif.urgent.map fun w => if isSpeedRequest w then o else w } })
    ∧ (s.rif.urgent.any isSpeedRequest = false → s.rif.urgent.length < 16 →
        exec .speedRequestRefresh s = .next { s with
          wtr := { s.wtr with refresh := 64 }, rif := { s.rif with urgent := s.rif.urgent ++ [o] } })
    ∧ (s.rif.urgent.any isSpeedRequest = false → 16 ≤ s.rif.urgent.length →
        ∃ t, exec .speedRequestRefresh s = .next t ∧ t.lsc.latch.isSome = true ∧ t.wtr.refresh = 64)

/-- When the resend count of a SENT head runs out while the stacker is READY and reports another number, the same
STACK_COMMAND is queued again under the same number and the count is 64 again; nothing else changes while the routine queue
has room. In any other case nothing happens (the model's choice, assumption 2). A STACK_STATE sets the tracked state and
number and moves the head on: a WAITING one is sent under the next number to a READY stacker; a SENT one goes to SETTING when
the stacker sets down under its number, is complete when the stacker is READY under it, and under a READY stacker with another
number is sent again when its count has run out and otherwise counts on; a SETTING one is complete when the stacker is READY
under its number; in every other case the head stands. A complete set-down leaves the queue, the overflow moves up and
STACKER_BEHIND drops, and the next head is sent at once, behind the STACK_FINAL notice of a final one (the model's choice,
assumption 41). An entry into FAULT is noticed. -/
def Obligations.StackCommandGoesAgain : Prop :=
  (∀ s : State, s.handed = [] →
    (∀ d rest command resend, s.stk.queue = d :: rest → s.stk.head = .sent command resend → s.stk.state = .ready →
      s.stk.tracked ≠ command → s.rif.routine.length < 48 →
      exec .stackCommandResend s = .next { s with
        stk := { s.stk with head := .sent command 64 },
        rif := { s.rif with routine := s.rif.routine ++
          [.stackCommand s.stackerStation command d.number d.ordinal d.cuts d.final] } })
    ∧ ((s.stk.queue = [] ∨ (∀ command resend, s.stk.head ≠ .sent command resend) ∨ s.stk.state ≠ .ready
          ∨ ∃ resend, s.stk.head = .sent s.stk.tracked resend) →
        exec .stackCommandResend s = .next s))
  ∧ ∀ (s : State) (n : Nat) (report : StackReport) (number : Nat), s.rif.routine.length < 46 →
      let command (d : SetDown) (k : Nat) : OutItem :=
        .stackCommand s.stackerStation k d.number d.ordinal d.cuts d.final
      let next := if s.stk.counter = 255 then 1 else s.stk.counter + 1
      let heard := { s.stk with state := trackedStacker report, tracked := number }
      let faults : List OutItem :=
        if report = .fault ∧ s.stk.state ≠ .fault then [.notice (.stackerFault number)] else []
      let left (stk : Stk) (items : List OutItem) : Prop :=
        s.stackEvent n report number
          = { s with stk := stk, rif := { s.rif with routine := s.rif.routine ++ faults ++ items } }
      (s.stk.queue = [] → left heard [])
      ∧ (∀ d rest, s.stk.queue = d :: rest → s.stk.head = .waiting →
          (report = .ready → left { heard with counter := next, head := .sent next 64 } [command d next])
          ∧ (report ≠ .ready → left heard []))
      ∧ (∀ d rest k count, s.stk.queue = d :: rest → s.stk.head = .sent k count →
          (report = .settingDown → left (if number = k then { heard with head := .setting k count } else heard) [])
          ∧ (report = .ready → number ≠ k →
              if count ≤ n + 1 then left { heard with head := .sent k 64 } [command d k]
              else left { heard with head := .sent k (count - (n + 1)) } [])
          ∧ (report = .busy ∨ report = .fault → left heard []))
      ∧ (∀ d rest k count, s.stk.queue = d :: rest → s.stk.head = .setting k count →
          ¬(report = .ready ∧ number = k) → left heard [])
      ∧ (∀ d rest k count, s.stk.queue = d :: rest → s.stk.head = .sent k count ∨ s.stk.head = .setting k count →
          report = .ready → number = k →
          let t := s.stackEvent n report number
          let final : List OutItem := if d.final then [.notice (.stackFinal d.number d.ordinal d.cuts)] else []
          t.stk.queue = rest ++ s.stk.overflow.toList ∧ t.stk.overflow = none ∧ t.stk.piles = s.stk.piles
            ∧ (∀ x l, rest ++ s.stk.overflow.toList = x :: l → t.stk.head = .sent next 64 ∧ t.stk.counter = next
                ∧ t.rif.routine = s.rif.routine ++ final ++ [command x next])
            ∧ (rest ++ s.stk.overflow.toList = [] → t.stk.head = .waiting ∧ t.stk.counter = s.stk.counter
                ∧ t.rif.routine = s.rif.routine ++ final)
            ∧ (s.stk.overflow.isSome = true → t.holds .stackerBehind 0 = false)
            ∧ t.osq = s.osq ∧ t.knp = s.knp ∧ t.wmp = s.wmp ∧ t.chg = s.chg ∧ t.spl = s.spl ∧ t.hgr = s.hgr
            ∧ t.lsc = s.lsc ∧ t.irt = s.irt ∧ t.line = s.line)

/-- The end of a settle timer sets it to 0, and changes nothing else. A SETPOINT for a configured point with a grade carries
that grade, the band, and the band's entry of its column, RUN, or IDLE where the column is absent; it is remembered, and the
settle timers of the point's channels are loaded, also where the routine queue has no place for it (the model's choice,
assumption 40). A boundary whose incoming order's grade differs gives the point that grade and a SETPOINT, and where the
column is then absent the OPEN channels tied to the point are closed; any other changes nothing. A reading is stored for a
channel that hears it, above 4,095 as invalid: that a configured channel hears only the entry that its record names, and fails
as STALE while that is not loaded for it, is the model's reading (assumption 25). A cycle telegram stores its readings, then counts
every settle timer down by the missed cycles and one, stopping at 0, then takes the entry at the scan position: it is evaluated,
and the position moves on. A channel whose point has a grade with its column fails when it is stale or without a valid
reading, or when its value differs from the setpoint by more than the tolerance, doubled while its settle timer runs; other
channels are passed over. The confirm count of consecutive failures opens an OFFBAND claim from the point's distance less what
has moved since the first one and the guard, pinned at the distance plus the guard; that count of consecutive passes closes
it; a pass in SUSPECT returns to CLEAR, and a failure in OPEN starts the passes anew. Either change of the zone is noticed. -/
def Obligations.SettleEndClearsTheTimer : Prop :=
  (∀ (s : State) (c : Fin 16),
    exec (.settleEnd c) s = .next { s with hgr := { s.hgr with
      channels := s.hgr.channels.set c { s.hgr.channels[c] with settle := 0 } } })
  ∧ (∀ (s : State) (p : Nat),
      let pt := s.point p
      ((pt.cfg = none ∨ pt.grade = 0) → s.sendSetpoint p = s)
      ∧ ∀ c, pt.cfg = some c → pt.grade ≠ 0 →
        let entry := (s.columnOf pt).map fun col => columnEntry col s.wtr.band
        let mode : SetpointMode := if entry.isSome then .run else .idle
        let o : OutItem := .setpoint p c.station c.kind pt.grade s.wtr.band mode entry
        let t := s.sendSetpoint p
        t.point p = { pt with last := some { grade := pt.grade, band := s.wtr.band, mode := mode } }
        ∧ (∀ j, j ≠ p → t.point j = s.point j)
        ∧ (∀ j, t.channel j = { s.channel j with
            settle := match (s.channel j).cfg with
              | some k => if k.point = p then k.settle else (s.channel j).settle
              | none => (s.channel j).settle })
        ∧ t = { s.queueRoutine o with hgr := t.hgr } ∧ t.hgr.grades = s.hgr.grades ∧ t.hgr.scan = s.hgr.scan
        ∧ t.hgr.position = s.hgr.position)
  ∧ (∀ (s : State) (p : Nat) (c : PointCfg), (s.point p).cfg = some c →
      (s.crossPoint p none = s)
      ∧ ∀ o, let code := s.gradeCode o
        let t := s.crossPoint p (some o)
        let graded := s.onPoint p fun pt => { pt with grade := code }
        ((s.point p).grade = code → t = s)
        ∧ ((s.point p).grade ≠ code →
          (t.point p).grade = code ∧ (t.point p).cfg = some c
          ∧ ((graded.columnOf (graded.point p)).isSome = true → t = graded.sendSetpoint p)
          ∧ (graded.columnOf (graded.point p) = none →
              ∀ j, (s.channel j).tiedTo p = true → (t.channel j).isOpen = false)))
  ∧ (∀ (s : State) (c raw : Nat) (l : List (Nat × Nat)),
      s.storeReadings ((c, raw) :: l) = (s.storeReadings [(c, raw)]).storeReadings l
      ∧ s.storeReadings [(c, raw)] = if s.channelHears c then
          s.onChannel c fun ch => { ch with reading := if raw ≤ 4095 then .valid raw else .invalid }
        else s)
  ∧ (∀ (s : State) (n : Nat) (l : List (Nat × Nat)),
      let t := s.storeReadings l
      s.heatCycle n l = ({ t with hgr := { t.hgr with
        channels := t.hgr.channels.map fun ch => { ch with settle := ch.settle - (n + 1) } } } : State).scan)
  ∧ (∀ (s : State) (c : Nat), s.hgr.scan[s.hgr.position]? = some c →
      s.scan = (s.evaluate c).onHgr fun h =>
        { h with position := if s.hgr.position + 1 < s.hgr.scan.length then s.hgr.position + 1 else 0 })
  ∧ ∀ (s : State) (c : Nat),
      let ch := s.channel c
      let t := s.evaluate c
      let runs (r : RunState) : Prop := t = s.onChannel c fun x => { x with run := r }
      (ch.cfg = none → t = s)
      ∧ ∀ k, ch.cfg = some k →
        ((s.point k.point).cfg = none ∨ s.columnOf (s.point k.point) = none → t = s)
        ∧ ∀ pc col, (s.point k.point).cfg = some pc → s.columnOf (s.point k.point) = some col →
          let e := columnEntry col s.wtr.band
          let guard : Int := s.line.nums.gOff
          let inBand (raw : Nat) : Prop :=
            let r := if k.invert then 4095 - raw else raw
            let v := max (-32768) (min 32767 (((r * k.mult / 256 : Nat) : Int) + k.offset))
            let tol := if ch.settle > 0 then 2 * e.tolerance else e.tolerance
            e.setpoint - tol ≤ v ∧ v ≤ e.setpoint + tol
          let live : Prop := ch.stale = false ∧ s.channelHears c = true
          let passes : Prop := live ∧ ∃ raw, ch.reading = .valid raw ∧ inBand raw
          let fails (cause : OffbandCause) : Prop :=
            match cause with
            | .stale => ¬(live ∧ ∃ raw, ch.reading = .valid raw)
            | .deviation => live ∧ ∃ raw, ch.reading = .valid raw ∧ ¬inBand raw
          let opens (cause : OffbandCause) (moved : Nat) : Prop :=
            (t.channel c).run = .opened 0
            ∧ (defectCount s.wmp.marks < 32 → (∀ m ∈ s.wmp.marks, m.holdsClaim .offband c = false) →
                ∃ m ∈ t.wmp.marks, m.kind = .offband ∧ m.seq = s.wmp.nextSeq ∧ m.start = pc.dist - moved - guard
                  ∧ m.claims = [{ kind := .offband, owner := c, pinned := pc.dist + guard }] ∧ m.lenient = true
                  ∧ m.payload = .offband c cause)
            ∧ (s.rif.routine.length < 48 →
                .notice (.offbandOpened c k.point cause ch.value e.setpoint e.tolerance) ∈ t.rif.routine)
          let closes : Prop :=
            (t.channel c).run = .clear ∧ (∀ m ∈ t.wmp.marks, m.holdsClaim .offband c = false)
            ∧ (s.rif.routine.length < 48 → .notice (.offbandClosed c k.point) ∈ t.rif.routine)
          (passes →
            (ch.run = .clear → t = s)
            ∧ (∀ n m, ch.run = .suspect n m → runs .clear)
            ∧ (∀ n, ch.run = .opened n → if k.confirm ≤ n + 1 then closes else runs (.opened (n + 1))))
          ∧ ∀ cause, fails cause →
            (ch.run = .clear → if k.confirm ≤ 1 then opens cause 0 else runs (.suspect 1 0))
            ∧ (∀ n m, ch.run = .suspect n m → if k.confirm ≤ n + 1 then opens cause m else runs (.suspect (n + 1) m))
            ∧ (∀ n, ch.run = .opened n → runs (.opened 0))

/-! ### What the blocks compute -/

/-- The raw delta is the difference of the counts modulo 65,536, read as a signed value; the new count becomes the last feed
count whatever the jump clamp and the debt make of the delta. -/
def Obligations.FeedDeltaIsTheSignedDifference : Prop :=
  (∀ last new : FeedCount,
    let x := (new.toNat + 65536 - last.toNat) % 65536
    feedDelta last new = if x ≤ 32767 then (x : Int) else (x : Int) - 65536)
  ∧ ∀ (s : State) (n : Nat) (c : FeedCount), (s.takeFeed n (some c)).1.wtr.lastCount = c

/-- Settling the encoder debt loses no count: what goes forward less what stays owed is the delta less what was owed, nothing
goes forward while anything is owed, and the debt is at most 255; a debt that would pass 255 becomes 0 and is reported. -/
def Obligations.EncoderDebtLosesNoCount : Prop :=
  ∀ (debt : Nat) (d : Int), debt ≤ 255 →
    let x := settleDebt debt d
    x.debt ≤ 255
    ∧ (x.reverse = none → (x.count : Int) - x.debt = d - debt ∧ (x.count = 0 ∨ x.debt = 0))
    ∧ (∀ n, x.reverse = some n → 255 < n ∧ (n : Int) = debt - d ∧ x.count = 0 ∧ x.debt = 0)
    ∧ (x.reverse.isSome = true ↔ 255 < (debt : Int) - d)

/-- The carried remainder loses nothing: over any run of effective counts, the advances and the final remainder make up the
exact scaled sum, so the advances differ from it by less than one web unit. -/
def Obligations.AdvancesDoNotDrift : Prop :=
  ∀ (scale remainder : Nat) (counts : List Nat),
    (feedRun scale remainder counts).1 * 65536 + (feedRun scale remainder counts).2
      = remainder + counts.sum * scale
    ∧ (remainder < 65536 → (feedRun scale remainder counts).2 < 65536)

/-- Each cycle telegram writes a zero for each missed cycle and then its own advance: the history holds the sixteen most
recent ring cycles, the fill counts the entries up to sixteen, and V is their sum once the history is filled and 0
before. -/
def Obligations.HistoryHoldsSixteenCycles : Prop :=
  ∀ (s : State) (n a : Nat), s.wtr.FeedOk →
    let w := (s.takeHistory n a).wtr
    w.history = (s.wtr.history ++ List.replicate n 0 ++ [a]).drop (n + 1)
    ∧ w.history.length = 16 ∧ w.fill = min 16 (s.wtr.fill + n + 1)
    ∧ w.speedSum = (if w.fill = 16 then w.history.sum else 0)
    ∧ (s.takeHistory n a) = { s with wtr := w } ∧ w.band = s.wtr.band ∧ w.reasons = s.wtr.reasons

/-- After each update of V the band moves by at most one step, by the table of thresholds. -/
def Obligations.BandMovesOneStep : Prop :=
  ∀ (c : LineNumbers) (v : Nat),
    (bandAfter c v .crawl = if c.uLow ≤ v then .low else .crawl)
    ∧ (bandAfter c v .low = if c.uMid ≤ v then .mid else if v < c.dLow then .crawl else .low)
    ∧ (bandAfter c v .mid = if c.uHigh ≤ v then .high else if v < c.dMid then .low else .mid)
    ∧ (bandAfter c v .high = if v < c.dHigh then .mid else .high)
    ∧ (∀ (s : State) (n a : Nat), s.line.nums = c → (s.takeHistory n a).wtr.speedSum = v →
        (s.takeBand n a).wtr.band = bandAfter c v s.wtr.band)
    ∧ ∀ b, bandCode (bandAfter c v b) ≤ bandCode b + 1 ∧ bandCode b ≤ bandCode (bandAfter c v b) + 1

/-- The current request is the most restrictive of those carried in the reason set, NO_LIMIT for the empty set; the governing
reason is NONE under NO_LIMIT, and otherwise the first instance of the set that carries the current request. The set keeps
the order of the table of R16, and of the instance numbers within one reason, whatever is raised and dropped. -/
def Obligations.RequestIsTheMostRestrictive : Prop :=
  ∀ l : List Raised,
    (∀ r ∈ l, speedReqCode r.req ≤ speedReqCode (strongest l))
    ∧ (strongest l = .noLimit ∨ ∃ r ∈ l, r.req = strongest l)
    ∧ (strongest l = .noLimit → governingOf l = none)
    ∧ (strongest l ≠ .noLimit → ∃ a r b, l = a ++ r :: b ∧ r.req = strongest l
        ∧ (∀ x ∈ a, x.req ≠ strongest l) ∧ governingOf l = some (r.reason, r.inst))
    ∧ ((l.Pairwise fun x y => x.before y = true) →
        (∀ x, (addReason x l).Pairwise fun x y => x.before y = true)
        ∧ ∀ r i, (dropReason r i l).Pairwise fun x y => x.before y = true)

/-- A fault taken with none latched is latched with its detail and stamp and takes a running line to FAULTED, and a STOPPED
line stays STOPPED; a fault taken while one is latched leaves the latch and the line state, and is logged once as
following. A lost count, latched or following, leaves the map not valid and no purge armed. -/
def Obligations.FirstFaultIsLatched : Prop :=
  ∀ (s : State) (f : FaultReport),
    (s.lsc.latch = none →
      (s.takeFault f).lsc = { s.lsc with
        latch := some { code := f.code, detail := f.detail, stamp := s.stamp },
        seen := if s.lsc.seen.contains f.code then s.lsc.seen else s.lsc.seen ++ [f.code],
        state := if runsLine s.lsc.state then .faulted else s.lsc.state })
    ∧ (losesWeb f.code = true → (s.takeFault f).wmp.valid = false ∧ (s.takeFault f).wmp.armed = false)
    ∧ (s.lsc.latch.isSome = true → s.lsc.seen.contains f.code = false →
        let t := ({ s with lsc := { s.lsc with seen := s.lsc.seen ++ [f.code] } } : State).log
          (.fault f.code true f.detail)
        s.takeFault f = if losesWeb f.code then { t with wmp := { t.wmp with valid := false, armed := false } } else t)
    ∧ (s.lsc.latch.isSome = true → s.lsc.seen.contains f.code = true →
        s.takeFault f = if losesWeb f.code then { s with wmp := { s.wmp with valid := false, armed := false } } else s)
    ∧ (losesWeb f.code = true ↔ f.code = .encoderLost ∨ f.code = .encoderReverse ∨ f.code = .ringLost)

/-- A mark placed on a map in order of starts stands after every mark whose start is at or below its own and before every
mark whose start is above; the map stays in order, and keeps every mark it held. -/
def Obligations.MarksStandInOrder : Prop :=
  ∀ (m : Mark) (l : List Mark), (l.Pairwise fun x y => x.start ≤ y.start) →
    ∃ a b, l = a ++ b ∧ place m l = a ++ m :: b ∧ (∀ x ∈ a, x.start ≤ m.start) ∧ (∀ x ∈ b, m.start < x.start)
      ∧ (place m l).Pairwise fun x y => x.start ≤ y.start

/-- No defect is lost at an insertion, not even when the defect area is full and marks are merged: what lay in a defect mark's
zone still does, the new mark's zone does too unless its claim is already held, and there are at most 32 defect marks. -/
def Obligations.NoDefectIsLost : Prop :=
  ∀ (s : State) (m : Mark), s.wmp.MapOk → m.kind.isStructural = false →
    (∀ x, Covered s.wmp.marks x → Covered (s.insertDefect m).1.wmp.marks x)
    ∧ ((∀ c ∈ m.claims, ∀ y ∈ s.wmp.marks, y.holdsClaim c.kind c.owner = false) →
        ∀ x, m.start ≤ x → x < m.zoneEnd → Covered (s.insertDefect m).1.wmp.marks x)
    ∧ (s.insertDefect m).1.wmp.MapOk

/-- A sheet that the knife planner makes GOOD is of a segment with room, has its order's length, at least W_min above the
knife at its end, and overlaps no blocking zone: no mark that blocks for its order's quality class, and nothing at or above
its segment's closing boundary. A zone of length 0 overlaps nothing (the model's reading, assumption 18), and the length is the order's also where W_min is above
it (the model's choice, assumption 67). -/
def Obligations.GoodSheetsAvoidBlockingZones : Prop :=
  ∀ (s : State) (g : Segment) (x : Sheet), s.decideSheet g = x → x.disp = .good →
    s.lsc.state ≠ .threading ∧ 1 ≤ s.room g
    ∧ ∃ i r, g.order = some i ∧ (s.slot i).order = some r ∧ x.length = r.length
      ∧ (s.line.nums.wMin : Int) ≤ s.knp.front + x.length
      ∧ (∀ m ∈ s.wmp.marks, blocks m.kind m.lenient r.quality = true →
          (m.kind = .boundary ∧ some m.seq = g.closing) ∨
          zoneOverlaps m.start m.zoneEnd s.knp.front (s.knp.front + x.length) = false)
      ∧ (∀ m ∈ s.wmp.marks, m.kind = .boundary → some m.seq = g.closing → s.knp.front + x.length ≤ m.start)

/-- A CUT_DONE that names the oldest plan sets the cut edge to that plan's end corrected by the difference of the lengths, and
counts the cut to the plan's order by its outcome; the map and the stations stand. One that names another plan is handed as
KNIFE_SEQUENCE and changes nothing else. With no plan outstanding, a withdrawn plan's cut corrects the cut edge and the front
and plans nothing (the model's reading, assumption 36), with a DIVERT of cause WITHDRAWN queued and logged, whose record's
third field is 0 (the model's reading, assumption 13); and any other cut is handed as KNIFE_SEQUENCE once a plan has been sent
and discarded before. -/
def Obligations.CutDoneConfirmsTheOldestPlan : Prop :=
  ∀ (s : State) (seq actual : Nat),
    let t := s.cutDone seq actual
    (∀ p rest, s.knp.plans = p :: rest → p.seq = seq →
      t.knp.cutEdge = p.stop + (actual - p.length)
      ∧ (∀ i, p.order = some i → i ≤ 63 →
          let o := (s.slot i).count (p.outcome s.line.nums.miscut (actual - p.length))
          (t.slot i).goodConfirmed = o.goodConfirmed ∧ (t.slot i).waste = o.waste ∧ (t.slot i).noted = o.noted)
      ∧ t.wmp = s.wmp ∧ t.chg = s.chg ∧ t.spl = s.spl ∧ t.hgr = s.hgr ∧ t.lsc = s.lsc ∧ t.irt = s.irt ∧ t.line = s.line)
    ∧ (∀ p rest, s.knp.plans = p :: rest → p.seq ≠ seq → t = s.hand .knifeSequence (.two seq (some p.seq)))
    ∧ (s.knp.plans = [] →
        (∀ w, s.knp.withdrawn.find? (fun x => x.seq == seq) = some w →
          t.knp = { s.knp with cutEdge := w.stop + (actual - w.length), front := w.stop + (actual - w.length) }
          ∧ t.osq = s.osq ∧ t.stk = s.stk ∧ t.wmp = s.wmp
          ∧ t = (({ s with knp := t.knp } : State).queueUrgent (.divert w.seq .withdrawn)).log
              (.divert w.seq .withdrawn 0))
        ∧ ((∀ w ∈ s.knp.withdrawn, w.seq ≠ seq) →
          t = if s.knp.planSent then s.hand .knifeSequence (.two seq none) else s))

/-- A good cut raises its order's stack count; at the order's cuts per stack the count returns to 0, the next ordinal rises, and
a set-down for the stack joins the queue, or goes into the overflow with STACKER_BEHIND raised, or is discarded with
STACKER_OVERRUN handed. The other piles and the other blocks' tables stand. -/
def Obligations.FullStackMakesASetDown : Prop :=
  ∀ (s : State) (i : Nat) (r : OrderRec), i ≤ 63 → (s.slot i).order = some r →
    let p := s.pile i
    let t := s.countIntoStack i
    let d : SetDown := { slot := i, number := r.number, ordinal := p.next, cuts := r.perStack, final := false }
    (p.count + 1 ≠ r.perStack → t = s.onPile i fun _ => { count := p.count + 1, next := p.next })
    ∧ (p.count + 1 = r.perStack →
        t.pile i = { count := 0, next := p.next + 1 } ∧ (∀ j, j ≠ i → t.pile j = s.pile j)
        ∧ (s.stk.queue.length ≤ 1 → t.stk.queue = s.stk.queue ++ [d] ∧ t.stk.overflow = s.stk.overflow)
        ∧ (2 ≤ s.stk.queue.length → s.stk.overflow = none →
            t.stk.queue = s.stk.queue ∧ t.stk.overflow = some d ∧ t.holds .stackerBehind 0 = true)
        ∧ (2 ≤ s.stk.queue.length → s.stk.overflow.isSome = true →
            t.stk.queue = s.stk.queue ∧ t.stk.overflow = s.stk.overflow
            ∧ { code := .stackerOverrun, detail := .two r.number (some p.next) : FaultReport } ∈ t.handed)
        ∧ t.osq = s.osq ∧ t.knp = s.knp ∧ t.wmp = s.wmp ∧ t.chg = s.chg ∧ t.spl = s.spl ∧ t.hgr = s.hgr
        ∧ t.lsc = s.lsc ∧ t.irt = s.irt ∧ t.line = s.line)

/-- A record handed to the log is stored at the tail with the log counter as its number while there is room, in the oldest
one's stead in WRAP mode, and not at all in HALT mode, where the full flag is set; nothing else changes. -/
def Obligations.LogKeepsTheNewestOrTheOldest : Prop :=
  ∀ (s : State) (b : LogBody),
    let r : LogRecord := { number := s.plg.counter, stamp := s.stamp, body := b }
    (s.plg.records.length < 512 → s.log b = { s with plg := { s.plg with
        records := s.plg.records ++ [r], counter := (s.plg.counter + 1) % 65536 } })
    ∧ (512 ≤ s.plg.records.length → s.plg.mode = .wrap → s.log b = { s with plg := { s.plg with
        records := s.plg.records.drop 1 ++ [r], counter := (s.plg.counter + 1) % 65536 } })
    ∧ (512 ≤ s.plg.records.length → s.plg.mode = .halt → s.log b = { s with plg := { s.plg with full := true } })
    ∧ (s.plg.LogOk → (s.log b).plg.LogOk)

/-- In the routine queue and its overflow at most one SETPOINT waits for a point and one SLITTER_PRESET for a station, and a
newer one takes the waiting one's place. An item that replaces none joins the tail while fewer than 48 wait; at 48 a NOTICE is
discarded, and another item takes the place of the oldest NOTICE, or enters the empty overflow, or is discarded with
OUTBOUND_JAM, class ROUTINE, handed. -/
def Obligations.NewestSetpointReplacesTheWaitingOne : Prop :=
  ∀ (s : State) (o : OutItem), s.rif.OneEach →
    (s.queueRoutine o).rif.OneEach
    ∧ ((∃ x ∈ s.rif.routineItems, replaces o x = true) →
        (s.queueRoutine o).rif.routineItems = s.rif.routineItems.map (fun x => if replaces o x then o else x)
        ∧ (s.queueRoutine o).rif.routine.length = s.rif.routine.length
        ∧ s.queueRoutine o = { s with rif := (s.queueRoutine o).rif }
        ∧ (s.queueRoutine o).handed = s.handed)
    ∧ ((∀ x ∈ s.rif.routineItems, replaces o x = false) → s.rif.routine.length < 48 →
        s.queueRoutine o = { s with rif := { s.rif with routine := s.rif.routine ++ [o] } })
    ∧ ((∀ x ∈ s.rif.routineItems, replaces o x = false) → isNotice o = true → 48 ≤ s.rif.routine.length →
        s.queueRoutine o = s)
    ∧ ((∀ x ∈ s.rif.routineItems, replaces o x = false) → isNotice o = false → 48 ≤ s.rif.routine.length →
        (s.rif.routine.any isNotice = true →
          s.queueRoutine o = { s with rif := { s.rif with routine := s.rif.routine.eraseP isNotice ++ [o] } })
        ∧ (s.rif.routine.any isNotice = false → s.rif.overflow = none →
          s.queueRoutine o = { s with rif := { s.rif with overflow := some o } })
        ∧ (s.rif.routine.any isNotice = false → s.rif.overflow.isSome = true →
          s.queueRoutine o
            = { s with handed := s.handed ++ [{ code := .outboundJam, detail := .one 1 }] }))
end

