-- ==== Sys2Proof/Laws/State.lean ====
section
/-! SUPPORT. One lemma for each field of State and each update of a block, and for each field that an operation of
Machine/Ops.lean leaves alone. -/

namespace Sys2Proof.Machine

/-! ### Updates of one block -/

@[simp] theorem State.onWtr_line (s : State) (g : Wtr → Wtr) : (s.onWtr g).line = s.line := rfl
@[simp] theorem State.onWtr_wtr (s : State) (g : Wtr → Wtr) : (s.onWtr g).wtr = g s.wtr := rfl
@[simp] theorem State.onWtr_wmp (s : State) (g : Wtr → Wtr) : (s.onWtr g).wmp = s.wmp := rfl
@[simp] theorem State.onWtr_osq (s : State) (g : Wtr → Wtr) : (s.onWtr g).osq = s.osq := rfl
@[simp] theorem State.onWtr_chg (s : State) (g : Wtr → Wtr) : (s.onWtr g).chg = s.chg := rfl
@[simp] theorem State.onWtr_spl (s : State) (g : Wtr → Wtr) : (s.onWtr g).spl = s.spl := rfl
@[simp] theorem State.onWtr_hgr (s : State) (g : Wtr → Wtr) : (s.onWtr g).hgr = s.hgr := rfl
@[simp] theorem State.onWtr_knp (s : State) (g : Wtr → Wtr) : (s.onWtr g).knp = s.knp := rfl
@[simp] theorem State.onWtr_stk (s : State) (g : Wtr → Wtr) : (s.onWtr g).stk = s.stk := rfl
@[simp] theorem State.onWtr_plg (s : State) (g : Wtr → Wtr) : (s.onWtr g).plg = s.plg := rfl
@[simp] theorem State.onWtr_lsc (s : State) (g : Wtr → Wtr) : (s.onWtr g).lsc = s.lsc := rfl
@[simp] theorem State.onWtr_rif (s : State) (g : Wtr → Wtr) : (s.onWtr g).rif = s.rif := rfl
@[simp] theorem State.onWtr_irt (s : State) (g : Wtr → Wtr) : (s.onWtr g).irt = s.irt := rfl
@[simp] theorem State.onWtr_commStation (s : State) (g : Wtr → Wtr) : (s.onWtr g).commStation = s.commStation := rfl
@[simp] theorem State.onWtr_lineStop (s : State) (g : Wtr → Wtr) : (s.onWtr g).lineStop = s.lineStop := rfl
@[simp] theorem State.onWtr_handed (s : State) (g : Wtr → Wtr) : (s.onWtr g).handed = s.handed := rfl
@[simp] theorem State.onWtr_choices (s : State) (g : Wtr → Wtr) : (s.onWtr g).choices = s.choices := rfl
@[simp] theorem State.onWtr_passed (s : State) (g : Wtr → Wtr) : (s.onWtr g).passed = s.passed := rfl
@[simp] theorem State.onWtr_reply (s : State) (g : Wtr → Wtr) : (s.onWtr g).reply = s.reply := rfl
@[simp] theorem State.onWtr_pending (s : State) (g : Wtr → Wtr) : (s.onWtr g).pending = s.pending := rfl

@[simp] theorem State.onWmp_line (s : State) (g : Wmp → Wmp) : (s.onWmp g).line = s.line := rfl
@[simp] theorem State.onWmp_wtr (s : State) (g : Wmp → Wmp) : (s.onWmp g).wtr = s.wtr := rfl
@[simp] theorem State.onWmp_wmp (s : State) (g : Wmp → Wmp) : (s.onWmp g).wmp = g s.wmp := rfl
@[simp] theorem State.onWmp_osq (s : State) (g : Wmp → Wmp) : (s.onWmp g).osq = s.osq := rfl
@[simp] theorem State.onWmp_chg (s : State) (g : Wmp → Wmp) : (s.onWmp g).chg = s.chg := rfl
@[simp] theorem State.onWmp_spl (s : State) (g : Wmp → Wmp) : (s.onWmp g).spl = s.spl := rfl
@[simp] theorem State.onWmp_hgr (s : State) (g : Wmp → Wmp) : (s.onWmp g).hgr = s.hgr := rfl
@[simp] theorem State.onWmp_knp (s : State) (g : Wmp → Wmp) : (s.onWmp g).knp = s.knp := rfl
@[simp] theorem State.onWmp_stk (s : State) (g : Wmp → Wmp) : (s.onWmp g).stk = s.stk := rfl
@[simp] theorem State.onWmp_plg (s : State) (g : Wmp → Wmp) : (s.onWmp g).plg = s.plg := rfl
@[simp] theorem State.onWmp_lsc (s : State) (g : Wmp → Wmp) : (s.onWmp g).lsc = s.lsc := rfl
@[simp] theorem State.onWmp_rif (s : State) (g : Wmp → Wmp) : (s.onWmp g).rif = s.rif := rfl
@[simp] theorem State.onWmp_irt (s : State) (g : Wmp → Wmp) : (s.onWmp g).irt = s.irt := rfl
@[simp] theorem State.onWmp_commStation (s : State) (g : Wmp → Wmp) : (s.onWmp g).commStation = s.commStation := rfl
@[simp] theorem State.onWmp_lineStop (s : State) (g : Wmp → Wmp) : (s.onWmp g).lineStop = s.lineStop := rfl
@[simp] theorem State.onWmp_handed (s : State) (g : Wmp → Wmp) : (s.onWmp g).handed = s.handed := rfl
@[simp] theorem State.onWmp_choices (s : State) (g : Wmp → Wmp) : (s.onWmp g).choices = s.choices := rfl
@[simp] theorem State.onWmp_passed (s : State) (g : Wmp → Wmp) : (s.onWmp g).passed = s.passed := rfl
@[simp] theorem State.onWmp_reply (s : State) (g : Wmp → Wmp) : (s.onWmp g).reply = s.reply := rfl
@[simp] theorem State.onWmp_pending (s : State) (g : Wmp → Wmp) : (s.onWmp g).pending = s.pending := rfl

@[simp] theorem State.onOsq_line (s : State) (g : Osq → Osq) : (s.onOsq g).line = s.line := rfl
@[simp] theorem State.onOsq_wtr (s : State) (g : Osq → Osq) : (s.onOsq g).wtr = s.wtr := rfl
@[simp] theorem State.onOsq_wmp (s : State) (g : Osq → Osq) : (s.onOsq g).wmp = s.wmp := rfl
@[simp] theorem State.onOsq_osq (s : State) (g : Osq → Osq) : (s.onOsq g).osq = g s.osq := rfl
@[simp] theorem State.onOsq_chg (s : State) (g : Osq → Osq) : (s.onOsq g).chg = s.chg := rfl
@[simp] theorem State.onOsq_spl (s : State) (g : Osq → Osq) : (s.onOsq g).spl = s.spl := rfl
@[simp] theorem State.onOsq_hgr (s : State) (g : Osq → Osq) : (s.onOsq g).hgr = s.hgr := rfl
@[simp] theorem State.onOsq_knp (s : State) (g : Osq → Osq) : (s.onOsq g).knp = s.knp := rfl
@[simp] theorem State.onOsq_stk (s : State) (g : Osq → Osq) : (s.onOsq g).stk = s.stk := rfl
@[simp] theorem State.onOsq_plg (s : State) (g : Osq → Osq) : (s.onOsq g).plg = s.plg := rfl
@[simp] theorem State.onOsq_lsc (s : State) (g : Osq → Osq) : (s.onOsq g).lsc = s.lsc := rfl
@[simp] theorem State.onOsq_rif (s : State) (g : Osq → Osq) : (s.onOsq g).rif = s.rif := rfl
@[simp] theorem State.onOsq_irt (s : State) (g : Osq → Osq) : (s.onOsq g).irt = s.irt := rfl
@[simp] theorem State.onOsq_commStation (s : State) (g : Osq → Osq) : (s.onOsq g).commStation = s.commStation := rfl
@[simp] theorem State.onOsq_lineStop (s : State) (g : Osq → Osq) : (s.onOsq g).lineStop = s.lineStop := rfl
@[simp] theorem State.onOsq_handed (s : State) (g : Osq → Osq) : (s.onOsq g).handed = s.handed := rfl
@[simp] theorem State.onOsq_choices (s : State) (g : Osq → Osq) : (s.onOsq g).choices = s.choices := rfl
@[simp] theorem State.onOsq_passed (s : State) (g : Osq → Osq) : (s.onOsq g).passed = s.passed := rfl
@[simp] theorem State.onOsq_reply (s : State) (g : Osq → Osq) : (s.onOsq g).reply = s.reply := rfl
@[simp] theorem State.onOsq_pending (s : State) (g : Osq → Osq) : (s.onOsq g).pending = s.pending := rfl

@[simp] theorem State.onChg_line (s : State) (g : Chg → Chg) : (s.onChg g).line = s.line := rfl
@[simp] theorem State.onChg_wtr (s : State) (g : Chg → Chg) : (s.onChg g).wtr = s.wtr := rfl
@[simp] theorem State.onChg_wmp (s : State) (g : Chg → Chg) : (s.onChg g).wmp = s.wmp := rfl
@[simp] theorem State.onChg_osq (s : State) (g : Chg → Chg) : (s.onChg g).osq = s.osq := rfl
@[simp] theorem State.onChg_chg (s : State) (g : Chg → Chg) : (s.onChg g).chg = g s.chg := rfl
@[simp] theorem State.onChg_spl (s : State) (g : Chg → Chg) : (s.onChg g).spl = s.spl := rfl
@[simp] theorem State.onChg_hgr (s : State) (g : Chg → Chg) : (s.onChg g).hgr = s.hgr := rfl
@[simp] theorem State.onChg_knp (s : State) (g : Chg → Chg) : (s.onChg g).knp = s.knp := rfl
@[simp] theorem State.onChg_stk (s : State) (g : Chg → Chg) : (s.onChg g).stk = s.stk := rfl
@[simp] theorem State.onChg_plg (s : State) (g : Chg → Chg) : (s.onChg g).plg = s.plg := rfl
@[simp] theorem State.onChg_lsc (s : State) (g : Chg → Chg) : (s.onChg g).lsc = s.lsc := rfl
@[simp] theorem State.onChg_rif (s : State) (g : Chg → Chg) : (s.onChg g).rif = s.rif := rfl
@[simp] theorem State.onChg_irt (s : State) (g : Chg → Chg) : (s.onChg g).irt = s.irt := rfl
@[simp] theorem State.onChg_commStation (s : State) (g : Chg → Chg) : (s.onChg g).commStation = s.commStation := rfl
@[simp] theorem State.onChg_lineStop (s : State) (g : Chg → Chg) : (s.onChg g).lineStop = s.lineStop := rfl
@[simp] theorem State.onChg_handed (s : State) (g : Chg → Chg) : (s.onChg g).handed = s.handed := rfl
@[simp] theorem State.onChg_choices (s : State) (g : Chg → Chg) : (s.onChg g).choices = s.choices := rfl
@[simp] theorem State.onChg_passed (s : State) (g : Chg → Chg) : (s.onChg g).passed = s.passed := rfl
@[simp] theorem State.onChg_reply (s : State) (g : Chg → Chg) : (s.onChg g).reply = s.reply := rfl
@[simp] theorem State.onChg_pending (s : State) (g : Chg → Chg) : (s.onChg g).pending = s.pending := rfl

@[simp] theorem State.onSpl_line (s : State) (g : Spl → Spl) : (s.onSpl g).line = s.line := rfl
@[simp] theorem State.onSpl_wtr (s : State) (g : Spl → Spl) : (s.onSpl g).wtr = s.wtr := rfl
@[simp] theorem State.onSpl_wmp (s : State) (g : Spl → Spl) : (s.onSpl g).wmp = s.wmp := rfl
@[simp] theorem State.onSpl_osq (s : State) (g : Spl → Spl) : (s.onSpl g).osq = s.osq := rfl
@[simp] theorem State.onSpl_chg (s : State) (g : Spl → Spl) : (s.onSpl g).chg = s.chg := rfl
@[simp] theorem State.onSpl_spl (s : State) (g : Spl → Spl) : (s.onSpl g).spl = g s.spl := rfl
@[simp] theorem State.onSpl_hgr (s : State) (g : Spl → Spl) : (s.onSpl g).hgr = s.hgr := rfl
@[simp] theorem State.onSpl_knp (s : State) (g : Spl → Spl) : (s.onSpl g).knp = s.knp := rfl
@[simp] theorem State.onSpl_stk (s : State) (g : Spl → Spl) : (s.onSpl g).stk = s.stk := rfl
@[simp] theorem State.onSpl_plg (s : State) (g : Spl → Spl) : (s.onSpl g).plg = s.plg := rfl
@[simp] theorem State.onSpl_lsc (s : State) (g : Spl → Spl) : (s.onSpl g).lsc = s.lsc := rfl
@[simp] theorem State.onSpl_rif (s : State) (g : Spl → Spl) : (s.onSpl g).rif = s.rif := rfl
@[simp] theorem State.onSpl_irt (s : State) (g : Spl → Spl) : (s.onSpl g).irt = s.irt := rfl
@[simp] theorem State.onSpl_commStation (s : State) (g : Spl → Spl) : (s.onSpl g).commStation = s.commStation := rfl
@[simp] theorem State.onSpl_lineStop (s : State) (g : Spl → Spl) : (s.onSpl g).lineStop = s.lineStop := rfl
@[simp] theorem State.onSpl_handed (s : State) (g : Spl → Spl) : (s.onSpl g).handed = s.handed := rfl
@[simp] theorem State.onSpl_choices (s : State) (g : Spl → Spl) : (s.onSpl g).choices = s.choices := rfl
@[simp] theorem State.onSpl_passed (s : State) (g : Spl → Spl) : (s.onSpl g).passed = s.passed := rfl
@[simp] theorem State.onSpl_reply (s : State) (g : Spl → Spl) : (s.onSpl g).reply = s.reply := rfl
@[simp] theorem State.onSpl_pending (s : State) (g : Spl → Spl) : (s.onSpl g).pending = s.pending := rfl

@[simp] theorem State.onHgr_line (s : State) (g : Hgr → Hgr) : (s.onHgr g).line = s.line := rfl
@[simp] theorem State.onHgr_wtr (s : State) (g : Hgr → Hgr) : (s.onHgr g).wtr = s.wtr := rfl
@[simp] theorem State.onHgr_wmp (s : State) (g : Hgr → Hgr) : (s.onHgr g).wmp = s.wmp := rfl
@[simp] theorem State.onHgr_osq (s : State) (g : Hgr → Hgr) : (s.onHgr g).osq = s.osq := rfl
@[simp] theorem State.onHgr_chg (s : State) (g : Hgr → Hgr) : (s.onHgr g).chg = s.chg := rfl
@[simp] theorem State.onHgr_spl (s : State) (g : Hgr → Hgr) : (s.onHgr g).spl = s.spl := rfl
@[simp] theorem State.onHgr_hgr (s : State) (g : Hgr → Hgr) : (s.onHgr g).hgr = g s.hgr := rfl
@[simp] theorem State.onHgr_knp (s : State) (g : Hgr → Hgr) : (s.onHgr g).knp = s.knp := rfl
@[simp] theorem State.onHgr_stk (s : State) (g : Hgr → Hgr) : (s.onHgr g).stk = s.stk := rfl
@[simp] theorem State.onHgr_plg (s : State) (g : Hgr → Hgr) : (s.onHgr g).plg = s.plg := rfl
@[simp] theorem State.onHgr_lsc (s : State) (g : Hgr → Hgr) : (s.onHgr g).lsc = s.lsc := rfl
@[simp] theorem State.onHgr_rif (s : State) (g : Hgr → Hgr) : (s.onHgr g).rif = s.rif := rfl
@[simp] theorem State.onHgr_irt (s : State) (g : Hgr → Hgr) : (s.onHgr g).irt = s.irt := rfl
@[simp] theorem State.onHgr_commStation (s : State) (g : Hgr → Hgr) : (s.onHgr g).commStation = s.commStation := rfl
@[simp] theorem State.onHgr_lineStop (s : State) (g : Hgr → Hgr) : (s.onHgr g).lineStop = s.lineStop := rfl
@[simp] theorem State.onHgr_handed (s : State) (g : Hgr → Hgr) : (s.onHgr g).handed = s.handed := rfl
@[simp] theorem State.onHgr_choices (s : State) (g : Hgr → Hgr) : (s.onHgr g).choices = s.choices := rfl
@[simp] theorem State.onHgr_passed (s : State) (g : Hgr → Hgr) : (s.onHgr g).passed = s.passed := rfl
@[simp] theorem State.onHgr_reply (s : State) (g : Hgr → Hgr) : (s.onHgr g).reply = s.reply := rfl
@[simp] theorem State.onHgr_pending (s : State) (g : Hgr → Hgr) : (s.onHgr g).pending = s.pending := rfl

@[simp] theorem State.onKnp_line (s : State) (g : Knp → Knp) : (s.onKnp g).line = s.line := rfl
@[simp] theorem State.onKnp_wtr (s : State) (g : Knp → Knp) : (s.onKnp g).wtr = s.wtr := rfl
@[simp] theorem State.onKnp_wmp (s : State) (g : Knp → Knp) : (s.onKnp g).wmp = s.wmp := rfl
@[simp] theorem State.onKnp_osq (s : State) (g : Knp → Knp) : (s.onKnp g).osq = s.osq := rfl
@[simp] theorem State.onKnp_chg (s : State) (g : Knp → Knp) : (s.onKnp g).chg = s.chg := rfl
@[simp] theorem State.onKnp_spl (s : State) (g : Knp → Knp) : (s.onKnp g).spl = s.spl := rfl
@[simp] theorem State.onKnp_hgr (s : State) (g : Knp → Knp) : (s.onKnp g).hgr = s.hgr := rfl
@[simp] theorem State.onKnp_knp (s : State) (g : Knp → Knp) : (s.onKnp g).knp = g s.knp := rfl
@[simp] theorem State.onKnp_stk (s : State) (g : Knp → Knp) : (s.onKnp g).stk = s.stk := rfl
@[simp] theorem State.onKnp_plg (s : State) (g : Knp → Knp) : (s.onKnp g).plg = s.plg := rfl
@[simp] theorem State.onKnp_lsc (s : State) (g : Knp → Knp) : (s.onKnp g).lsc = s.lsc := rfl
@[simp] theorem State.onKnp_rif (s : State) (g : Knp → Knp) : (s.onKnp g).rif = s.rif := rfl
@[simp] theorem State.onKnp_irt (s : State) (g : Knp → Knp) : (s.onKnp g).irt = s.irt := rfl
@[simp] theorem State.onKnp_commStation (s : State) (g : Knp → Knp) : (s.onKnp g).commStation = s.commStation := rfl
@[simp] theorem State.onKnp_lineStop (s : State) (g : Knp → Knp) : (s.onKnp g).lineStop = s.lineStop := rfl
@[simp] theorem State.onKnp_handed (s : State) (g : Knp → Knp) : (s.onKnp g).handed = s.handed := rfl
@[simp] theorem State.onKnp_choices (s : State) (g : Knp → Knp) : (s.onKnp g).choices = s.choices := rfl
@[simp] theorem State.onKnp_passed (s : State) (g : Knp → Knp) : (s.onKnp g).passed = s.passed := rfl
@[simp] theorem State.onKnp_reply (s : State) (g : Knp → Knp) : (s.onKnp g).reply = s.reply := rfl
@[simp] theorem State.onKnp_pending (s : State) (g : Knp → Knp) : (s.onKnp g).pending = s.pending := rfl

@[simp] theorem State.onStk_line (s : State) (g : Stk → Stk) : (s.onStk g).line = s.line := rfl
@[simp] theorem State.onStk_wtr (s : State) (g : Stk → Stk) : (s.onStk g).wtr = s.wtr := rfl
@[simp] theorem State.onStk_wmp (s : State) (g : Stk → Stk) : (s.onStk g).wmp = s.wmp := rfl
@[simp] theorem State.onStk_osq (s : State) (g : Stk → Stk) : (s.onStk g).osq = s.osq := rfl
@[simp] theorem State.onStk_chg (s : State) (g : Stk → Stk) : (s.onStk g).chg = s.chg := rfl
@[simp] theorem State.onStk_spl (s : State) (g : Stk → Stk) : (s.onStk g).spl = s.spl := rfl
@[simp] theorem State.onStk_hgr (s : State) (g : Stk → Stk) : (s.onStk g).hgr = s.hgr := rfl
@[simp] theorem State.onStk_knp (s : State) (g : Stk → Stk) : (s.onStk g).knp = s.knp := rfl
@[simp] theorem State.onStk_stk (s : State) (g : Stk → Stk) : (s.onStk g).stk = g s.stk := rfl
@[simp] theorem State.onStk_plg (s : State) (g : Stk → Stk) : (s.onStk g).plg = s.plg := rfl
@[simp] theorem State.onStk_lsc (s : State) (g : Stk → Stk) : (s.onStk g).lsc = s.lsc := rfl
@[simp] theorem State.onStk_rif (s : State) (g : Stk → Stk) : (s.onStk g).rif = s.rif := rfl
@[simp] theorem State.onStk_irt (s : State) (g : Stk → Stk) : (s.onStk g).irt = s.irt := rfl
@[simp] theorem State.onStk_commStation (s : State) (g : Stk → Stk) : (s.onStk g).commStation = s.commStation := rfl
@[simp] theorem State.onStk_lineStop (s : State) (g : Stk → Stk) : (s.onStk g).lineStop = s.lineStop := rfl
@[simp] theorem State.onStk_handed (s : State) (g : Stk → Stk) : (s.onStk g).handed = s.handed := rfl
@[simp] theorem State.onStk_choices (s : State) (g : Stk → Stk) : (s.onStk g).choices = s.choices := rfl
@[simp] theorem State.onStk_passed (s : State) (g : Stk → Stk) : (s.onStk g).passed = s.passed := rfl
@[simp] theorem State.onStk_reply (s : State) (g : Stk → Stk) : (s.onStk g).reply = s.reply := rfl
@[simp] theorem State.onStk_pending (s : State) (g : Stk → Stk) : (s.onStk g).pending = s.pending := rfl

@[simp] theorem State.onPlg_line (s : State) (g : Plg → Plg) : (s.onPlg g).line = s.line := rfl
@[simp] theorem State.onPlg_wtr (s : State) (g : Plg → Plg) : (s.onPlg g).wtr = s.wtr := rfl
@[simp] theorem State.onPlg_wmp (s : State) (g : Plg → Plg) : (s.onPlg g).wmp = s.wmp := rfl
@[simp] theorem State.onPlg_osq (s : State) (g : Plg → Plg) : (s.onPlg g).osq = s.osq := rfl
@[simp] theorem State.onPlg_chg (s : State) (g : Plg → Plg) : (s.onPlg g).chg = s.chg := rfl
@[simp] theorem State.onPlg_spl (s : State) (g : Plg → Plg) : (s.onPlg g).spl = s.spl := rfl
@[simp] theorem State.onPlg_hgr (s : State) (g : Plg → Plg) : (s.onPlg g).hgr = s.hgr := rfl
@[simp] theorem State.onPlg_knp (s : State) (g : Plg → Plg) : (s.onPlg g).knp = s.knp := rfl
@[simp] theorem State.onPlg_stk (s : State) (g : Plg → Plg) : (s.onPlg g).stk = s.stk := rfl
@[simp] theorem State.onPlg_plg (s : State) (g : Plg → Plg) : (s.onPlg g).plg = g s.plg := rfl
@[simp] theorem State.onPlg_lsc (s : State) (g : Plg → Plg) : (s.onPlg g).lsc = s.lsc := rfl
@[simp] theorem State.onPlg_rif (s : State) (g : Plg → Plg) : (s.onPlg g).rif = s.rif := rfl
@[simp] theorem State.onPlg_irt (s : State) (g : Plg → Plg) : (s.onPlg g).irt = s.irt := rfl
@[simp] theorem State.onPlg_commStation (s : State) (g : Plg → Plg) : (s.onPlg g).commStation = s.commStation := rfl
@[simp] theorem State.onPlg_lineStop (s : State) (g : Plg → Plg) : (s.onPlg g).lineStop = s.lineStop := rfl
@[simp] theorem State.onPlg_handed (s : State) (g : Plg → Plg) : (s.onPlg g).handed = s.handed := rfl
@[simp] theorem State.onPlg_choices (s : State) (g : Plg → Plg) : (s.onPlg g).choices = s.choices := rfl
@[simp] theorem State.onPlg_passed (s : State) (g : Plg → Plg) : (s.onPlg g).passed = s.passed := rfl
@[simp] theorem State.onPlg_reply (s : State) (g : Plg → Plg) : (s.onPlg g).reply = s.reply := rfl
@[simp] theorem State.onPlg_pending (s : State) (g : Plg → Plg) : (s.onPlg g).pending = s.pending := rfl

@[simp] theorem State.onLsc_line (s : State) (g : Lsc → Lsc) : (s.onLsc g).line = s.line := rfl
@[simp] theorem State.onLsc_wtr (s : State) (g : Lsc → Lsc) : (s.onLsc g).wtr = s.wtr := rfl
@[simp] theorem State.onLsc_wmp (s : State) (g : Lsc → Lsc) : (s.onLsc g).wmp = s.wmp := rfl
@[simp] theorem State.onLsc_osq (s : State) (g : Lsc → Lsc) : (s.onLsc g).osq = s.osq := rfl
@[simp] theorem State.onLsc_chg (s : State) (g : Lsc → Lsc) : (s.onLsc g).chg = s.chg := rfl
@[simp] theorem State.onLsc_spl (s : State) (g : Lsc → Lsc) : (s.onLsc g).spl = s.spl := rfl
@[simp] theorem State.onLsc_hgr (s : State) (g : Lsc → Lsc) : (s.onLsc g).hgr = s.hgr := rfl
@[simp] theorem State.onLsc_knp (s : State) (g : Lsc → Lsc) : (s.onLsc g).knp = s.knp := rfl
@[simp] theorem State.onLsc_stk (s : State) (g : Lsc → Lsc) : (s.onLsc g).stk = s.stk := rfl
@[simp] theorem State.onLsc_plg (s : State) (g : Lsc → Lsc) : (s.onLsc g).plg = s.plg := rfl
@[simp] theorem State.onLsc_lsc (s : State) (g : Lsc → Lsc) : (s.onLsc g).lsc = g s.lsc := rfl
@[simp] theorem State.onLsc_rif (s : State) (g : Lsc → Lsc) : (s.onLsc g).rif = s.rif := rfl
@[simp] theorem State.onLsc_irt (s : State) (g : Lsc → Lsc) : (s.onLsc g).irt = s.irt := rfl
@[simp] theorem State.onLsc_commStation (s : State) (g : Lsc → Lsc) : (s.onLsc g).commStation = s.commStation := rfl
@[simp] theorem State.onLsc_lineStop (s : State) (g : Lsc → Lsc) : (s.onLsc g).lineStop = s.lineStop := rfl
@[simp] theorem State.onLsc_handed (s : State) (g : Lsc → Lsc) : (s.onLsc g).handed = s.handed := rfl
@[simp] theorem State.onLsc_choices (s : State) (g : Lsc → Lsc) : (s.onLsc g).choices = s.choices := rfl
@[simp] theorem State.onLsc_passed (s : State) (g : Lsc → Lsc) : (s.onLsc g).passed = s.passed := rfl
@[simp] theorem State.onLsc_reply (s : State) (g : Lsc → Lsc) : (s.onLsc g).reply = s.reply := rfl
@[simp] theorem State.onLsc_pending (s : State) (g : Lsc → Lsc) : (s.onLsc g).pending = s.pending := rfl

@[simp] theorem State.onRif_line (s : State) (g : Rif → Rif) : (s.onRif g).line = s.line := rfl
@[simp] theorem State.onRif_wtr (s : State) (g : Rif → Rif) : (s.onRif g).wtr = s.wtr := rfl
@[simp] theorem State.onRif_wmp (s : State) (g : Rif → Rif) : (s.onRif g).wmp = s.wmp := rfl
@[simp] theorem State.onRif_osq (s : State) (g : Rif → Rif) : (s.onRif g).osq = s.osq := rfl
@[simp] theorem State.onRif_chg (s : State) (g : Rif → Rif) : (s.onRif g).chg = s.chg := rfl
@[simp] theorem State.onRif_spl (s : State) (g : Rif → Rif) : (s.onRif g).spl = s.spl := rfl
@[simp] theorem State.onRif_hgr (s : State) (g : Rif → Rif) : (s.onRif g).hgr = s.hgr := rfl
@[simp] theorem State.onRif_knp (s : State) (g : Rif → Rif) : (s.onRif g).knp = s.knp := rfl
@[simp] theorem State.onRif_stk (s : State) (g : Rif → Rif) : (s.onRif g).stk = s.stk := rfl
@[simp] theorem State.onRif_plg (s : State) (g : Rif → Rif) : (s.onRif g).plg = s.plg := rfl
@[simp] theorem State.onRif_lsc (s : State) (g : Rif → Rif) : (s.onRif g).lsc = s.lsc := rfl
@[simp] theorem State.onRif_rif (s : State) (g : Rif → Rif) : (s.onRif g).rif = g s.rif := rfl
@[simp] theorem State.onRif_irt (s : State) (g : Rif → Rif) : (s.onRif g).irt = s.irt := rfl
@[simp] theorem State.onRif_commStation (s : State) (g : Rif → Rif) : (s.onRif g).commStation = s.commStation := rfl
@[simp] theorem State.onRif_lineStop (s : State) (g : Rif → Rif) : (s.onRif g).lineStop = s.lineStop := rfl
@[simp] theorem State.onRif_handed (s : State) (g : Rif → Rif) : (s.onRif g).handed = s.handed := rfl
@[simp] theorem State.onRif_choices (s : State) (g : Rif → Rif) : (s.onRif g).choices = s.choices := rfl
@[simp] theorem State.onRif_passed (s : State) (g : Rif → Rif) : (s.onRif g).passed = s.passed := rfl
@[simp] theorem State.onRif_reply (s : State) (g : Rif → Rif) : (s.onRif g).reply = s.reply := rfl
@[simp] theorem State.onRif_pending (s : State) (g : Rif → Rif) : (s.onRif g).pending = s.pending := rfl

@[simp] theorem State.onIrt_line (s : State) (g : Irt → Irt) : (s.onIrt g).line = s.line := rfl
@[simp] theorem State.onIrt_wtr (s : State) (g : Irt → Irt) : (s.onIrt g).wtr = s.wtr := rfl
@[simp] theorem State.onIrt_wmp (s : State) (g : Irt → Irt) : (s.onIrt g).wmp = s.wmp := rfl
@[simp] theorem State.onIrt_osq (s : State) (g : Irt → Irt) : (s.onIrt g).osq = s.osq := rfl
@[simp] theorem State.onIrt_chg (s : State) (g : Irt → Irt) : (s.onIrt g).chg = s.chg := rfl
@[simp] theorem State.onIrt_spl (s : State) (g : Irt → Irt) : (s.onIrt g).spl = s.spl := rfl
@[simp] theorem State.onIrt_hgr (s : State) (g : Irt → Irt) : (s.onIrt g).hgr = s.hgr := rfl
@[simp] theorem State.onIrt_knp (s : State) (g : Irt → Irt) : (s.onIrt g).knp = s.knp := rfl
@[simp] theorem State.onIrt_stk (s : State) (g : Irt → Irt) : (s.onIrt g).stk = s.stk := rfl
@[simp] theorem State.onIrt_plg (s : State) (g : Irt → Irt) : (s.onIrt g).plg = s.plg := rfl
@[simp] theorem State.onIrt_lsc (s : State) (g : Irt → Irt) : (s.onIrt g).lsc = s.lsc := rfl
@[simp] theorem State.onIrt_rif (s : State) (g : Irt → Irt) : (s.onIrt g).rif = s.rif := rfl
@[simp] theorem State.onIrt_irt (s : State) (g : Irt → Irt) : (s.onIrt g).irt = g s.irt := rfl
@[simp] theorem State.onIrt_commStation (s : State) (g : Irt → Irt) : (s.onIrt g).commStation = s.commStation := rfl
@[simp] theorem State.onIrt_lineStop (s : State) (g : Irt → Irt) : (s.onIrt g).lineStop = s.lineStop := rfl
@[simp] theorem State.onIrt_handed (s : State) (g : Irt → Irt) : (s.onIrt g).handed = s.handed := rfl
@[simp] theorem State.onIrt_choices (s : State) (g : Irt → Irt) : (s.onIrt g).choices = s.choices := rfl
@[simp] theorem State.onIrt_passed (s : State) (g : Irt → Irt) : (s.onIrt g).passed = s.passed := rfl
@[simp] theorem State.onIrt_reply (s : State) (g : Irt → Irt) : (s.onIrt g).reply = s.reply := rfl
@[simp] theorem State.onIrt_pending (s : State) (g : Irt → Irt) : (s.onIrt g).pending = s.pending := rfl

/-! ### What log leaves alone -/

theorem State.log_only (s : State) (b : LogBody) :
    ∃ (p : Plg), s.log b
      = { s with plg := p } := by
  unfold State.log; dsimp only; (repeat' split) <;> exact ⟨_, rfl⟩

@[simp] theorem State.log_line (s : State) (b : LogBody) :
    (s.log b).line = s.line := by
  obtain ⟨p, e⟩ := s.log_only b; rw [e]
@[simp] theorem State.log_wtr (s : State) (b : LogBody) :
    (s.log b).wtr = s.wtr := by
  obtain ⟨p, e⟩ := s.log_only b; rw [e]
@[simp] theorem State.log_wmp (s : State) (b : LogBody) :
    (s.log b).wmp = s.wmp := by
  obtain ⟨p, e⟩ := s.log_only b; rw [e]
@[simp] theorem State.log_osq (s : State) (b : LogBody) :
    (s.log b).osq = s.osq := by
  obtain ⟨p, e⟩ := s.log_only b; rw [e]
@[simp] theorem State.log_chg (s : State) (b : LogBody) :
    (s.log b).chg = s.chg := by
  obtain ⟨p, e⟩ := s.log_only b; rw [e]
@[simp] theorem State.log_spl (s : State) (b : LogBody) :
    (s.log b).spl = s.spl := by
  obtain ⟨p, e⟩ := s.log_only b; rw [e]
@[simp] theorem State.log_hgr (s : State) (b : LogBody) :
    (s.log b).hgr = s.hgr := by
  obtain ⟨p, e⟩ := s.log_only b; rw [e]
@[simp] theorem State.log_knp (s : State) (b : LogBody) :
    (s.log b).knp = s.knp := by
  obtain ⟨p, e⟩ := s.log_only b; rw [e]
@[simp] theorem State.log_stk (s : State) (b : LogBody) :
    (s.log b).stk = s.stk := by
  obtain ⟨p, e⟩ := s.log_only b; rw [e]
@[simp] theorem State.log_lsc (s : State) (b : LogBody) :
    (s.log b).lsc = s.lsc := by
  obtain ⟨p, e⟩ := s.log_only b; rw [e]
@[simp] theorem State.log_rif (s : State) (b : LogBody) :
    (s.log b).rif = s.rif := by
  obtain ⟨p, e⟩ := s.log_only b; rw [e]
@[simp] theorem State.log_irt (s : State) (b : LogBody) :
    (s.log b).irt = s.irt := by
  obtain ⟨p, e⟩ := s.log_only b; rw [e]
@[simp] theorem State.log_commStation (s : State) (b : LogBody) :
    (s.log b).commStation = s.commStation := by
  obtain ⟨p, e⟩ := s.log_only b; rw [e]
@[simp] theorem State.log_lineStop (s : State) (b : LogBody) :
    (s.log b).lineStop = s.lineStop := by
  obtain ⟨p, e⟩ := s.log_only b; rw [e]
@[simp] theorem State.log_handed (s : State) (b : LogBody) :
    (s.log b).handed = s.handed := by
  obtain ⟨p, e⟩ := s.log_only b; rw [e]
@[simp] theorem State.log_choices (s : State) (b : LogBody) :
    (s.log b).choices = s.choices := by
  obtain ⟨p, e⟩ := s.log_only b; rw [e]
@[simp] theorem State.log_passed (s : State) (b : LogBody) :
    (s.log b).passed = s.passed := by
  obtain ⟨p, e⟩ := s.log_only b; rw [e]
@[simp] theorem State.log_reply (s : State) (b : LogBody) :
    (s.log b).reply = s.reply := by
  obtain ⟨p, e⟩ := s.log_only b; rw [e]
@[simp] theorem State.log_pending (s : State) (b : LogBody) :
    (s.log b).pending = s.pending := by
  obtain ⟨p, e⟩ := s.log_only b; rw [e]

/-! ### What hand leaves alone -/

theorem State.hand_only (s : State) (c : FaultCode) (d : Detail) :
    ∃ (h : List FaultReport), s.hand c d
      = { s with handed := h } := by
  exact ⟨_, rfl⟩

@[simp] theorem State.hand_line (s : State) (c : FaultCode) (d : Detail) :
    (s.hand c d).line = s.line := by
  obtain ⟨h, e⟩ := s.hand_only c d; rw [e]
@[simp] theorem State.hand_wtr (s : State) (c : FaultCode) (d : Detail) :
    (s.hand c d).wtr = s.wtr := by
  obtain ⟨h, e⟩ := s.hand_only c d; rw [e]
@[simp] theorem State.hand_wmp (s : State) (c : FaultCode) (d : Detail) :
    (s.hand c d).wmp = s.wmp := by
  obtain ⟨h, e⟩ := s.hand_only c d; rw [e]
@[simp] theorem State.hand_osq (s : State) (c : FaultCode) (d : Detail) :
    (s.hand c d).osq = s.osq := by
  obtain ⟨h, e⟩ := s.hand_only c d; rw [e]
@[simp] theorem State.hand_chg (s : State) (c : FaultCode) (d : Detail) :
    (s.hand c d).chg = s.chg := by
  obtain ⟨h, e⟩ := s.hand_only c d; rw [e]
@[simp] theorem State.hand_spl (s : State) (c : FaultCode) (d : Detail) :
    (s.hand c d).spl = s.spl := by
  obtain ⟨h, e⟩ := s.hand_only c d; rw [e]
@[simp] theorem State.hand_hgr (s : State) (c : FaultCode) (d : Detail) :
    (s.hand c d).hgr = s.hgr := by
  obtain ⟨h, e⟩ := s.hand_only c d; rw [e]
@[simp] theorem State.hand_knp (s : State) (c : FaultCode) (d : Detail) :
    (s.hand c d).knp = s.knp := by
  obtain ⟨h, e⟩ := s.hand_only c d; rw [e]
@[simp] theorem State.hand_stk (s : State) (c : FaultCode) (d : Detail) :
    (s.hand c d).stk = s.stk := by
  obtain ⟨h, e⟩ := s.hand_only c d; rw [e]
@[simp] theorem State.hand_plg (s : State) (c : FaultCode) (d : Detail) :
    (s.hand c d).plg = s.plg := by
  obtain ⟨h, e⟩ := s.hand_only c d; rw [e]
@[simp] theorem State.hand_lsc (s : State) (c : FaultCode) (d : Detail) :
    (s.hand c d).lsc = s.lsc := by
  obtain ⟨h, e⟩ := s.hand_only c d; rw [e]
@[simp] theorem State.hand_rif (s : State) (c : FaultCode) (d : Detail) :
    (s.hand c d).rif = s.rif := by
  obtain ⟨h, e⟩ := s.hand_only c d; rw [e]
@[simp] theorem State.hand_irt (s : State) (c : FaultCode) (d : Detail) :
    (s.hand c d).irt = s.irt := by
  obtain ⟨h, e⟩ := s.hand_only c d; rw [e]
@[simp] theorem State.hand_commStation (s : State) (c : FaultCode) (d : Detail) :
    (s.hand c d).commStation = s.commStation := by
  obtain ⟨h, e⟩ := s.hand_only c d; rw [e]
@[simp] theorem State.hand_lineStop (s : State) (c : FaultCode) (d : Detail) :
    (s.hand c d).lineStop = s.lineStop := by
  obtain ⟨h, e⟩ := s.hand_only c d; rw [e]
@[simp] theorem State.hand_choices (s : State) (c : FaultCode) (d : Detail) :
    (s.hand c d).choices = s.choices := by
  obtain ⟨h, e⟩ := s.hand_only c d; rw [e]
@[simp] theorem State.hand_passed (s : State) (c : FaultCode) (d : Detail) :
    (s.hand c d).passed = s.passed := by
  obtain ⟨h, e⟩ := s.hand_only c d; rw [e]
@[simp] theorem State.hand_reply (s : State) (c : FaultCode) (d : Detail) :
    (s.hand c d).reply = s.reply := by
  obtain ⟨h, e⟩ := s.hand_only c d; rw [e]
@[simp] theorem State.hand_pending (s : State) (c : FaultCode) (d : Detail) :
    (s.hand c d).pending = s.pending := by
  obtain ⟨h, e⟩ := s.hand_only c d; rw [e]

/-! ### What queueUrgent leaves alone -/

theorem State.queueUrgent_only (s : State) (o : OutItem) :
    ∃ (k : Rif) (h : List FaultReport), s.queueUrgent o
      = { s with rif := k, handed := h } := by
  unfold State.queueUrgent; split <;> exact ⟨_, _, rfl⟩

@[simp] theorem State.queueUrgent_line (s : State) (o : OutItem) :
    (s.queueUrgent o).line = s.line := by
  obtain ⟨k, h, e⟩ := s.queueUrgent_only o; rw [e]
@[simp] theorem State.queueUrgent_wtr (s : State) (o : OutItem) :
    (s.queueUrgent o).wtr = s.wtr := by
  obtain ⟨k, h, e⟩ := s.queueUrgent_only o; rw [e]
@[simp] theorem State.queueUrgent_wmp (s : State) (o : OutItem) :
    (s.queueUrgent o).wmp = s.wmp := by
  obtain ⟨k, h, e⟩ := s.queueUrgent_only o; rw [e]
@[simp] theorem State.queueUrgent_osq (s : State) (o : OutItem) :
    (s.queueUrgent o).osq = s.osq := by
  obtain ⟨k, h, e⟩ := s.queueUrgent_only o; rw [e]
@[simp] theorem State.queueUrgent_chg (s : State) (o : OutItem) :
    (s.queueUrgent o).chg = s.chg := by
  obtain ⟨k, h, e⟩ := s.queueUrgent_only o; rw [e]
@[simp] theorem State.queueUrgent_spl (s : State) (o : OutItem) :
    (s.queueUrgent o).spl = s.spl := by
  obtain ⟨k, h, e⟩ := s.queueUrgent_only o; rw [e]
@[simp] theorem State.queueUrgent_hgr (s : State) (o : OutItem) :
    (s.queueUrgent o).hgr = s.hgr := by
  obtain ⟨k, h, e⟩ := s.queueUrgent_only o; rw [e]
@[simp] theorem State.queueUrgent_knp (s : State) (o : OutItem) :
    (s.queueUrgent o).knp = s.knp := by
  obtain ⟨k, h, e⟩ := s.queueUrgent_only o; rw [e]
@[simp] theorem State.queueUrgent_stk (s : State) (o : OutItem) :
    (s.queueUrgent o).stk = s.stk := by
  obtain ⟨k, h, e⟩ := s.queueUrgent_only o; rw [e]
@[simp] theorem State.queueUrgent_plg (s : State) (o : OutItem) :
    (s.queueUrgent o).plg = s.plg := by
  obtain ⟨k, h, e⟩ := s.queueUrgent_only o; rw [e]
@[simp] theorem State.queueUrgent_lsc (s : State) (o : OutItem) :
    (s.queueUrgent o).lsc = s.lsc := by
  obtain ⟨k, h, e⟩ := s.queueUrgent_only o; rw [e]
@[simp] theorem State.queueUrgent_irt (s : State) (o : OutItem) :
    (s.queueUrgent o).irt = s.irt := by
  obtain ⟨k, h, e⟩ := s.queueUrgent_only o; rw [e]
@[simp] theorem State.queueUrgent_commStation (s : State) (o : OutItem) :
    (s.queueUrgent o).commStation = s.commStation := by
  obtain ⟨k, h, e⟩ := s.queueUrgent_only o; rw [e]
@[simp] theorem State.queueUrgent_lineStop (s : State) (o : OutItem) :
    (s.queueUrgent o).lineStop = s.lineStop := by
  obtain ⟨k, h, e⟩ := s.queueUrgent_only o; rw [e]
@[simp] theorem State.queueUrgent_choices (s : State) (o : OutItem) :
    (s.queueUrgent o).choices = s.choices := by
  obtain ⟨k, h, e⟩ := s.queueUrgent_only o; rw [e]
@[simp] theorem State.queueUrgent_passed (s : State) (o : OutItem) :
    (s.queueUrgent o).passed = s.passed := by
  obtain ⟨k, h, e⟩ := s.queueUrgent_only o; rw [e]
@[simp] theorem State.queueUrgent_reply (s : State) (o : OutItem) :
    (s.queueUrgent o).reply = s.reply := by
  obtain ⟨k, h, e⟩ := s.queueUrgent_only o; rw [e]
@[simp] theorem State.queueUrgent_pending (s : State) (o : OutItem) :
    (s.queueUrgent o).pending = s.pending := by
  obtain ⟨k, h, e⟩ := s.queueUrgent_only o; rw [e]

/-! ### What queueRoutine leaves alone -/

theorem State.queueRoutine_only (s : State) (o : OutItem) :
    ∃ (k : Rif) (h : List FaultReport), s.queueRoutine o
      = { s with rif := k, handed := h } := by
  unfold State.queueRoutine; (repeat' split) <;> exact ⟨_, _, rfl⟩

@[simp] theorem State.queueRoutine_line (s : State) (o : OutItem) :
    (s.queueRoutine o).line = s.line := by
  obtain ⟨k, h, e⟩ := s.queueRoutine_only o; rw [e]
@[simp] theorem State.queueRoutine_wtr (s : State) (o : OutItem) :
    (s.queueRoutine o).wtr = s.wtr := by
  obtain ⟨k, h, e⟩ := s.queueRoutine_only o; rw [e]
@[simp] theorem State.queueRoutine_wmp (s : State) (o : OutItem) :
    (s.queueRoutine o).wmp = s.wmp := by
  obtain ⟨k, h, e⟩ := s.queueRoutine_only o; rw [e]
@[simp] theorem State.queueRoutine_osq (s : State) (o : OutItem) :
    (s.queueRoutine o).osq = s.osq := by
  obtain ⟨k, h, e⟩ := s.queueRoutine_only o; rw [e]
@[simp] theorem State.queueRoutine_chg (s : State) (o : OutItem) :
    (s.queueRoutine o).chg = s.chg := by
  obtain ⟨k, h, e⟩ := s.queueRoutine_only o; rw [e]
@[simp] theorem State.queueRoutine_spl (s : State) (o : OutItem) :
    (s.queueRoutine o).spl = s.spl := by
  obtain ⟨k, h, e⟩ := s.queueRoutine_only o; rw [e]
@[simp] theorem State.queueRoutine_hgr (s : State) (o : OutItem) :
    (s.queueRoutine o).hgr = s.hgr := by
  obtain ⟨k, h, e⟩ := s.queueRoutine_only o; rw [e]
@[simp] theorem State.queueRoutine_knp (s : State) (o : OutItem) :
    (s.queueRoutine o).knp = s.knp := by
  obtain ⟨k, h, e⟩ := s.queueRoutine_only o; rw [e]
@[simp] theorem State.queueRoutine_stk (s : State) (o : OutItem) :
    (s.queueRoutine o).stk = s.stk := by
  obtain ⟨k, h, e⟩ := s.queueRoutine_only o; rw [e]
@[simp] theorem State.queueRoutine_plg (s : State) (o : OutItem) :
    (s.queueRoutine o).plg = s.plg := by
  obtain ⟨k, h, e⟩ := s.queueRoutine_only o; rw [e]
@[simp] theorem State.queueRoutine_lsc (s : State) (o : OutItem) :
    (s.queueRoutine o).lsc = s.lsc := by
  obtain ⟨k, h, e⟩ := s.queueRoutine_only o; rw [e]
@[simp] theorem State.queueRoutine_irt (s : State) (o : OutItem) :
    (s.queueRoutine o).irt = s.irt := by
  obtain ⟨k, h, e⟩ := s.queueRoutine_only o; rw [e]
@[simp] theorem State.queueRoutine_commStation (s : State) (o : OutItem) :
    (s.queueRoutine o).commStation = s.commStation := by
  obtain ⟨k, h, e⟩ := s.queueRoutine_only o; rw [e]
@[simp] theorem State.queueRoutine_lineStop (s : State) (o : OutItem) :
    (s.queueRoutine o).lineStop = s.lineStop := by
  obtain ⟨k, h, e⟩ := s.queueRoutine_only o; rw [e]
@[simp] theorem State.queueRoutine_choices (s : State) (o : OutItem) :
    (s.queueRoutine o).choices = s.choices := by
  obtain ⟨k, h, e⟩ := s.queueRoutine_only o; rw [e]
@[simp] theorem State.queueRoutine_passed (s : State) (o : OutItem) :
    (s.queueRoutine o).passed = s.passed := by
  obtain ⟨k, h, e⟩ := s.queueRoutine_only o; rw [e]
@[simp] theorem State.queueRoutine_reply (s : State) (o : OutItem) :
    (s.queueRoutine o).reply = s.reply := by
  obtain ⟨k, h, e⟩ := s.queueRoutine_only o; rw [e]
@[simp] theorem State.queueRoutine_pending (s : State) (o : OutItem) :
    (s.queueRoutine o).pending = s.pending := by
  obtain ⟨k, h, e⟩ := s.queueRoutine_only o; rw [e]

/-! ### What notify leaves alone -/

theorem State.notify_only (s : State) (n : Notice) :
    ∃ (k : Rif) (h : List FaultReport), s.notify n
      = { s with rif := k, handed := h } := by
  exact s.queueRoutine_only _

@[simp] theorem State.notify_line (s : State) (n : Notice) :
    (s.notify n).line = s.line := by
  obtain ⟨k, h, e⟩ := s.notify_only n; rw [e]
@[simp] theorem State.notify_wtr (s : State) (n : Notice) :
    (s.notify n).wtr = s.wtr := by
  obtain ⟨k, h, e⟩ := s.notify_only n; rw [e]
@[simp] theorem State.notify_wmp (s : State) (n : Notice) :
    (s.notify n).wmp = s.wmp := by
  obtain ⟨k, h, e⟩ := s.notify_only n; rw [e]
@[simp] theorem State.notify_osq (s : State) (n : Notice) :
    (s.notify n).osq = s.osq := by
  obtain ⟨k, h, e⟩ := s.notify_only n; rw [e]
@[simp] theorem State.notify_chg (s : State) (n : Notice) :
    (s.notify n).chg = s.chg := by
  obtain ⟨k, h, e⟩ := s.notify_only n; rw [e]
@[simp] theorem State.notify_spl (s : State) (n : Notice) :
    (s.notify n).spl = s.spl := by
  obtain ⟨k, h, e⟩ := s.notify_only n; rw [e]
@[simp] theorem State.notify_hgr (s : State) (n : Notice) :
    (s.notify n).hgr = s.hgr := by
  obtain ⟨k, h, e⟩ := s.notify_only n; rw [e]
@[simp] theorem State.notify_knp (s : State) (n : Notice) :
    (s.notify n).knp = s.knp := by
  obtain ⟨k, h, e⟩ := s.notify_only n; rw [e]
@[simp] theorem State.notify_stk (s : State) (n : Notice) :
    (s.notify n).stk = s.stk := by
  obtain ⟨k, h, e⟩ := s.notify_only n; rw [e]
@[simp] theorem State.notify_plg (s : State) (n : Notice) :
    (s.notify n).plg = s.plg := by
  obtain ⟨k, h, e⟩ := s.notify_only n; rw [e]
@[simp] theorem State.notify_lsc (s : State) (n : Notice) :
    (s.notify n).lsc = s.lsc := by
  obtain ⟨k, h, e⟩ := s.notify_only n; rw [e]
@[simp] theorem State.notify_irt (s : State) (n : Notice) :
    (s.notify n).irt = s.irt := by
  obtain ⟨k, h, e⟩ := s.notify_only n; rw [e]
@[simp] theorem State.notify_commStation (s : State) (n : Notice) :
    (s.notify n).commStation = s.commStation := by
  obtain ⟨k, h, e⟩ := s.notify_only n; rw [e]
@[simp] theorem State.notify_lineStop (s : State) (n : Notice) :
    (s.notify n).lineStop = s.lineStop := by
  obtain ⟨k, h, e⟩ := s.notify_only n; rw [e]
@[simp] theorem State.notify_choices (s : State) (n : Notice) :
    (s.notify n).choices = s.choices := by
  obtain ⟨k, h, e⟩ := s.notify_only n; rw [e]
@[simp] theorem State.notify_passed (s : State) (n : Notice) :
    (s.notify n).passed = s.passed := by
  obtain ⟨k, h, e⟩ := s.notify_only n; rw [e]
@[simp] theorem State.notify_reply (s : State) (n : Notice) :
    (s.notify n).reply = s.reply := by
  obtain ⟨k, h, e⟩ := s.notify_only n; rw [e]
@[simp] theorem State.notify_pending (s : State) (n : Notice) :
    (s.notify n).pending = s.pending := by
  obtain ⟨k, h, e⟩ := s.notify_only n; rw [e]

/-! ### What syncLineStop leaves alone -/

theorem State.syncLineStop_only (s : State) :
    ∃ (z : Bool), s.syncLineStop
      = { s with lineStop := z } := by
  exact ⟨_, rfl⟩

@[simp] theorem State.syncLineStop_line (s : State) :
    (s.syncLineStop).line = s.line := by
  obtain ⟨z, e⟩ := s.syncLineStop_only; rw [e]
@[simp] theorem State.syncLineStop_wtr (s : State) :
    (s.syncLineStop).wtr = s.wtr := by
  obtain ⟨z, e⟩ := s.syncLineStop_only; rw [e]
@[simp] theorem State.syncLineStop_wmp (s : State) :
    (s.syncLineStop).wmp = s.wmp := by
  obtain ⟨z, e⟩ := s.syncLineStop_only; rw [e]
@[simp] theorem State.syncLineStop_osq (s : State) :
    (s.syncLineStop).osq = s.osq := by
  obtain ⟨z, e⟩ := s.syncLineStop_only; rw [e]
@[simp] theorem State.syncLineStop_chg (s : State) :
    (s.syncLineStop).chg = s.chg := by
  obtain ⟨z, e⟩ := s.syncLineStop_only; rw [e]
@[simp] theorem State.syncLineStop_spl (s : State) :
    (s.syncLineStop).spl = s.spl := by
  obtain ⟨z, e⟩ := s.syncLineStop_only; rw [e]
@[simp] theorem State.syncLineStop_hgr (s : State) :
    (s.syncLineStop).hgr = s.hgr := by
  obtain ⟨z, e⟩ := s.syncLineStop_only; rw [e]
@[simp] theorem State.syncLineStop_knp (s : State) :
    (s.syncLineStop).knp = s.knp := by
  obtain ⟨z, e⟩ := s.syncLineStop_only; rw [e]
@[simp] theorem State.syncLineStop_stk (s : State) :
    (s.syncLineStop).stk = s.stk := by
  obtain ⟨z, e⟩ := s.syncLineStop_only; rw [e]
@[simp] theorem State.syncLineStop_plg (s : State) :
    (s.syncLineStop).plg = s.plg := by
  obtain ⟨z, e⟩ := s.syncLineStop_only; rw [e]
@[simp] theorem State.syncLineStop_lsc (s : State) :
    (s.syncLineStop).lsc = s.lsc := by
  obtain ⟨z, e⟩ := s.syncLineStop_only; rw [e]
@[simp] theorem State.syncLineStop_rif (s : State) :
    (s.syncLineStop).rif = s.rif := by
  obtain ⟨z, e⟩ := s.syncLineStop_only; rw [e]
@[simp] theorem State.syncLineStop_irt (s : State) :
    (s.syncLineStop).irt = s.irt := by
  obtain ⟨z, e⟩ := s.syncLineStop_only; rw [e]
@[simp] theorem State.syncLineStop_commStation (s : State) :
    (s.syncLineStop).commStation = s.commStation := by
  obtain ⟨z, e⟩ := s.syncLineStop_only; rw [e]
@[simp] theorem State.syncLineStop_handed (s : State) :
    (s.syncLineStop).handed = s.handed := by
  obtain ⟨z, e⟩ := s.syncLineStop_only; rw [e]
@[simp] theorem State.syncLineStop_choices (s : State) :
    (s.syncLineStop).choices = s.choices := by
  obtain ⟨z, e⟩ := s.syncLineStop_only; rw [e]
@[simp] theorem State.syncLineStop_passed (s : State) :
    (s.syncLineStop).passed = s.passed := by
  obtain ⟨z, e⟩ := s.syncLineStop_only; rw [e]
@[simp] theorem State.syncLineStop_reply (s : State) :
    (s.syncLineStop).reply = s.reply := by
  obtain ⟨z, e⟩ := s.syncLineStop_only; rw [e]
@[simp] theorem State.syncLineStop_pending (s : State) :
    (s.syncLineStop).pending = s.pending := by
  obtain ⟨z, e⟩ := s.syncLineStop_only; rw [e]

/-! ### What sendSpeedRequest leaves alone -/

theorem State.sendSpeedRequest_only (s : State) (c : SpeedCause) :
    ∃ (w : Wtr) (k : Rif) (h : List FaultReport), s.sendSpeedRequest c
      = { s with wtr := w, rif := k, handed := h } := by
  unfold State.sendSpeedRequest; dsimp only; split
  · exact ⟨_, _, _, rfl⟩
  · obtain ⟨r, h, e⟩ := (s.onWtr fun w => { w with refresh := 64 }).queueUrgent_only
      (.speedRequest s.wtr.request s.wtr.governing s.wtr.band s.wtr.speedSum c)
    exact ⟨_, _, _, e⟩

@[simp] theorem State.sendSpeedRequest_line (s : State) (c : SpeedCause) :
    (s.sendSpeedRequest c).line = s.line := by
  obtain ⟨w, k, h, e⟩ := s.sendSpeedRequest_only c; rw [e]
@[simp] theorem State.sendSpeedRequest_wmp (s : State) (c : SpeedCause) :
    (s.sendSpeedRequest c).wmp = s.wmp := by
  obtain ⟨w, k, h, e⟩ := s.sendSpeedRequest_only c; rw [e]
@[simp] theorem State.sendSpeedRequest_osq (s : State) (c : SpeedCause) :
    (s.sendSpeedRequest c).osq = s.osq := by
  obtain ⟨w, k, h, e⟩ := s.sendSpeedRequest_only c; rw [e]
@[simp] theorem State.sendSpeedRequest_chg (s : State) (c : SpeedCause) :
    (s.sendSpeedRequest c).chg = s.chg := by
  obtain ⟨w, k, h, e⟩ := s.sendSpeedRequest_only c; rw [e]
@[simp] theorem State.sendSpeedRequest_spl (s : State) (c : SpeedCause) :
    (s.sendSpeedRequest c).spl = s.spl := by
  obtain ⟨w, k, h, e⟩ := s.sendSpeedRequest_only c; rw [e]
@[simp] theorem State.sendSpeedRequest_hgr (s : State) (c : SpeedCause) :
    (s.sendSpeedRequest c).hgr = s.hgr := by
  obtain ⟨w, k, h, e⟩ := s.sendSpeedRequest_only c; rw [e]
@[simp] theorem State.sendSpeedRequest_knp (s : State) (c : SpeedCause) :
    (s.sendSpeedRequest c).knp = s.knp := by
  obtain ⟨w, k, h, e⟩ := s.sendSpeedRequest_only c; rw [e]
@[simp] theorem State.sendSpeedRequest_stk (s : State) (c : SpeedCause) :
    (s.sendSpeedRequest c).stk = s.stk := by
  obtain ⟨w, k, h, e⟩ := s.sendSpeedRequest_only c; rw [e]
@[simp] theorem State.sendSpeedRequest_plg (s : State) (c : SpeedCause) :
    (s.sendSpeedRequest c).plg = s.plg := by
  obtain ⟨w, k, h, e⟩ := s.sendSpeedRequest_only c; rw [e]
@[simp] theorem State.sendSpeedRequest_lsc (s : State) (c : SpeedCause) :
    (s.sendSpeedRequest c).lsc = s.lsc := by
  obtain ⟨w, k, h, e⟩ := s.sendSpeedRequest_only c; rw [e]
@[simp] theorem State.sendSpeedRequest_irt (s : State) (c : SpeedCause) :
    (s.sendSpeedRequest c).irt = s.irt := by
  obtain ⟨w, k, h, e⟩ := s.sendSpeedRequest_only c; rw [e]
@[simp] theorem State.sendSpeedRequest_commStation (s : State) (c : SpeedCause) :
    (s.sendSpeedRequest c).commStation = s.commStation := by
  obtain ⟨w, k, h, e⟩ := s.sendSpeedRequest_only c; rw [e]
@[simp] theorem State.sendSpeedRequest_lineStop (s : State) (c : SpeedCause) :
    (s.sendSpeedRequest c).lineStop = s.lineStop := by
  obtain ⟨w, k, h, e⟩ := s.sendSpeedRequest_only c; rw [e]
@[simp] theorem State.sendSpeedRequest_choices (s : State) (c : SpeedCause) :
    (s.sendSpeedRequest c).choices = s.choices := by
  obtain ⟨w, k, h, e⟩ := s.sendSpeedRequest_only c; rw [e]
@[simp] theorem State.sendSpeedRequest_passed (s : State) (c : SpeedCause) :
    (s.sendSpeedRequest c).passed = s.passed := by
  obtain ⟨w, k, h, e⟩ := s.sendSpeedRequest_only c; rw [e]
@[simp] theorem State.sendSpeedRequest_reply (s : State) (c : SpeedCause) :
    (s.sendSpeedRequest c).reply = s.reply := by
  obtain ⟨w, k, h, e⟩ := s.sendSpeedRequest_only c; rw [e]
@[simp] theorem State.sendSpeedRequest_pending (s : State) (c : SpeedCause) :
    (s.sendSpeedRequest c).pending = s.pending := by
  obtain ⟨w, k, h, e⟩ := s.sendSpeedRequest_only c; rw [e]

/-! ### What setReasons leaves alone -/

theorem State.setReasons_only (s : State) (l : List Raised) :
    ∃ (w : Wtr) (k : Rif) (z : Bool) (h : List FaultReport), s.setReasons l
      = { s with wtr := w, rif := k, lineStop := z, handed := h } := by
  unfold State.setReasons; dsimp only; split
  · exact ⟨_, _, _, _, rfl⟩
  · obtain ⟨w, r, h, e⟩ := ((s.onWtr fun w =>
      { w with reasons := l, request := strongest l, governing := governingOf l }).syncLineStop).sendSpeedRequest_only
      .change
    exact ⟨w, r, _, h, e⟩

@[simp] theorem State.setReasons_line (s : State) (l : List Raised) :
    (s.setReasons l).line = s.line := by
  obtain ⟨w, k, z, h, e⟩ := s.setReasons_only l; rw [e]
@[simp] theorem State.setReasons_wmp (s : State) (l : List Raised) :
    (s.setReasons l).wmp = s.wmp := by
  obtain ⟨w, k, z, h, e⟩ := s.setReasons_only l; rw [e]
@[simp] theorem State.setReasons_osq (s : State) (l : List Raised) :
    (s.setReasons l).osq = s.osq := by
  obtain ⟨w, k, z, h, e⟩ := s.setReasons_only l; rw [e]
@[simp] theorem State.setReasons_chg (s : State) (l : List Raised) :
    (s.setReasons l).chg = s.chg := by
  obtain ⟨w, k, z, h, e⟩ := s.setReasons_only l; rw [e]
@[simp] theorem State.setReasons_spl (s : State) (l : List Raised) :
    (s.setReasons l).spl = s.spl := by
  obtain ⟨w, k, z, h, e⟩ := s.setReasons_only l; rw [e]
@[simp] theorem State.setReasons_hgr (s : State) (l : List Raised) :
    (s.setReasons l).hgr = s.hgr := by
  obtain ⟨w, k, z, h, e⟩ := s.setReasons_only l; rw [e]
@[simp] theorem State.setReasons_knp (s : State) (l : List Raised) :
    (s.setReasons l).knp = s.knp := by
  obtain ⟨w, k, z, h, e⟩ := s.setReasons_only l; rw [e]
@[simp] theorem State.setReasons_stk (s : State) (l : List Raised) :
    (s.setReasons l).stk = s.stk := by
  obtain ⟨w, k, z, h, e⟩ := s.setReasons_only l; rw [e]
@[simp] theorem State.setReasons_plg (s : State) (l : List Raised) :
    (s.setReasons l).plg = s.plg := by
  obtain ⟨w, k, z, h, e⟩ := s.setReasons_only l; rw [e]
@[simp] theorem State.setReasons_lsc (s : State) (l : List Raised) :
    (s.setReasons l).lsc = s.lsc := by
  obtain ⟨w, k, z, h, e⟩ := s.setReasons_only l; rw [e]
@[simp] theorem State.setReasons_irt (s : State) (l : List Raised) :
    (s.setReasons l).irt = s.irt := by
  obtain ⟨w, k, z, h, e⟩ := s.setReasons_only l; rw [e]
@[simp] theorem State.setReasons_commStation (s : State) (l : List Raised) :
    (s.setReasons l).commStation = s.commStation := by
  obtain ⟨w, k, z, h, e⟩ := s.setReasons_only l; rw [e]
@[simp] theorem State.setReasons_choices (s : State) (l : List Raised) :
    (s.setReasons l).choices = s.choices := by
  obtain ⟨w, k, z, h, e⟩ := s.setReasons_only l; rw [e]
@[simp] theorem State.setReasons_passed (s : State) (l : List Raised) :
    (s.setReasons l).passed = s.passed := by
  obtain ⟨w, k, z, h, e⟩ := s.setReasons_only l; rw [e]
@[simp] theorem State.setReasons_reply (s : State) (l : List Raised) :
    (s.setReasons l).reply = s.reply := by
  obtain ⟨w, k, z, h, e⟩ := s.setReasons_only l; rw [e]
@[simp] theorem State.setReasons_pending (s : State) (l : List Raised) :
    (s.setReasons l).pending = s.pending := by
  obtain ⟨w, k, z, h, e⟩ := s.setReasons_only l; rw [e]

/-! ### What alter leaves alone -/

theorem State.alter_only (s : State) (d : List (Reason × Nat)) (r : List Raised) :
    ∃ (w : Wtr) (k : Rif) (z : Bool) (h : List FaultReport), s.alter d r
      = { s with wtr := w, rif := k, lineStop := z, handed := h } := by
  exact s.setReasons_only _

@[simp] theorem State.alter_line (s : State) (d : List (Reason × Nat)) (r : List Raised) :
    (s.alter d r).line = s.line := by
  obtain ⟨w, k, z, h, e⟩ := s.alter_only d r; rw [e]
@[simp] theorem State.alter_wmp (s : State) (d : List (Reason × Nat)) (r : List Raised) :
    (s.alter d r).wmp = s.wmp := by
  obtain ⟨w, k, z, h, e⟩ := s.alter_only d r; rw [e]
@[simp] theorem State.alter_osq (s : State) (d : List (Reason × Nat)) (r : List Raised) :
    (s.alter d r).osq = s.osq := by
  obtain ⟨w, k, z, h, e⟩ := s.alter_only d r; rw [e]
@[simp] theorem State.alter_chg (s : State) (d : List (Reason × Nat)) (r : List Raised) :
    (s.alter d r).chg = s.chg := by
  obtain ⟨w, k, z, h, e⟩ := s.alter_only d r; rw [e]
@[simp] theorem State.alter_spl (s : State) (d : List (Reason × Nat)) (r : List Raised) :
    (s.alter d r).spl = s.spl := by
  obtain ⟨w, k, z, h, e⟩ := s.alter_only d r; rw [e]
@[simp] theorem State.alter_hgr (s : State) (d : List (Reason × Nat)) (r : List Raised) :
    (s.alter d r).hgr = s.hgr := by
  obtain ⟨w, k, z, h, e⟩ := s.alter_only d r; rw [e]
@[simp] theorem State.alter_knp (s : State) (d : List (Reason × Nat)) (r : List Raised) :
    (s.alter d r).knp = s.knp := by
  obtain ⟨w, k, z, h, e⟩ := s.alter_only d r; rw [e]
@[simp] theorem State.alter_stk (s : State) (d : List (Reason × Nat)) (r : List Raised) :
    (s.alter d r).stk = s.stk := by
  obtain ⟨w, k, z, h, e⟩ := s.alter_only d r; rw [e]
@[simp] theorem State.alter_plg (s : State) (d : List (Reason × Nat)) (r : List Raised) :
    (s.alter d r).plg = s.plg := by
  obtain ⟨w, k, z, h, e⟩ := s.alter_only d r; rw [e]
@[simp] theorem State.alter_lsc (s : State) (d : List (Reason × Nat)) (r : List Raised) :
    (s.alter d r).lsc = s.lsc := by
  obtain ⟨w, k, z, h, e⟩ := s.alter_only d r; rw [e]
@[simp] theorem State.alter_irt (s : State) (d : List (Reason × Nat)) (r : List Raised) :
    (s.alter d r).irt = s.irt := by
  obtain ⟨w, k, z, h, e⟩ := s.alter_only d r; rw [e]
@[simp] theorem State.alter_commStation (s : State) (d : List (Reason × Nat)) (r : List Raised) :
    (s.alter d r).commStation = s.commStation := by
  obtain ⟨w, k, z, h, e⟩ := s.alter_only d r; rw [e]
@[simp] theorem State.alter_choices (s : State) (d : List (Reason × Nat)) (r : List Raised) :
    (s.alter d r).choices = s.choices := by
  obtain ⟨w, k, z, h, e⟩ := s.alter_only d r; rw [e]
@[simp] theorem State.alter_passed (s : State) (d : List (Reason × Nat)) (r : List Raised) :
    (s.alter d r).passed = s.passed := by
  obtain ⟨w, k, z, h, e⟩ := s.alter_only d r; rw [e]
@[simp] theorem State.alter_reply (s : State) (d : List (Reason × Nat)) (r : List Raised) :
    (s.alter d r).reply = s.reply := by
  obtain ⟨w, k, z, h, e⟩ := s.alter_only d r; rw [e]
@[simp] theorem State.alter_pending (s : State) (d : List (Reason × Nat)) (r : List Raised) :
    (s.alter d r).pending = s.pending := by
  obtain ⟨w, k, z, h, e⟩ := s.alter_only d r; rw [e]

/-! ### What raise leaves alone -/

theorem State.raise_only (s : State) (x : Reason) (i : Nat) (q : SpeedReq) :
    ∃ (w : Wtr) (k : Rif) (z : Bool) (h : List FaultReport), s.raise x i q
      = { s with wtr := w, rif := k, lineStop := z, handed := h } := by
  exact s.alter_only _ _

@[simp] theorem State.raise_line (s : State) (x : Reason) (i : Nat) (q : SpeedReq) :
    (s.raise x i q).line = s.line := by
  obtain ⟨w, k, z, h, e⟩ := s.raise_only x i q; rw [e]
@[simp] theorem State.raise_wmp (s : State) (x : Reason) (i : Nat) (q : SpeedReq) :
    (s.raise x i q).wmp = s.wmp := by
  obtain ⟨w, k, z, h, e⟩ := s.raise_only x i q; rw [e]
@[simp] theorem State.raise_osq (s : State) (x : Reason) (i : Nat) (q : SpeedReq) :
    (s.raise x i q).osq = s.osq := by
  obtain ⟨w, k, z, h, e⟩ := s.raise_only x i q; rw [e]
@[simp] theorem State.raise_chg (s : State) (x : Reason) (i : Nat) (q : SpeedReq) :
    (s.raise x i q).chg = s.chg := by
  obtain ⟨w, k, z, h, e⟩ := s.raise_only x i q; rw [e]
@[simp] theorem State.raise_spl (s : State) (x : Reason) (i : Nat) (q : SpeedReq) :
    (s.raise x i q).spl = s.spl := by
  obtain ⟨w, k, z, h, e⟩ := s.raise_only x i q; rw [e]
@[simp] theorem State.raise_hgr (s : State) (x : Reason) (i : Nat) (q : SpeedReq) :
    (s.raise x i q).hgr = s.hgr := by
  obtain ⟨w, k, z, h, e⟩ := s.raise_only x i q; rw [e]
@[simp] theorem State.raise_knp (s : State) (x : Reason) (i : Nat) (q : SpeedReq) :
    (s.raise x i q).knp = s.knp := by
  obtain ⟨w, k, z, h, e⟩ := s.raise_only x i q; rw [e]
@[simp] theorem State.raise_stk (s : State) (x : Reason) (i : Nat) (q : SpeedReq) :
    (s.raise x i q).stk = s.stk := by
  obtain ⟨w, k, z, h, e⟩ := s.raise_only x i q; rw [e]
@[simp] theorem State.raise_plg (s : State) (x : Reason) (i : Nat) (q : SpeedReq) :
    (s.raise x i q).plg = s.plg := by
  obtain ⟨w, k, z, h, e⟩ := s.raise_only x i q; rw [e]
@[simp] theorem State.raise_lsc (s : State) (x : Reason) (i : Nat) (q : SpeedReq) :
    (s.raise x i q).lsc = s.lsc := by
  obtain ⟨w, k, z, h, e⟩ := s.raise_only x i q; rw [e]
@[simp] theorem State.raise_irt (s : State) (x : Reason) (i : Nat) (q : SpeedReq) :
    (s.raise x i q).irt = s.irt := by
  obtain ⟨w, k, z, h, e⟩ := s.raise_only x i q; rw [e]
@[simp] theorem State.raise_commStation (s : State) (x : Reason) (i : Nat) (q : SpeedReq) :
    (s.raise x i q).commStation = s.commStation := by
  obtain ⟨w, k, z, h, e⟩ := s.raise_only x i q; rw [e]
@[simp] theorem State.raise_choices (s : State) (x : Reason) (i : Nat) (q : SpeedReq) :
    (s.raise x i q).choices = s.choices := by
  obtain ⟨w, k, z, h, e⟩ := s.raise_only x i q; rw [e]
@[simp] theorem State.raise_passed (s : State) (x : Reason) (i : Nat) (q : SpeedReq) :
    (s.raise x i q).passed = s.passed := by
  obtain ⟨w, k, z, h, e⟩ := s.raise_only x i q; rw [e]
@[simp] theorem State.raise_reply (s : State) (x : Reason) (i : Nat) (q : SpeedReq) :
    (s.raise x i q).reply = s.reply := by
  obtain ⟨w, k, z, h, e⟩ := s.raise_only x i q; rw [e]
@[simp] theorem State.raise_pending (s : State) (x : Reason) (i : Nat) (q : SpeedReq) :
    (s.raise x i q).pending = s.pending := by
  obtain ⟨w, k, z, h, e⟩ := s.raise_only x i q; rw [e]

/-! ### What drop leaves alone -/

theorem State.drop_only (s : State) (x : Reason) (i : Nat) :
    ∃ (w : Wtr) (k : Rif) (z : Bool) (h : List FaultReport), s.drop x i
      = { s with wtr := w, rif := k, lineStop := z, handed := h } := by
  exact s.alter_only _ _

@[simp] theorem State.drop_line (s : State) (x : Reason) (i : Nat) :
    (s.drop x i).line = s.line := by
  obtain ⟨w, k, z, h, e⟩ := s.drop_only x i; rw [e]
@[simp] theorem State.drop_wmp (s : State) (x : Reason) (i : Nat) :
    (s.drop x i).wmp = s.wmp := by
  obtain ⟨w, k, z, h, e⟩ := s.drop_only x i; rw [e]
@[simp] theorem State.drop_osq (s : State) (x : Reason) (i : Nat) :
    (s.drop x i).osq = s.osq := by
  obtain ⟨w, k, z, h, e⟩ := s.drop_only x i; rw [e]
@[simp] theorem State.drop_chg (s : State) (x : Reason) (i : Nat) :
    (s.drop x i).chg = s.chg := by
  obtain ⟨w, k, z, h, e⟩ := s.drop_only x i; rw [e]
@[simp] theorem State.drop_spl (s : State) (x : Reason) (i : Nat) :
    (s.drop x i).spl = s.spl := by
  obtain ⟨w, k, z, h, e⟩ := s.drop_only x i; rw [e]
@[simp] theorem State.drop_hgr (s : State) (x : Reason) (i : Nat) :
    (s.drop x i).hgr = s.hgr := by
  obtain ⟨w, k, z, h, e⟩ := s.drop_only x i; rw [e]
@[simp] theorem State.drop_knp (s : State) (x : Reason) (i : Nat) :
    (s.drop x i).knp = s.knp := by
  obtain ⟨w, k, z, h, e⟩ := s.drop_only x i; rw [e]
@[simp] theorem State.drop_stk (s : State) (x : Reason) (i : Nat) :
    (s.drop x i).stk = s.stk := by
  obtain ⟨w, k, z, h, e⟩ := s.drop_only x i; rw [e]
@[simp] theorem State.drop_plg (s : State) (x : Reason) (i : Nat) :
    (s.drop x i).plg = s.plg := by
  obtain ⟨w, k, z, h, e⟩ := s.drop_only x i; rw [e]
@[simp] theorem State.drop_lsc (s : State) (x : Reason) (i : Nat) :
    (s.drop x i).lsc = s.lsc := by
  obtain ⟨w, k, z, h, e⟩ := s.drop_only x i; rw [e]
@[simp] theorem State.drop_irt (s : State) (x : Reason) (i : Nat) :
    (s.drop x i).irt = s.irt := by
  obtain ⟨w, k, z, h, e⟩ := s.drop_only x i; rw [e]
@[simp] theorem State.drop_commStation (s : State) (x : Reason) (i : Nat) :
    (s.drop x i).commStation = s.commStation := by
  obtain ⟨w, k, z, h, e⟩ := s.drop_only x i; rw [e]
@[simp] theorem State.drop_choices (s : State) (x : Reason) (i : Nat) :
    (s.drop x i).choices = s.choices := by
  obtain ⟨w, k, z, h, e⟩ := s.drop_only x i; rw [e]
@[simp] theorem State.drop_passed (s : State) (x : Reason) (i : Nat) :
    (s.drop x i).passed = s.passed := by
  obtain ⟨w, k, z, h, e⟩ := s.drop_only x i; rw [e]
@[simp] theorem State.drop_reply (s : State) (x : Reason) (i : Nat) :
    (s.drop x i).reply = s.reply := by
  obtain ⟨w, k, z, h, e⟩ := s.drop_only x i; rw [e]
@[simp] theorem State.drop_pending (s : State) (x : Reason) (i : Nat) :
    (s.drop x i).pending = s.pending := by
  obtain ⟨w, k, z, h, e⟩ := s.drop_only x i; rw [e]

end Sys2Proof.Machine
end

