-- ==== Sys2Proof/Laws/Map.lean ====
section
/-! SUPPORT. The order and the count of the marks on the map (R25, R26): what placing, merging, moving, closing and retiring
do to them. -/

namespace Sys2Proof.Machine

/-- Marks in ascending order of start (R26). -/
def Ascending (l : List Mark) : Prop := l.Pairwise fun x y => x.start ≤ y.start

/-! ### Placing (R26) -/

theorem place_perm (m : Mark) : ∀ l, (place m l).Perm (m :: l)
  | [] => List.Perm.refl _
  | x :: xs => by
    unfold place
    split
    · exact ((place_perm m xs).cons x).trans (List.Perm.swap m x xs)
    · exact List.Perm.refl _

theorem place_ascending (m : Mark) : ∀ l, Ascending l → Ascending (place m l)
  | [], _ => List.pairwise_singleton _ _
  | x :: xs, h => by
    obtain ⟨hx, hs⟩ := List.pairwise_cons.1 h
    unfold place
    split
    · rename_i hm
      refine List.pairwise_cons.2 ⟨fun y hy => ?_, place_ascending m xs hs⟩
      rcases List.mem_cons.1 ((place_perm m xs).mem_iff.1 hy) with rfl | hy
      · exact hm
      · exact hx y hy
    · rename_i hm
      refine List.pairwise_cons.2 ⟨fun y hy => ?_, h⟩
      rcases List.mem_cons.1 hy with rfl | hy
      · omega
      · have := hx y hy; omega

/-- A new mark is placed after every mark whose start is at or below its own and before every other (R26). -/
theorem place_splits (m : Mark) : ∀ l, Ascending l →
    ∃ a b, l = a ++ b ∧ place m l = a ++ m :: b ∧ (∀ x ∈ a, x.start ≤ m.start) ∧ ∀ x ∈ b, m.start < x.start
  | [], _ => ⟨[], [], rfl, rfl, by simp, by simp⟩
  | x :: xs, h => by
    obtain ⟨hx, hs⟩ := List.pairwise_cons.1 h
    unfold place
    split
    · rename_i hm
      obtain ⟨a, b, e, ep, ha, hb⟩ := place_splits m xs hs
      refine ⟨x :: a, b, by simp [e], by simp [ep], ?_, hb⟩
      intro y hy
      rcases List.mem_cons.1 hy with rfl | hy
      · exact hm
      · exact ha y hy
    · rename_i hm
      refine ⟨[], x :: xs, rfl, rfl, by simp, ?_⟩
      intro y hy
      rcases List.mem_cons.1 hy with rfl | hy
      · omega
      · have := hx y hy; omega

theorem place_defectCount (m : Mark) (l : List Mark) :
    defectCount (place m l) = defectCount l + if m.kind.isStructural then 0 else 1 := by
  unfold defectCount
  rw [(place_perm m l).countP_eq, List.countP_cons]
  cases m.kind.isStructural <;> simp

/-! ### Putting a changed mark back (R26, R28) -/

theorem set_ascending {l : List Mark} {i : Nat} {old new : Mark} (h : Ascending l) (hi : l[i]? = some old)
    (hs : new.start = old.start) : Ascending (l.set i new) := by
  obtain ⟨hi', rfl⟩ := List.getElem?_eq_some_iff.1 hi
  rw [Ascending, List.pairwise_iff_getElem] at *
  intro a b ha hb hab
  simp only [List.length_set] at ha hb
  have := h a b ha hb hab
  simp only [List.getElem_set]
  split <;> split <;> simp_all

theorem set_defectCount {l : List Mark} {i : Nat} {old new : Mark} (hi : l[i]? = some old) (hk : new.kind = old.kind) :
    defectCount (l.set i new) = defectCount l := by
  obtain ⟨hi', rfl⟩ := List.getElem?_eq_some_iff.1 hi
  unfold defectCount
  rw [List.countP_set hi', hk]
  split
  · have : 0 < l.countP fun m => !m.kind.isStructural :=
      List.countP_pos_iff.2 ⟨_, List.getElem_mem hi', by assumption⟩
    omega
  · omega

theorem putBack_ascending {l : List Mark} {i : Nat} {old new : Mark} (h : Ascending l) (hi : l[i]? = some old)
    (hs : new.start ≤ old.start) : Ascending (putBack l i old new) := by
  unfold putBack
  split
  · exact place_ascending _ _ (h.sublist (List.eraseIdx_sublist _ _))
  · exact set_ascending h hi (by omega)

theorem putBack_defectCount {l : List Mark} {i : Nat} {old new : Mark} (hi : l[i]? = some old)
    (hk : new.kind = old.kind) : defectCount (putBack l i old new) = defectCount l := by
  unfold putBack
  split
  · obtain ⟨hi', rfl⟩ := List.getElem?_eq_some_iff.1 hi
    rw [place_defectCount]
    have := (List.getElem_cons_eraseIdx_perm hi').countP_eq fun m => !m.kind.isStructural
    rw [List.countP_cons] at this
    unfold defectCount
    rw [← this, hk]
    cases l[i].kind.isStructural <;> simp
  · exact set_defectCount hi hk

/-! ### The nearest defect mark (R28) -/

theorem nearestDefect_fold (new : Mark) (l : List (Mark × Nat)) :
    ∀ b, (∀ i m, b = some (i, m) → m.kind.isStructural = false) →
      (∀ i m, l.foldl (nearerMark new) b = some (i, m) → m.kind.isStructural = false ∧ ((m, i) ∈ l ∨ b = some (i, m)))
      ∧ ((b.isSome ∨ ∃ x ∈ l, x.1.kind.isStructural = false) → (l.foldl (nearerMark new) b).isSome) := by
  induction l with
  | nil => intro b hb; exact ⟨fun i m h => ⟨hb i m h, .inr h⟩, by simp⟩
  | cons x xs ih =>
    intro b hb
    simp only [List.foldl_cons]
    have key : ∀ i m, nearerMark new b x = some (i, m) →
        m.kind.isStructural = false ∧ ((m, i) = x ∨ b = some (i, m)) := by
      intro i m h
      unfold nearerMark at h
      split at h
      · exact ⟨hb i m h, .inr h⟩
      · rename_i hk
        split at h
        · cases h; exact ⟨by simpa using hk, .inl rfl⟩
        · split at h
          · cases h; exact ⟨by simpa using hk, .inl rfl⟩
          · exact ⟨hb i m h, .inr h⟩
    obtain ⟨h1, h2⟩ := ih (nearerMark new b x) (fun i m h => (key i m h).1)
    refine ⟨fun i m h => ?_, fun h => h2 ?_⟩
    · obtain ⟨hk, hm⟩ := h1 i m h
      refine ⟨hk, ?_⟩
      rcases hm with hm | hm
      · exact .inl (List.mem_cons_of_mem _ hm)
      · rcases (key i m hm).2 with e | e
        · exact .inl (e ▸ List.mem_cons_self)
        · exact .inr e
    · rcases h with h | ⟨y, hy, hk⟩
      · left
        unfold nearerMark
        split
        · exact h
        · split
          · rfl
          · split <;> rfl
      · rcases List.mem_cons.1 hy with rfl | hy
        · left
          unfold nearerMark
          rw [if_neg (by simp [hk])]
          split
          · rfl
          · split <;> rfl
        · exact .inr ⟨y, hy, hk⟩

theorem nearestDefect_mem {new : Mark} {l : List Mark} {i : Nat} {m : Mark} (h : nearestDefect new l = some (i, m)) :
    l[i]? = some m ∧ m.kind.isStructural = false := by
  obtain ⟨hk, hm⟩ := (nearestDefect_fold new l.zipIdx none (by simp)).1 i m h
  rcases hm with hm | hm
  · exact ⟨by simpa using List.mem_zipIdx_iff_getElem?.1 hm, hk⟩
  · cases hm

theorem nearestDefect_isSome {new : Mark} {l : List Mark} (h : 0 < defectCount l) :
    (nearestDefect new l).isSome := by
  obtain ⟨m, hm, hk⟩ := List.countP_pos_iff.1 h
  obtain ⟨i, hi, rfl⟩ := List.getElem_of_mem hm
  refine (nearestDefect_fold new l.zipIdx none (by simp)).2 (.inr ⟨(l[i], i), ?_, by simpa using hk⟩)
  exact List.mem_zipIdx_iff_getElem?.2 (by simp [hi])

/-! ### Moving, closing and retiring (R29, R30, R32) -/

theorem move_ascending (a : Nat) {l : List Mark} (h : Ascending l) : Ascending (l.map (Mark.move a)) := by
  refine List.pairwise_map.2 (List.Pairwise.imp (fun {x y} hxy => ?_) h)
  simp only [Mark.move]
  split <;> split <;> omega

theorem move_defectCount (a : Nat) (l : List Mark) : defectCount (l.map (Mark.move a)) = defectCount l := by
  simp only [defectCount, List.countP_map]; rfl

theorem filterMap_ascending {l : List Mark} {g : Mark → Option Mark} (hg : ∀ x y, g x = some y → y.start = x.start)
    (h : Ascending l) : Ascending (l.filterMap g) := by
  refine List.Pairwise.filterMap g (fun a b hab x hx y hy => ?_) h
  rw [hg _ _ hx, hg _ _ hy]; exact hab

theorem filterMap_defectCount {l : List Mark} {g : Mark → Option Mark} (hg : ∀ x y, g x = some y → y.kind = x.kind) :
    defectCount (l.filterMap g) ≤ defectCount l := by
  unfold defectCount
  induction l with
  | nil => simp
  | cons x xs ih =>
    rw [List.filterMap_cons]
    split
    · rw [List.countP_cons]; omega
    · rename_i y hy
      simp only [List.countP_cons, hg _ _ hy]
      omega

theorem filter_defectCount (p : Mark → Bool) (l : List Mark) : defectCount (l.filter p) ≤ defectCount l :=
  List.Sublist.countP_le List.filter_sublist

/-! ### What the map holds once (R24, R25) -/

/-- A mark put back in a changed form takes the old one's place. -/
theorem putBack_perm {l : List Mark} {i : Nat} {old new : Mark} (hi : l[i]? = some old) :
    (old :: putBack l i old new).Perm (new :: l) := by
  obtain ⟨hi', rfl⟩ := List.getElem?_eq_some_iff.1 hi
  have he := List.getElem_cons_eraseIdx_perm hi'
  have swap : (l[i] :: new :: l.eraseIdx i).Perm (new :: l) := (List.Perm.swap _ _ _).trans (he.cons _)
  unfold putBack
  split
  · exact ((place_perm _ _).cons _).trans swap
  · exact ((List.set_perm_cons_eraseIdx hi' _).cons _).trans swap

theorem countP_filterMap_le {p : Mark → Bool} {g : Mark → Option Mark} (h : ∀ x y, g x = some y → p y = true → p x = true)
    (l : List Mark) : (l.filterMap g).countP p ≤ l.countP p := by
  induction l with
  | nil => simp
  | cons x xs ih =>
    rw [List.filterMap_cons]
    split
    · rw [List.countP_cons]; omega
    · rename_i y hy
      simp only [List.countP_cons]
      have := h x y hy
      split <;> split <;> simp_all
      omega

theorem countP_le_filterMap {p : Mark → Bool} {g : Mark → Option Mark} {l : List Mark}
    (h : ∀ x ∈ l, p x = true → ∃ y, g x = some y ∧ p y = true) : l.countP p ≤ (l.filterMap g).countP p := by
  induction l with
  | nil => simp
  | cons x xs ih =>
    have ih := ih fun y hy => h y (List.mem_cons_of_mem _ hy)
    have hx := h x List.mem_cons_self
    rw [List.filterMap_cons]
    split
    · rename_i e
      rw [List.countP_cons]
      split
      · rename_i hp; obtain ⟨y, e', _⟩ := hx hp; rw [e] at e'; cases e'
      · omega
    · rename_i z e
      simp only [List.countP_cons]
      split
      · rename_i hp; obtain ⟨y, e', hy⟩ := hx hp; rw [e] at e'; cases e'; simp [hy]; omega
      · omega

theorem isJointOf_congr {x y : Mark} (hk : y.kind = x.kind) (hp : y.payload = x.payload) (k : Nat) :
    y.isJointOf k = x.isJointOf k := by
  unfold Mark.isJointOf; rw [hk, hp]

/-- Marks taken away, moved or rid of claims leave what the map holds once. -/
theorem marksOk_filterMap {a b : Wmp} {g : Mark → Option Mark} (hb : b.marks = a.marks.filterMap g)
    (hg : ∀ x y, g x = some y → y.kind = x.kind ∧ y.payload = x.payload ∧ ∀ c ∈ y.claims, c ∈ x.claims)
    (h : a.MarksOk) : b.MarksOk := by
  have mem : ∀ y ∈ b.marks, ∃ x ∈ a.marks, g x = some y := fun y hy => by
    rw [hb] at hy; exact List.mem_filterMap.1 hy
  constructor
  · intro kind owner
    rw [hb]
    refine (countP_filterMap_le (fun x y e hy => ?_) _).trans (h.claims kind owner)
    obtain ⟨c, hc, e'⟩ := List.any_eq_true.1 hy
    exact List.any_eq_true.2 ⟨c, (hg x y e).2.2 c hc, e'⟩
  · intro y hy hs
    obtain ⟨x, hx, e⟩ := mem y hy
    have := h.closed x hx (by rw [← (hg x y e).1]; exact hs)
    refine List.eq_nil_iff_forall_not_mem.2 fun c hc => ?_
    have := (hg x y e).2.2 c hc
    simp_all
  · intro y hy hs
    obtain ⟨x, hx, e⟩ := mem y hy
    obtain ⟨hk, hp, _⟩ := hg x y e
    obtain ⟨k, h₁, h₂, h₃⟩ := h.joints x hx (hk ▸ hs)
    exact ⟨k, h₁, h₂, (isJointOf_congr hk hp k).trans h₃⟩
  · intro k
    rw [hb]
    refine (countP_filterMap_le (fun x y e hy => ?_) _).trans (h.joint k)
    rw [← isJointOf_congr (hg x y e).1 (hg x y e).2.1]; exact hy
  · rw [hb]
    refine (countP_filterMap_le (fun x y e hy => ?_) _).trans h.purge
    rw [← (hg x y e).1]; exact hy

/-- A mark put on the map, whose claims, stand and kind the map does not hold yet, leaves what it holds once. -/
theorem marksOk_cons {a b : Wmp} {m : Mark} (hb : b.marks.Perm (m :: a.marks))
    (hc : ∀ k o, m.holdsClaim k o = true → ∀ x ∈ a.marks, x.holdsClaim k o = false)
    (hs : m.kind.isStructural = true → m.claims = [])
    (hj : m.kind = .splice → ∃ k, 1 ≤ k ∧ k ≤ 7 ∧ m.isJointOf k = true)
    (ho : ∀ k, m.isJointOf k = true → ∀ x ∈ a.marks, x.isJointOf k = false)
    (hp : m.kind = .purge → ∀ x ∈ a.marks, x.kind ≠ .purge) (h : a.MarksOk) : b.MarksOk := by
  have one : ∀ p : Mark → Bool, (p m = true → ∀ x ∈ a.marks, p x = false) → a.marks.countP p ≤ 1 → b.marks.countP p ≤ 1 := by
    intro p h₁ h₂
    rw [hb.countP_eq, List.countP_cons]
    split
    · rename_i hm
      have : a.marks.countP p = 0 := List.countP_eq_zero.2 fun x hx => by simp [h₁ hm x hx]
      omega
    · omega
  constructor
  · exact fun k o => one _ (hc k o) (h.claims k o)
  · intro x hx
    rcases List.mem_cons.1 (hb.mem_iff.1 hx) with rfl | hx
    · exact hs
    · exact h.closed x hx
  · intro x hx
    rcases List.mem_cons.1 (hb.mem_iff.1 hx) with rfl | hx
    · exact hj
    · exact h.joints x hx
  · exact fun k => one _ (ho k) (h.joint k)
  · refine one _ (fun e x hx => ?_) h.purge
    simpa using hp (by simpa using e) x hx

/-- A mark put back in a changed form, with claims that no mark held, leaves what the map holds once. -/
theorem marksOk_replace {a b : Wmp} {old new : Mark} (hb : (old :: b.marks).Perm (new :: a.marks))
    (hk : new.kind = old.kind) (hp : new.payload = old.payload)
    (hs : new.kind.isStructural = true → old.claims = [] → new.claims = [])
    (hc : ∀ k o, new.holdsClaim k o = true → old.holdsClaim k o = true ∨ ∀ x ∈ a.marks, x.holdsClaim k o = false)
    (ha : old ∈ a.marks) (h : a.MarksOk) : b.MarksOk := by
  have count : ∀ p : Mark → Bool,
      b.marks.countP p + (if p old then 1 else 0) = a.marks.countP p + (if p new then 1 else 0) := by
    intro p
    have := hb.countP_eq p
    simpa only [List.countP_cons] using this
  have mem : ∀ x ∈ b.marks, x = new ∨ x ∈ a.marks := fun x hx =>
    List.mem_cons.1 (hb.mem_iff.1 (List.mem_cons_of_mem _ hx))
  constructor
  · intro k o
    have h₁ := h.claims k o
    have h₂ := count fun m => m.holdsClaim k o
    by_cases e : new.holdsClaim k o = true
    · rcases hc k o e with e' | e'
      · simp only [e, e', if_true] at h₂; omega
      · have : (a.marks.countP fun m => m.holdsClaim k o) = 0 := List.countP_eq_zero.2 fun x hx => by simp [e' x hx]
        simp only [e, if_true] at h₂; omega
    · simp only [e] at h₂
      split at h₂ <;> simp at h₂ <;> omega
  · intro x hx hx'
    rcases mem x hx with rfl | hx
    · exact hs hx' (h.closed old ha (by rw [← hk]; exact hx'))
    · exact h.closed x hx hx'
  · intro x hx hx'
    rcases mem x hx with rfl | hx
    · obtain ⟨k, h₁, h₂, h₃⟩ := h.joints old ha (hk ▸ hx')
      exact ⟨k, h₁, h₂, (isJointOf_congr hk hp k).trans h₃⟩
    · exact h.joints x hx hx'
  · intro k
    have h₁ := h.joint k
    have h₂ := count (Mark.isJointOf k)
    simp only [isJointOf_congr hk hp k] at h₂
    omega
  · have h₁ := h.purge
    have h₂ := count fun m => m.kind == .purge
    simp only [hk] at h₂
    unfold kindCount at *
    omega

/-- The boundaries, the stands' SPLICE marks and the PURGE are all that the structural area holds (R22, R25). -/
theorem structuralCount_le {w : Wmp} (h : w.MarksOk) : structuralCount w.marks ≤ kindCount .boundary w.marks + 8 := by
  have joints : ∀ l : List Mark, (∀ m ∈ l, m.kind = .splice → ∃ k, 1 ≤ k ∧ k ≤ 7 ∧ m.isJointOf k = true) →
      structuralCount l ≤ kindCount .boundary l + kindCount .purge l
        + (l.countP (Mark.isJointOf 1) + l.countP (Mark.isJointOf 2) + l.countP (Mark.isJointOf 3)
          + l.countP (Mark.isJointOf 4) + l.countP (Mark.isJointOf 5) + l.countP (Mark.isJointOf 6)
          + l.countP (Mark.isJointOf 7)) := by
    intro l
    induction l with
    | nil => intro _; simp [structuralCount]
    | cons m l ih =>
      intro hl
      have ih := ih fun x hx => hl x (List.mem_cons_of_mem _ hx)
      have hm := hl m List.mem_cons_self
      simp only [structuralCount, kindCount, List.countP_cons] at *
      have : (if m.kind.isStructural = true then 1 else 0) ≤ (if (m.kind == .boundary) = true then 1 else 0)
          + (if (m.kind == .purge) = true then 1 else 0)
          + ((if m.isJointOf 1 = true then 1 else 0) + (if m.isJointOf 2 = true then 1 else 0)
            + (if m.isJointOf 3 = true then 1 else 0) + (if m.isJointOf 4 = true then 1 else 0)
            + (if m.isJointOf 5 = true then 1 else 0) + (if m.isJointOf 6 = true then 1 else 0)
            + (if m.isJointOf 7 = true then 1 else 0)) := by
        cases hk : m.kind <;> simp [MarkKind.isStructural]
        obtain ⟨k, h₁, h₂, h₃⟩ := hm hk
        have : k = 1 ∨ k = 2 ∨ k = 3 ∨ k = 4 ∨ k = 5 ∨ k = 6 ∨ k = 7 := by omega
        rcases this with rfl | rfl | rfl | rfl | rfl | rfl | rfl <;> simp [h₃] <;> omega
      omega
  have := joints w.marks h.joints
  have := h.purge
  have := h.joint 1; have := h.joint 2; have := h.joint 3; have := h.joint 4
  have := h.joint 5; have := h.joint 6; have := h.joint 7
  omega

/-! ### What an update of the map leaves as it was -/

/-- An update of the map that keeps its form, what it holds once, and its boundaries. -/
structure Wmp.Keeps (a b : Wmp) : Prop where
  form       : a.MapOk → b.MapOk
  marks      : a.MarksOk → b.MarksOk
  boundaries : a.MarksOk → kindCount .boundary b.marks = kindCount .boundary a.marks

/-- An update that leaves the marks alone. -/
theorem Wmp.keeps_rest {a b : Wmp} (hm : b.marks = a.marks) (hn : a.nextSeq < 65536 → b.nextSeq < 65536) : a.Keeps b where
  form h := ⟨hm ▸ h.1, hm ▸ h.2.1, hn h.2.2⟩
  marks h := ⟨hm ▸ h.claims, hm ▸ h.closed, hm ▸ h.joints, hm ▸ h.joint, hm ▸ h.purge⟩
  boundaries _ := by rw [hm]

/-- A mark put back in a changed form. -/
theorem Wmp.keeps_replace {a b : Wmp} {old new : Mark} (hb : (old :: b.marks).Perm (new :: a.marks))
    (hf : a.MapOk → b.MapOk) (hk : new.kind = old.kind) (hp : new.payload = old.payload)
    (hs : new.kind.isStructural = true → old.claims = [] → new.claims = [])
    (hc : ∀ k o, new.holdsClaim k o = true → old.holdsClaim k o = true ∨ ∀ x ∈ a.marks, x.holdsClaim k o = false)
    (ha : old ∈ a.marks) : a.Keeps b where
  form := hf
  marks h := marksOk_replace hb hk hp hs hc ha h
  boundaries _ := by
    have := hb.countP_eq fun m => m.kind == .boundary
    simp only [List.countP_cons, hk] at this
    unfold kindCount
    omega

/-- A mark put on the map that is no BOUNDARY. -/
theorem Wmp.keeps_cons {a b : Wmp} {m : Mark} (hb : b.marks.Perm (m :: a.marks)) (hf : a.MapOk → b.MapOk)
    (hc : ∀ k o, m.holdsClaim k o = true → ∀ x ∈ a.marks, x.holdsClaim k o = false)
    (hs : m.kind.isStructural = true → m.claims = [])
    (hj : m.kind = .splice → ∃ k, 1 ≤ k ∧ k ≤ 7 ∧ m.isJointOf k = true)
    (ho : ∀ k, m.isJointOf k = true → ∀ x ∈ a.marks, x.isJointOf k = false)
    (hp : m.kind = .purge → ∀ x ∈ a.marks, x.kind ≠ .purge) (hn : m.kind ≠ .boundary) : a.Keeps b where
  form := hf
  marks h := marksOk_cons hb hc hs hj ho hp h
  boundaries _ := by
    have := hb.countP_eq fun m => m.kind == .boundary
    simpa [kindCount, List.countP_cons, hn] using this

/-- A defect mark put on the map, of whose claims no mark holds one. -/
theorem Wmp.keeps_defect {a b : Wmp} {m : Mark} (hb : b.marks.Perm (m :: a.marks)) (hf : a.MapOk → b.MapOk)
    (hc : ∀ k o, m.holdsClaim k o = true → ∀ x ∈ a.marks, x.holdsClaim k o = false)
    (hs : m.kind.isStructural = false) : a.Keeps b := by
  have no : ∀ k : MarkKind, k.isStructural = true → m.kind ≠ k := fun k h e => by simp [← e, hs] at h
  refine Wmp.keeps_cons hb hf hc (by simp [hs]) (fun e => absurd e (no _ rfl)) (fun k e => ?_)
    (fun e => absurd e (no _ rfl)) (no _ rfl)
  unfold Mark.isJointOf at e
  split at e
  · exact absurd (by simpa using (Bool.and_eq_true_iff.1 e).1) (no .splice rfl)
  · cases e

end Sys2Proof.Machine
end

