-- ==== Sys2Proof/Laws/Keeps.lean ====
section
/-! SUPPORT. Properties of a state that the operations keep, said once: a property closed under the few ways in which the
part touches its blocks is kept by every operation built of them. Each operation has one lemma here or in a later file of
this folder, and every frame and every invariant of a command is an instance of them. -/

namespace Sys2Proof.Machine

/-! ### The ways in which the part touches its blocks -/

/-- P is kept by what any block may do: log, queue an item, hand a fault, alter reasons that are not a line state's, send
a SPEED_REQUEST. -/
structure Tells (P : State → Prop) : Prop where
  log : ∀ {s : State} (b), P s → P (s.log b)
  urgent : ∀ {s : State} (o), P s → P (s.queueUrgent o)
  routine : ∀ {s : State} (o), P s → P (s.queueRoutine o)
  hand : ∀ {s : State} (c d), P s → P (s.hand c d)
  alter : ∀ {s : State} (d : List (Reason × Nat)) (r : List Raised), (∀ x ∈ d, isLineReason x.1 = false) →
    (∀ x ∈ r, isLineReason x.reason = false) → P s → P (s.alter d r)
  speed : ∀ {s : State} (c), P s → P (s.sendSpeedRequest c)

/-- P is also kept by updates of the map and of the plan queue that keep their forms. -/
structure Marks (P : State → Prop) : Prop extends Tells P where
  map : ∀ {s : State} (f : Wmp → Wmp), s.wmp.Keeps (f s.wmp) → P s → P (s.onWmp f)
  knp : ∀ {s : State} (f : Knp → Knp), (s.knp.PlansOk → (f s.knp).PlansOk) → P s → P (s.onKnp f)

/-- Two stand tables of one configuration. -/
def Spl.SameConfig (a b : Spl) : Prop := (b.stands.toList.map fun x => x.cfg) = a.stands.toList.map fun x => x.cfg

/-- Two heat tables of one configuration. -/
def Hgr.SameConfig (a b : Hgr) : Prop :=
  b.grades = a.grades ∧ (b.points.toList.map fun x => x.cfg) = a.points.toList.map (fun x => x.cfg)
    ∧ (b.channels.toList.map fun x => x.cfg) = a.channels.toList.map (fun x => x.cfg) ∧ b.scan = a.scan

/-- Two router tables of one configuration. -/
def Irt.SameConfig (a b : Irt) : Prop :=
  b.stations = a.stations ∧ (b.subs.toList.map fun x => x.cfg) = a.subs.toList.map fun x => x.cfg

/-- P is also kept by updates of the Changeover Unit that keep its records' bound, and by those of the Splice Planner and the
Heat and Glue Regulator that leave their configuration alone. -/
structure Runs (P : State → Prop) : Prop extends Marks P where
  chg : ∀ {s : State} (f : Chg → Chg), P s →
    (hf : s.chg.RecordsOk → (f s.chg).RecordsOk := by exact fun ok => ok) → P (s.onChg f)
  spl : ∀ {s : State} (f : Spl → Spl), s.spl.SameConfig (f s.spl) → P s → P (s.onSpl f)
  hgr : ∀ {s : State} (f : Hgr → Hgr), s.hgr.SameConfig (f s.hgr) → P s → P (s.onHgr f)

/-- What the ring has told: an update that leaves the ports, the ring state, the cycle number and the timer alone. -/
def Rif.SameRing (a b : Rif) : Prop :=
  b.portA = a.portA ∧ b.portB = a.portB ∧ b.ring = a.ring ∧ b.cycle = a.cycle ∧ b.timer = a.timer

/-- An update of the order table that leaves alone the run queue, the pending rush, the held-order stack and which orders the
segments hold, and what these say of the slots. -/
structure Osq.Keeps (a b : Osq) : Prop where
  orders : (b.segments.map fun g => g.order) = a.segments.map fun g => g.order
  queue  : b.queue = a.queue
  rush   : b.rush = a.rush
  held   : b.held = a.held
  table  : ∀ l, a.TableOk l → b.TableOk l

theorem Osq.Keeps.lists {a b : Osq} (h : a.Keeps b) (ok : a.ListsOk) : b.ListsOk := by
  have : b.segments.length = a.segments.length := by simpa using congrArg List.length h.orders
  exact ⟨this ▸ ok.1, this ▸ ok.2.1, h.queue ▸ ok.2.2⟩

theorem Osq.Keeps.length {a b : Osq} (h : a.Keeps b) : b.segments.length = a.segments.length := by
  simpa using congrArg List.length h.orders

/-- P is also kept by updates of the order table that keep its lists, and by those of the stacker's queue and of the outbound
queues that keep their bounds. -/
structure Counts (P : State → Prop) : Prop extends Runs P where
  osq : ∀ {s : State} (f : Osq → Osq), s.osq.Keeps (f s.osq) → P s → P (s.onOsq f)
  stk : ∀ {s : State} (f : Stk → Stk), (s.stk.QueueOk → (f s.stk).QueueOk) → P s → P (s.onStk f)
  rif : ∀ {s : State} (f : Rif → Rif), (s.rif.QueuesOk → (f s.rif).QueuesOk) → s.rif.SameRing (f s.rif) →
    P s → P (s.onRif f)

/-- The feed part of a Web Tracker update: the reasons stay, the feed state keeps its bounds. -/
def Wtr.FeedStep (a b : Wtr) : Prop :=
  b.reasons = a.reasons ∧ b.request = a.request ∧ b.governing = a.governing ∧ (a.FeedOk → b.FeedOk)

/-- P is also kept by what a fault taken and a change of line state do. -/
structure Faults (P : State → Prop) : Prop extends Counts P where
  lsc : ∀ {s : State} (f : Lsc → Lsc), (f s.lsc).state = s.lsc.state → (s.lsc.LatchOk → (f s.lsc).LatchOk) →
    P s → (hf : s.lsc.seen.Nodup → (f s.lsc).seen.Nodup := by exact fun ok => ok) → P (s.onLsc f)
  line : ∀ {s : State} (f : Lsc → Lsc) (further : List (Reason × Nat)), (f s.lsc).LatchOk →
    (s.lsc.seen.Nodup → (f s.lsc).seen.Nodup) → (∀ x ∈ further, isLineReason x.1 = true) → P s →
    P ((s.onLsc f).alter (((stateReason s.lsc.state).toList.map fun r => (r.reason, r.inst)) ++ further)
      (stateReason (f s.lsc).state).toList)
  clear : ∀ {s : State}, P s → P { s with handed := [] }

/-- P is also kept by what an advance and the items of a telegram do. -/
structure Webs (P : State → Prop) : Prop extends Faults P where
  created : ∀ {s : State} (x : Int) (b : Bool), s.osq.segments.length < 4 → (b = true → s.osq.rush.isSome = true) → P s →
    P (s.createBoundary x b)
  retires : ∀ {s : State}, P s → P s.retireMarks
  feed : ∀ {s : State} (f : Wtr → Wtr), s.wtr.FeedStep (f s.wtr) → P s → P (s.onWtr f)

/-- P is also kept by what the router does to its freshness counters. -/
structure Lines (P : State → Prop) : Prop extends Webs P where
  irt : ∀ {s : State} (f : Irt → Irt), s.irt.SameConfig (f s.irt) → P s → P (s.onIrt f)

/-- An update of the order table by a request: it leaves the segments alone, and keeps the bounds and what the lists say of the
slots. -/
structure Osq.Enqueues (a b : Osq) : Prop where
  segments : b.segments = a.segments
  lists    : a.ListsOk → b.ListsOk
  held     : a.HeldOk → b.HeldOk
  table    : ∀ l, a.TableOk l → b.TableOk l

/-- P is also kept by what the ports, a telegram as a whole and a request that loads no configuration do. -/
structure Rings (P : State → Prop) : Prop extends Lines P where
  enqueue : ∀ {s : State} (f : Osq → Osq), s.osq.Enqueues (f s.osq) → P s → P (s.onOsq f)
  port : ∀ {s : State} (f : Rif → Rif), (s.rif.QueuesOk → (f s.rif).QueuesOk) → (f s.rif).ring = s.rif.ring →
    P s → P (s.onRif f)
  ring : ∀ {s : State} (f : Rif → Rif), (s.rif.QueuesOk → (f s.rif).QueuesOk) → P s → P ((s.onRif f).syncLineStop)
  choose : ∀ {s : State} (n), P s → P { s with choices := n }
  pass : ∀ {s : State} (x), P s → P { s with passed := x }
  tell : ∀ {s : State} (c r), P s → P { s with commStation := c, reply := r }
  plg : ∀ {s : State} (f : Plg → Plg), (s.plg.LogOk → (f s.plg).LogOk) → P s → P (s.onPlg f)

/-- P is also kept by the requests that load the configuration. -/
structure Loads (P : State → Prop) : Prop extends Rings P where
  consts : ∀ {s : State} (c), P s → P { s with line := c }
  stands : ∀ {s : State} (f : Spl → Spl), P s → P (s.onSpl f)
  heat : ∀ {s : State} (f : Hgr → Hgr), P s → P (s.onHgr f)
  tables : ∀ {s : State} (f : Irt → Irt), P s → P (s.onIrt f)

variable {P : State → Prop}

/-! ### Small steps -/

theorem foldl_keeps {α : Type} {f : State → α → State} (h : ∀ s a, P s → P (f s a)) (l : List α) {s : State}
    (hs : P s) : P (l.foldl f s) := by
  induction l generalizing s with
  | nil => exact hs
  | cons x xs ih => exact ih (h s x hs)

theorem ite_keeps {c : Prop} [Decidable c] {s t : State} (h₁ : c → P s) (h₂ : ¬c → P t) : P (if c then s else t) := by
  split
  · exact h₁ ‹_›
  · exact h₂ ‹_›

theorem Tells.notify (K : Tells P) {s : State} (n : Notice) (h : P s) : P (s.notify n) := K.routine _ h

theorem Tells.raise (K : Tells P) {s : State} (x : Reason) (i : Nat) (q : SpeedReq) (hx : isLineReason x = false)
    (h : P s) : P (s.raise x i q) := K.alter _ _ (by simp) (by simp [hx]) h

theorem Tells.drop (K : Tells P) {s : State} (x : Reason) (i : Nat) (hx : isLineReason x = false) (h : P s) :
    P (s.drop x i) := K.alter _ _ (by simp [hx]) (by simp) h

/-! ### Plans and marks (R28, R34, R142) -/

theorem Marks.onPlan (K : Marks P) {s : State} (i : Nat) (f : Plan → Plan) (h : P s) : P (s.onPlan i f) :=
  K.knp _ (by simp [Knp.PlansOk]) h

theorem Marks.divertLate (K : Marks P) {s : State} (i : Nat) (p : Plan) (m : Nat) (h : P s) :
    P (s.divertLate i p m) := K.log _ (K.onPlan _ _ (K.urgent _ h))

theorem Marks.judgePlan (K : Marks P) {s : State} (m : Mark) (i : Nat) (h : P s) : P (s.judgePlan m i) := by
  unfold State.judgePlan
  split
  · exact h
  · exact ite_keeps (fun _ => ite_keeps (fun _ => K.divertLate _ _ _ h) fun _ => K.onPlan _ _ h) fun _ => h

theorem Marks.markReport (K : Marks P) {s : State} (m : Mark) (h : P s) : P (s.markReport m) :=
  foldl_keeps (fun _ i => K.judgePlan m i) _ h

theorem Marks.bumpSeq (K : Marks P) {s : State} (h : P s) : P s.bumpSeq :=
  K.map _ (Wmp.keeps_rest rfl fun _ => Nat.mod_lt _ (by omega)) h

theorem Marks.placeMark (K : Marks P) {s : State} (m : Mark) (h : P (s.onWmp fun w => { w with marks := place m w.marks })) :
    P (s.placeMark m) := K.markReport m h

/-- Placing a mark keeps the map's form where there is room for it (R25, R26). -/
theorem place_form {w : Wmp} {m : Mark} (hm : m.kind.isStructural = true ∨ defectCount w.marks < 32) (ok : w.MapOk) :
    Wmp.MapOk { w with marks := place m w.marks } := by
  refine ⟨place_ascending m _ ok.1, ?_, ok.2.2⟩
  have := ok.2.1
  simp only [place_defectCount]
  rcases hm with hm | hm
  · simpa [hm] using this
  · split <;> omega

theorem Marks.absorb (K : Marks P) {s : State} {i : Nat} {old wide : Mark} (newSeq : Nat) (newKind : MarkKind)
    (hi : s.wmp.marks[i]? = some old) (hs : wide.start ≤ old.start) (hk : wide.kind = old.kind)
    (hp : wide.payload = old.payload) (hc : wide.kind.isStructural = true → old.claims = [] → wide.claims = [])
    (ho : ∀ k o, wide.holdsClaim k o = true → old.holdsClaim k o = true ∨ ∀ x ∈ s.wmp.marks, x.holdsClaim k o = false)
    (h : P s) : P (s.absorb i old wide newSeq newKind) := by
  unfold State.absorb
  have : P ((s.onWmp fun w => { w with marks := putBack w.marks i old wide }).log
      (.markMerged old.seq newSeq newKind)) :=
    K.log _ (K.map _ (Wmp.keeps_replace (putBack_perm hi) (fun ok =>
      ⟨putBack_ascending ok.1 hi hs, by simpa [putBack_defectCount hi hk] using ok.2.1, ok.2.2⟩) hk hp hc ho
      (List.mem_of_getElem? hi)) h)
  exact ite_keeps (fun _ => K.markReport _ this) fun _ => this

theorem Marks.insertDefect (K : Marks P) {s : State} (m : Mark) (hm : m.kind.isStructural = false) (h : P s) :
    P (s.insertDefect m).1 := by
  unfold State.insertDefect
  split
  · exact h
  · rename_i hc
    have hn : ∀ k o, m.holdsClaim k o = true → ∀ x ∈ s.wmp.marks, x.holdsClaim k o = false := by
      intro k o hk x hx
      obtain ⟨c, hc', e⟩ := List.any_eq_true.1 hk
      have e : c.kind = k ∧ c.owner = o := by simpa using e
      rw [← e.1, ← e.2]
      by_contra hx'
      exact hc (List.any_eq_true.2 ⟨c, hc', List.any_eq_true.2 ⟨x, hx, by simpa using hx'⟩⟩)
    dsimp only
    split
    · rename_i hr
      exact K.placeMark _ (K.map _ (Wmp.keeps_defect (place_perm _ _) (place_form (.inr hr)) hn hm) (K.bumpSeq h))
    · split
      · rename_i hc hn
        exfalso
        have := nearestDefect_isSome (new := { m with seq := s.wmp.nextSeq })
          (l := s.bumpSeq.wmp.marks) (by omega)
        simp_all
      · rename_i hd
        have hd := nearestDefect_mem hd
        refine K.absorb _ _ hd.1 ?_ rfl rfl (fun e => ?_) (fun k o e => ?_) (K.bumpSeq h)
        · simp only [mergeMarks]; omega
        · exact absurd (hd.2.symm.trans e) (by simp)
        · rcases List.any_eq_true.1 e with ⟨c, hc', e⟩
          rcases List.mem_append.1 hc' with hc' | hc'
          · exact .inl (List.any_eq_true.2 ⟨c, hc', e⟩)
          · exact .inr (hn k o (List.any_eq_true.2 ⟨c, hc', e⟩))

/-- What a search over positions does not find stands at none. -/
theorem find_zipIdx_none {α : Type} {p : α → Bool} {l : List α} (h : (l.zipIdx.find? fun x => p x.1) = none) :
    ∀ x ∈ l, p x = false := by
  intro x hx
  obtain ⟨j, hj, rfl⟩ := List.getElem_of_mem hx
  simpa using List.find?_eq_none.1 h (l[j], j) (List.mem_zipIdx_iff_getElem?.2 (by simp [hj]))

theorem Marks.insertSplice (K : Marks P) {s : State} (k : Nat) (r : SpliceReason) (paper : Option Nat)
    (start length : Int) (hk : 1 ≤ k ∧ k ≤ 7) (h : P s) : P (s.insertSplice k r paper start length) := by
  unfold State.insertSplice
  dsimp only
  split
  · rename_i hf
    refine K.placeMark _ (K.map _ ?_ (K.bumpSeq h))
    refine Wmp.keeps_cons (place_perm _ _) (place_form (.inl rfl)) nofun (fun _ => rfl)
      (fun _ => ⟨k, hk.1, hk.2, by simp [Mark.isJointOf, closedMark]⟩) (fun k' e x hx => ?_) nofun nofun
    have : k = k' := by simpa [Mark.isJointOf, closedMark] using e
    subst this
    exact find_zipIdx_none hf x hx
  · rename_i old i hf
    have := List.mem_zipIdx_iff_getElem?.1 (List.mem_of_find?_eq_some hf)
    exact K.absorb _ _ this (by simp only; omega) rfl rfl (fun _ e => e) (fun _ _ e => .inl e) (K.bumpSeq h)

theorem Marks.requestPurge (K : Marks P) {s : State} (h : P s) : P s.requestPurge := by
  unfold State.requestPurge
  dsimp only
  have h' : P (s.onWmp fun w => { w with armed := true }) := K.map _ (Wmp.keeps_rest rfl fun n => n) h
  split
  · rename_i hf
    refine K.placeMark _ (K.map _ ?_ (K.bumpSeq h'))
    refine Wmp.keeps_cons (place_perm _ _) (place_form (.inl rfl)) nofun (fun _ => rfl) nofun
      (by simp [Mark.isJointOf, closedMark]) (fun _ x hx => ?_) nofun
    simpa using find_zipIdx_none (p := fun m : Mark => m.kind == .purge) hf x hx
  · rename_i old i hf
    have hi := List.mem_zipIdx_iff_getElem?.1 (List.mem_of_find?_eq_some hf)
    refine ite_keeps (fun _ => K.markReport _ (K.map _ ?_ h')) fun _ => h'
    obtain ⟨hi', e⟩ := List.getElem?_eq_some_iff.1 hi
    refine Wmp.keeps_replace (old := old) (new := { old with closedEnd := (s.line.nums.dCreate : Int) }) ?_ (fun ok => ?_) rfl rfl (fun _ e => e) (fun _ _ e => .inl e)
      (List.mem_of_getElem? hi)
    · have := putBack_perm (new := { old with closedEnd := (s.line.nums.dCreate : Int) }) hi
      rwa [putBack, if_neg (by simp)] at this
    · refine ⟨set_ascending ok.1 hi rfl, Eq.trans_le ?_ ok.2.1, ok.2.2⟩
      exact set_defectCount hi rfl

theorem Marks.closeClaim (K : Marks P) {s : State} (k : ClaimKind) (o : Nat) (x : Int) (h : P s) :
    P (s.closeClaim k o x) := by
  refine K.map _ ⟨fun ok => ⟨filterMap_ascending ?_ ok.1, le_trans (filterMap_defectCount ?_) ok.2.1, ok.2.2⟩,
    fun ok => marksOk_filterMap rfl ?_ ok, fun ok => ?_⟩ h
  case refine_4 =>
    unfold kindCount
    refine Nat.le_antisymm (countP_filterMap_le ?_ _) ?_
    · intro a b hab hb
      split at hab
      · dsimp only at hab
        split at hab
        · cases hab
        · cases hab; exact hb
      · cases hab; exact hb
    · refine countP_le_filterMap fun m hm hb => ⟨m, ?_, hb⟩
      have : m.claims = [] := ok.closed m hm (by rw [show m.kind = .boundary by simpa using hb]; rfl)
      simp [Mark.holdsClaim, this]
  all_goals
    intro a b hab
    split at hab
    · dsimp only at hab
      split at hab
      · cases hab
      · cases hab
        first
          | rfl
          | exact ⟨rfl, rfl, fun c hc => (List.mem_filter.1 hc).1⟩
    · cases hab
      first
        | rfl
        | exact ⟨rfl, rfl, fun _ hc => hc⟩

theorem Marks.askDwell (K : Marks P) {s : State} (h : P s) : P s.askDwell.1 := by
  unfold State.askDwell
  dsimp only
  split
  · exact K.insertDefect _ rfl h
  · exact h

theorem Marks.loseMap (K : Marks P) {s : State} (h : P s) : P s.loseMap := K.map _ (Wmp.keeps_rest rfl fun n => n) h

end Sys2Proof.Machine
end

