-- ==== Sys2Proof/Laws/Orders.lean ====
section
/-! SUPPORT. What the Stacker Link and the Order Sequencer keep (R41 to R63, R148 to R155). -/

namespace Sys2Proof.Machine

variable {P : State → Prop}

/-! ### Tables -/

theorem put_toList {α : Type} {n : Nat} (v : Vector α n) (i : Nat) (x : α) : (put v i x).toList = v.toList.set i x := by
  unfold put; simp

/-- A change of an entry that leaves a part of it alone leaves that part of the table alone. -/
theorem modify_map {α β : Type} {n : Nat} (g : α → β) (v : Vector α n) (i : Nat) (f : α → α) (h : ∀ x, g (f x) = g x) :
    (modify v i f).toList.map g = v.toList.map g := by
  unfold modify
  split
  · rename_i x hx
    rw [put_toList, List.map_set, h]
    have : (v.toList.map g)[i]? = some (g x) := by simp [hx]
    obtain ⟨hi, e⟩ := List.getElem?_eq_some_iff.1 this
    rw [← e, List.set_getElem_self]
  · rfl

/-! ### Slots (R41, R42) -/

theorem slotAt_modify (o : Osq) (i j : Nat) (f : Slot → Slot) :
    Osq.slotAt { o with slots := modify o.slots i f } j = if j = i ∧ i < 64 then f (o.slotAt i) else o.slotAt j := by
  unfold Osq.slotAt modify
  by_cases hi : i < 64
  · simp only [Vector.getElem?_eq_getElem hi, put, Vector.getElem?_setIfInBounds]
    by_cases e : j = i
    · simp [e, hi]
    · simp [e, Ne.symm e]
  · simp [hi]

theorem slotAt_other (o : Osq) {i j : Nat} (f : Slot → Slot) (h : j ≠ i) :
    Osq.slotAt { o with slots := modify o.slots i f } j = o.slotAt j := by
  rw [slotAt_modify, if_neg fun e => h e.1]

theorem slotAt_self (o : Osq) {i : Nat} (f : Slot → Slot) (h : i < 64) :
    Osq.slotAt { o with slots := modify o.slots i f } i = f (o.slotAt i) := by
  rw [slotAt_modify, if_pos ⟨rfl, h⟩]

/-- A slot that a segment holds is not EMPTY, so its number is one of the table's. -/
theorem slotAt_lt {o : Osq} {i : Nat} (h : (o.slotAt i).state ≠ .empty) : i < 64 := by
  by_contra hi
  exact h (by simp [Osq.slotAt, Vector.getElem?_eq_none (Nat.le_of_not_lt hi), Slot.blank])

/-- What the lists say of the slots says it of any table of the same lists whose slots are in the same states, with as many
segments in flight. -/
theorem tableOk_congr {a b : Osq} {l : List (Option Nat)} (hq : b.queue = a.queue) (hr : b.rush = a.rush)
    (hh : b.held = a.held) (hs : ∀ i, (b.slotAt i).state = (a.slotAt i).state)
    (hf : ∀ i, (b.slotAt i).inFlight = (a.slotAt i).inFlight) (h : a.TableOk l) : b.TableOk l where
  once := hq ▸ h.once
  queued i hi := (hs i).trans (h.queued i (hq ▸ hi))
  rush i hi := ⟨hq ▸ (h.rush i (hr ▸ hi)).1, (hs i).trans (h.rush i (hr ▸ hi)).2⟩
  heldOnce := hh ▸ h.heldOnce
  suspended i hi := (hs i).trans (h.suspended i (hh ▸ hi))
  web i hi := by rw [hs i]; exact h.web i hi
  flight i := (hf i).trans (h.flight i)
  lead i hi := (hs i).trans (h.lead i hi)

/-- What the lists say of the slots, where one slot that none of them names changes. -/
theorem tableOk_unnamed {o : Osq} {l : List (Option Nat)} {i : Nat} {f : Slot → Slot} (hq : i ∉ o.queue)
    (hr : o.rush ≠ some i) (hh : i ∉ o.held) (hl : some i ∉ l) (hf : i < 64 → (f (o.slotAt i)).inFlight = 0)
    (h : o.TableOk l) : Osq.TableOk { o with slots := modify o.slots i f } l := by
  have other : ∀ j, j ≠ i → Osq.slotAt { o with slots := modify o.slots i f } j = o.slotAt j := fun j hj =>
    slotAt_other o f hj
  constructor
  · exact h.once
  · exact fun j hj => by rw [other j (fun e => hq (e ▸ hj))]; exact h.queued j hj
  · exact fun j hj => by rw [other j (fun e => hr (e ▸ hj))]; exact h.rush j hj
  · exact h.heldOnce
  · exact fun j hj => by rw [other j (fun e => hh (e ▸ hj))]; exact h.suspended j hj
  · exact fun j hj => by rw [other j (fun e => hl (e ▸ hj))]; exact h.web j hj
  · intro j
    by_cases e : j = i
    · subst e
      rw [slotAt_modify]
      split
      · rename_i hc; rw [hf hc.2]; exact (List.count_eq_zero.2 hl).symm
      · exact h.flight j
    · rw [other j e]; exact h.flight j
  · exact fun j hj => by rw [other j (fun e => hl (e ▸ List.mem_of_getLast? hj))]; exact h.lead j hj

/-- A slot's counters, but for its state and what is in flight. -/
theorem Osq.keeps_slot (o : Osq) (i : Nat) (f : Slot → Slot) (hs : ∀ x, (f x).state = x.state)
    (hf : ∀ x, (f x).inFlight = x.inFlight) : o.Keeps { o with slots := modify o.slots i f } where
  orders := rfl
  queue := rfl
  rush := rfl
  held := rfl
  table l h := by
    refine tableOk_congr (a := o) rfl rfl rfl (fun j => ?_) (fun j => ?_) h
    all_goals
      rw [slotAt_modify]
      split
      · rename_i e; simp [e.1, hs, hf]
      · rfl

/-- An order ON_WEB that no segment holds leaves that state. -/
theorem Osq.keeps_close (o : Osq) (i : Nat) (f : Slot → Slot) (hs : (o.slotAt i).state = .onWeb)
    (hn : (o.slotAt i).inFlight = 0) (hf : ∀ x, (f x).inFlight = x.inFlight) :
    o.Keeps { o with slots := modify o.slots i f } where
  orders := rfl
  queue := rfl
  rush := rfl
  held := rfl
  table l h := by
    refine tableOk_unnamed (fun e => ?_) (fun e => ?_) (fun e => ?_) ?_ (fun _ => (hf _).trans hn) h
    · have := (h.queued i e).symm.trans hs; cases this
    · have := (h.rush i e).2.symm.trans hs; cases this
    · have := (h.suspended i e).symm.trans hs; cases this
    · exact List.count_eq_zero.1 ((h.flight i).symm.trans hn)

/-- Segments that keep their orders. -/
theorem Osq.keeps_segments (o : Osq) (l : List Segment)
    (h : (l.map fun g => g.order) = o.segments.map fun g => g.order) : o.Keeps { o with segments := l } where
  orders := h
  queue := rfl
  rush := rfl
  held := rfl
  table _ ok := tableOk_congr (a := o) rfl rfl rfl (fun _ => rfl) (fun _ => rfl) ok

/-! ### The Stacker Link -/

namespace Counts

theorem onPile (K : Counts P) {s : State} (i : Nat) (f : Pile → Pile) (h : P s) : P (s.onPile i f) :=
  K.stk _ (fun ok => ok) h

theorem examineSetDown (K : Counts P) {s : State} (h : P s) : P s.examineSetDown := by
  unfold State.examineSetDown
  split
  · exact h
  · exact ite_keeps (fun _ => K.stk _ (fun ok => ok) (K.routine _ h)) fun _ => h

theorem placeSetDown (K : Counts P) {s : State} (d : SetDown) (h : P s) : P (s.placeSetDown d) := by
  unfold State.placeSetDown
  split
  · rename_i hq
    exact K.examineSetDown (K.stk _ (fun ok => ⟨by simp, fun ho => by have := ok.2 ho; simp [hq] at this⟩) h)
  · rename_i x hq
    exact K.stk _ (fun _ => ⟨by simp, by simp⟩) h
  · rename_i x y l hq
    refine ite_keeps (fun _ => ?_) fun _ => K.notify _ (K.hand _ _ h)
    refine K.raise _ _ _ rfl (K.stk _ (fun ok => ⟨ok.1, fun _ => ?_⟩) h)
    have := ok.1
    simp only [hq, List.length_cons] at *
    omega

theorem countIntoStack (K : Counts P) {s : State} (i : Nat) (h : P s) : P (s.countIntoStack i) := by
  unfold State.countIntoStack
  split
  · exact h
  · exact ite_keeps (fun _ => K.placeSetDown _ (K.onPile _ _ h)) fun _ => K.onPile _ _ h

theorem finalSetDown (K : Counts P) {s : State} (i : Nat) (h : P s) : P (s.finalSetDown i) :=
  ite_keeps (fun _ => h) fun _ => K.placeSetDown _ (K.onPile _ _ h)

theorem completeSetDown (K : Counts P) {s : State} (h : P s) : P s.completeSetDown := by
  unfold State.completeSetDown
  split
  · exact h
  · rename_i d rest hq
    dsimp only
    refine K.examineSetDown (ite_keeps (fun _ => K.notify _ ?_) fun _ => ?_)
    all_goals
      split
      · rename_i ho
        exact K.stk _ (fun ok => ⟨by have := ok.1; simp [hq] at this ⊢; omega, by simp [ho]⟩) h
      · rename_i x ho
        refine K.drop _ _ rfl (K.stk _ (fun ok => ⟨?_, by simp⟩) h)
        have := ok.1
        simp only [hq, List.length_cons, List.length_append, List.length_nil] at *
        omega

theorem resendSetDown (K : Counts P) {s : State} (h : P s) : P s.resendSetDown := by
  unfold State.resendSetDown
  split
  · exact K.stk _ (fun ok => ok) (K.routine _ h)
  · exact h

theorem moveHead (K : Counts P) {s : State} (n : Nat) (h : P s) : P (s.moveHead n) := by
  have hd : ∀ x, P (s.onStk fun k => { k with head := x }) := fun x => K.stk _ (fun ok => ok) h
  unfold State.moveHead
  split
  · exact h
  · exact K.examineSetDown h
  · split
    · exact ite_keeps (fun _ => hd _) fun _ => h
    · exact ite_keeps (fun _ => K.completeSetDown h) fun _ =>
        ite_keeps (fun _ => K.resendSetDown h) fun _ => hd _
    all_goals exact h
  · split
    · exact ite_keeps (fun _ => K.completeSetDown h) fun _ => h
    all_goals exact h

theorem stackEvent (K : Counts P) {s : State} (n : Nat) (r : StackReport) (c : Nat) (h : P s) :
    P (s.stackEvent n r c) := by
  have h' : P (s.onStk fun k => { k with state := trackedStacker r, tracked := c }) := K.stk _ (fun ok => ok) h
  exact K.moveHead _ (ite_keeps (fun _ => K.notify _ h') fun _ => h')

theorem stackStale (K : Counts P) {s : State} (h : P s) : P s.stackStale := K.stk _ (fun ok => ok) h

/-! ### The Order Sequencer -/

theorem onSlot (K : Counts P) {s : State} (i : Nat) (f : Slot → Slot) (hs : ∀ x, (f x).state = x.state)
    (hf : ∀ x, (f x).inFlight = x.inFlight) (h : P s) : P (s.onSlot i f) := K.osq _ (s.osq.keeps_slot i f hs hf) h

theorem onSegments (K : Counts P) {s : State} (t : Segment → Bool) (f : Segment → Segment)
    (hf : ∀ x, (f x).order = x.order) (h : P s) : P (s.onSegments t f) := by
  refine K.osq _ (s.osq.keeps_segments _ ?_) h
  rw [List.map_map]
  refine List.map_congr_left fun x _ => ?_
  simp only [Function.comp]
  split
  · exact hf x
  · rfl

theorem closeOrder (K : Counts P) {s : State} (i : Nat) (r : OrderRec) (hs : (s.slot i).state = .onWeb)
    (hn : (s.slot i).inFlight = 0) (h : P s) : P (s.closeOrder i r) := by
  refine K.finalSetDown _ (K.notify _ (K.log _ (K.osq _ (s.osq.keeps_close i _ hs hn ?_) h)))
  exact fun _ => rfl

theorem testClose (K : Counts P) {s : State} (i : Nat) (h : P s) : P (s.testClose i) := by
  unfold State.testClose
  split
  · exact h
  · exact ite_keeps (fun hc => K.closeOrder _ _ hc.1 hc.2.1 h) fun _ => h

theorem reportPlan (K : Counts P) {s : State} (p : Plan) (h : P s) : P (s.reportPlan p) := by
  unfold State.reportPlan
  split
  · exact h
  · refine ite_keeps (fun _ => K.onSlot _ _ ?_ ?_ (K.onSegments _ _ ?_ h)) fun _ => K.onSlot _ _ ?_ ?_ h
    all_goals exact fun _ => rfl

theorem withdrawPlan (K : Counts P) {s : State} (p : Plan) (h : P s) : P (s.withdrawPlan p) := by
  unfold State.withdrawPlan
  split
  · exact h
  · refine K.testClose _ (ite_keeps (fun _ => K.onSlot _ _ ?_ ?_ (K.onSegments _ _ ?_ h)) fun _ => K.onSlot _ _ ?_ ?_ h)
    all_goals exact fun _ => rfl

theorem reportOutcome (K : Counts P) {s : State} (o : Option Nat) (x : CutOutcome) (h : P s) :
    P (s.reportOutcome o x) := by
  unfold State.reportOutcome
  split
  · exact h
  · refine K.testClose _ ?_
    have hc : ∀ i, P (s.onSlot i fun o => o.count x) := fun i =>
      K.onSlot _ _ (fun o => by cases x <;> rfl) (fun o => by cases x <;> rfl) h
    cases x
    · exact K.countIntoStack _ (hc _)
    · exact K.countIntoStack _ (hc _)
    all_goals exact hc _

theorem rejected (K : Counts P) {s : State} (i : Nat) (f : CheckFailure) (h : P s) : P (s.rejected i f) :=
  K.log _ (K.notify _ h)

end Counts

/-! ### Selection, for what depends on no slot and no list but their lengths -/

/-- P is also kept by any update of the order table that keeps the number of its segments and the bounds of its lists. -/
structure Frees (P : State → Prop) : Prop extends Counts P where
  free : ∀ {s : State} (f : Osq → Osq), (f s.osq).segments.length = s.osq.segments.length →
    (s.osq.ListsOk → (f s.osq).ListsOk) → P s → P (s.onOsq f)

namespace Frees

theorem anySlot (K : Frees P) {s : State} (i : Nat) (f : Slot → Slot) (h : P s) : P (s.onSlot i f) :=
  K.free _ rfl (fun ok => ok) h

theorem select (K : Frees P) (fuel : Nat) {s : State} (h : P s) : P (State.select fuel s).1 := by
  induction fuel generalizing s with
  | zero => exact h
  | succ fuel ih =>
    unfold State.select
    split
    · dsimp only
      have ht : P (s.onOsq fun o => { o with rush := none }) := K.free _ rfl (fun ok => ok) h
      split
      · exact K.anySlot _ _ ht
      · exact ih (K.rejected _ _ (K.anySlot _ _ ht))
    · split
      · rename_i i rest he
        dsimp only
        have ht : P (s.onOsq fun o => { o with held := rest }) := K.free _ rfl (fun ok => ok) h
        split
        · exact K.anySlot _ _ ht
        · exact ih (K.testClose _ (K.rejected _ _ (K.anySlot _ _ ht)))
      · split
        · rename_i i rest hq
          dsimp only
          have ht : P (s.onOsq fun o => { o with queue := rest }) :=
            K.free _ rfl (fun ok => ⟨ok.1, ok.2.1, by have := ok.2.2; simp [hq] at this ⊢; omega⟩) h
          split
          · exact K.anySlot _ _ ht
          · exact ih (K.rejected _ _ (K.anySlot _ _ ht))
        · exact h

theorem suspendLead (K : Frees P) {s : State} (h : P s) : P s.suspendLead := by
  unfold State.suspendLead
  split
  · exact h
  · exact K.anySlot _ _ (K.free _ rfl (fun ok => ok) h)

theorem closeLead (K : Frees P) {s : State} (g : Segment) (seq : Nat) (b : Bool) (h : P s) :
    P (s.closeLead g seq b) :=
  ite_keeps (fun _ => K.suspendLead (K.onSegments _ _ (fun _ => rfl) h)) fun _ => K.onSegments _ _ (fun _ => rfl) h

end Frees

end Sys2Proof.Machine
end

