-- ==== Sys2Proof/Laws/Stations.lean ====
section
/-! SUPPORT. What the Changeover Unit, the Splice Planner and the Heat and Glue Regulator keep (R73 to R125). -/

namespace Sys2Proof.Machine

variable {P : State → Prop}

namespace Runs

/-! ### The Changeover Unit -/

theorem sendPreset (K : Runs P) {s : State} (st : Slitter) (p : Preset) (h : P s) : P (s.sendPreset st p) :=
  K.chg _ (K.routine _ h)

theorem openSlit (K : Runs P) {s : State} (st : Slitter) (x : Int) (h : P s) : P (s.openSlit st x) :=
  ite_keeps (fun _ => h) fun _ => K.insertDefect _ rfl h

theorem closeSlit (K : Runs P) {s : State} (st : Slitter) (h : P s) : P (s.closeSlit st) :=
  ite_keeps (fun _ => h) fun _ => K.closeClaim _ _ _ h

theorem endCause (K : Runs P) {s : State} (st : Slitter) (h : P s) : P (s.endCause st) :=
  ite_keeps (fun _ => h) fun _ => K.closeSlit _ (K.chg _ h fun ok => by cases st <;> exact ok)

theorem openZone (K : Runs P) {s : State} (r : ChangeRec) (h : P s) : P (s.openZone r) :=
  ite_keeps (fun _ => h) fun _ => K.raise _ _ _ rfl (K.chg _ (K.openSlit _ _ h))

theorem settleZone (K : Runs P) {s : State} (h : P s) : P s.settleZone := by
  unfold State.settleZone
  split
  · exact h
  · exact ite_keeps (fun _ => h) fun _ => K.drop _ _ rfl (K.closeSlit _ (K.chg _ h))

theorem forecastFor (K : Runs P) {s : State} (c : Option Nat) (h : P s) : P (s.forecastFor c) := by
  have hn : P (s.onChg fun c => { c with forecast := none }) := K.chg _ h
  unfold State.forecastFor
  dsimp only
  refine ite_keeps (fun _ => hn) fun _ => ?_
  split
  · exact hn
  · exact ite_keeps (fun _ => hn) fun _ => ite_keeps (fun _ => h) fun _ => K.chg _ (K.sendPreset _ _ h)

theorem presetHead (K : Runs P) {s : State} (h : P s) : P s.presetHead := by
  unfold State.presetHead
  split
  · exact h
  · rename_i e
    refine ite_keeps (fun _ => h) fun _ => K.chg _ (K.sendPreset _ _ h) fun ok => ?_
    simpa [Chg.RecordsOk, State.sendPreset, e] using ok

theorem makeRoom_length (l : List ChangeRec) : (makeRoom l).length ≤ 3 := by
  unfold makeRoom
  split
  · omega
  · simp [List.length_take]

theorem newRecord (K : Runs P) {s : State} (x : Setting) (seq : Nat) (z : Int) (h : P s) :
    P (s.newRecord x seq z).1 := by
  unfold State.newRecord
  dsimp only
  have h₀ : P (s.onChg fun c => { c with idCounter := nextId s.chg.idCounter }) := K.chg _ h
  split
  · exact h₀
  · refine K.presetHead (K.chg _ h₀ fun _ => ?_)
    have := makeRoom_length s.chg.records
    simp only [Chg.RecordsOk, List.length_append, List.length_cons, List.length_nil]
    exact Nat.succ_le_succ this

theorem decideFlying (K : Runs P) {s : State} (i : Option Nat) (seq : Nat) (x : Int) (h : P s) :
    P (s.decideFlying i seq x).1 := by
  unfold State.decideFlying
  split
  · exact h
  · split
    · exact h
    · rename_i x _ _
      have h₀ : P (s.onChg fun c => { c with expected := some x }) := K.chg _ h
      dsimp only
      split
      · split
        · exact K.chg (fun c => { c with forecast := none, records := _ }) h₀ fun _ => by simp [Chg.RecordsOk]
        · exact K.newRecord _ _ _ h₀
      · exact K.newRecord _ _ _ h₀

theorem onHead (K : Runs P) {s : State} {r : ChangeRec} {rest : List ChangeRec} (e : s.chg.records = r :: rest)
    (x : ChangeRec) (h : P s) : P (s.onChg fun c => { c with records := x :: rest }) :=
  K.chg _ h fun ok => by simpa [Chg.RecordsOk, e] using ok

theorem sendSwap (K : Runs P) {s : State} {r : ChangeRec} {rest : List ChangeRec} (e : s.chg.records = r :: rest)
    (st : Slitter) (h : P s) : P (s.sendSwap r st rest) :=
  K.chg _ (K.urgent _ h) fun ok => by simpa [Chg.RecordsOk, e] using ok

theorem trySwap (K : Runs P) {s : State} (h : P s) : P s.trySwap := by
  unfold State.trySwap
  split
  · exact h
  · rename_i e
    split
    · split
      · exact ite_keeps (fun _ => K.openZone _ (K.sendSwap e _ h)) fun _ => K.sendSwap e _ h
      · exact K.openZone _ (K.onHead e _ h)
    · exact K.openZone _ (K.onHead e _ h)

theorem examineCrossed (K : Runs P) {s : State} (h : P s) : P s.examineCrossed := by
  unfold State.examineCrossed
  split
  · exact h
  · exact ite_keeps (fun _ => K.trySwap h) fun _ => h

theorem crossSlitter (K : Runs P) {s : State} (m : Mark) (h : P s) : P (s.crossSlitter m) := by
  unfold State.crossSlitter
  split
  · exact h
  · rename_i r hf
    refine ite_keeps (fun _ => h) fun _ => ?_
    dsimp only
    have parts : ((s.chg.records.takeWhile fun x => !(x.boundary == m.seq)).filter fun x => x.status == .swapping).length
        + ((s.chg.records.dropWhile fun x => !(x.boundary == m.seq)).drop 1).length + 1 ≤ s.chg.records.length := by
      have h₁ := List.length_filter_le (fun x : ChangeRec => x.status == .swapping)
        (s.chg.records.takeWhile fun x => !(x.boundary == m.seq))
      have h₂ := congrArg List.length
        (List.takeWhile_append_dropWhile (p := fun x : ChangeRec => !(x.boundary == m.seq)) (l := s.chg.records))
      have h₃ : (s.chg.records.dropWhile fun x => !(x.boundary == m.seq)) ≠ [] := fun hn => by
        have hm := List.mem_of_find?_eq_some hf
        have ht := List.find?_some hf
        have := List.dropWhile_eq_nil_iff.1 hn r hm
        simp_all
      have h₄ := List.length_pos_iff.2 h₃
      simp only [List.length_append, List.length_drop] at *
      omega
    refine ite_keeps (fun _ => K.trySwap (K.presetHead (K.chg _ h fun ok => ?_))) fun _ =>
      K.openZone _ (K.chg _ h fun ok => ?_)
    · simp only [Chg.RecordsOk, List.length_cons] at *; omega
    · simp only [Chg.RecordsOk, List.length_append, List.length_cons] at *; omega

theorem swapExpired (K : Runs P) {s : State} (h : P s) : P s.swapExpired := by
  unfold State.swapExpired
  split
  · exact h
  · rename_i e
    refine ite_keeps (fun _ => K.openZone _ (K.chg _ (K.hand _ _ h) fun ok => ?_)) fun _ => h
    simpa [Chg.RecordsOk, e] using ok

theorem tickSwap (K : Runs P) {s : State} (n : Nat) (h : P s) : P (s.tickSwap n) := K.chg _ h

theorem swapDue (K : Runs P) {s : State} (h : P s) : P s.swapDue := ite_keeps (fun _ => K.swapExpired h) fun _ => h

theorem engage (K : Runs P) {s : State} (st : Slitter) (h : P s) : P (s.engage st) :=
  ite_keeps (fun _ => K.endCause _ (K.chg _ h)) fun _ => K.chg _ h

theorem endUntilSwap (K : Runs P) {s : State} (st : Slitter) (h : P s) : P (s.endUntilSwap st) :=
  ite_keeps (fun _ => K.endCause _ h) fun _ => h

theorem engage_records (s : State) (st : Slitter) : (s.engage st).chg.records = s.chg.records := by
  unfold State.engage State.endCause State.closeSlit
  dsimp only
  repeat' split
  all_goals cases st <;> rfl

theorem confirmSwap (K : Runs P) {s : State} {r : ChangeRec} {rest : List ChangeRec} (e : s.chg.records = r :: rest)
    (st : Slitter) (h : P s) : P (s.confirmSwap r st rest) := by
  unfold State.confirmSwap
  dsimp only
  have h₁ := K.engage st (K.chg (fun c => { c with timer := 0 }) h)
  have h₂ := K.chg (fun c => { c with records := rest }) h₁ fun ok => by
    simp only [Chg.RecordsOk, engage_records, State.onChg_chg, e, List.length_cons] at ok ⊢
    omega
  have := K.settleZone (K.examineCrossed (K.presetHead (K.endUntilSwap .b (K.endUntilSwap .a
    (K.log (.swap r.boundary st r.preset.id) h₂)))))
  exact ite_keeps (fun _ => K.forecastFor _ this) fun _ => this

theorem represet (K : Runs P) {s : State} (st : Slitter) (x : Option SlitterState) (h : P s) : P (s.represet st x) := by
  unfold State.represet
  split
  · exact h
  · exact ite_keeps (fun _ => K.sendPreset _ _ h) fun _ => h

theorem slitterLeft (K : Runs P) {s : State} (st : Slitter) (h : P s) : P (s.slitterLeft st) :=
  K.notify _ (ite_keeps (fun _ => K.chg _ (K.openSlit _ _ h) fun ok => by cases st <;> exact ok) fun _ => h)

theorem slitterBack (K : Runs P) {s : State} (st : Slitter) (h : P s) : P (s.slitterBack st) :=
  ite_keeps (fun _ => ite_keeps (fun _ => K.endCause _ h) fun _ => h) fun _ => K.chg _ h fun ok => by
    split
    · cases st <;> exact ok
    · exact ok

theorem learnSetting (K : Runs P) {s : State} (st : Slitter) (h : P s) : P (s.learnSetting st) := by
  unfold State.learnSetting
  split
  · refine K.chg _ (K.openSlit _ _ h) fun ok => ?_
    split
    · exact ok
    · cases st <;> exact ok
  · exact ite_keeps (fun _ => K.chg _ h) fun _ => h

theorem retarget (K : Runs P) {s : State} (st : Slitter) (h : P s) : P (s.retarget st) := by
  unfold State.retarget
  split
  · exact h
  · rename_i e
    exact ite_keeps (fun _ => K.examineCrossed (K.presetHead (K.onHead e _ h))) fun _ => h

theorem slitterUnplanned (K : Runs P) {s : State} (st : Slitter) (h : P s) : P (s.slitterUnplanned st) :=
  K.retarget _ (K.learnSetting _ (K.notify _ (K.engage _ h)))

theorem stationEvent (K : Runs P) {s : State} (old : Chg) (confirmed : Option Slitter) (st : Slitter) (h : P s) :
    P (s.stationEvent old confirmed st) := by
  unfold State.stationEvent
  dsimp only
  refine ite_keeps (fun _ => h) fun _ => ite_keeps (fun _ => ?_) fun _ =>
    ite_keeps (fun _ => K.slitterUnplanned _ h) fun _ => h
  split
  · exact ite_keeps (fun _ => K.slitterBack _ h) fun _ => h
  · exact K.slitterLeft _ h
  · exact ite_keeps (fun _ => h) fun _ => K.slitterLeft _ h

theorem track_records (c : Chg) (st : Slitter) (x : SlitterState) : (c.track st x).records = c.records := by
  unfold Chg.track
  cases x <;> cases st <;> simp only [Chg.setState, Chg.setHeld] <;> split <;> rfl

theorem trackReport (K : Runs P) {s : State} (st : Slitter) (x : Option SlitterState) (h : P s) :
    P (s.trackReport st x) := by
  unfold State.trackReport
  split
  · exact K.chg _ h fun ok => by rw [Chg.RecordsOk, track_records]; exact ok
  · exact h

theorem confirming_records {old new : Chg} {r : ChangeRec} {st : Slitter} {rest : List ChangeRec}
    (h : Chg.confirming old new = some (r, st, rest)) : new.records = r :: rest := by
  unfold Chg.confirming at h
  split at h
  · cases h
  · split at h
    · cases h
    · split at h
      · cases h; assumption
      · cases h

theorem takeConfirmation (K : Runs P) {s : State} (old : Chg) (h : P s) : P (s.takeConfirmation old) := by
  unfold State.takeConfirmation
  split
  · exact K.confirmSwap (confirming_records (by assumption)) _ h
  · exact h

theorem reforecast (K : Runs P) {s : State} (old : Chg) (h : P s) : P (s.reforecast old) :=
  ite_keeps (fun _ => h) fun _ => K.forecastFor _ h

theorem judgeConflict (K : Runs P) {s : State} (h : P s) : P s.judgeConflict :=
  ite_keeps (fun _ => K.hand _ _ h) fun _ => h

theorem slitterEvent (K : Runs P) {s : State} (a b : Option SlitterState) (h : P s) : P (s.slitterEvent a b) :=
  K.judgeConflict (K.reforecast _ (K.examineCrossed (K.stationEvent _ _ .b (K.stationEvent _ _ .a
    (K.takeConfirmation _ (K.represet _ _ (K.represet _ _ (K.trackReport _ _ (K.trackReport _ _ h)))))))))

theorem slitterStale (K : Runs P) {s : State} (st : Slitter) (h : P s) : P (s.slitterStale st) := by
  cases st <;> exact K.slitterEvent _ _ h

theorem swapAdvance (K : Runs P) {s : State} (h : P s) : P s.swapAdvance := by
  unfold State.swapAdvance
  split
  · exact K.openZone _ h
  · exact h

theorem chgLineReset (K : Runs P) {s : State} (h : P s) : P s.chgLineReset := by
  have h₀ : P (s.onChg fun c => { c with timer := 0, blocked := false }) := K.chg _ h
  unfold State.chgLineReset
  dsimp only
  refine K.examineCrossed ?_
  split
  · rename_i e
    exact ite_keeps (fun _ => K.openZone _ (K.onHead e _ h₀)) fun _ => h₀
  · exact h₀

theorem dropSlitter (K : Runs P) {s : State} (h : P s) : P s.dropSlitter := by
  have close : ∀ {t : State} (c : Prop) [Decidable c] (o : Nat) (d : Int), P t →
      P (if c then t.closeClaim .wrongSlit o d else t) :=
    fun c _ o d ht => ite_keeps (fun _ => K.closeClaim _ _ _ ht) fun _ => ht
  exact K.drop _ _ rfl (K.chg _ (close _ _ _ (close _ _ _ h)) fun _ => by simp [Chg.RecordsOk])

/-! ### The Splice Planner -/

end Runs

/-- What SPL's alteration of the reason set may touch. -/
theorem syncReasons_only (s : State) (l : List Nat) :
    ∃ (w : Wtr) (k : Rif) (z : Bool) (h : List FaultReport),
      s.syncReasons l = { s with wtr := w, rif := k, lineStop := z, handed := h } := s.alter_only _ _

/-- A drop of an instance that is not held leaves the set as it is (R15). -/
theorem dropReason_absent {r : Reason} {i : Nat} {l : List Raised}
    (h : (l.any fun x => x.reason == r && x.inst == i) = false) : dropReason r i l = l := by
  refine List.filter_eq_self.2 fun x hx => ?_
  have := List.any_eq_false.1 h x hx
  simpa [imp_iff_not_or] using this

/-- Where the stands call for no reason and hold none, SPL's alteration changes nothing (R15, R18). -/
theorem syncReasons_quiet {s : State} {l : List Nat} (h : s.RequestOk)
    (hq : ∀ i ∈ l, ∀ x ∈ s.standReasons i, x.2 = false ∧ s.holds x.1.reason x.1.inst = false) :
    s.syncReasons l = s := by
  have none_called : (l.flatMap s.standReasons).filter (fun x => x.2) = [] := by
    refine List.filter_eq_nil_iff.2 fun x hx => ?_
    obtain ⟨i, hi, hx⟩ := List.mem_flatMap.1 hx
    simp [(hq i hi x hx).1]
  have drops : ∀ d : List (Reason × Nat), (∀ x ∈ d, s.holds x.1 x.2 = false) →
      d.foldl (fun l x => dropReason x.1 x.2 l) s.wtr.reasons = s.wtr.reasons := by
    intro d hd
    induction d with
    | nil => rfl
    | cons x d ih =>
      rw [List.foldl_cons, dropReason_absent (hd x List.mem_cons_self)]
      exact ih fun y hy => hd y (List.mem_cons_of_mem _ hy)
  unfold State.syncReasons State.alter
  dsimp only
  rw [none_called, drops _ (by
    simp only [List.mem_map, List.mem_filter, List.mem_flatMap]
    rintro y ⟨x, ⟨⟨i, hi, hx⟩, -⟩, rfl⟩
    exact (hq i hi x hx).2)]
  obtain ⟨h₁, h₂, h₃⟩ := h
  unfold State.setReasons
  simp only [List.map_nil, List.foldl_nil]
  rw [if_pos h₁.symm]
  have : (strongest s.wtr.reasons == SpeedReq.stop || s.rif.ring == .lost) = s.lineStop := by
    rw [Bool.eq_iff_iff, h₃, h₁]; simp
  unfold State.syncLineStop State.onWtr
  dsimp only
  rw [this, ← h₁, ← h₂]

namespace Runs

theorem onStand (K : Runs P) {s : State} (i : Nat) (f : Stand → Stand) (hf : ∀ x, (f x).cfg = x.cfg) (h : P s) :
    P (s.onStand i f) := K.spl _ (modify_map _ _ _ _ hf) h

theorem syncReasons (K : Runs P) {s : State} (l : List Nat) (h : P s) : P (s.syncReasons l) := by
  have line : ∀ x ∈ l.flatMap s.standReasons, isLineReason x.1.reason = false := by
    simp only [List.mem_flatMap, State.standReasons]
    rintro x ⟨i, -, hx⟩
    rcases List.mem_pair.1 hx with rfl | rfl <;> rfl
  refine K.alter _ _ ?_ ?_ h
  · simp only [List.mem_map, List.mem_filter]
    rintro y ⟨x, hx, rfl⟩
    exact line x hx.1
  · simp only [List.mem_map, List.mem_filter]
    rintro y ⟨x, hx, rfl⟩
    exact line x hx.1

theorem sendSplice (K : Runs P) {s : State} (i : Nat) (c : StandCfg) (r : SpliceReason) (x : Spare) (h : P s) :
    P (s.sendSplice i c r x) := K.onStand _ _ (fun _ => rfl) (K.urgent _ h)

theorem examine (K : Runs P) {s : State} (i : Nat) (h : P s) : P (s.examine i) := by
  unfold State.examine
  dsimp only
  split
  · exact h
  · refine ite_keeps (fun _ => ?_) fun _ => h
    split
    · exact K.onStand _ _ (fun _ => rfl) h
    · split
      · exact K.sendSplice _ _ _ _ h
      · have : P (s.onStand i fun st => { st with splice := .due }) := K.onStand _ _ (fun _ => rfl) h
        exact ite_keeps (fun _ => K.notify _ this) fun _ => this

theorem examineAll (K : Runs P) {s : State} (h : P s) : P s.examineAll :=
  K.syncReasons _ (foldl_keeps (fun _ i => K.examine i) _ h)

theorem judgeRunout (K : Runs P) {s : State} (i : Nat) (h : P s) : P (s.judgeRunout i) := by
  unfold State.judgeRunout
  dsimp only
  split
  · exact h
  · exact ite_keeps (fun _ => K.hand _ _ h) fun _ => h

theorem syncDemand (K : Runs P) {s : State} (i : Nat) (h : P s) : P (s.syncDemand i) :=
  K.onStand _ _ (fun x => by split <;> rfl) h

theorem judgePaper (K : Runs P) {s : State} (i : Nat) (a b : Int) (h : P s) : P (s.judgePaper i a b) := by
  refine K.syncDemand _ (ite_keeps (fun _ => ?_) fun _ => ite_keeps (fun _ => ?_) fun _ => h)
  · exact K.onStand _ _ (fun _ => rfl) (K.insertDefect _ rfl h)
  · exact K.onStand _ _ (fun _ => rfl) (K.closeClaim _ _ _ h)

theorem crossLead (K : Runs P) {s : State} (i : Nat) (o : Option Nat) (b : Nat) (h : P s) :
    P (s.crossLead i o b) := by
  unfold State.crossLead
  split
  · exact h
  · exact K.syncReasons _ (K.examine _ (K.syncDemand _ (K.onStand _ _ (fun _ => rfl) h)))

theorem crossSplicePoint (K : Runs P) {s : State} (i : Nat) (o : Option Nat) (x : Int) (h : P s) :
    P (s.crossSplicePoint i o x) := by
  unfold State.crossSplicePoint
  split
  · exact h
  · exact K.syncReasons _ (K.examine _ (K.judgePaper _ _ _ (K.onStand _ _ (fun _ => rfl) h)))

theorem meetDemand_cfg (st : Stand) : st.meetDemand.cfg = st.cfg := by
  unfold Stand.meetDemand; split <;> rfl

theorem storeReel (K : Runs P) {s : State} (i : Nat) (c : StandCfg) (r : Reel) (h : P s) : P (s.storeReel i c r) := by
  unfold State.storeReel
  have hm : P (s.onStand i fun st => { st with running := some r, remain := reelLength r }.meetDemand) :=
    K.onStand _ _ (fun x => by simp [meetDemand_cfg]) h
  split
  · exact K.judgePaper _ _ _ hm
  · exact ite_keeps (fun _ => K.judgePaper _ _ _ (K.notify _ hm)) fun _ => K.onStand _ _ (fun _ => rfl) h

theorem reelDiameter (K : Runs P) {s : State} (i : Nat) (r : Reel) (h : P s) : P (s.reelDiameter i r) := by
  unfold State.reelDiameter
  split
  · exact h
  · rename_i c _
    refine ite_keeps (fun _ => K.notify _ h) fun _ => K.syncReasons _ ?_
    have ht := K.storeReel i c r h
    have he := ite_keeps (c := ((s.stand i).running.isNone || ((s.storeReel i c r).stand i).remain != (s.stand i).remain
      || !(s.stand i).running.any fun old => old.paper == r.paper && old.caliper == r.caliper && old.tube == r.tube)
        = true) (fun _ => K.examine i ht) fun _ => ht
    exact ite_keeps (fun _ => K.judgeRunout _ he) fun _ => he

theorem spareGone (K : Runs P) {s : State} (i : Nat) (h : P s) : P (s.spareGone i) :=
  K.syncReasons _ (K.examine _ (K.onStand _ _ (fun _ => rfl) h))

theorem spareReport (K : Runs P) {s : State} (i : Nat) (r : SpareReport) (h : P s) : P (s.spareReport i r) := by
  unfold State.spareReport
  dsimp only
  split
  · exact h
  · refine ite_keeps (fun _ => h) fun _ => ?_
    split
    · exact ite_keeps (fun _ => K.notify _ h) fun _ =>
        K.syncReasons _ (K.examine _ (K.onStand _ _ (fun _ => rfl) h))
    all_goals exact K.spareGone _ h

theorem earlySplice (K : Runs P) {s : State} (i : Nat) (r : SpliceReason) (d : Option Demand) (p : Option Nat) (x : Int)
    (h : P s) : P (s.earlySplice i r d p x) := by
  unfold State.earlySplice
  split
  · exact h
  · split
    · exact ite_keeps (fun _ => K.insertDefect _ rfl h) fun _ => h
    · exact h

theorem noticeSplice (K : Runs P) {s : State} (i : Nat) (r : SpliceReason) (p : Option Nat) (x : Int) (b : Bool)
    (h : P s) : P (s.noticeSplice i r p x b) :=
  K.notify _ (ite_keeps (fun _ => h) fun _ => K.notify _ h)

theorem completeSplice (K : Runs P) {s : State} (i : Nat) (c : StandCfg) (r : SpliceReason) (n : Nat) (b : Bool)
    (hi : i < 7) (h : P s) : P (s.completeSplice i c r n b) := by
  unfold State.completeSplice
  dsimp only
  refine K.syncReasons _ (K.judgeRunout _ (K.examine _ ?_))
  refine K.noticeSplice _ _ _ _ _ ?_
  refine K.log _ ?_
  refine K.judgePaper _ _ _ ?_
  refine K.earlySplice _ _ _ _ _ ?_
  refine K.onStand _ _ (fun _ => rfl) ?_
  exact K.insertSplice _ _ _ _ _ (by omega) h

/-- A configured stand is one of the seven. -/
theorem stand_lt {s : State} {i : Nat} {c : StandCfg} (h : (s.stand i).cfg = some c) : i < 7 := by
  by_contra hi
  simp [State.stand, Vector.getElem?_eq_none (Nat.le_of_not_lt hi), Stand.cleared] at h

theorem spliceDone (K : Runs P) {s : State} (i : Nat) (n : Nat) (h : P s) : P (s.spliceDone i n) := by
  unfold State.spliceDone
  dsimp only
  split
  · exact h
  · rename_i hc
    split <;> exact K.completeSplice _ _ _ _ _ (stand_lt hc) h

theorem failSplice (K : Runs P) {s : State} (i : Nat) (r : SpliceResult) (c : Option Nat) (h : P s) :
    P (s.failSplice i r c) :=
  K.judgeRunout _ (K.notify _ (K.log _ (K.onStand _ _ (fun _ => rfl) h)))

theorem spliceFault (K : Runs P) {s : State} (i : Nat) (c : Nat) (h : P s) : P (s.spliceFault i c) := by
  unfold State.spliceFault
  dsimp only
  split
  · exact h
  · exact ite_keeps (fun _ => K.syncReasons _ (K.failSplice _ _ _ h)) fun _ => K.notify _ h

theorem spliceExpired (K : Runs P) {s : State} (i : Nat) (h : P s) : P (s.spliceExpired i) :=
  ite_keeps (fun _ => K.syncReasons _ (K.failSplice _ _ _ h)) fun _ => h

theorem tickSplices (K : Runs P) {s : State} (n : Nat) (h : P s) : P (s.tickSplices n) :=
  foldl_keeps (f := fun t i => t.onStand i fun st => { st with timer := st.timer - (n + 1) })
    (fun _ i ht => K.onStand i _ (fun _ => rfl) ht) _ h

theorem spliceDue (K : Runs P) {s : State} (i : Nat) (h : P s) : P (s.spliceDue i) :=
  ite_keeps (fun _ => K.failSplice _ _ _ h) fun _ => h

theorem splicesDue (K : Runs P) {s : State} (h : P s) : P s.splicesDue :=
  K.syncReasons _ (foldl_keeps (fun _ i ht => K.spliceDue i ht) _ h)

theorem unwind (K : Runs P) {s : State} (a : Nat) (h : P s) : P (s.unwind a) := by
  refine K.spl _ ?_ h
  simp only [Spl.SameConfig, Vector.toList_map, List.map_map]
  refine List.map_congr_left fun x _ => ?_
  simp only [Function.comp]
  split <;> rfl

theorem judgeStands (K : Runs P) {s : State} (h : P s) : P s.judgeStands :=
  K.syncReasons _ (foldl_keeps (fun _ i ht => K.judgeRunout i (K.examine i ht)) _ h)

theorem diameterStale (K : Runs P) {s : State} (i : Nat) (h : P s) : P (s.diameterStale i) := by
  unfold State.diameterStale
  split
  · exact h
  · exact K.onStand _ _ (fun _ => rfl) (K.notify _ h)

theorem diameterFresh (K : Runs P) {s : State} (i : Nat) (h : P s) : P (s.diameterFresh i) :=
  K.onStand _ _ (fun _ => rfl) h

theorem splLineReset (K : Runs P) {s : State} (h : P s) : P s.splLineReset := by
  refine K.examineAll (K.spl _ ?_ h)
  simp only [Spl.SameConfig, Vector.toList_map, List.map_map]
  refine List.map_congr_left fun x _ => ?_
  simp only [Function.comp]
  split <;> rfl

/-! ### The Heat and Glue Regulator -/

theorem onPoint (K : Runs P) {s : State} (p : Nat) (f : Point → Point) (hf : ∀ x, (f x).cfg = x.cfg) (h : P s) :
    P (s.onPoint p f) := K.hgr _ ⟨rfl, modify_map _ _ _ _ hf, rfl, rfl⟩ h

theorem onChannel (K : Runs P) {s : State} (c : Nat) (f : Channel → Channel) (hf : ∀ x, (f x).cfg = x.cfg) (h : P s) :
    P (s.onChannel c f) := K.hgr _ ⟨rfl, rfl, modify_map _ _ _ _ hf, rfl⟩ h

theorem mapChannels (K : Runs P) {s : State} (f : Channel → Channel) (hf : ∀ x, (f x).cfg = x.cfg) (h : P s) :
    P (s.onHgr fun h => { h with channels := h.channels.map f }) := by
  refine K.hgr _ ⟨rfl, rfl, ?_, rfl⟩ h
  simp only [Vector.toList_map, List.map_map]
  exact List.map_congr_left fun x _ => hf x

theorem sendSetpoint (K : Runs P) {s : State} (p : Nat) (h : P s) : P (s.sendSetpoint p) := by
  unfold State.sendSetpoint
  dsimp only
  split
  · exact h
  · refine ite_keeps (fun _ => h) fun _ => K.mapChannels _ (fun x => ?_) (K.onPoint _ _ (fun _ => rfl) (K.routine _ h))
    split
    · split <;> rfl
    · rfl

theorem resendSetpoints (K : Runs P) {s : State} (h : P s) : P s.resendSetpoints :=
  foldl_keeps (fun _ p => K.sendSetpoint p) _ h

theorem tickSettle (K : Runs P) {s : State} (n : Nat) (h : P s) : P (s.tickSettle n) :=
  K.mapChannels _ (fun _ => rfl) h

theorem closeOffband (K : Runs P) {s : State} (c p d : Nat) (h : P s) : P (s.closeOffband c p d) :=
  K.notify _ (K.onChannel _ _ (fun _ => rfl) (K.closeClaim _ _ _ h))

theorem closeTied (K : Runs P) {s : State} (p d : Nat) (h : P s) : P (s.closeTied p d) :=
  foldl_keeps (fun _ _ ht => ite_keeps (fun _ => K.closeOffband _ _ _ ht) fun _ => ht) _ h

theorem closeIfIdle (K : Runs P) {s : State} (p : Nat) (h : P s) : P (s.closeIfIdle p) := by
  unfold State.closeIfIdle
  split
  · exact h
  · exact ite_keeps (fun _ => K.closeTied _ _ h) fun _ => h

theorem crossPoint (K : Runs P) {s : State} (p : Nat) (o : Option Nat) (h : P s) : P (s.crossPoint p o) := by
  unfold State.crossPoint
  split
  · exact h
  · exact ite_keeps (fun _ => h) fun _ => K.closeIfIdle _ (K.sendSetpoint _ (K.onPoint _ _ (fun _ => rfl) h))

theorem storeReadings (K : Runs P) {s : State} (l : List (Nat × Nat)) (h : P s) : P (s.storeReadings l) := by
  unfold State.storeReadings
  refine foldl_keeps (P := P) (fun t x ht => ?_) l h
  exact ite_keeps (fun _ => K.onChannel _ _ (fun _ => rfl) ht) fun _ => ht

theorem channelStale (K : Runs P) {s : State} (c : Nat) (b : Bool) (h : P s) : P (s.channelStale c b) :=
  K.onChannel _ _ (fun _ => rfl) h

theorem openOffband (K : Runs P) {s : State} (c : Nat) (k : ChannelCfg) (pc : PointCfg) (x : OffbandCause) (a : Nat)
    (e : BandEntry) (h : P s) : P (s.openOffband c k pc x a e) :=
  K.notify _ (K.onChannel _ _ (fun _ => rfl) (K.insertDefect _ rfl h))

theorem failChannel (K : Runs P) {s : State} (c : Nat) (k : ChannelCfg) (pc : PointCfg) (x : OffbandCause)
    (e : BandEntry) (h : P s) : P (s.failChannel c k pc x e) := by
  unfold State.failChannel
  split
  · exact ite_keeps (fun _ => K.openOffband _ _ _ _ _ _ h) fun _ => K.onChannel _ _ (fun _ => rfl) h
  · exact ite_keeps (fun _ => K.openOffband _ _ _ _ _ _ h) fun _ => K.onChannel _ _ (fun _ => rfl) h
  · exact K.onChannel _ _ (fun _ => rfl) h

theorem passChannel (K : Runs P) {s : State} (c : Nat) (k : ChannelCfg) (pc : PointCfg) (h : P s) :
    P (s.passChannel c k pc) := by
  unfold State.passChannel
  split
  · exact h
  · exact K.onChannel _ _ (fun _ => rfl) h
  · exact ite_keeps (fun _ => K.closeOffband _ _ _ h) fun _ => K.onChannel _ _ (fun _ => rfl) h

theorem evaluate (K : Runs P) {s : State} (c : Nat) (h : P s) : P (s.evaluate c) := by
  unfold State.evaluate
  split
  · exact h
  · split
    · dsimp only
      split
      · exact K.passChannel _ _ _ h
      · exact K.failChannel _ _ _ _ _ h
    · exact h

theorem scan (K : Runs P) {s : State} (h : P s) : P s.scan := by
  unfold State.scan
  split
  · exact h
  · exact K.hgr _ ⟨rfl, rfl, rfl, rfl⟩ (K.evaluate _ h)

theorem heatCycle (K : Runs P) {s : State} (n : Nat) (l : List (Nat × Nat)) (h : P s) : P (s.heatCycle n l) :=
  K.scan (K.tickSettle _ (K.storeReadings _ h))

end Runs

end Sys2Proof.Machine
end

