-- ==== Sys2Proof/Laws/Planning.lean ====
section
/-! SUPPORT. What the Knife Planner, the creation of boundaries and an advance keep (R30 to R33, R54, R65 to R72, R126 to
R145). -/

namespace Sys2Proof.Machine

variable {P : State → Prop}

theorem passFlag_orders : ∀ l, ((passFlag l).map fun g => g.order) = l.map fun g => g.order
  | [] => rfl
  | [_] => rfl
  | g :: h :: rest => by
    unfold passFlag
    split
    · rfl
    · exact congrArg (g.order :: ·) (passFlag_orders (h :: rest))

/-! ### The Knife Planner -/

namespace Counts

theorem syncNoOrder (K : Counts P) {s : State} (h : P s) : P s.syncNoOrder :=
  ite_keeps (fun _ => h) fun _ => ite_keeps (fun _ => K.raise _ _ _ rfl h) fun _ => K.drop _ _ rfl h

theorem passPlanning (K : Counts P) (fuel : Nat) {s : State} (h : P s) : P (State.passPlanning fuel s) := by
  induction fuel generalizing s with
  | zero => exact h
  | succ fuel ih =>
    unfold State.passPlanning
    split
    · exact h
    · exact ite_keeps (fun _ => ih (K.osq _ (s.osq.keeps_segments _ (passFlag_orders _)) h)) fun _ => h

theorem sendPlan (K : Counts P) {s : State} (g : Segment) (x : Sheet) (hn : s.knp.plans.length < 2) (h : P s) :
    P (s.sendPlan g x) := by
  unfold State.sendPlan
  dsimp only
  refine K.passPlanning _ (K.reportPlan _ ?_)
  refine K.knp _ (fun _ => ⟨?_, Nat.mod_lt _ (by omega)⟩) (K.urgent _ h)
  simp only [State.queueUrgent_knp, List.length_append, List.length_cons, List.length_nil]
  omega

theorem planSheets (K : Counts P) (fuel : Nat) {s : State} (h : P s) : P (State.planSheets fuel s) := by
  induction fuel generalizing s with
  | zero => exact h
  | succ fuel ih =>
    unfold State.planSheets
    refine ite_keeps (fun hc => ?_) fun _ => h
    split
    · exact h
    · exact ih (K.sendPlan _ _ hc.1 h)

theorem refill (K : Counts P) {s : State} (h : P s) : P s.refill := K.syncNoOrder (K.planSheets _ h)

theorem settle (K : Counts P) {s : State} (p : Plan) (n : Nat) (h : P s) : P (s.settle p n) := by
  unfold State.settle
  dsimp only
  refine K.reportOutcome _ _ ?_
  split
  · exact K.log _ (ite_keeps (fun _ => K.log _ (K.urgent _ h)) fun _ => h)
  · exact ite_keeps (fun _ => K.log _ (K.urgent _ h)) fun _ => h

theorem rejudge (K : Counts P) {s : State} (h : P s) : P s.rejudge := by
  unfold State.rejudge
  split
  · exact h
  · refine ite_keeps (fun _ => ?_) fun _ => h
    dsimp only
    split
    · exact K.divertLate _ _ _ h
    · exact h

theorem confirmCut (K : Counts P) {s : State} {p : Plan} {rest : List Plan} (n : Nat) (hp : s.knp.plans = p :: rest)
    (h : P s) : P (s.confirmCut p rest n) := by
  unfold State.confirmCut
  dsimp only
  refine K.refill (K.passPlanning _ (K.rejudge (K.settle _ _ ?_)))
  refine K.knp _ (fun ok => ⟨?_, ok.2⟩) h
  have := ok.1
  simp only [hp, List.length_cons, List.length_map] at *
  omega

theorem confirmWithdrawn (K : Counts P) {s : State} (w : Withdrawn) (n : Nat) (h : P s) : P (s.confirmWithdrawn w n) :=
  K.log _ (K.urgent _ (K.knp _ (fun ok => ok) h))

theorem cutDone (K : Counts P) {s : State} (q n : Nat) (h : P s) : P (s.cutDone q n) := by
  unfold State.cutDone
  split
  · rename_i hp
    exact ite_keeps (fun _ => K.confirmCut _ hp h) fun _ => K.hand _ _ h
  · exact K.confirmWithdrawn _ _ h
  · exact ite_keeps (fun _ => K.hand _ _ h) fun _ => h

theorem judgeLate (K : Counts P) {s : State} (i : Nat) (h : P s) : P (s.judgeLate i) := by
  unfold State.judgeLate
  split
  · exact h
  · exact ite_keeps (fun _ => K.onPlan _ _ (K.hand _ _ h)) fun _ => h

theorem knifeTests (K : Counts P) {s : State} (h : P s) : P s.knifeTests := by
  unfold State.knifeTests
  dsimp only
  refine foldl_keeps (P := P) (fun t i ht => ?_) _ (foldl_keeps (P := P) (fun t i ht => K.judgeLate i ht) _ h)
  exact foldl_keeps (P := P) (fun t m ht => K.judgePlan m i ht) _ ht

theorem clearKnife (K : Counts P) {s : State} (h : P s) : P s.clearKnife := by
  unfold State.clearKnife
  dsimp only
  refine K.refill (K.knp _ (fun ok => ok) ?_)
  refine foldl_keeps (P := P) (fun t p ht => K.withdrawPlan p ht) _ ?_
  refine K.knp _ (fun ok => ⟨by simp, ok.2⟩) (K.urgent _ ?_)
  exact K.rif _ (fun ok => ⟨le_trans (List.length_filter_le _ _) ok.1, ok.2⟩) ⟨rfl, rfl, rfl, rfl, rfl⟩ h

/-! ### Boundaries -/

theorem reportCandidate (K : Counts P) {s : State} (h : P s) : P s.reportCandidate := by
  refine ite_keeps (fun _ => h) fun _ => K.forecastFor _ (K.osq _ ⟨rfl, rfl, rfl, rfl, fun _ ok => ?_⟩ h)
  exact tableOk_congr (a := s.osq) rfl rfl rfl (fun _ => rfl) (fun _ => rfl) ok

/-- Two properties that the operations keep are kept together. -/
theorem and {Q : State → Prop} (K : Counts P) (L : Counts Q) : Counts fun s => P s ∧ Q s where
  log b h := ⟨K.log b h.1, L.log b h.2⟩
  urgent o h := ⟨K.urgent o h.1, L.urgent o h.2⟩
  routine o h := ⟨K.routine o h.1, L.routine o h.2⟩
  hand c d h := ⟨K.hand c d h.1, L.hand c d h.2⟩
  alter d r hd hr h := ⟨K.alter d r hd hr h.1, L.alter d r hd hr h.2⟩
  speed c h := ⟨K.speed c h.1, L.speed c h.2⟩
  map f hf h := ⟨K.map f hf h.1, L.map f hf h.2⟩
  knp f hf h := ⟨K.knp f hf h.1, L.knp f hf h.2⟩
  chg f h hf := ⟨K.chg f h.1 hf, L.chg f h.2 hf⟩
  spl f hf h := ⟨K.spl f hf h.1, L.spl f hf h.2⟩
  hgr f hf h := ⟨K.hgr f hf h.1, L.hgr f hf h.2⟩
  osq f hf h := ⟨K.osq f hf h.1, L.osq f hf h.2⟩
  stk f hf h := ⟨K.stk f hf h.1, L.stk f hf h.2⟩
  rif f h₁ h₂ h := ⟨K.rif f h₁ h₂ h.1, L.rif f h₁ h₂ h.2⟩

end Counts

/-! ### Boundaries -/

namespace Runs

theorem crossed (K : Runs P) {s : State} (m : Mark) (r : StationRole) (h : P s) : P (s.crossed m r) := by
  unfold State.crossed
  split
  · cases r
    · exact K.crossLead _ _ _ h
    · exact K.crossSplicePoint _ _ _ h
    · exact K.crossSlitter _ h
    · exact K.crossPoint _ _ h
  · exact h

/-- The crossings at a creation, once the mark is on the map. -/
theorem placeBoundary (K : Runs P) {s : State} (m : Mark)
    (h : P (s.bumpSeq.onWmp fun w => { w with marks := place m w.marks })) : P (s.placeBoundary m) :=
  foldl_keeps (P := P) (fun _ r ht => K.crossed m r ht) _ (K.placeMark m h)

end Runs

/-! ### Creation and retirement, for what depends on no slot and no boundary -/

/-- P is also kept by any update of the map and of the order table that keeps their bounds. -/
structure Bounds (P : State → Prop) : Prop extends Counts P where
  place : ∀ {s : State} (f : Wmp → Wmp), (s.wmp.MapOk → (f s.wmp).MapOk) → (s.wmp.MarksOk → (f s.wmp).MarksOk) → P s →
    P (s.onWmp f)
  segs : ∀ {s : State} (f : Osq → Osq), (s.osq.ListsOk → (f s.osq).ListsOk) → P s → P (s.onOsq f)

/-- The number of segments is kept by everything that neither creates nor retires a boundary. -/
theorem Frees.segments (n : Nat) : Frees fun s => s.osq.segments.length = n where
  log b h := by simpa using h
  urgent o h := by simpa using h
  routine o h := by simpa using h
  hand c d h := by simpa using h
  alter d r _ _ h := by simpa using h
  speed c h := by simpa using h
  map f _ h := h
  knp f _ h := h
  chg f h _ := h
  spl f _ h := h
  hgr f _ h := h
  osq f hf h := hf.length.trans h
  stk f _ h := h
  rif f _ _ h := h
  free f hf _ h := hf.trans h

namespace Frees

/-- Two properties that the operations keep are kept together. -/
theorem and {Q : State → Prop} (K : Frees P) (L : Frees Q) : Frees fun s => P s ∧ Q s where
  toCounts := K.toCounts.and L.toCounts
  free f h₁ h₂ h := ⟨K.free f h₁ h₂ h.1, L.free f h₁ h₂ h.2⟩

end Frees

/-- A boundary mark holds no claim, and is no stand's joint and no PURGE. -/
theorem marksOk_boundary {w : Wmp} {seq n g p : Nat} {x : Int} {i : Option Nat} {b : Bool} (ok : w.MarksOk) :
    Wmp.MarksOk { w with marks := place (boundaryMark seq x n g i b p) w.marks } :=
  marksOk_cons (place_perm _ _) nofun (fun _ => rfl) nofun (by simp [Mark.isJointOf, boundaryMark, closedMark]) nofun ok

theorem marksOk_retire {w : Wmp} (ok : w.MarksOk) :
    Wmp.MarksOk { w with marks := w.marks.filter fun m => !m.retires } := by
  refine marksOk_filterMap (g := Option.guard fun m => !m.retires) ?_ (fun x y e => ?_) ok
  · exact (congrFun List.filterMap_eq_filter _).symm
  · obtain ⟨rfl, _⟩ := Option.guard_eq_some_iff.1 e
    exact ⟨rfl, rfl, fun _ hc => hc⟩

namespace Bounds

theorem frees (K : Bounds P) : Frees P where
  toCounts := K.toCounts
  free f _ h := K.segs f h

theorem openSegment (K : Bounds P) {s : State} (x : Option (Nat × Origin)) (seq : Nat)
    (hn : s.osq.segments.length < 4) (h : P s) : P (s.openSegment x seq) := by
  unfold State.openSegment
  dsimp only
  refine K.segs _ (fun ok => ⟨?_, ?_, ok.2.2⟩) h
  · simp
  · simp only [List.length_append, List.length_cons, List.length_nil]
    omega

theorem createBoundary (K : Bounds P) {s : State} (x : Int) (b : Bool) (hn : s.osq.segments.length < 4) (h : P s) :
    P (s.createBoundary x b) := by
  have L := K.frees.and (Frees.segments s.osq.segments.length)
  unfold State.createBoundary
  split
  · exact h
  · extract_lets start seq s₁ taken incoming decided m
    have h₁ : P s₁ ∧ s₁.osq.segments.length = s.osq.segments.length := L.closeLead _ _ _ ⟨h, rfl⟩
    have h₂ := L.bumpSeq (L.decideFlying incoming seq start (L.select s₁.candidates h₁))
    have h₃ := L.placeBoundary m ⟨K.place _ (place_form (.inl rfl)) marksOk_boundary h₂.1, h₂.2⟩
    exact K.syncNoOrder (K.passPlanning _ (K.reportCandidate (K.openSegment _ _ (by rw [h₃.2]; exact hn) h₃.1)))

theorem retireSegment (K : Bounds P) {s : State} (h : P s) : P s.retireSegment := by
  unfold State.retireSegment
  split
  · rename_i g g' rest hg
    dsimp only
    have h' : P (s.onOsq fun o => { o with segments := newOldest g g' :: rest }) := by
      refine K.segs _ (fun ok => ⟨by simp, ?_, ok.2.2⟩) h
      have := ok.2.1
      simp only [hg, List.length_cons] at *
      omega
    split
    · exact h'
    · exact K.testClose _ (K.frees.anySlot _ _ h')
  · exact h

theorem retired (K : Bounds P) {s : State} (m : Mark) (h : P s) : P (s.retired m) := by
  unfold State.retired
  split
  · exact K.syncNoOrder (K.retireSegment h)
  · exact ite_keeps (fun _ => K.map _ (Wmp.keeps_rest rfl fun n => n) h) fun _ => h
  · exact h

theorem retireMarks (K : Bounds P) {s : State} (h : P s) : P s.retireMarks := by
  unfold State.retireMarks
  dsimp only
  refine foldl_keeps (P := P) (fun t m ht => K.retired m ht) _ (K.place _ (fun ok => ?_) (fun ok => ?_) h)
  · exact ⟨ok.1.sublist List.filter_sublist, le_trans (filter_defectCount _ _) ok.2.1, ok.2.2⟩
  · exact marksOk_retire ok

end Bounds

/-! ### Creation, retirement and advance -/

namespace Webs

theorem createDue (K : Webs P) {s : State} (d : Due) (hd : s.due = d) (h : P s) : P (s.createDue d) := by
  have hn : d ≠ .nothing → s.osq.segments.length < 4 := by
    intro hne
    by_contra hc
    exact hne (by rw [← hd]; unfold State.due; rw [if_pos (by omega)])
  cases d with
  | nothing => exact h
  | endBoundary p => exact K.created _ _ (hn (by simp)) nofun h
  | available => exact K.created _ _ (hn (by simp)) nofun h
  | suspension =>
    refine K.created _ _ (hn (by simp)) (fun _ => ?_) h
    unfold State.due at hd
    repeat' split at hd
    all_goals first | (cases hd; done) | assumption

theorem evaluateCreation (K : Webs P) (fuel : Nat) {s : State} (h : P s) : P (State.evaluateCreation fuel s) := by
  induction fuel generalizing s with
  | zero => exact h
  | succ fuel ih =>
    unfold State.evaluateCreation
    split
    · exact h
    · exact ih (K.createDue _ rfl h)

theorem candidateEvent (K : Webs P) {s : State} (h : P s) : P s.candidateEvent := by
  unfold State.candidateEvent
  dsimp only
  refine ite_keeps (fun hc => ?_) fun _ => K.reportCandidate h
  refine K.createDue _ ?_ (K.reportCandidate h)
  simp only [Bool.and_eq_true, beq_iff_eq] at hc
  exact hc.2

theorem evaluateRush (K : Webs P) {s : State} (h : P s) : P s.evaluateRush.1 := by
  unfold State.evaluateRush
  dsimp only
  split
  · exact h
  all_goals exact K.createDue _ (by assumption) h

theorem shift (K : Webs P) {s : State} (a : Nat) (h : P s) : P (s.shift a) := by
  unfold State.shift
  refine K.lsc _ rfl (fun ok => ok) ?_
  refine K.mapChannels _ (fun x => ?_) ?_
  · unfold Channel.advance; split <;> rfl
  refine K.chg _ (K.unwind _ ?_) fun ok => by simpa [Chg.RecordsOk, Chg.advance] using ok
  refine K.knp _ (fun ok => ⟨by simpa [Knp.advance] using ok.1, ok.2⟩) ?_
  refine K.map _ ⟨fun ok => ⟨move_ascending a ok.1, by simpa [move_defectCount] using ok.2.1, ok.2.2⟩,
    fun ok => marksOk_filterMap (g := fun m => some (m.move a)) ?_ (fun x y e => ?_) ok, fun _ => ?_⟩ h
  · exact (congrFun (List.filterMap_eq_map (f := Mark.move a)) _).symm
  · cases e; exact ⟨rfl, rfl, fun _ hc => hc⟩
  · simp only [kindCount, List.countP_map]; rfl

theorem mapReports (K : Webs P) {s : State} (l : List (Mark × StationRole)) (h : P s) : P (s.mapReports l) :=
  K.retires (foldl_keeps (P := P) (fun _ x ht => K.crossed x.1 x.2 ht) _ h)

theorem advance (K : Webs P) {s : State} (a : Nat) (b : Bool) (h : P s) : P (s.advance a b) := by
  unfold State.advance
  refine ite_keeps (fun _ => h) fun _ => ?_
  dsimp only
  have h₁ := K.knifeTests (K.swapAdvance (ite_keeps (c := b = true)
    (fun _ => K.mapReports (crossingsOf a s.registered s.wmp.marks) (K.judgeStands (K.shift a h))) fun _ =>
    K.judgeStands (K.mapReports (crossingsOf a s.registered s.wmp.marks) (K.shift a h))))
  exact ite_keeps (fun _ => h₁) fun _ => K.evaluateCreation _ h₁

end Webs

end Sys2Proof.Machine
end

