-- ==== Sys2Proof/Laws/Line.lean ====
section
/-! SUPPORT. What faults, changes of line state and the ring keep (R2 to R19, R161 to R187). -/

namespace Sys2Proof.Machine

variable {P : State → Prop}

/-- What Line State Control holds is kept by everything that is not its own. -/
theorem Counts.lineState (l : Lsc) : Counts fun s => s.lsc = l where
  log b h := by simpa using h
  urgent o h := by simpa using h
  routine o h := by simpa using h
  hand c d h := by simpa using h
  alter d r _ _ h := by simpa using h
  speed c h := by simpa using h
  map f _ h := h
  knp f _ h := h
  chg f h _ := h
  spl f _ h := h
  hgr f _ h := h
  osq f _ h := h
  stk f _ h := h
  rif f _ _ h := h

/-- What the Item Router holds is kept by everything that is not its own. -/
theorem Webs.router (r : Irt) : Webs fun s => s.irt = r :=
  have K : Bounds fun s => s.irt = r := {
    log _ h := by simpa using h
    urgent _ h := by simpa using h
    routine _ h := by simpa using h
    hand _ _ h := by simpa using h
    alter _ _ _ _ h := by simpa using h
    speed _ h := by simpa using h
    map _ _ h := h
    knp _ _ h := h
    chg _ h _ := h
    spl _ _ h := h
    hgr _ _ h := h
    osq _ _ h := h
    stk _ _ h := h
    rif _ _ _ h := h
    place _ _ _ h := h
    segs _ _ h := h }
  { K.toCounts with
    lsc _ _ _ h _ := h
    line _ _ _ _ _ h := by simpa using h
    clear h := h
    created x _ hn h' h := K.createBoundary x _ hn h
    retires h := K.retireMarks h
    feed _ _ h := h }

/-! ### The report of a line state (R96, R114, R129, R145) -/

theorem Counts.stateReported (K : Counts P) {s : State} (old new : LineState) (h : P s) : P (s.stateReported old new) := by
  unfold State.stateReported
  dsimp only
  have h₁ : P (if new = .faulted ∧ old ≠ .faulted then s.clearKnife else s) :=
    ite_keeps (fun _ => K.clearKnife h) fun _ => h
  exact ite_keeps (fun _ => K.resendSetpoints (K.examineAll (K.refill h₁))) fun _ =>
    K.examineAll (K.refill h₁)

namespace Faults

/-! ### Changes of line state (R161 to R172) -/

/-- Entering a line state with further changes of LSC's own state. -/
theorem enterStateWith (K : Faults P) {s : State} (g : Lsc → Lsc) (new : LineState) (c : StateCause)
    (further : List (Reason × Nat)) (hg : (g s.lsc).state = s.lsc.state)
    (hl : Lsc.LatchOk { g s.lsc with state := new }) (hs : s.lsc.seen.Nodup → (g s.lsc).seen.Nodup)
    (hf : ∀ x ∈ further, isLineReason x.1 = true) (h : P s) : P ((s.onLsc g).enterState new c further) := by
  have := K.line (fun l => { g l with state := new }) further hl hs hf h
  unfold State.enterState
  dsimp only
  refine K.toCounts.stateReported _ _ (K.log _ ?_)
  rw [State.onLsc_lsc, hg]
  exact this

theorem enterState (K : Faults P) {s : State} (new : LineState) (c : StateCause) (further : List (Reason × Nat))
    (hl : Lsc.LatchOk { s.lsc with state := new }) (hf : ∀ x ∈ further, isLineReason x.1 = true) (h : P s) :
    P (s.enterState new c further) := K.enterStateWith (fun l => l) new c further rfl hl (fun ok => ok) hf h

theorem latchOk_stopped (l : Lsc) : Lsc.LatchOk { l with state := .stopped } := ⟨fun _ => .inl rfl, by simp⟩

/-- A fault code seen is noted once (R168). -/
theorem seen_nodup {l : List FaultCode} {c : FaultCode} (ok : l.Nodup) :
    (if l.contains c then l else l ++ [c]).Nodup := by
  split
  · exact ok
  · rename_i hc
    have hc : c ∉ l := by simpa using hc
    exact List.nodup_append.2 ⟨ok, List.nodup_singleton c, fun a ha b hb e => hc (by simp_all)⟩

theorem takeFault (K : Faults P) {s : State} (f : FaultReport) (h : P s) : P (s.takeFault f) := by
  have lose : ∀ {t : State}, P t → P (if losesWeb f.code then t.loseMap else t) :=
    fun ht => ite_keeps (fun _ => K.loseMap ht) fun _ => ht
  unfold State.takeFault
  split
  · have h₁ := lose (K.notify (.faultLatched f.code f.detail (s.log (.fault f.code false f.detail)).lsc.state)
      (K.log (.fault f.code false f.detail) h))
    revert h₁
    dsimp only
    generalize (if losesWeb f.code = true then _ else _ : State) = t
    intro h₁
    split
    · refine K.enterStateWith _ .faulted _ [] ?_ ?_ seen_nodup (by simp) h₁
      · rfl
      · exact ⟨fun _ => .inr rfl, fun _ => rfl⟩
    · rename_i hr
      refine K.lsc _ ?_ ?_ h₁ seen_nodup
      · rfl
      refine fun _ => ⟨fun _ => ?_, fun _ => rfl⟩
      revert hr
      simp only [State.onLsc_lsc]
      generalize Lsc.state _ = x
      cases x <;> simp [runsLine]
  · dsimp only
    refine lose (ite_keeps (fun _ => h) fun hc => K.log _ (K.lsc _ rfl (fun ok => ok) h fun ok => ?_))
    simpa only [if_neg hc] using seen_nodup (c := f.code) ok

theorem takeHanded (K : Faults P) {s : State} (h : P s) : P s.takeHanded :=
  foldl_keeps (P := P) (fun _ f ht => K.takeFault f ht) _ (K.clear h)

theorem takeFaults (K : Faults P) {s : State} (h : P s) : P s.takeFaults := K.takeHanded (K.takeHanded h)

theorem completeHalt (K : Faults P) {s : State} (h : P s) : P s.completeHalt :=
  K.askDwell (K.enterState _ _ _ (Faults.latchOk_stopped _) (by simp) h)

theorem lineStatus (K : Faults P) {s : State} (b : Bool) (h : P s) : P (s.lineStatus b) := by
  unfold State.lineStatus
  refine ite_keeps (fun _ => K.lsc _ rfl (fun ok => ok) h) fun _ => ?_
  dsimp only
  have h₁ : P (s.onLsc fun l => { l with status := .stopped }) := K.lsc _ rfl (fun ok => ok) h
  split
  · exact K.completeHalt h₁
  · exact ite_keeps (fun _ => h₁) fun _ => K.lsc _ rfl (fun ok => ok) (K.notify _ h₁)
  · exact ite_keeps (fun _ => h₁) fun _ => K.lsc _ rfl (fun ok => ok) (K.notify _ h₁)
  all_goals exact h₁

theorem statusStale (K : Faults P) {s : State} (h : P s) : P s.statusStale :=
  K.raise _ _ _ rfl (K.lsc _ rfl (fun ok => ok) h)

theorem startPurge (K : Faults P) {s : State} (h : P s) : P s.startPurge :=
  K.lsc _ rfl (fun ok => ok) (K.requestPurge h)

theorem startPurge_latch (s : State) : s.startPurge.lsc.latch = s.lsc.latch ∧ s.startPurge.lsc.state = s.lsc.state := by
  have := (Counts.lineState s.lsc).requestPurge (s := s) rfl
  simp only [State.startPurge, State.onLsc_lsc, this, and_self]

theorem haltLine (K : Faults P) {s : State} (hl : s.lsc.latch = none) (h : P s) : P s.haltLine := by
  have h₁ := K.enterState (s := s) .halting (.request 24) [] ⟨by simp [hl], by simp⟩ (by simp) h
  exact ite_keeps (fun _ => K.completeHalt h₁) fun _ => h₁

end Faults

/-! ### The count of the timers (R174) -/

/-- Counting a ring cycle's timers as its first event changes the refresh counter, the swap timer and the stands' timers. -/
theorem State.tickTimers_eq (s : State) (n : Nat) :
    s.tickTimers n = { s with
      wtr := { s.wtr with refresh := s.wtr.refresh - (n + 1) },
      chg := { s.chg with timer := s.chg.timer - (n + 1) },
      spl := (s.tickSplices n).spl } := rfl

/-! ### Feed and history (R4 to R10) -/

theorem settleDebt_le (d : Nat) (x : Int) (h : d ≤ 255) : (settleDebt d x).debt ≤ 255 := by
  unfold settleDebt
  split
  · split
    · simp
    · simp only; omega
  · split
    · simp
    · simp only; omega

theorem pushHistory_length (l : List Nat) (n a : Nat) (h : l.length = 16) : (pushHistory l n a).length = 16 := by
  simp only [pushHistory, List.length_drop, List.length_append, List.length_replicate, List.length_cons, List.length_nil]
  omega

namespace Webs

theorem setDebt (K : Webs P) {s : State} (h : P s) : P (s.onWtr fun w => { w with debt := 0 }) :=
  K.feed _ ⟨rfl, rfl, rfl, fun ok => ⟨ok.1, by simp, ok.2.2⟩⟩ h

theorem feedStale (K : Webs P) {s : State} (h : P s) : P s.feedStale :=
  K.feed _ ⟨rfl, rfl, rfl, fun ok => ⟨ok.1, by simp, ok.2.2⟩⟩ (K.hand _ _ h)

theorem takeFeed (K : Webs P) {s : State} (n : Nat) (c : Option FeedCount) (h : P s) : P (s.takeFeed n c).1 := by
  unfold State.takeFeed
  dsimp only
  split
  · exact K.feed (fun w => { w with elapsed := min 65535 (s.wtr.elapsed + n + 1) })
      ⟨rfl, rfl, rfl, fun ok => ⟨ok.1, ok.2.1, Nat.min_le_left _ _, ok.2.2.2⟩⟩ h
  · rename_i c
    split
    · exact K.feed (fun w => { w with lastCount := c, firstCount := false, elapsed := 0 })
        ⟨rfl, rfl, rfl, fun ok => ⟨ok.1, ok.2.1, Nat.zero_le _, ok.2.2.2⟩⟩ h
    · have hj : P (if clampDelta (s.line.nums.jumpLimit * min 65535 (s.wtr.elapsed + n + 1))
            (feedDelta s.wtr.lastCount c) = feedDelta s.wtr.lastCount c then s
          else (s.notify .encoderJump).log (.encoderJump (feedDelta s.wtr.lastCount c)
            (s.line.nums.jumpLimit * min 65535 (s.wtr.elapsed + n + 1)) (min 65535 (s.wtr.elapsed + n + 1)))) :=
        ite_keeps (fun _ => h) fun _ => K.log _ (K.notify _ h)
      have hw : (if clampDelta (s.line.nums.jumpLimit * min 65535 (s.wtr.elapsed + n + 1))
            (feedDelta s.wtr.lastCount c) = feedDelta s.wtr.lastCount c then s
          else (s.notify .encoderJump).log (.encoderJump (feedDelta s.wtr.lastCount c)
            (s.line.nums.jumpLimit * min 65535 (s.wtr.elapsed + n + 1)) (min 65535 (s.wtr.elapsed + n + 1)))).wtr
            = s.wtr := by
        split
        · rfl
        · simp
      have step : ∀ {t : State}, t.wtr = s.wtr → P t → P (t.onWtr fun w => { w with
          lastCount := c, elapsed := 0,
          debt := (settleDebt s.wtr.debt (clampDelta (s.line.nums.jumpLimit * min 65535 (s.wtr.elapsed + n + 1))
            (feedDelta s.wtr.lastCount c))).debt,
          remainder := (scaleCount s.wtr.remainder (settleDebt s.wtr.debt
            (clampDelta (s.line.nums.jumpLimit * min 65535 (s.wtr.elapsed + n + 1))
            (feedDelta s.wtr.lastCount c))).count s.line.nums.feedScale).2 }) := by
        intro t ht hP
        refine K.feed _ ⟨rfl, rfl, rfl, fun ok => ⟨?_, ?_, by simp, ok.2.2.2⟩⟩ hP
        · simp only [scaleCount]; omega
        · exact settleDebt_le _ _ (ht ▸ ok.2.1)
      refine step ?_ ?_
      · split
        · simpa using hw
        · exact hw
      · split
        · exact K.hand _ _ hj
        · exact hj

theorem takeHistory (K : Webs P) {s : State} (n a : Nat) (h : P s) : P (s.takeHistory n a) := by
  refine K.feed _ ⟨rfl, rfl, rfl, fun ok => ⟨ok.1, ok.2.1, ok.2.2.1, ?_, ?_, rfl, ok.2.2.2.2.2.2⟩⟩ h
  · exact pushHistory_length _ _ _ ok.2.2.2.1
  · simp only; omega

theorem takeBand (K : Webs P) {s : State} (n a : Nat) (h : P s) : P (s.takeBand n a) := by
  unfold State.takeBand
  dsimp only
  refine ite_keeps (fun _ => K.takeHistory _ _ h) fun _ => ?_
  refine K.log _ (K.examineAll (K.resendSetpoints ?_))
  exact K.feed _ ⟨rfl, rfl, rfl, fun ok => ok⟩ (K.takeHistory _ _ h)

theorem tickRefresh (K : Webs P) {s : State} (n : Nat) (h : P s) : P (s.tickRefresh n) := by
  refine K.feed _ ⟨rfl, rfl, rfl, fun ok => ?_⟩ h
  refine ⟨ok.1, ok.2.1, ok.2.2.1, ok.2.2.2.1, ok.2.2.2.2.1, ok.2.2.2.2.2.1, ?_⟩
  have := ok.2.2.2.2.2.2
  simp only; omega

theorem tickTimers (K : Webs P) {s : State} (n : Nat) (h : P s) : P (s.tickTimers n) :=
  K.tickSplices _ (K.tickSwap _ (K.tickRefresh _ h))

theorem refreshDue (K : Webs P) {s : State} (h : P s) : P s.refreshDue := ite_keeps (fun _ => K.speed _ h) fun _ => h

theorem timersDue (K : Webs P) {s : State} (h : P s) : P s.timersDue := K.splicesDue (K.swapDue h)

/-! ### LINE_RESET (R170) -/

theorem resetLine (K : Webs P) {s : State} (h : P s) : P s.resetLine.1 := by
  unfold State.resetLine
  have h₀ : P (if s.lsc.state = .faulted ∧ s.wmp.valid = true then s.askDwell else (s, false)).1 := by
    split
    · exact K.askDwell h
    · exact h
  revert h₀
  generalize (if s.lsc.state = .faulted ∧ s.wmp.valid = true then s.askDwell else (s, false)) = x
  intro h₀
  refine K.setDebt (K.chgLineReset (K.splLineReset (K.clearKnife ?_)))
  exact K.enterStateWith _ _ _ _ rfl (Faults.latchOk_stopped _) (fun _ => List.nodup_nil) (by simp [isLineReason]) h₀

/-! ### The ring (R173 to R187) -/

theorem staleReport (K : Webs P) {s : State} (c : SubCfg) (h : P s) : P (s.staleReport c) := by
  unfold State.staleReport
  split
  · exact K.feedStale h
  · exact K.statusStale h
  · exact K.diameterStale _ h
  · exact K.channelStale _ _ h
  · exact K.slitterStale _ h
  · exact K.stackStale h
  all_goals exact h

theorem freshReport (K : Webs P) {s : State} (c : SubCfg) (h : P s) : P (s.freshReport c) := by
  unfold State.freshReport
  split
  · exact K.drop _ _ rfl h
  · exact K.diameterFresh _ h
  · exact K.channelStale _ _ h
  all_goals exact h

theorem takeSlitters (K : Webs P) {s : State} (l : List (SubCfg × Payload)) (h : P s) : P (s.takeSlitters l) := by
  unfold State.takeSlitters
  split
  · exact h
  · exact K.slitterEvent _ _ h

theorem takeSpliceItem (K : Webs P) {s : State} (x : SubCfg × Payload) (h : P s) : P (s.takeSpliceItem x) := by
  unfold State.takeSpliceItem
  split
  · exact K.reelDiameter _ _ h
  · exact K.spareReport _ _ h
  · exact K.spliceDone _ _ h
  · exact K.spliceFault _ _ h
  · exact h

theorem takeKnifeItem (K : Webs P) {s : State} (x : SubCfg × Payload) (h : P s) : P (s.takeKnifeItem x) := by
  unfold State.takeKnifeItem
  split
  · exact K.cutDone _ _ h
  · exact h

theorem takeStack (K : Webs P) {s : State} (n : Nat) (l : List (SubCfg × Payload)) (h : P s) :
    P (s.takeStack n l) := by
  unfold State.takeStack
  split
  · exact K.stackEvent _ _ _ h
  · exact h

theorem takeStatus (K : Webs P) {s : State} (l : List (SubCfg × Payload)) (h : P s) : P (s.takeStatus l) := by
  unfold State.takeStatus
  split
  · exact K.lineStatus _ h
  · exact h

theorem noticeBadItem (K : Webs P) {s : State} (l : List Item) (h : P s) : P (s.noticeBadItem l) := by
  unfold State.noticeBadItem
  split
  · split
    · exact K.notify _ h
    · exact h
  · exact h

theorem runEvents (K : Webs P) (l : List (State → State)) {s : State} (hl : ∀ f ∈ l, ∀ t, P t → P (f t)) (h : P s) :
    P (Machine.runEvents l s) := by
  unfold Machine.runEvents
  induction l generalizing s with
  | nil => exact h
  | cons f l ih =>
    exact ih (fun g hg => hl g (List.mem_cons_of_mem _ hg)) (K.takeFaults (hl f List.mem_cons_self s h))

theorem itemEvents (K : Webs P) (n : Nat) (l : List (SubCfg × Payload)) :
    ∀ f ∈ Machine.itemEvents n l, ∀ t, P t → P (f t) := by
  intro f hf t ht
  simp only [Machine.itemEvents, List.mem_append, List.mem_cons, List.mem_map, List.not_mem_nil, or_false] at hf
  rcases hf with ((rfl | ⟨x, _, rfl⟩) | ⟨x, _, rfl⟩) | rfl | rfl
  · exact K.takeSlitters _ ht
  · exact K.takeSpliceItem _ ht
  · exact K.takeKnifeItem _ ht
  · exact K.takeStack _ _ ht
  · exact K.takeStatus _ ht

/-- The events of a ring cycle are the router's own, on its counters, and others that keep P (R174, R179). -/
theorem cycleEvents (K : Webs P) (o : EventOrder) (s : State) (t : Telegram) (n : Nat) :
    ∃ a b, Machine.cycleEvents o s t n
        = a ++ (fun u => (u.noticeBadItem t.items).onIrt fun r =>
          { r with subs := r.subs.map (SubEntry.cycle n (t.items.filter s.looksUp)) }) :: b
      ∧ ∀ f ∈ a ++ b, ∀ u, P u → P (f u) := by
  have one : ∀ {g : State → State}, (∀ u, P u → P (g u)) → ∀ f ∈ [g], ∀ u, P u → P (f u) := by
    intro g hg f hf
    rwa [List.mem_singleton.1 hf]
  have app : ∀ {l m : List (State → State)}, (∀ f ∈ l, ∀ u, P u → P (f u)) → (∀ f ∈ m, ∀ u, P u → P (f u)) →
      ∀ f ∈ l ++ m, ∀ u, P u → P (f u) := by
    intro l m hl hm f hf
    exact (List.mem_append.1 hf).elim (hl f) (hm f)
  have any : ∀ {c : Prop} [Decidable c] {l m : List (State → State)}, (∀ f ∈ l, ∀ u, P u → P (f u)) →
      (∀ f ∈ m, ∀ u, P u → P (f u)) → ∀ f ∈ (if c then l else m), ∀ u, P u → P (f u) := by
    intro c _ l m hl hm
    split
    · exact hl
    · exact hm
  have empty : ∀ f ∈ ([] : List (State → State)), ∀ u, P u → P (f u) := nofun
  unfold Machine.cycleEvents
  extract_lets heard l feed a subs clear fresh lapses timers items heat feedEvent advance band refresh
  have hitems : ∀ f ∈ items, ∀ u, P u → P (f u) :=
    any (app (one fun _ hu => K.timersDue hu) (K.itemEvents _ _)) (app (K.itemEvents _ _) (one fun _ hu => K.timersDue hu))
  have hlapses : ∀ f ∈ lapses, ∀ u, P u → P (f u) := by
    intro f hf u hu
    obtain ⟨c, _, rfl⟩ := List.mem_map.1 hf
    exact K.staleReport _ hu
  have hheat : ∀ f ∈ heat, ∀ u, P u → P (f u) := one fun _ hu => K.heatCycle _ _ hu
  have hfresh : ∀ f ∈ (changedEntries n heard true subs).map (fun c s => State.freshReport s c), ∀ u, P u → P (f u) := by
    intro f hf u hu
    obtain ⟨c, _, rfl⟩ := List.mem_map.1 hf
    exact K.freshReport _ hu
  refine ⟨(fun u => State.tickTimers u n) :: if s.rif.cycle.isNone then clear else [], _,
    by simp only [fresh, List.append_assoc, List.cons_append, List.nil_append]; rfl,
    app (app (one fun _ hu => K.tickTimers _ hu) (any (one fun _ hu => K.clearKnife hu) empty)) ?_⟩
  exact app hfresh (app (any empty hlapses) (app (any hitems empty) (app (one fun _ hu => K.takeFeed _ _ hu)
    (app (any hheat empty) (app (one fun _ hu => K.advance _ _ hu) (app (one fun _ hu => K.takeBand _ _ hu)
    (app (any empty hitems) (app (any empty hheat) (app (one fun _ hu => K.refreshDue hu) (any hlapses empty))))))))))

end Webs

namespace Lines

theorem lapse (K : Lines P) {s : State} (e : Nat) (h : P s) : P (s.lapse e) := by
  unfold State.lapse
  split
  · exact h
  · rename_i x hx
    split
    · exact h
    · refine ite_keeps (fun _ => K.staleReport _ (K.irt _ ⟨rfl, ?_⟩ h)) fun _ => h
      rw [put_toList, List.map_set]
      have : (s.irt.subs.toList.map fun e => e.cfg)[e]? = some x.cfg := by simp [hx]
      obtain ⟨hi, he⟩ := List.getElem?_eq_some_iff.1 this
      rw [← he, List.set_getElem_self]

theorem cycleSubs (K : Lines P) {s : State} (n : Nat) (l : List Item) (h : P s) :
    P (s.onIrt fun r => { r with subs := r.subs.map (SubEntry.cycle n l) }) := by
  refine K.irt _ ⟨rfl, ?_⟩ h
  simp only [Vector.toList_map, List.map_map]
  refine List.map_congr_left fun x _ => ?_
  simp only [Function.comp, SubEntry.cycle]
  split
  · rfl
  · split <;> rfl

theorem cycleEvents (K : Lines P) (o : EventOrder) (s : State) (t : Telegram) (n : Nat) :
    ∀ f ∈ Machine.cycleEvents o s t n, ∀ u, P u → P (f u) := by
  obtain ⟨a, b, e, h⟩ := K.toWebs.cycleEvents o s t n
  rw [e]
  intro f hf
  rcases List.mem_append.1 hf with hf | hf
  · exact h f (List.mem_append_left _ hf)
  · rcases List.mem_cons.1 hf with rfl | hf
    · exact fun _ hu => K.cycleSubs _ _ (K.noticeBadItem _ hu)
    · exact h f (List.mem_append_right _ hf)

end Lines

namespace Rings

/-- A start leads to a state that keeps what the operations keep, when no fault is latched (R163 to R165). -/
theorem start (K : Rings P) {s : State} (new : LineState) (code : Nat) (hn : new ≠ .faulted)
    (hl : s.lsc.latch = none) (h : P s) : P (s.start new code) := by
  have ok : ∀ l : Lsc, l.latch = none → Lsc.LatchOk { l with state := new } :=
    fun l hl => ⟨by simp [hl], fun hf => absurd hf hn⟩
  unfold State.start
  dsimp only
  have h₁ : P (if new = .threading then ({ s with choices := s.choices + 1 } : State).onLsc fun l =>
      { l with threading := 0 } else { s with choices := s.choices + 1 }) :=
    ite_keeps (fun _ => K.lsc _ rfl (fun ok => ok) (K.choose _ h)) fun _ => K.choose _ h
  have hl₁ : (if new = .threading then ({ s with choices := s.choices + 1 } : State).onLsc fun l =>
      { l with threading := 0 } else { s with choices := s.choices + 1 }).lsc.latch = none := by
    split <;> exact hl
  revert h₁ hl₁
  generalize (if new = .threading then ({ s with choices := s.choices + 1 } : State).onLsc fun l =>
      { l with threading := 0 } else { s with choices := s.choices + 1 }) = t
  intro h₁ hl₁
  refine ite_keeps (fun _ => ?_) fun _ => ite_keeps (fun _ => ?_) fun _ => ?_
  · exact K.enterState _ _ _ (ok _ hl₁) (by simp) h₁
  · exact K.startPurge (K.enterState _ _ _ (ok _ hl₁) (by simp) h₁)
  · exact K.enterState _ _ _ (ok _ ((Faults.startPurge_latch t).1.trans hl₁)) (by simp) (K.startPurge h₁)

theorem linkChange (K : Rings P) {s : State} (p : RingPort) (b : Bool) (h : P s) : P (s.linkChange p b) := by
  refine ite_keeps (fun _ => h) fun _ => K.notify _ (K.port _ ?_ ?_ h)
  · cases p <;> exact fun ok => ok
  · cases p <;> rfl

theorem leave (K : Rings P) {s : State} (p : RingPort) (x : List Byte) (h : P s) : P (s.leave p x) := K.pass _ h

theorem badTelegram (K : Rings P) {s : State} (p : RingPort) (x : List Byte) (h : P s) :
    P (s.badTelegram p x) := K.notify _ (K.leave _ _ h)

theorem appendItems (K : Rings P) {s : State} (p : RingPort) (t : Telegram) (h : P s) : P (s.appendItems p t) := by
  unfold State.appendItems
  dsimp only
  refine K.rif _ (fun ok => ⟨?_, ?_⟩) ?_ (K.leave _ _ h)
  rotate_left 2
  · exact ⟨rfl, rfl, rfl, rfl, rfl⟩
  · simp only [Rif.afterAppend, List.length_drop]
    have := ok.1
    omega
  · simp only [Rif.afterAppend]
    have := ok.2
    split
    · exact this
    · rename_i hq
      have hq : (appended (1500 - t.total) s.rif).2.length ≠ 0 := by simpa using hq
      have one : ∀ o : Option OutItem, o.toList.length ≤ 1 := fun o => by cases o <;> simp
      have := one s.rif.overflow
      simp only [State.leave] at *
      simp only [List.length_drop, List.length_append]
      omega

theorem ringHeard (K : Rings P) {s : State} (h : P s) : P s.ringHeard := K.ring _ (fun ok => ok) h

theorem ringCycle (K : Rings P) {s : State} (p : RingPort) (t : Telegram) (n : Nat) (h : P s) :
    P (s.ringCycle p t n) := by
  have ev := K.cycleEvents (Config.order s.choices) s t n
  unfold State.ringCycle
  refine K.runEvents _ (fun f hf => ev f (List.mem_of_mem_drop hf)) (K.appendItems _ _ ?_)
  refine K.runEvents _ (fun f hf => ev f (List.mem_of_mem_take hf)) ?_
  exact K.port _ (fun ok => ok) rfl (K.ringHeard (K.choose _ h))

theorem repeatCycle (K : Rings P) {s : State} (p : RingPort) (t : Telegram) (h : P s) : P (s.repeatCycle p t) :=
  K.leave _ _ (K.ringHeard h)

theorem takeCycle (K : Rings P) {s : State} (p : RingPort) (t : Telegram) (h : P s) : P (s.takeCycle p t) := by
  unfold State.takeCycle
  split
  · exact K.ringCycle _ _ _ h
  · exact ite_keeps (fun _ => K.repeatCycle _ _ h) fun _ => K.ringCycle _ _ _ h

theorem cycleArrives (K : Rings P) {s : State} (p : RingPort) (x : Arrival) (h : P s) : P (s.cycleArrives p x) := by
  unfold State.cycleArrives
  split
  · exact K.takeCycle _ _ h
  · exact K.badTelegram _ _ h

theorem ringLost (K : Rings P) {s : State} (h : P s) : P s.ringLost := by
  unfold State.ringLost
  split
  · exact K.takeFaults (K.hand _ _ (K.ring _ (fun ok => ok) h))
  · exact h

end Rings

end Sys2Proof.Machine
end

