-- ==== Sys2Proof/Laws/Requests.lean ====
section
/-! SUPPORT. What the requests, served from a command or from a management telegram, keep (R44 to R52, R175, R188 to
R200), and the command that carries each request. -/

namespace Sys2Proof.Machine

variable {P : State → Prop}

/-- Which line state and latch a property of both concerns. -/
theorem latchOk_running {l : Lsc} (h : l.LatchOk) (hr : runsLine l.state = true) : l.latch = none := by
  have := h.1
  cases hl : l.latch
  · rfl
  · rcases this (by simp [hl]) with hs | hs <;> simp [hs, runsLine] at hr

/-! ### What the order requests do to the table (R44, R47, R49, R50, R52) -/

/-- A slot in none of the states that a list or a segment names. -/
theorem tableOk_free {o : Osq} {l : List (Option Nat)} {i : Nat} (h₁ : (o.slotAt i).state ≠ .queued)
    (h₂ : (o.slotAt i).state ≠ .suspended) (h₃ : (o.slotAt i).state ≠ .onWeb) (h : o.TableOk l) :
    i ∉ o.queue ∧ o.rush ≠ some i ∧ i ∉ o.held ∧ some i ∉ l :=
  ⟨fun e => h₁ (h.queued i e), fun e => h₁ (h.rush i e).2, fun e => h₂ (h.suspended i e),
    fun e => (h.web i e).elim h₃ h₂⟩

theorem Osq.enqueues_unnamed {o : Osq} {i : Nat} {f : Slot → Slot} (h₁ : (o.slotAt i).state ≠ .queued)
    (h₂ : (o.slotAt i).state ≠ .suspended) (h₃ : (o.slotAt i).state ≠ .onWeb) (hf : ∀ x, (f x).inFlight = 0) :
    o.Enqueues { o with slots := modify o.slots i f } where
  segments := rfl
  lists h := h
  held h := h
  table _ h :=
    have n := tableOk_free h₁ h₂ h₃ h
    tableOk_unnamed n.1 n.2.1 n.2.2.1 n.2.2.2 (fun _ => hf _) h

theorem Osq.enqueues_loaded {o : Osq} {i : Nat} {r : OrderRec}
    (h : (o.slotAt i).state = .empty ∨ (o.slotAt i).state = .loaded) :
    o.Enqueues { o with slots := modify o.slots i fun _ => { Slot.blank with state := .loaded, order := some r } } := by
  refine Osq.enqueues_unnamed ?_ ?_ ?_ fun _ => rfl
  all_goals rcases h with h | h <;> simp [h]

/-- A QUEUED slot withdrawn (R47). -/
def Osq.withdrawn (o : Osq) (i : Nat) : Osq :=
  { o with
    slots := modify o.slots i fun _ => Slot.blank, queue := o.queue.filter (· != i),
    rush := if o.rush = some i then none else o.rush }

/-- A slot at the tail of the run queue (R49). -/
def Osq.appended (o : Osq) (i : Nat) : Osq :=
  { o with slots := modify o.slots i fun x => { x with state := .queued }, queue := o.queue ++ [i] }

/-- A slot out of the run queue (R50). -/
def Osq.removed (o : Osq) (p i : Nat) : Osq :=
  { o with slots := modify o.slots i fun x => { x with state := .loaded }, queue := o.queue.eraseIdx p }

/-- A slot as the pending rush (R52). -/
def Osq.rushed (o : Osq) (i : Nat) : Osq :=
  { o with slots := modify o.slots i fun x => { x with state := .queued }, rush := some i }

/-- Taken off every list, a slot may change. -/
theorem tableOk_less {o : Osq} {l : List (Option Nat)} {q : List Nat} {r : Option Nat} (hq : q.Sublist o.queue)
    (hr : ∀ i, r = some i → o.rush = some i) (h : o.TableOk l) : Osq.TableOk { o with queue := q, rush := r } l where
  once := h.once.sublist hq
  queued i hi := h.queued i (hq.subset hi)
  rush i hi := ⟨fun e => (h.rush i (hr i hi)).1 (hq.subset e), (h.rush i (hr i hi)).2⟩
  heldOnce := h.heldOnce
  suspended := h.suspended
  web := h.web
  flight := h.flight
  lead := h.lead

theorem queued_unheld {o : Osq} {l : List (Option Nat)} {i : Nat} (hs : (o.slotAt i).state = .queued) (h : o.TableOk l) :
    i ∉ o.held ∧ some i ∉ l := by
  refine ⟨fun e => ?_, fun e => ?_⟩
  · have := (h.suspended i e).symm.trans hs; cases this
  · rcases h.web i e with e | e <;> (have := e.symm.trans hs; cases this)

theorem Osq.enqueues_withdrawn {o : Osq} {i : Nat} (hs : (o.slotAt i).state = .queued) : o.Enqueues (o.withdrawn i) where
  segments := rfl
  lists h := ⟨h.1, h.2.1, (List.length_filter_le _ _).trans h.2.2⟩
  held h := by
    unfold Osq.HeldOk Osq.withdrawn at *
    dsimp only
    split
    · simp only [Option.toList, List.length_nil]; omega
    · exact h
  table l h := by
    have n := queued_unheld hs h
    refine tableOk_unnamed (o := { o with queue := o.queue.filter (· != i), rush := if o.rush = some i then none else o.rush })
      (by simp) (fun e => ?_) n.1 n.2 (fun _ => rfl) (tableOk_less List.filter_sublist (fun j e => ?_) h)
    all_goals
      split at e
      · cases e
      · first | exact e | contradiction

theorem Osq.enqueues_removed {o : Osq} {p i : Nat} (hp : o.queue[p]? = some i) : o.Enqueues (o.removed p i) where
  segments := rfl
  lists h := ⟨h.1, h.2.1, (List.length_eraseIdx_le _ _).trans h.2.2⟩
  held h := h
  table l h := by
    have hi := List.mem_of_getElem? hp
    have n := queued_unheld (h.queued i hi) h
    obtain ⟨hp', e⟩ := List.getElem?_eq_some_iff.1 hp
    refine tableOk_unnamed (o := { o with queue := o.queue.eraseIdx p }) (fun hm => ?_) (fun e => (h.rush i e).1 hi) n.1 n.2
      (fun _ => ?_) (tableOk_less (List.eraseIdx_sublist _ _) (fun _ e => e) h)
    · have := (List.getElem_cons_eraseIdx_perm hp').nodup_iff.2 h.once
      rw [e] at this
      exact (List.nodup_cons.1 this).1 hm
    · exact (h.flight i).trans (List.count_eq_zero.2 n.2)

/-- A LOADED slot becomes QUEUED, in no list yet. -/
theorem tableOk_enters {o : Osq} {l : List (Option Nat)} {i : Nat} (hs : (o.slotAt i).state = .loaded) (h : o.TableOk l) :
    Osq.TableOk { o with slots := modify o.slots i fun x => { x with state := .queued } } l
      ∧ (Osq.slotAt { o with slots := modify o.slots i fun x => { x with state := .queued } } i).state = .queued
      ∧ i ∉ o.queue ∧ o.rush ≠ some i := by
  have n := tableOk_free (o := o) (i := i) (by simp [hs]) (by simp [hs]) (by simp [hs]) h
  refine ⟨tableOk_unnamed n.1 n.2.1 n.2.2.1 n.2.2.2 (fun _ => ?_) h, ?_, n.1, n.2.1⟩
  · exact (h.flight i).trans (List.count_eq_zero.2 n.2.2.2)
  · rw [slotAt_modify, if_pos ⟨rfl, slotAt_lt (o := o) (by simp [hs])⟩]

theorem Osq.enqueues_appended {o : Osq} {i : Nat} (hs : (o.slotAt i).state = .loaded) (hq : o.queue.length < 32) :
    o.Enqueues (o.appended i) where
  segments := rfl
  lists h := ⟨h.1, h.2.1, by simp only [Osq.appended, List.length_append, List.length_cons, List.length_nil]; omega⟩
  held h := h
  table l h := by
    obtain ⟨ok, hi, hn, hr⟩ := tableOk_enters hs h
    constructor
    · exact List.nodup_append.2 ⟨ok.once, List.nodup_singleton i, fun a ha b hb e => hn (by simp_all)⟩
    · intro j hj
      rcases List.mem_append.1 hj with hj | hj
      · exact ok.queued j hj
      · rw [List.mem_singleton.1 hj]; exact hi
    · intro j hj
      refine ⟨fun e => ?_, (ok.rush j hj).2⟩
      rcases List.mem_append.1 e with e | e
      · exact (ok.rush j hj).1 e
      · exact hr (List.mem_singleton.1 e ▸ hj)
    · exact ok.heldOnce
    · exact ok.suspended
    · exact ok.web
    · exact ok.flight
    · exact ok.lead

theorem Osq.enqueues_rushed {o : Osq} {i : Nat} (hs : (o.slotAt i).state = .loaded) (hh : o.held.length < 3) : o.Enqueues (o.rushed i) where
  segments := rfl
  lists h := h
  held _ := by simp only [Osq.HeldOk, Osq.rushed, Option.toList, List.length_cons, List.length_nil]; omega
  table l h := by
    obtain ⟨ok, hi, hn, _⟩ := tableOk_enters hs h
    exact ⟨ok.once, ok.queued, fun j hj => by cases hj; exact ⟨hn, hi⟩, ok.heldOnce, ok.suspended, ok.web, ok.flight, ok.lead⟩

/-- A slot that LOAD_ORDER may fill is EMPTY or LOADED (R44). -/
theorem slotRefusal_none {s : State} {i : Nat} (h : s.slotRefusal i = none) :
    (s.slot i).state = .empty ∨ (s.slot i).state = .loaded := by
  unfold State.slotRefusal at h
  repeat' split at h
  all_goals simp_all

/-! ### Requests that load no configuration -/

namespace Rings

theorem loadOrder (K : Rings P) {s : State} (x : OrderArgs) (h : P s) : P (s.loadOrder x).1 := by
  unfold State.loadOrder
  split
  · exact h
  · exact h
  · split <;> exact h
  · split
    · exact h
    · exact h
    · split
      · exact h
      · exact K.onPile _ _ (K.enqueue _ (Osq.enqueues_loaded (slotRefusal_none (by assumption))) h)

theorem withdrawOrder (K : Rings P) {s : State} (i : Nat) (h : P s) : P (s.withdrawOrder i).1 := by
  unfold State.withdrawOrder
  split
  · exact h
  · dsimp only
    have gone : ∀ x, (s.slot i).state = x → x ≠ .queued → x ≠ .suspended → x ≠ .onWeb → P (s.onSlot i fun _ => Slot.blank) :=
      fun x e h₁ h₂ h₃ => K.enqueue _ (Osq.enqueues_unnamed (e ▸ h₁) (e ▸ h₂) (e ▸ h₃) fun _ => rfl) h
    split
    · exact h
    · exact gone .loaded (by assumption) nofun nofun nofun
    · exact gone .complete (by assumption) nofun nofun nofun
    · exact gone .short (by assumption) nofun nofun nofun
    · exact h
    · exact h
    · exact K.candidateEvent (K.enqueue (fun o => Osq.withdrawn o i) (Osq.enqueues_withdrawn (by assumption)) h)

theorem queueAppend (K : Rings P) {s : State} (i : Nat) (h : P s) : P (s.queueAppend i).1 := by
  unfold State.queueAppend
  split
  · exact h
  split
  · exact h
  split
  · exact h
  split
  · exact h
  rename_i hs hq
  split
  · exact h
  · exact K.candidateEvent (K.enqueue (fun o => Osq.appended o i)
      (Osq.enqueues_appended (Decidable.of_not_not hs) (by omega)) h)

theorem queueRemove (K : Rings P) {s : State} (p i : Nat) (h : P s) : P (s.queueRemove p i).1 := by
  unfold State.queueRemove
  split
  · exact h
  split
  · exact h
  rename_i hp
  split
  · exact h
  · rename_i e
    rw [Decidable.of_not_not e] at hp
    exact K.candidateEvent (K.enqueue (fun o => Osq.removed o p i) (Osq.enqueues_removed hp) h)

theorem insertRush (K : Rings P) {s : State} (i : Nat) (h : P s) : P (s.insertRush i).1 := by
  unfold State.insertRush
  split
  · exact h
  split
  · exact h
  split
  · exact h
  rename_i hs
  split
  · exact h
  split
  · exact h
  rename_i hh
  split
  · exact h
  · exact K.evaluateRush (K.reportCandidate (K.enqueue (fun o => Osq.rushed o i)
      (Osq.enqueues_rushed (Decidable.of_not_not hs) (by omega)) h))

theorem readLog (K : Rings P) {s : State} (space n : Nat) (h : P s) : P (s.readLog space n).1 := by
  unfold State.readLog
  split
  · exact h
  split
  · exact h
  · dsimp only
    refine K.plg _ (fun ok => ?_) h
    have := ok.1
    exact ⟨by simp only [List.length_drop]; omega, ok.2⟩

theorem logModeRequest (K : Rings P) {s : State} (m : Option LogMode) (b : Bool) (h : P s) :
    P (s.logModeRequest m b).1 := by
  unfold State.logModeRequest
  split
  · exact h
  · dsimp only
    refine K.plg _ (fun ok => ?_) h
    have := ok.1
    exact ⟨by cases b <;> simp [this], ok.2⟩

theorem startCheck_latch {s : State} (h : s.startCheck = none) : s.lsc.latch = none := by
  unfold State.startCheck at h
  split at h
  · simp at h
  · simp at h
  · repeat' split at h
    all_goals simp_all

theorem startRequest (K : Rings P) {s : State} (new : LineState) (c : Nat) (hn : new ≠ .faulted) (h : P s) :
    P (s.startRequest new c).1 := by
  unfold State.startRequest
  split
  · exact h
  · exact K.start _ _ hn (startCheck_latch (by assumption)) h

theorem lineResetRequest (K : Rings P) {s : State} (h : P s) : P s.lineResetRequest.1 := by
  unfold State.lineResetRequest
  split
  · exact h
  · exact K.resetLine h

theorem manualSplice (K : Rings P) {s : State} (k : Nat) (h : P s) : P (s.manualSplice k).1 := by
  unfold State.manualSplice
  split
  · exact h
  dsimp only
  split
  · exact h
  split
  · exact h
  split
  · exact h
  · exact K.syncReasons _ (K.examine _ (K.onStand _ _ (fun _ => rfl) h))

theorem operatorCutout (K : Rings P) {s : State} (r : Nat) (d l : Int) (h : P s) : P (s.operatorCutout r d l).1 := by
  unfold State.operatorCutout
  split
  · exact h
  split
  · exact h
  · exact K.insertDefect _ rfl (K.markReport _ h)

end Rings

/-! ### Requests that load the configuration -/

namespace Loads

theorem replaceEntry (K : Loads P) {s : State} (e : Nat) (c : Option SubCfg) (h : P s) : P (s.replaceEntry e c) :=
  K.tables _ (K.lapse _ h)

theorem loadStation (K : Loads P) {s : State} (a : StationArgs) (h : P s) : P (s.loadStation a).1 := by
  unfold State.loadStation
  dsimp only
  repeat' (split <;> try dsimp only)
  all_goals first | exact h | exact K.tables _ h

theorem loadSubscription (K : Loads P) {s : State} (a : SubscriptionArgs) (h : P s) : P (s.loadSubscription a).1 := by
  unfold State.loadSubscription
  dsimp only
  repeat' (split <;> try dsimp only)
  all_goals first | exact h | exact K.replaceEntry _ _ h

theorem applyLine (K : Loads P) {s : State} (c : LineConsts) (h : P s) : P (s.applyLine c) := by
  unfold State.applyLine
  have h₁ : P (if s.line.nums.dSs ≠ 0 ∧ c.nums.dSs = 0 then s.dropSlitter else s) :=
    ite_keeps (fun _ => K.dropSlitter h) fun _ => h
  exact ite_keeps (fun _ => K.forecastFor _ (K.consts c h₁)) fun _ => K.consts c h₁

theorem setLine (K : Loads P) {s : State} (a : LineArgs) (h : P s) : P (s.setLine a).1 := by
  unfold State.setLine
  split
  · exact h
  · exact h
  · exact K.applyLine _ h

theorem configureStand (K : Loads P) {s : State} (i : Nat) (c : StandCfg) (h : P s) : P (s.configureStand i c) := by
  unfold State.configureStand
  dsimp only
  refine ite_keeps (fun _ => K.alter _ _ (by simp [isLineReason]) ?_ (K.stands _ h)) fun _ => K.stands _ h
  split <;> simp [isLineReason]

theorem loadStand (K : Loads P) {s : State} (a : StandArgs) (h : P s) : P (s.loadStand a).1 := by
  unfold State.loadStand
  dsimp only
  repeat' (split <;> try dsimp only)
  all_goals first
    | exact h
    | exact K.alter _ _ (by simp [isLineReason]) (by simp) (K.stands _ h)
    | exact K.configureStand _ _ h

theorem loadPoint (K : Loads P) {s : State} (a : PointArgs) (h : P s) : P (s.loadPoint a).1 := by
  unfold State.loadPoint
  split
  · exact h
  · exact h
  · dsimp only
    split
    · dsimp only
      refine K.heat _ ?_
      split
      · exact K.closeTied _ _ h
      · exact h
    · split
      · dsimp only; exact K.heat _ h
      · dsimp only
        exact K.closeIfIdle _ (K.heat _ (ite_keeps (fun _ => h) fun _ => K.closeTied _ _ h))

theorem loadChannel (K : Loads P) {s : State} (a : ChannelArgs) (h : P s) : P (s.loadChannel a).1 := by
  unfold State.loadChannel
  split
  · exact h
  · dsimp only
    refine K.heat _ ?_
    split
    · exact ite_keeps (fun _ => K.closeOffband _ _ _ h) fun _ => h
    · exact h

theorem loadScan (K : Loads P) {s : State} (l : List Nat) (h : P s) : P (s.loadScan l).1 := by
  unfold State.loadScan
  repeat' (split <;> try dsimp only)
  all_goals first | exact h | exact K.heat _ h

theorem loadGrade (K : Loads P) {s : State} (a : GradeArgs) (h : P s) : P (s.loadGrade a).1 := by
  unfold State.loadGrade
  repeat' (split <;> try dsimp only)
  all_goals first | exact h | exact K.heat _ h

end Loads

/-! ### Serving requests (R188, R189) -/

/-- A request that passes its checks is available in the line state (R189, R190). -/
theorem availableIn_of_check {s : State} {q : Asker} {r : Request} (h : s.checkRequest q r = none) :
    availableIn r s.lsc.state = true := by
  unfold State.checkRequest at h
  split at h
  · simp at h
  · split at h
    · simp at h
    · split at h
      · simp at h
      · rename_i ha
        simpa using ha

theorem availableIn_halt {x : LineState} (h : availableIn .halt x = true) : runsLine x = true := by
  cases x <;> simp_all [availableIn, runsLine]

theorem Rings.owned (K : Rings P) {s : State} (q : Asker) (r : Request) (hr : loadsConfiguration r = false)
    (hl : s.lsc.LatchOk) (hc : s.checkRequest q r = none) (h : P s) : P (Machine.owned q r s).1 := by
  cases r
  any_goals simp [loadsConfiguration] at hr
  case loadOrder => exact K.loadOrder _ h
  case withdrawOrder => exact K.withdrawOrder _ h
  case queueAppend => exact K.queueAppend _ h
  case queueRemove => exact K.queueRemove _ _ h
  case insertRush => exact K.insertRush _ h
  case verifyOrder => exact h
  case readOrder => exact h
  case queueRead => exact h
  case readStatus => exact h
  case readMap => exact h
  case readStands => exact h
  case readLog => exact K.readLog _ _ h
  case logMode => exact K.logModeRequest _ _ h
  case startThreading => exact K.startRequest _ _ (by simp) h
  case startProduction => exact K.startRequest _ _ (by simp) h
  case halt => exact K.haltLine (latchOk_running hl (availableIn_halt (availableIn_of_check hc))) h
  case lineReset => exact K.lineResetRequest h
  case manualSplice => exact K.manualSplice _ h
  case operatorCutout => exact K.operatorCutout _ _ _ h

theorem Loads.owned (K : Loads P) {s : State} (q : Asker) (r : Request) (hl : s.lsc.LatchOk)
    (hc : s.checkRequest q r = none) (h : P s) : P (Machine.owned q r s).1 := by
  by_cases hr : loadsConfiguration r = false
  · exact K.toRings.owned q r hr hl hc h
  · cases r
    any_goals simp [loadsConfiguration] at hr
    case loadStation => exact K.loadStation _ h
    case loadSubscription => exact K.loadSubscription _ h
    case setLine => exact K.setLine _ h
    case loadStand => exact K.loadStand _ h
    case loadPoint => exact K.loadPoint _ h
    case loadChannel => exact K.loadChannel _ h
    case loadScan => exact K.loadScan _ h
    case loadGrade => exact K.loadGrade _ h

theorem Rings.serve (K : Rings P) {s : State} (q : Asker) (r : Request) (f : State → State × Reply)
    (hf : s.checkRequest q r = none → P (f s).1) (h : P s) : P (s.serve q r f).1 := by
  unfold State.serve
  split
  · exact h
  · exact K.takeFaults (hf (by assumption))

/-- A request command keeps what its owner keeps. -/
theorem Rings.answer (K : Rings P) {s : State} (q : Asker) (r : Request) (f : State → State × Reply)
    (hf : ∀ t : State, t.lsc = s.lsc → t.checkRequest q r = none → P t → P (f t).1) (h : P s) :
    P (s.answer q r f) := by
  have h₀ : P { s with commStation := q.comm } := K.tell q.comm s.reply h
  unfold State.answer
  dsimp only
  refine ite_keeps (fun _ => K.notify _ h₀) fun _ => ?_
  exact K.tell _ _ (K.serve q r f (fun hc => hf _ rfl hc h₀) h₀)

/-! ### Management telegrams (R175, R188) -/

/-- What a request item asks for keeps what its request's owner keeps. -/
theorem Rings.serveAsked (K : Rings P) {s : State} (q : Asker) (x : Asked)
    (hf : ∀ r, x = .known r → s.checkRequest q r = none → P s → P (Machine.owned q r s).1) (h : P s) :
    P (s.serveAsked q x).1 := by
  cases x with
  | known r => exact K.serve _ _ _ (fun hc => hf r rfl hc h) h
  | unknown code => exact h

/-- An item of a management telegram keeps what its request's owner keeps. -/
theorem Rings.takeRequest (K : Rings P) {s : State} (own : Option Nat) (pins : BitVec 6) (it : Item)
    (hf : ∀ x r q, it.payload = .request x → x.asked = .known r → s.checkRequest q r = none → P s → P (Machine.owned q r s).1)
    (h : P s) : P (s.takeRequest own pins it).1 := by
  unfold State.takeRequest
  split
  · rename_i r hr
    dsimp only
    split
    · split
      · exact K.notify _ h
      · exact K.tell _ _ (K.serveAsked _ _ (fun q ha hc => hf r q _ hr ha hc) h)
    · exact h
  · exact h

theorem Rings.takeRequests (K : Rings P) (own : Option Nat) (pins : BitVec 6) (l : List Item) (i : Nat) {s : State}
    (hf : ∀ it ∈ l, ∀ t x r q, it.payload = .request x → x.asked = .known r → t.checkRequest q r = none → P t →
      P (Machine.owned q r t).1) (h : P s) : P (State.takeRequests s own pins i l).1 := by
  induction l generalizing s i with
  | nil => exact h
  | cons it l ih =>
    refine ih _ (fun x hx => hf x (List.mem_cons_of_mem _ hx)) ?_
    exact K.takeRequest own pins it (fun x r q => hf it List.mem_cons_self s x r q) h

/-- A management telegram keeps what the owners of its requests keep. -/
theorem Rings.managementArrives (K : Rings P) {s : State} (p : RingPort) (pins : BitVec 6) (y : Arrival)
    (hf : ∀ t, readTelegram 2 y = some t → ∀ it ∈ t.items, ∀ u x r q, it.payload = .request x → x.asked = .known r →
      u.checkRequest q r = none → P u → P (Machine.owned q r u).1) (h : P s) : P (s.managementArrives p pins y) := by
  have h₀ : P { s with commStation := pins } := K.tell pins s.reply h
  unfold State.managementArrives
  dsimp only
  split
  · rename_i t ht
    exact K.leave _ _ (K.takeRequests _ _ _ _ (hf t ht) (K.noticeBadItem _ h₀))
  · exact K.badTelegram _ _ h₀

/-! ### Bytes written (R202 to R204) -/

theorem writeInt_length (n : Nat) (v : Int) : (writeInt n v).length = n := by
  induction n generalizing v with
  | zero => rfl
  | succ n ih => simp [writeInt, ih]

theorem writeSigned_length (n : Nat) (v : Int) : (writeSigned n v).length = n := writeInt_length n _

theorem writeClaim_length (start : Int) (c : Claim) : (writeClaim start c).length = 5 := by
  simp [writeClaim, writeInt_length, writeSigned_length]

theorem writeReplyHeader_length (r : Reply) : (writeReplyHeader r).length = 4 := by
  simp [writeReplyHeader, writeInt_length]

/-- A written reply fills its space exactly where its data fits, so the item's length stands (R204). -/
theorem writeReply_length {space : Nat} {r : Reply} (h : 4 + (r.data.map datumLength).sum ≤ space) :
    (writeReply space r).length = space := by
  have : (r.data.flatMap writeDatum).length = (r.data.map datumLength).sum := by
    rw [List.length_flatMap]; rfl
  unfold writeReply
  simp only [List.length_append, List.length_replicate, writeReplyHeader_length, this]
  omega

/-- Reply data cut to its space fits into it (R191). -/
theorem fitData_fits : ∀ (room : Nat) (l : List Datum), ((fitData room l).map datumLength).sum ≤ room
  | _, [] => by simp [fitData]
  | room, d :: rest => by
    unfold fitData
    split
    · have := fitData_fits (room - datumLength d) rest
      simp only [List.map_cons, List.sum_cons]
      omega
    · simp

/-- An item as the part appends it has the length that R184 reckons with. -/
theorem writeItem_length (source : Nat) (o : OutItem) : (writeItem source o).length = outLength o := by
  simp only [writeItem, List.length_append, writeInt_length, outLength]

end Sys2Proof.Machine
end

