-- ==== Sys2Proof/Laws/Invariant.lean ====
section
/-! SUPPORT. Each clause of the invariant as a property that the operations keep, the clauses together, and the faults
handed, which Line State Control has taken by the end of every event (R17, R20, R161, R168). -/

namespace Sys2Proof.Machine

/-! ### Line reasons in the reason set (R15, R161) -/

/-- The line reasons of a set. -/
def lineReasons (l : List Raised) : List Raised := l.filter fun r => isLineReason r.reason

theorem lineReasons_drop (x : Reason) (i : Nat) (l : List Raised) :
    lineReasons (dropReason x i l) = dropReason x i (lineReasons l) := by
  simp only [lineReasons, dropReason, List.filter_filter]
  exact List.filter_congr fun r _ => Bool.and_comm _ _

theorem lineReasons_drop_other {x : Reason} (i : Nat) (l : List Raised) (hx : isLineReason x = false) :
    lineReasons (dropReason x i l) = lineReasons l := by
  rw [lineReasons_drop]
  refine List.filter_eq_self.2 fun r hr => ?_
  have : isLineReason r.reason = true := (List.mem_filter.1 hr).2
  have hne : r.reason ≠ x := fun h => by simp_all
  simp [hne]

theorem lineReasons_add_other {x : Raised} (l : List Raised) (hx : isLineReason x.reason = false) :
    lineReasons (addReason x l) = lineReasons l := by
  induction l with
  | nil => simp [addReason, lineReasons, hx]
  | cons y ys ih =>
    unfold addReason
    split
    · rfl
    · split
      · simp [lineReasons, hx]
      · simp only [lineReasons, List.filter_cons] at ih ⊢
        split <;> simp [ih]

theorem lineReasons_add {x : Raised} (l : List Raised) (hx : isLineReason x.reason = true)
    (hl : lineReasons l = []) : lineReasons (addReason x l) = [x] := by
  induction l with
  | nil => simp [addReason, lineReasons, hx]
  | cons y ys ih =>
    have hy : isLineReason y.reason = false := by
      have := List.filter_eq_nil_iff.1 hl y List.mem_cons_self
      simpa using this
    have hys : lineReasons ys = [] := by simpa [lineReasons, hy] using hl
    unfold addReason
    split
    · rename_i h
      rw [h.1] at hy
      simp_all
    · split
      · simpa [lineReasons, hx, hy] using hys
      · simpa [lineReasons, hy] using ih hys

theorem lineReasons_drops_other (d : List (Reason × Nat)) (l : List Raised) (hd : ∀ x ∈ d, isLineReason x.1 = false) :
    lineReasons (d.foldl (fun l x => dropReason x.1 x.2 l) l) = lineReasons l := by
  induction d generalizing l with
  | nil => rfl
  | cons x d ih =>
    rw [List.foldl_cons, ih _ fun y hy => hd y (List.mem_cons_of_mem _ hy)]
    exact lineReasons_drop_other _ _ (hd x List.mem_cons_self)

theorem lineReasons_adds_other (r : List Raised) (l : List Raised) (hr : ∀ x ∈ r, isLineReason x.reason = false) :
    lineReasons (r.foldl (fun l x => addReason x l) l) = lineReasons l := by
  induction r generalizing l with
  | nil => rfl
  | cons x r ih =>
    rw [List.foldl_cons, ih _ fun y hy => hr y (List.mem_cons_of_mem _ hy)]
    exact lineReasons_add_other _ (hr x List.mem_cons_self)

theorem lineReasons_drops_nil (d : List (Reason × Nat)) (l : List Raised) (hl : lineReasons l = []) :
    lineReasons (d.foldl (fun l x => dropReason x.1 x.2 l) l) = [] := by
  induction d generalizing l with
  | nil => exact hl
  | cons x d ih => exact ih _ (by rw [lineReasons_drop, hl]; rfl)

/-- A line state's reason dropped, and another's raised, as one alteration. -/
theorem lineReasons_enter (old new : LineState) (further : List (Reason × Nat)) (l : List Raised)
    (hl : lineReasons l = (stateReason old).toList) :
    lineReasons ((stateReason new).toList.foldl (fun l x => addReason x l)
        ((((stateReason old).toList.map fun r => (r.reason, r.inst)) ++ further).foldl
          (fun l x => dropReason x.1 x.2 l) l)) = (stateReason new).toList := by
  have hd : lineReasons ((((stateReason old).toList.map fun r => (r.reason, r.inst)) ++ further).foldl
      (fun l x => dropReason x.1 x.2 l) l) = [] := by
    rw [List.foldl_append]
    refine lineReasons_drops_nil _ _ ?_
    cases h : stateReason old with
    | none => simpa [h] using hl
    | some r =>
      rw [h] at hl
      simp only [Option.toList, List.map_cons, List.map_nil, List.foldl_cons, List.foldl_nil]
      rw [lineReasons_drop, hl]
      simp [dropReason]
  cases h : stateReason new with
  | none => simpa [h] using hd
  | some r =>
    refine lineReasons_add _ ?_ hd
    cases new <;> simp [stateReason] at h <;> subst h <;> rfl

/-! ### What a SPEED_REQUEST and a new reason set leave (R17 to R20, R185, R186) -/

theorem sendSpeedRequest_wtr (s : State) (c : SpeedCause) :
    (s.sendSpeedRequest c).wtr = { s.wtr with refresh := 64 } := by
  unfold State.sendSpeedRequest
  dsimp only
  split
  · rfl
  · simp

theorem setReasons_wtr (s : State) (l : List Raised) :
    (s.setReasons l).wtr = { s.wtr with
      reasons := l, request := strongest l, governing := governingOf l,
      refresh := if strongest l = s.wtr.request then s.wtr.refresh else 64 } := by
  unfold State.setReasons
  dsimp only
  split
  · rfl
  · rw [sendSpeedRequest_wtr]; rfl

theorem queueUrgent_ring (s : State) (o : OutItem) : (s.queueUrgent o).rif.ring = s.rif.ring := by
  unfold State.queueUrgent; split <;> rfl

theorem queueRoutine_ring (s : State) (o : OutItem) : (s.queueRoutine o).rif.ring = s.rif.ring := by
  unfold State.queueRoutine; (repeat' split) <;> rfl

theorem sendSpeedRequest_ring (s : State) (c : SpeedCause) : (s.sendSpeedRequest c).rif.ring = s.rif.ring := by
  unfold State.sendSpeedRequest
  dsimp only
  split
  · rfl
  · rw [queueUrgent_ring]; rfl

theorem setReasons_ring (s : State) (l : List Raised) : (s.setReasons l).rif.ring = s.rif.ring := by
  unfold State.setReasons
  dsimp only
  split
  · rfl
  · rw [sendSpeedRequest_ring]; rfl

theorem setReasons_lineStop (s : State) (l : List Raised) :
    (s.setReasons l).lineStop = (strongest l == .stop || s.rif.ring == .lost) := by
  unfold State.setReasons
  dsimp only
  split
  · rfl
  · rw [State.sendSpeedRequest_lineStop]; rfl

theorem queueUrgent_ok {s : State} (o : OutItem) (h : s.rif.QueuesOk) : (s.queueUrgent o).rif.QueuesOk := by
  unfold State.queueUrgent
  split
  · refine ⟨?_, h.2⟩
    simp only [State.onRif, List.length_append, List.length_cons, List.length_nil]
    omega
  · exact h

theorem queueRoutine_ok {s : State} (o : OutItem) (h : s.rif.QueuesOk) : (s.queueRoutine o).rif.QueuesOk := by
  have h₁ := h.1
  have h₂ := h.2
  unfold State.queueRoutine
  split
  · exact ⟨h₁, by simpa [State.onRif] using h₂⟩
  split
  · exact h
  split
  · refine ⟨h₁, ?_⟩
    simp only [State.onRif, List.length_append, List.length_cons, List.length_nil]
    omega
  split
  · exact h
  split
  · rename_i hn
    obtain ⟨x, hx, hp⟩ := List.any_eq_true.1 hn
    have := List.length_eraseP_of_mem hx hp
    refine ⟨h₁, ?_⟩
    simp only [State.onRif, List.length_append, List.length_cons, List.length_nil]
    omega
  split
  · exact h
  · exact h

theorem sendSpeedRequest_ok {s : State} (c : SpeedCause) (h : s.rif.QueuesOk) :
    (s.sendSpeedRequest c).rif.QueuesOk := by
  unfold State.sendSpeedRequest
  dsimp only
  split
  · exact ⟨by simpa [State.onRif] using h.1, h.2⟩
  · exact queueUrgent_ok _ h

theorem setReasons_ok {s : State} (l : List Raised) (h : s.rif.QueuesOk) : (s.setReasons l).rif.QueuesOk := by
  unfold State.setReasons
  dsimp only
  split
  · exact h
  · exact sendSpeedRequest_ok _ h

theorem log_ok {s : State} (b : LogBody) (h : s.plg.LogOk) : (s.log b).plg.LogOk := by
  have h₁ := h.1
  unfold State.log
  dsimp only
  split
  · refine ⟨?_, Nat.mod_lt _ (by omega)⟩
    simp only [State.onPlg, List.length_append, List.length_cons, List.length_nil]
    omega
  · split
    · refine ⟨?_, Nat.mod_lt _ (by omega)⟩
      simp only [State.onPlg, List.length_append, List.length_drop, List.length_cons, List.length_nil]
      omega
    · exact h

theorem log_rif (s : State) (b : LogBody) : (s.log b).rif = s.rif := by
  obtain ⟨p, e⟩ := s.log_only b; rw [e]

/-! ### The clauses of the invariant -/

/-- P is kept by every operation, whatever boundaries stand and whatever the slots hold. -/
structure Plain (P : State → Prop) : Prop extends Bounds P where
  feed : ∀ {s : State} (f : Wtr → Wtr), s.wtr.FeedStep (f s.wtr) → P s → P (s.onWtr f)
  lsc : ∀ {s : State} (f : Lsc → Lsc), (f s.lsc).state = s.lsc.state → (s.lsc.LatchOk → (f s.lsc).LatchOk) →
    P s → (hf : s.lsc.seen.Nodup → (f s.lsc).seen.Nodup := by exact fun ok => ok) → P (s.onLsc f)
  line : ∀ {s : State} (f : Lsc → Lsc) (further : List (Reason × Nat)), (f s.lsc).LatchOk →
    (s.lsc.seen.Nodup → (f s.lsc).seen.Nodup) → (∀ x ∈ further, isLineReason x.1 = true) → P s →
    P ((s.onLsc f).alter (((stateReason s.lsc.state).toList.map fun r => (r.reason, r.inst)) ++ further)
      (stateReason (f s.lsc).state).toList)
  irt : ∀ {s : State} (f : Irt → Irt), P s → P (s.onIrt f)
  clear : ∀ {s : State}, P s → P { s with handed := [] }
  port : ∀ {s : State} (f : Rif → Rif), (s.rif.QueuesOk → (f s.rif).QueuesOk) → (f s.rif).ring = s.rif.ring →
    P s → P (s.onRif f)
  ring : ∀ {s : State} (f : Rif → Rif), (s.rif.QueuesOk → (f s.rif).QueuesOk) → P s → P ((s.onRif f).syncLineStop)
  choose : ∀ {s : State} (n), P s → P { s with choices := n }
  pass : ∀ {s : State} (x), P s → P { s with passed := x }
  tell : ∀ {s : State} (c r), P s → P { s with commStation := c, reply := r }
  plg : ∀ {s : State} (f : Plg → Plg), (s.plg.LogOk → (f s.plg).LogOk) → P s → P (s.onPlg f)
  consts : ∀ {s : State} (c), P s → P { s with line := c }
  stands : ∀ {s : State} (f : Spl → Spl), P s → P (s.onSpl f)
  heat : ∀ {s : State} (f : Hgr → Hgr), P s → P (s.onHgr f)

/-- Such a property is one of those that the operations keep. -/
theorem Plain.loads {P : State → Prop} (K : Plain P) : Loads P where
  toCounts := K.toCounts
  created x _ hn _ h := K.createBoundary x _ hn h
  retires h := K.retireMarks h
  enqueue f hf h := K.segs f hf.lists h
  feed := K.feed
  irt f _ h := K.irt f h
  lsc f h₁ h₂ h h₃ := K.lsc f h₁ h₂ h h₃
  line := K.line
  clear := K.clear
  port := K.port
  ring := K.ring
  choose := K.choose
  pass := K.pass
  tell := K.tell
  plg := K.plg
  consts := K.consts
  stands := K.stands
  heat := K.heat
  tables f h := K.irt f h

/-- Two properties that the operations keep are kept together. -/
theorem Loads.and {P Q : State → Prop} (K : Loads P) (L : Loads Q) : Loads fun s => P s ∧ Q s where
  toCounts := K.toCounts.and L.toCounts
  created x b h₁ h₂ h := ⟨K.created x b h₁ h₂ h.1, L.created x b h₁ h₂ h.2⟩
  retires h := ⟨K.retires h.1, L.retires h.2⟩
  enqueue f hf h := ⟨K.enqueue f hf h.1, L.enqueue f hf h.2⟩
  feed f hf h := ⟨K.feed f hf h.1, L.feed f hf h.2⟩
  lsc f h₁ h₂ h h₃ := ⟨K.lsc f h₁ h₂ h.1 h₃, L.lsc f h₁ h₂ h.2 h₃⟩
  line f x h₁ h₂ h₃ h := ⟨K.line f x h₁ h₂ h₃ h.1, L.line f x h₁ h₂ h₃ h.2⟩
  ring f hf h := ⟨K.ring f hf h.1, L.ring f hf h.2⟩
  irt f hf h := ⟨K.irt f hf h.1, L.irt f hf h.2⟩
  clear h := ⟨K.clear h.1, L.clear h.2⟩
  port f h₁ h₂ h := ⟨K.port f h₁ h₂ h.1, L.port f h₁ h₂ h.2⟩
  choose n h := ⟨K.choose n h.1, L.choose n h.2⟩
  pass x h := ⟨K.pass x h.1, L.pass x h.2⟩
  tell c r h := ⟨K.tell c r h.1, L.tell c r h.2⟩
  plg f hf h := ⟨K.plg f hf h.1, L.plg f hf h.2⟩
  consts c h := ⟨K.consts c h.1, L.consts c h.2⟩
  stands f h := ⟨K.stands f h.1, L.stands f h.2⟩
  heat f h := ⟨K.heat f h.1, L.heat f h.2⟩
  tables f h := ⟨K.tables f h.1, L.tables f h.2⟩

namespace Loads

/-- The feed state and the history keep their bounds (R2, R5, R6, R10, R19). -/
theorem feedState : Loads fun s => s.wtr.FeedOk := Plain.loads {
  log _ h := by simpa using h
  urgent _ h := by simpa using h
  routine _ h := by simpa using h
  hand _ _ h := by simpa using h
  alter _ _ _ _ h := by rw [State.alter, setReasons_wtr]; exact ⟨h.1, h.2.1, h.2.2.1, h.2.2.2.1, h.2.2.2.2.1, h.2.2.2.2.2.1, by
    simp only; split
    · exact h.2.2.2.2.2.2
    · omega⟩
  speed _ h := by rw [sendSpeedRequest_wtr]; exact ⟨h.1, h.2.1, h.2.2.1, h.2.2.2.1, h.2.2.2.2.1, h.2.2.2.2.2.1, le_refl 64⟩
  map _ _ h := h
  place _ _ _ h := h
  knp _ _ h := h
  chg _ h _ := h
  spl _ _ h := h
  hgr _ _ h := h
  osq _ _ h := h
  stk _ _ h := h
  rif _ _ _ h := h
  segs _ _ h := h
  feed _ hf h := hf.2.2.2 h
  lsc _ _ _ h _ := h
  line _ _ _ _ _ h := by rw [State.alter, setReasons_wtr]; exact ⟨h.1, h.2.1, h.2.2.1, h.2.2.2.1, h.2.2.2.2.1, h.2.2.2.2.2.1, by
    simp only; split
    · exact h.2.2.2.2.2.2
    · omega⟩
  irt _ h := h
  clear h := h
  port _ _ _ h := h
  ring _ _ h := by simpa using h
  choose _ h := h
  pass _ h := h
  tell _ _ h := h
  plg _ _ h := h
  consts _ h := h
  stands _ h := h
  heat _ h := h
  }

/-- The map keeps its form (R25, R26). -/
theorem mapForm : Loads fun s => s.wmp.MapOk := Plain.loads {
  log _ h := by simpa using h
  urgent _ h := by simpa using h
  routine _ h := by simpa using h
  hand _ _ h := by simpa using h
  alter _ _ _ _ h := by simpa using h
  speed _ h := by simpa using h
  map _ hf h := hf.form h
  place _ hf _ h := hf h
  knp _ _ h := h
  chg _ h _ := h
  spl _ _ h := h
  hgr _ _ h := h
  osq _ _ h := h
  stk _ _ h := h
  rif _ _ _ h := h
  segs _ _ h := h
  feed _ _ h := h
  lsc _ _ _ h _ := h
  line _ _ _ _ _ h := by simpa using h
  irt _ h := h
  clear h := h
  port _ _ _ h := h
  ring _ _ h := by simpa using h
  choose _ h := h
  pass _ h := h
  tell _ _ h := h
  plg _ _ h := h
  consts _ h := h
  stands _ h := h
  heat _ h := h
  }

/-- At most four changeover records are held (R78). -/
theorem changeRecords : Loads fun s => s.chg.RecordsOk := Plain.loads {
  log _ h := by simpa using h
  urgent _ h := by simpa using h
  routine _ h := by simpa using h
  hand _ _ h := by simpa using h
  alter _ _ _ _ h := by simpa using h
  speed _ h := by simpa using h
  map _ _ h := h
  place _ _ _ h := h
  knp _ _ h := h
  chg _ h hf := hf h
  spl _ _ h := h
  hgr _ _ h := h
  osq _ _ h := h
  stk _ _ h := h
  rif _ _ _ h := h
  segs _ _ h := h
  feed _ _ h := h
  lsc _ _ _ h _ := h
  line _ _ _ _ _ h := by simpa using h
  irt _ h := h
  clear h := h
  port _ _ _ h := h
  ring _ _ h := by simpa using h
  choose _ h := h
  pass _ h := h
  tell _ _ h := h
  plg _ _ h := h
  consts _ h := h
  stands _ h := h
  heat _ h := h
  }

/-- The segment list and the run queue keep their bounds (R49, R56, R70). -/
theorem orderLists : Loads fun s => s.osq.ListsOk := Plain.loads {
  log _ h := by simpa using h
  urgent _ h := by simpa using h
  routine _ h := by simpa using h
  hand _ _ h := by simpa using h
  alter _ _ _ _ h := by simpa using h
  speed _ h := by simpa using h
  map _ _ h := h
  place _ _ _ h := h
  knp _ _ h := h
  chg _ h _ := h
  spl _ _ h := h
  hgr _ _ h := h
  osq _ hf h := hf.lists h
  stk _ _ h := h
  rif _ _ _ h := h
  segs _ hf h := hf h
  feed _ _ h := h
  lsc _ _ _ h _ := h
  line _ _ _ _ _ h := by simpa using h
  irt _ h := h
  clear h := h
  port _ _ _ h := h
  ring _ _ h := by simpa using h
  choose _ h := h
  pass _ h := h
  tell _ _ h := h
  plg _ _ h := h
  consts _ h := h
  stands _ h := h
  heat _ h := h
  }

/-- At most two plans are outstanding (R126, R127). -/
theorem planQueue : Loads fun s => s.knp.PlansOk := Plain.loads {
  log _ h := by simpa using h
  urgent _ h := by simpa using h
  routine _ h := by simpa using h
  hand _ _ h := by simpa using h
  alter _ _ _ _ h := by simpa using h
  speed _ h := by simpa using h
  map _ _ h := h
  place _ _ _ h := h
  knp _ hf h := hf h
  chg _ h _ := h
  spl _ _ h := h
  hgr _ _ h := h
  osq _ _ h := h
  stk _ _ h := h
  rif _ _ _ h := h
  segs _ _ h := h
  feed _ _ h := h
  lsc _ _ _ h _ := h
  line _ _ _ _ _ h := by simpa using h
  irt _ h := h
  clear h := h
  port _ _ _ h := h
  ring _ _ h := by simpa using h
  choose _ h := h
  pass _ h := h
  tell _ _ h := h
  plg _ _ h := h
  consts _ h := h
  stands _ h := h
  heat _ h := h
  }

/-- The set-down queue keeps its bounds (R151). -/
theorem setDownQueue : Loads fun s => s.stk.QueueOk := Plain.loads {
  log _ h := by simpa using h
  urgent _ h := by simpa using h
  routine _ h := by simpa using h
  hand _ _ h := by simpa using h
  alter _ _ _ _ h := by simpa using h
  speed _ h := by simpa using h
  map _ _ h := h
  place _ _ _ h := h
  knp _ _ h := h
  chg _ h _ := h
  spl _ _ h := h
  hgr _ _ h := h
  osq _ _ h := h
  stk _ hf h := hf h
  rif _ _ _ h := h
  segs _ _ h := h
  feed _ _ h := h
  lsc _ _ _ h _ := h
  line _ _ _ _ _ h := by simpa using h
  irt _ h := h
  clear h := h
  port _ _ _ h := h
  ring _ _ h := by simpa using h
  choose _ h := h
  pass _ h := h
  tell _ _ h := h
  plg _ _ h := h
  consts _ h := h
  stands _ h := h
  heat _ h := h
  }

/-- The log keeps its bounds (R156, R157). -/
theorem logTable : Loads fun s => s.plg.LogOk := Plain.loads {
  log b h := log_ok b h
  urgent _ h := by simpa using h
  routine _ h := by simpa using h
  hand _ _ h := by simpa using h
  alter _ _ _ _ h := by simpa using h
  speed _ h := by simpa using h
  map _ _ h := h
  place _ _ _ h := h
  knp _ _ h := h
  chg _ h _ := h
  spl _ _ h := h
  hgr _ _ h := h
  osq _ _ h := h
  stk _ _ h := h
  rif _ _ _ h := h
  segs _ _ h := h
  feed _ _ h := h
  lsc _ _ _ h _ := h
  line _ _ _ _ _ h := by simpa using h
  irt _ h := h
  clear h := h
  port _ _ _ h := h
  ring _ _ h := by simpa using h
  choose _ h := h
  pass _ h := h
  tell _ _ h := h
  plg _ hf h := hf h
  consts _ h := h
  stands _ h := h
  heat _ h := h
  }

/-- The outbound queues keep their bounds (R185, R186). -/
theorem outbound : Loads fun s => s.rif.QueuesOk := Plain.loads {
  log _ h := by simpa only [log_rif] using h
  urgent o h := queueUrgent_ok o h
  routine o h := queueRoutine_ok o h
  hand _ _ h := h
  alter _ _ _ _ h := setReasons_ok _ h
  speed c h := sendSpeedRequest_ok c h
  map _ _ h := h
  place _ _ _ h := h
  knp _ _ h := h
  chg _ h _ := h
  spl _ _ h := h
  hgr _ _ h := h
  osq _ _ h := h
  stk _ _ h := h
  rif _ h₁ _ h := h₁ h
  segs _ _ h := h
  feed _ _ h := h
  lsc _ _ _ h _ := h
  line _ _ _ _ _ h := setReasons_ok _ h
  irt _ h := h
  clear h := h
  port _ h₁ _ h := h₁ h
  ring _ hf h := hf h
  choose _ h := h
  pass _ h := h
  tell _ _ h := h
  plg _ _ h := h
  consts _ h := h
  stands _ h := h
  heat _ h := h
  }

/-- A latched fault goes with STOPPED or FAULTED (R168, R169). -/
theorem latch : Loads fun s => s.lsc.LatchOk := Plain.loads {
  log _ h := by simpa using h
  urgent _ h := by simpa using h
  routine _ h := by simpa using h
  hand _ _ h := by simpa using h
  alter _ _ _ _ h := by simpa using h
  speed _ h := by simpa using h
  map _ _ h := h
  place _ _ _ h := h
  knp _ _ h := h
  chg _ h _ := h
  spl _ _ h := h
  hgr _ _ h := h
  osq _ _ h := h
  stk _ _ h := h
  rif _ _ _ h := h
  segs _ _ h := h
  feed _ _ h := h
  lsc _ _ h₂ h _ := h₂ h
  line _ _ h₁ _ _ _ := by simpa using h₁
  irt _ h := h
  clear h := h
  port _ _ _ h := h
  ring _ _ h := by simpa using h
  choose _ h := h
  pass _ h := h
  tell _ _ h := h
  plg _ _ h := h
  consts _ h := h
  stands _ h := h
  heat _ h := h
  }

/-- The request, the governing reason and LINE_STOP follow the reason set and the ring (R17, R20). -/
theorem request : Loads fun s => s.RequestOk := Plain.loads {
  log _ h := by simpa only [State.RequestOk, State.log_wtr, State.log_lineStop, log_rif] using h
  urgent _ h := by simpa only [State.RequestOk, State.queueUrgent_wtr, State.queueUrgent_lineStop, queueUrgent_ring] using h
  routine _ h := by simpa only [State.RequestOk, State.queueRoutine_wtr, State.queueRoutine_lineStop, queueRoutine_ring] using h
  hand _ _ h := h
  alter _ _ _ _ _ := by
    refine ⟨?_, ?_, ?_⟩
    · rw [State.alter, setReasons_wtr]
    · rw [State.alter, setReasons_wtr]
    · rw [State.alter, setReasons_lineStop, setReasons_wtr, setReasons_ring]
      simp
  speed _ h := by
    simpa only [State.RequestOk, sendSpeedRequest_wtr, State.sendSpeedRequest_lineStop, sendSpeedRequest_ring] using h
  map _ _ h := h
  place _ _ _ h := h
  knp _ _ h := h
  chg _ h _ := h
  spl _ _ h := h
  hgr _ _ h := h
  osq _ _ h := h
  stk _ _ h := h
  rif _ _ h₂ h := by exact ⟨h.1, h.2.1, by simpa only [State.onRif, h₂.2.2.1] using h.2.2⟩
  segs _ _ h := h
  feed _ hf h := by
    refine ⟨?_, ?_, ?_⟩
    · simpa only [State.onWtr, hf.1, hf.2.1] using h.1
    · simpa only [State.onWtr, hf.1, hf.2.2.1] using h.2.1
    · simpa only [State.onWtr, hf.2.1] using h.2.2
  lsc _ _ _ h _ := h
  line _ _ _ _ _ _ := by
    refine ⟨?_, ?_, ?_⟩
    · rw [State.alter, setReasons_wtr]
    · rw [State.alter, setReasons_wtr]
    · rw [State.alter, setReasons_lineStop, setReasons_wtr, setReasons_ring]
      simp
  irt _ h := h
  clear h := h
  port _ _ h₂ h := by exact ⟨h.1, h.2.1, by simpa only [State.onRif, h₂] using h.2.2⟩
  ring _ _ h := ⟨h.1, h.2.1, by simp [State.syncLineStop]⟩
  choose _ h := h
  pass _ h := h
  tell _ _ h := h
  plg _ _ h := h
  consts _ h := h
  stands _ h := h
  heat _ h := h
  }

/-- The set holds the present line state's reason alone of the four (R161). -/
theorem lineReason : Loads fun s => s.LineReasonOk := Plain.loads {
  log _ h := by simpa [State.LineReasonOk] using h
  urgent _ h := by simpa [State.LineReasonOk] using h
  routine _ h := by simpa [State.LineReasonOk] using h
  hand _ _ h := h
  alter d r hd hr h := by
    rw [State.LineReasonOk, State.alter_lsc, State.alter, setReasons_wtr]
    exact ((lineReasons_adds_other r _ hr).trans (lineReasons_drops_other d _ hd)).trans h
  speed _ h := by simpa [State.LineReasonOk, sendSpeedRequest_wtr] using h
  map _ _ h := h
  place _ _ _ h := h
  knp _ _ h := h
  chg _ h _ := h
  spl _ _ h := h
  hgr _ _ h := h
  osq _ _ h := h
  stk _ _ h := h
  rif _ _ _ h := h
  segs _ _ h := h
  feed _ hf h := by simpa [State.LineReasonOk, hf.1] using h
  lsc _ h₁ _ h _ := by simpa [State.LineReasonOk, h₁] using h
  line _ x _ _ _ h := by
    rw [State.LineReasonOk, State.alter_lsc, State.alter, setReasons_wtr]
    exact lineReasons_enter _ _ x _ h
  irt _ h := h
  clear h := h
  port _ _ _ h := h
  ring _ _ h := h
  choose _ h := h
  pass _ h := h
  tell _ _ h := h
  plg _ _ h := h
  consts _ h := h
  stands _ h := h
  heat _ h := h
  }

end Loads

/-! ### The faults handed (R168) -/

theorem log_handed (s : State) (b : LogBody) : (s.log b).handed = s.handed := by
  obtain ⟨p, e⟩ := s.log_only b; rw [e]

theorem enterState_lsc (s : State) (new : LineState) (c : StateCause) (further : List (Reason × Nat)) :
    (s.enterState new c further).lsc = { s.lsc with state := new } := by
  unfold State.enterState
  dsimp only
  exact (Counts.lineState _).stateReported _ _ (by simp)

/-- A fault taken leaves a fault latched (R168). -/
theorem takeFault_latched (s : State) (f : FaultReport) : (s.takeFault f).lsc.latch.isSome = true := by
  unfold State.takeFault
  split
  · dsimp only
    generalize (if losesWeb f.code = true then _ else _ : State) = t
    split
    · rw [enterState_lsc]; rfl
    · rfl
  · rename_i x h
    have : s.lsc.latch.isSome = true := by simp [h]
    dsimp only
    split <;> split <;> simpa [State.loseMap] using this

/-- While a fault is latched, taking another hands none (R168). -/
theorem takeFault_handed {s : State} (f : FaultReport) (h : s.lsc.latch.isSome = true) :
    (s.takeFault f).handed = s.handed := by
  unfold State.takeFault
  split
  · simp_all
  · dsimp only
    split <;> split <;> simp [State.loseMap, State.onWmp, State.onLsc]

theorem foldTake_handed (l : List FaultReport) {s : State} (h : s.lsc.latch.isSome = true) :
    (l.foldl (fun s f => s.takeFault f) s).handed = s.handed := by
  induction l generalizing s with
  | nil => rfl
  | cons f l ih => rw [List.foldl_cons, ih (takeFault_latched s f), takeFault_handed f h]

theorem foldTake_latched (l : List FaultReport) {s : State} (h : l ≠ []) :
    (l.foldl (fun s f => s.takeFault f) s).lsc.latch.isSome = true := by
  induction l generalizing s with
  | nil => exact absurd rfl h
  | cons f l ih =>
    rw [List.foldl_cons]
    cases l with
    | nil => exact takeFault_latched s f
    | cons g l => exact ih (by simp)

/-- Line State Control leaves no fault untaken (R168). -/
theorem takeFaults_handed (s : State) : s.takeFaults.handed = [] := by
  have one : ∀ t : State, t.lsc.latch.isSome = true → t.takeHanded.handed = [] := fun t ht =>
    foldTake_handed t.handed (s := { t with handed := [] }) ht
  unfold State.takeFaults
  by_cases h : s.handed = []
  · have : s.takeHanded = s := by cases s; simp_all [State.takeHanded]
    rw [this, this, h]
  · exact one _ (foldTake_latched s.handed h)

/-- With nothing handed, there is nothing to take. -/
theorem takeFaults_nothing {s : State} (h : s.handed = []) : s.takeFaults = s := by
  have : s.takeHanded = s := by cases s; simp_all [State.takeHanded]
  rw [State.takeFaults, this, this]

end Sys2Proof.Machine
end

