-- ==== Sys2Proof/Laws/PerInstr.lean ====
section
/-! SUPPORT. What holds of every command as syntax, command by command: it carries one request with its asker, or it is an
event of a port, a pin or a timer. -/

namespace Sys2Proof.Laws

open Sys2Proof (Instr)
open Sys2Proof.Machine (isEvent carrying)

/-- Every command is an event, or the command of one request of the table (R190). -/
def Carriage.Statement (i : Instr) : Prop := isEvent i = true ∨ ∃ q r, i = carrying q r

theorem Carriage.powerOn : Carriage.Statement .powerOn :=
  .inl rfl
theorem Carriage.rstN : Carriage.Statement .rstN :=
  .inl rfl
theorem Carriage.portLinkChange (port : RingPort) (up : Bool) :
    Carriage.Statement (.portLinkChange port up) :=
  .inl rfl
theorem Carriage.cycleTelegram (port : RingPort) (x : Arrival) :
    Carriage.Statement (.cycleTelegram port x) :=
  .inl rfl
theorem Carriage.repeatTelegram (port : RingPort) (x : Arrival) :
    Carriage.Statement (.repeatTelegram port x) :=
  .inl rfl
theorem Carriage.managementTelegram (port : RingPort) (comm : BitVec 6) (x : Arrival) :
    Carriage.Statement (.managementTelegram port comm x) :=
  .inl rfl
theorem Carriage.badTelegram (port : RingPort) (bytes : List Byte) :
    Carriage.Statement (.badTelegram port bytes) :=
  .inl rfl
theorem Carriage.ringLost : Carriage.Statement .ringLost :=
  .inl rfl
theorem Carriage.swapTimeout : Carriage.Statement .swapTimeout :=
  .inl rfl
theorem Carriage.spliceTimeout (k : Fin 7) :
    Carriage.Statement (.spliceTimeout k) :=
  .inl rfl
theorem Carriage.freshnessLapse (entry : Fin 48) :
    Carriage.Statement (.freshnessLapse entry) :=
  .inl rfl
theorem Carriage.speedRequestRefresh : Carriage.Statement .speedRequestRefresh :=
  .inl rfl
theorem Carriage.stackCommandResend : Carriage.Statement .stackCommandResend :=
  .inl rfl
theorem Carriage.settleEnd (channel : Fin 16) :
    Carriage.Statement (.settleEnd channel) :=
  .inl rfl
theorem Carriage.loadStation (q : Asker) (a : StationArgs) :
    Carriage.Statement (.loadStation q a) :=
  .inr ⟨q, .loadStation a, rfl⟩
theorem Carriage.loadSubscription (q : Asker) (a : SubscriptionArgs) :
    Carriage.Statement (.loadSubscription q a) :=
  .inr ⟨q, .loadSubscription a, rfl⟩
theorem Carriage.setLine (q : Asker) (a : LineArgs) :
    Carriage.Statement (.setLine q a) :=
  .inr ⟨q, .setLine a, rfl⟩
theorem Carriage.loadStand (q : Asker) (a : StandArgs) :
    Carriage.Statement (.loadStand q a) :=
  .inr ⟨q, .loadStand a, rfl⟩
theorem Carriage.loadPoint (q : Asker) (a : PointArgs) :
    Carriage.Statement (.loadPoint q a) :=
  .inr ⟨q, .loadPoint a, rfl⟩
theorem Carriage.loadChannel (q : Asker) (a : ChannelArgs) :
    Carriage.Statement (.loadChannel q a) :=
  .inr ⟨q, .loadChannel a, rfl⟩
theorem Carriage.loadScan (q : Asker) (channels : List Nat) :
    Carriage.Statement (.loadScan q channels) :=
  .inr ⟨q, .loadScan channels, rfl⟩
theorem Carriage.loadGrade (q : Asker) (a : GradeArgs) :
    Carriage.Statement (.loadGrade q a) :=
  .inr ⟨q, .loadGrade a, rfl⟩
theorem Carriage.loadOrder (q : Asker) (bytes : List Byte) :
    Carriage.Statement (.loadOrder q bytes) :=
  .inr ⟨q, .loadOrder bytes, rfl⟩
theorem Carriage.withdrawOrder (q : Asker) (slot : Nat) :
    Carriage.Statement (.withdrawOrder q slot) :=
  .inr ⟨q, .withdrawOrder slot, rfl⟩
theorem Carriage.queueAppend (q : Asker) (slot : Nat) :
    Carriage.Statement (.queueAppend q slot) :=
  .inr ⟨q, .queueAppend slot, rfl⟩
theorem Carriage.queueRemove (q : Asker) (position slot : Nat) :
    Carriage.Statement (.queueRemove q position slot) :=
  .inr ⟨q, .queueRemove position slot, rfl⟩
theorem Carriage.insertRush (q : Asker) (slot : Nat) :
    Carriage.Statement (.insertRush q slot) :=
  .inr ⟨q, .insertRush slot, rfl⟩
theorem Carriage.verifyOrder (q : Asker) (slot : Nat) :
    Carriage.Statement (.verifyOrder q slot) :=
  .inr ⟨q, .verifyOrder slot, rfl⟩
theorem Carriage.readOrder (q : Asker) (slot : Nat) :
    Carriage.Statement (.readOrder q slot) :=
  .inr ⟨q, .readOrder slot, rfl⟩
theorem Carriage.queueRead (q : Asker) :
    Carriage.Statement (.queueRead q) :=
  .inr ⟨q, .queueRead, rfl⟩
theorem Carriage.readStatus (q : Asker) (part : Option Section) (first : Nat) :
    Carriage.Statement (.readStatus q part first) :=
  .inr ⟨q, .readStatus part first, rfl⟩
theorem Carriage.readMap (q : Asker) :
    Carriage.Statement (.readMap q) :=
  .inr ⟨q, .readMap, rfl⟩
theorem Carriage.readStands (q : Asker) :
    Carriage.Statement (.readStands q) :=
  .inr ⟨q, .readStands, rfl⟩
theorem Carriage.readLog (q : Asker) (count : Nat) :
    Carriage.Statement (.readLog q count) :=
  .inr ⟨q, .readLog count, rfl⟩
theorem Carriage.logMode (q : Asker) (mode : Option LogMode) (empty : Bool) :
    Carriage.Statement (.logMode q mode empty) :=
  .inr ⟨q, .logMode mode empty, rfl⟩
theorem Carriage.startThreading (q : Asker) :
    Carriage.Statement (.startThreading q) :=
  .inr ⟨q, .startThreading, rfl⟩
theorem Carriage.startProduction (q : Asker) :
    Carriage.Statement (.startProduction q) :=
  .inr ⟨q, .startProduction, rfl⟩
theorem Carriage.halt (q : Asker) :
    Carriage.Statement (.halt q) :=
  .inr ⟨q, .halt, rfl⟩
theorem Carriage.lineReset (q : Asker) :
    Carriage.Statement (.lineReset q) :=
  .inr ⟨q, .lineReset, rfl⟩
theorem Carriage.manualSplice (q : Asker) (stand : Nat) :
    Carriage.Statement (.manualSplice q stand) :=
  .inr ⟨q, .manualSplice stand, rfl⟩
theorem Carriage.operatorCutout (q : Asker) (distance length : Int) :
    Carriage.Statement (.operatorCutout q distance length) :=
  .inr ⟨q, .operatorCutout distance length, rfl⟩

end Sys2Proof.Laws
end

