-- ==== Sys2Proof/Laws/Commands.lean ====
section
/-! SUPPORT. The commands: which of them carry a request, and what every command but the two resets keeps. -/

namespace Sys2Proof.Machine

open Sys2Proof (Instr)

variable {P : State → Prop}

/-- A request command is its request served. -/
theorem exec_carrying (q : Asker) (r : Request) (s : State) :
    exec (carrying q r) s = .next (s.answer q r (owned q r)) := by
  cases r <;> rfl

/-- Every command is an event or carries a request. -/
theorem event_or_carrying (i : Instr) : isEvent i = true ∨ ∃ q r, i = carrying q r := by
  cases i
  case powerOn => exact Sys2Proof.Laws.Carriage.powerOn
  case rstN => exact Sys2Proof.Laws.Carriage.rstN
  case portLinkChange => exact Sys2Proof.Laws.Carriage.portLinkChange _ _
  case cycleTelegram => exact Sys2Proof.Laws.Carriage.cycleTelegram _ _
  case repeatTelegram => exact Sys2Proof.Laws.Carriage.repeatTelegram _ _
  case managementTelegram => exact Sys2Proof.Laws.Carriage.managementTelegram _ _ _
  case badTelegram => exact Sys2Proof.Laws.Carriage.badTelegram _ _
  case ringLost => exact Sys2Proof.Laws.Carriage.ringLost
  case swapTimeout => exact Sys2Proof.Laws.Carriage.swapTimeout
  case spliceTimeout => exact Sys2Proof.Laws.Carriage.spliceTimeout _
  case freshnessLapse => exact Sys2Proof.Laws.Carriage.freshnessLapse _
  case speedRequestRefresh => exact Sys2Proof.Laws.Carriage.speedRequestRefresh
  case stackCommandResend => exact Sys2Proof.Laws.Carriage.stackCommandResend
  case settleEnd => exact Sys2Proof.Laws.Carriage.settleEnd _
  case loadStation => exact Sys2Proof.Laws.Carriage.loadStation _ _
  case loadSubscription => exact Sys2Proof.Laws.Carriage.loadSubscription _ _
  case setLine => exact Sys2Proof.Laws.Carriage.setLine _ _
  case loadStand => exact Sys2Proof.Laws.Carriage.loadStand _ _
  case loadPoint => exact Sys2Proof.Laws.Carriage.loadPoint _ _
  case loadChannel => exact Sys2Proof.Laws.Carriage.loadChannel _ _
  case loadScan => exact Sys2Proof.Laws.Carriage.loadScan _ _
  case loadGrade => exact Sys2Proof.Laws.Carriage.loadGrade _ _
  case loadOrder => exact Sys2Proof.Laws.Carriage.loadOrder _ _
  case withdrawOrder => exact Sys2Proof.Laws.Carriage.withdrawOrder _ _
  case queueAppend => exact Sys2Proof.Laws.Carriage.queueAppend _ _
  case queueRemove => exact Sys2Proof.Laws.Carriage.queueRemove _ _ _
  case insertRush => exact Sys2Proof.Laws.Carriage.insertRush _ _
  case verifyOrder => exact Sys2Proof.Laws.Carriage.verifyOrder _ _
  case readOrder => exact Sys2Proof.Laws.Carriage.readOrder _ _
  case queueRead => exact Sys2Proof.Laws.Carriage.queueRead _
  case readStatus => exact Sys2Proof.Laws.Carriage.readStatus _ _ _
  case readMap => exact Sys2Proof.Laws.Carriage.readMap _
  case readStands => exact Sys2Proof.Laws.Carriage.readStands _
  case readLog => exact Sys2Proof.Laws.Carriage.readLog _ _
  case logMode => exact Sys2Proof.Laws.Carriage.logMode _ _ _
  case startThreading => exact Sys2Proof.Laws.Carriage.startThreading _
  case startProduction => exact Sys2Proof.Laws.Carriage.startProduction _
  case halt => exact Sys2Proof.Laws.Carriage.halt _
  case lineReset => exact Sys2Proof.Laws.Carriage.lineReset _
  case manualSplice => exact Sys2Proof.Laws.Carriage.manualSplice _ _
  case operatorCutout => exact Sys2Proof.Laws.Carriage.operatorCutout _ _ _

/-! ### What the events keep -/

theorem Lines.resendDue (K : Lines P) {s : State} (h : P s) : P s.resendDue := by
  unfold State.resendDue
  split
  · exact ite_keeps (fun _ => K.resendSetDown h) fun _ => h
  · exact h

/-- What an event other than a reset and a management telegram keeps. -/
theorem Rings.event (K : Rings P) {i : Instr} {s t : State} (hi : isEvent i = true) (hp : i ≠ .powerOn)
    (hr : i ≠ .rstN) (hm : ∀ p c x, i ≠ .managementTelegram p c x) (he : exec i s = .next t) (h : P s) : P t := by
  cases i
  any_goals simp [isEvent] at hi
  case powerOn => exact absurd rfl hp
  case rstN => exact absurd rfl hr
  case portLinkChange p b => cases he; exact K.linkChange p b h
  case cycleTelegram p x => cases he; exact K.cycleArrives p x h
  case repeatTelegram p x => cases he; exact K.cycleArrives p x h
  case managementTelegram p c x => exact absurd rfl (hm p c x)
  case badTelegram p b => cases he; exact K.badTelegram _ _ h
  case ringLost => cases he; exact K.ringLost h
  case swapTimeout => cases he; exact ite_keeps (fun _ => h) fun _ => K.takeFaults (K.swapExpired h)
  case spliceTimeout k => cases he; exact K.takeFaults (K.spliceExpired _ h)
  case freshnessLapse e => cases he; exact K.takeFaults (K.lapse _ h)
  case speedRequestRefresh => cases he; exact K.takeFaults (K.speed _ h)
  case stackCommandResend => cases he; exact K.takeFaults (K.resendDue h)
  case settleEnd c => cases he; exact K.onChannel _ _ (fun _ => rfl) h

end Sys2Proof.Machine
end

