-- ==== Sys2Proof/Laws/Consistency.lean ====
section
/-! SUPPORT. What stands once on the map and in the order table, as properties that the operations keep (R24, R25, R49, R53, R56,
R168). -/

namespace Sys2Proof.Machine

/-! ### Properties of one block -/

/-- A property of the order table that the updates of every block but the Order Sequencer leave, and that its own keep. -/
theorem Counts.table {Q : Osq → Prop} (hq : ∀ a b : Osq, a.Keeps b → Q a → Q b) : Counts fun s => Q s.osq where
  log _ h := by simpa using h
  urgent _ h := by simpa using h
  routine _ h := by simpa using h
  hand _ _ h := by simpa using h
  alter _ _ _ _ h := by simpa using h
  speed _ h := by simpa using h
  map _ _ h := h
  knp _ _ h := h
  chg _ h _ := h
  spl _ _ h := h
  hgr _ _ h := h
  osq _ hf h := hq _ _ hf h
  stk _ _ h := h
  rif _ _ _ h := h

/-- A property of the map and of the number of segments. -/
theorem Frees.onMap {Q : Wmp → Nat → Prop} (hq : ∀ (a b : Wmp) n, a.Keeps b → Q a n → Q b n) :
    Frees fun s => Q s.wmp s.osq.segments.length where
  log _ h := by simpa using h
  urgent _ h := by simpa using h
  routine _ h := by simpa using h
  hand _ _ h := by simpa using h
  alter _ _ _ _ h := by simpa using h
  speed _ h := by simpa using h
  map _ hf h := hq _ _ _ hf h
  knp _ _ h := h
  chg _ h _ := h
  spl _ _ h := h
  hgr _ _ h := h
  osq _ hf h := by simpa only [State.onOsq, hf.length] using h
  stk _ _ h := h
  rif _ _ _ h := h
  free _ hf _ h := by simpa only [State.onOsq, hf] using h

/-! ### The faults seen (R168) -/

/-- A fault is seen once (R168). -/
theorem Loads.faultsOnce : Loads fun s => s.lsc.seen.Nodup := Plain.loads {
  log _ h := by simpa using h
  urgent _ h := by simpa using h
  routine _ h := by simpa using h
  hand _ _ h := by simpa using h
  alter _ _ _ _ h := by simpa using h
  speed _ h := by simpa using h
  map _ _ h := h
  place _ _ _ h := h
  knp _ _ h := h
  chg _ h _ := h
  spl _ _ h := h
  hgr _ _ h := h
  osq _ _ h := h
  stk _ _ h := h
  rif _ _ _ h := h
  segs _ _ h := h
  feed _ _ h := h
  lsc _ _ _ h hf := hf h
  line _ _ _ hf _ h := by simpa using hf h
  irt _ h := h
  clear h := h
  port _ _ _ h := h
  ring _ _ h := by simpa using h
  choose _ h := h
  pass _ h := h
  tell _ _ h := h
  plg _ _ h := h
  consts _ h := h
  stands _ h := h
  heat _ h := h
  }

/-- No fault code is seen but the ten of R168. -/
theorem seen_length {l : List FaultCode} (h : l.Nodup) : l.length ≤ 10 := by
  let all : List FaultCode := [.encoderLost, .encoderReverse, .ringLost, .knifeLate, .knifeSequence, .runout, .swapTimeout,
    .slitterConflict, .stackerOverrun, .outboundJam]
  have : l ⊆ all := fun x _ => by cases x <;> decide
  exact (h.subperm this).length_le

/-! ### Boundaries and segments (R25, R56, R61, R71) -/

/-- n boundaries stand between m segments, and what the map holds once stands once. -/
def Bounded (n m : Nat) (s : State) : Prop :=
  s.wmp.MarksOk ∧ kindCount .boundary s.wmp.marks = n ∧ s.osq.segments.length = m

theorem Frees.bounded (n m : Nat) : Frees (Bounded n m) :=
  Frees.onMap (Q := fun w k => w.MarksOk ∧ kindCount .boundary w.marks = n ∧ k = m)
    fun _ _ _ hk h => ⟨hk.marks h.1, (hk.boundaries h.1).trans h.2.1, h.2.2⟩

theorem openSegment_bounded {s : State} {n m : Nat} (x : Option (Nat × Origin)) (seq : Nat) (h : Bounded n m s) :
    Bounded n (m + 1) (s.openSegment x seq) := by
  refine ⟨h.1, h.2.1, ?_⟩
  simp only [State.openSegment, State.onOsq, List.length_append, List.length_cons, List.length_nil]
  exact congrArg (· + 1) h.2.2

theorem createBoundary_bounded {s : State} {n m : Nat} (x : Int) (b : Bool) (hm : m ≠ 0) (h : Bounded n m s) :
    Bounded (n + 1) (m + 1) (s.createBoundary x b) := by
  have K := Frees.bounded n m
  have L := Frees.bounded (n + 1) m
  have M := Frees.bounded (n + 1) (m + 1)
  unfold State.createBoundary
  split
  · rename_i hl
    have : s.osq.segments = [] := List.getLast?_eq_none_iff.1 hl
    exact absurd (h.2.2.symm.trans (by simp [this])) hm
  · extract_lets start seq s₁ taken incoming decided mark
    have h₁ : Bounded n m s₁ := K.closeLead _ _ _ h
    have h₂ := K.bumpSeq (K.decideFlying incoming seq start (K.select s₁.candidates h₁))
    have h₃ : Bounded (n + 1) m (decided.1.placeBoundary mark) := by
      refine L.placeBoundary mark ⟨marksOk_boundary h₂.1, ?_, h₂.2.2⟩
      have := (place_perm mark decided.1.bumpSeq.wmp.marks).countP_eq fun m => m.kind == .boundary
      rw [List.countP_cons] at this
      exact this.trans (congrArg (· + 1) h₂.2.1)
    exact M.syncNoOrder (M.passPlanning _ (M.reportCandidate (openSegment_bounded _ _ h₃)))

theorem retired_bounded {s : State} {n k : Nat} (m : Mark)
    (h : Bounded n (n + 1 + k + (if m.kind == .boundary then 1 else 0)) s) : Bounded n (n + 1 + k) (s.retired m) := by
  have K := Frees.bounded n (n + 1 + k)
  unfold State.retired
  split
  · rename_i hk
    simp only [hk, BEq.rfl, if_true] at h
    refine K.syncNoOrder ?_
    unfold State.retireSegment
    split
    · rename_i g g' rest hg
      dsimp only
      have h' : Bounded n (n + 1 + k) (s.onOsq fun o => { o with segments := newOldest g g' :: rest }) := by
        refine ⟨h.1, h.2.1, ?_⟩
        have := h.2.2
        simp only [hg, State.onOsq, List.length_cons] at *
        omega
      split
      · exact h'
      · exact K.testClose _ (K.anySlot _ _ h')
    · rename_i hs
      exfalso
      have := h.2.2
      cases e : s.osq.segments with
      | nil => simp [e] at this
      | cons g l =>
        cases l with
        | nil => simp [e] at this
        | cons g' l => exact hs g g' l e
  · rename_i hk
    simp only [hk] at h
    exact ite_keeps (fun _ => K.map _ (Wmp.keeps_rest rfl fun n => n) h) fun _ => h
  · have hk : ¬(m.kind == .boundary) = true := by simpa
    rwa [if_neg hk] at h

theorem retiredAll_bounded {n : Nat} (l : List Mark) {s : State} (h : Bounded n (n + 1 + kindCount .boundary l) s) :
    Bounded n (n + 1) (l.foldl (fun s m => s.retired m) s) := by
  induction l generalizing s with
  | nil => exact h
  | cons m l ih =>
    refine ih (retired_bounded m ?_)
    rw [kindCount, List.countP_cons, ← Nat.add_assoc] at h
    exact h

theorem retireMarks_bounded {s : State} {n : Nat} (h : Bounded n (n + 1) s) : ∃ k, Bounded k (k + 1) s.retireMarks := by
  refine ⟨kindCount .boundary (s.wmp.marks.filter fun m => !m.retires), retiredAll_bounded _ ⟨marksOk_retire h.1, rfl, ?_⟩⟩
  refine h.2.2.trans ?_
  have : kindCount .boundary s.wmp.marks = _ := List.countP_eq_countP_filter_add s.wmp.marks (fun m => m.kind == .boundary) Mark.retires
  have hn := h.2.1
  simp only [kindCount] at *
  omega

/-- Between the boundaries on the map stand the segments (R25, R56). -/
theorem Loads.boundaries : Loads fun s => ∃ n, Bounded n (n + 1) s where
  log _ h := by simpa [Bounded] using h
  urgent _ h := by simpa [Bounded] using h
  routine _ h := by simpa [Bounded] using h
  hand _ _ h := by simpa [Bounded] using h
  alter _ _ _ _ h := by simpa [Bounded] using h
  speed _ h := by simpa [Bounded] using h
  map f hf := fun ⟨n, h⟩ => ⟨n, (Frees.bounded n (n + 1)).map f hf h⟩
  knp _ _ h := h
  chg _ h _ := h
  spl _ _ h := h
  hgr _ _ h := h
  osq f hf := fun ⟨n, h⟩ => ⟨n, (Frees.bounded n (n + 1)).osq f hf h⟩
  stk _ _ h := h
  rif _ _ _ h := h
  created x b _ _ := fun ⟨n, h⟩ => ⟨n + 1, createBoundary_bounded x b (Nat.succ_ne_zero n) h⟩
  retires := fun ⟨_, h⟩ => retireMarks_bounded h
  enqueue f hf := fun ⟨n, h⟩ => ⟨n, (Frees.bounded n (n + 1)).free f (by rw [hf.segments]) hf.lists h⟩
  feed _ _ h := h
  lsc _ _ _ h _ := h
  line _ _ _ _ _ h := by simpa [Bounded] using h
  irt _ _ h := h
  clear h := h
  port _ _ _ h := h
  ring _ _ h := by simpa [Bounded] using h
  choose _ h := h
  pass _ h := h
  tell _ _ h := h
  plg _ _ h := h
  consts _ h := h
  stands _ h := h
  heat _ h := h
  tables _ h := h

/-! ### The order table (R49, R53, R55, R56) -/

/-- The orders of the segments, the lead's last. -/
def Osq.orders (o : Osq) : List (Option Nat) := o.segments.map fun g => g.order

/-- The table while a creation is under way: what the lists say of the slots, at most three held, the segments' orders. -/
def Osq.Amid (l k : List (Option Nat)) (o : Osq) : Prop := o.TableOk l ∧ o.held.length ≤ 3 ∧ o.orders = k

theorem Counts.amid (l k : List (Option Nat)) : Counts fun s => s.osq.Amid l k :=
  Counts.table fun _ _ hk h => ⟨hk.table l h.1, hk.held ▸ h.2.1, hk.orders.trans h.2.2⟩

theorem Counts.amidNoRush (l k : List (Option Nat)) : Counts fun s => s.osq.Amid l k ∧ s.osq.rush = none :=
  Counts.table (Q := fun o => o.Amid l k ∧ o.rush = none)
    fun _ _ hk h => ⟨⟨hk.table l h.1.1, hk.held ▸ h.1.2.1, hk.orders.trans h.1.2.2⟩, hk.rush.trans h.2⟩

/-- A lead segment of no order to come says nothing of the slots. -/
theorem tableOk_none {o : Osq} {l : List (Option Nat)} (h : o.TableOk l) : o.TableOk (l ++ [none]) where
  once := h.once
  queued := h.queued
  rush := h.rush
  heldOnce := h.heldOnce
  suspended := h.suspended
  web i hi := h.web i (by simpa using hi)
  flight i := by rw [h.flight i, List.count_append]; simp
  lead i hi := by simp at hi

/-- A slot off every list joins the segments as the lead's order, ON_WEB. -/
theorem tableOk_taken {o : Osq} {l : List (Option Nat)} {i : Nat} (h : o.TableOk (l ++ [none])) (hi : i < 64)
    (hq : i ∉ o.queue) (hr : o.rush ≠ some i) (hh : i ∉ o.held) :
    Osq.TableOk { o with slots := modify o.slots i fun x => { x with state := .onWeb, inFlight := x.inFlight + 1 } }
      (l ++ [some i]) := by
  let f (x : Slot) : Slot := { x with state := .onWeb, inFlight := x.inFlight + 1 }
  have other : ∀ j, j ≠ i → Osq.slotAt { o with slots := modify o.slots i f } j = o.slotAt j := fun j => slotAt_other o f
  have same : Osq.slotAt { o with slots := modify o.slots i f } i = f (o.slotAt i) := slotAt_self o f hi
  have count : ∀ j, (l ++ [none]).count (some j) = l.count (some j) := fun j => by rw [List.count_append]; simp
  constructor
  · exact h.once
  · exact fun j hj => by rw [other j fun e => hq (e ▸ hj)]; exact h.queued j hj
  · exact fun j hj => by rw [other j fun e => hr (e ▸ hj)]; exact h.rush j hj
  · exact h.heldOnce
  · exact fun j hj => by rw [other j fun e => hh (e ▸ hj)]; exact h.suspended j hj
  · intro j hj
    by_cases e : j = i
    · rw [e, same]; exact .inl rfl
    · rw [other j e]
      exact h.web j (by simp [e] at hj; simp [hj])
  · intro j
    rw [List.count_append]
    by_cases e : j = i
    · rw [e, same]
      have := h.flight i
      rw [count] at this
      simp [f, this]
    · rw [other j e, h.flight j, count]
      simp [Ne.symm e]
  · intro j hj
    have e : i = j := by simpa using hj
    rw [← e, same]

/-- The lead's order goes onto the held-order stack (R53). -/
theorem suspendLead_amid {s : State} {l : List (Option Nat)} {g : Segment} (hl : s.lead = some g)
    (ho : s.osq.orders = l) (h : s.osq.TableOk l) (hh : s.osq.held.length < 3) :
    s.suspendLead.osq.Amid (l ++ [none]) l ∧ s.suspendLead.osq.rush = s.osq.rush := by
  unfold State.suspendLead
  split
  · exact ⟨⟨tableOk_none h, Nat.le_of_lt hh, ho⟩, rfl⟩
  · rename_i i hi
    rw [hl] at hi
    have web : (s.osq.slotAt i).state = .onWeb := by
      refine h.lead i ?_
      rw [← ho, Osq.orders, List.getLast?_map]
      exact (congrArg (Option.map fun g => g.order) hl).trans (congrArg some hi)
    refine ⟨⟨?_, hh, ho⟩, rfl⟩
    have n : i ∉ s.osq.queue ∧ s.osq.rush ≠ some i ∧ i ∉ s.osq.held := by
      refine ⟨fun e => ?_, fun e => ?_, fun e => ?_⟩
      · have := (h.queued i e).symm.trans web; cases this
      · have := (h.rush i e).2.symm.trans web; cases this
      · have := (h.suspended i e).symm.trans web; cases this
    let f (x : Slot) : Slot := { x with state := .suspended }
    have other : ∀ j, j ≠ i → Osq.slotAt { s.osq with slots := modify s.osq.slots i f } j = s.osq.slotAt j :=
      fun j => slotAt_other s.osq f
    have same : Osq.slotAt { s.osq with slots := modify s.osq.slots i f } i = f (s.osq.slotAt i) :=
      slotAt_self s.osq f (slotAt_lt (o := s.osq) (by simp [web]))
    have ok := tableOk_none h
    constructor
    · exact ok.once
    · exact fun j hj => (congrArg Slot.state (other j fun e => n.1 (e ▸ hj))).trans (ok.queued j hj)
    · exact fun j hj => ⟨(ok.rush j hj).1,
        (congrArg Slot.state (other j fun e => n.2.1 (e ▸ hj))).trans (ok.rush j hj).2⟩
    · exact List.nodup_cons.2 ⟨n.2.2, ok.heldOnce⟩
    · intro j hj
      rcases List.mem_cons.1 hj with e | hj
      · exact e ▸ congrArg Slot.state same
      · exact (congrArg Slot.state (other j fun e => n.2.2 (e ▸ hj))).trans (ok.suspended j hj)
    · intro j hj
      by_cases e : j = i
      · exact .inr (e ▸ congrArg Slot.state same)
      · have := congrArg Slot.state (other j e)
        exact (ok.web j hj).imp this.trans this.trans
    · intro j
      refine Eq.trans ?_ (ok.flight j)
      by_cases e : j = i
      · rw [e]; exact (congrArg Slot.inFlight same).trans rfl
      · exact congrArg Slot.inFlight (other j e)
    · exact fun j hj => by simp at hj

/-- A slot that no list and no segment names may take another state. -/
theorem tableOk_rejected {o : Osq} {l : List (Option Nat)} {i : Nat} {x : SlotState} (h : o.TableOk l) (hq : i ∉ o.queue)
    (hr : o.rush ≠ some i) (hh : i ∉ o.held) (hl : some i ∉ l) :
    Osq.TableOk { o with slots := modify o.slots i fun y => { y with state := x } } l :=
  tableOk_unnamed hq hr hh hl (fun _ => (h.flight i).trans (List.count_eq_zero.2 hl)) h

theorem tableOk_fewer {o : Osq} {l : List (Option Nat)} {q : List Nat} (hq : q.Sublist o.held) (h : o.TableOk l) :
    Osq.TableOk { o with held := q } l where
  once := h.once
  queued := h.queued
  rush := h.rush
  heldOnce := h.heldOnce.sublist hq
  suspended i hi := h.suspended i (hq.subset hi)
  web := h.web
  flight := h.flight
  lead := h.lead

/-- A held order back ON_WEB, off the stack (R55). -/
theorem tableOk_unheld {o : Osq} {l : List (Option Nat)} {i : Nat} {rest : List Nat} (h : o.TableOk (l ++ [none]))
    (hh : o.held = i :: rest) :
    Osq.TableOk { o with held := rest, slots := modify o.slots i fun y => { y with state := .onWeb } } (l ++ [none]) := by
  have hi : i ∈ o.held := hh ▸ List.mem_cons_self
  have hn := List.nodup_cons.1 (hh ▸ h.heldOnce)
  have sus := h.suspended i hi
  let f (x : Slot) : Slot := { x with state := .onWeb }
  have other : ∀ j, j ≠ i → Osq.slotAt { o with held := rest, slots := modify o.slots i f } j = o.slotAt j :=
    fun j => slotAt_other { o with held := rest } f
  have same : Osq.slotAt { o with held := rest, slots := modify o.slots i f } i = f (o.slotAt i) :=
    slotAt_self { o with held := rest } f (slotAt_lt (o := o) (by simp [sus]))
  have n : i ∉ o.queue ∧ o.rush ≠ some i := by
    refine ⟨fun e => ?_, fun e => ?_⟩
    · have := (h.queued i e).symm.trans sus; cases this
    · have := (h.rush i e).2.symm.trans sus; cases this
  constructor
  · exact h.once
  · exact fun j hj => (congrArg Slot.state (other j fun e => n.1 (e ▸ hj))).trans (h.queued j hj)
  · exact fun j hj => ⟨(h.rush j hj).1, (congrArg Slot.state (other j fun e => n.2 (e ▸ hj))).trans (h.rush j hj).2⟩
  · exact hn.2
  · exact fun j hj => (congrArg Slot.state (other j fun e => hn.1 (e ▸ hj))).trans
      (h.suspended j (hh ▸ List.mem_cons_of_mem _ hj))
  · intro j hj
    by_cases e : j = i
    · rw [e]; exact .inl (congrArg Slot.state same)
    · have := congrArg Slot.state (other j e)
      exact (h.web j hj).imp this.trans this.trans
  · intro j
    refine Eq.trans ?_ (h.flight j)
    by_cases e : j = i
    · rw [e]; exact (congrArg Slot.inFlight same).trans rfl
    · exact congrArg Slot.inFlight (other j e)
  · exact fun j hj => by simp at hj

theorem taken_amid {s : State} {l k : List (Option Nat)} {i : Nat} (h : s.osq.Amid (l ++ [none]) k) (hi : i < 64)
    (hq : i ∉ s.osq.queue) (hr : s.osq.rush ≠ some i) (hh : i ∉ s.osq.held) : (s.taken i).osq.Amid (l ++ [some i]) k :=
  ⟨tableOk_taken h.1 hi hq hr hh, h.2.1, h.2.2⟩

/-- Selection takes one order off the lists for the new lead segment, or none, and leaves no rush pending (R55). -/
theorem select_amid {l k : List (Option Nat)} (fuel : Nat) {s : State} (h : s.osq.Amid (l ++ [none]) k)
    (hr : s.osq.rush = none ∨ 0 < fuel) :
    (State.select fuel s).1.osq.Amid (l ++ [(State.select fuel s).2.map fun x => x.1]) k
      ∧ (State.select fuel s).1.osq.rush = none := by
  induction fuel generalizing s with
  | zero => exact ⟨h, hr.resolve_right (Nat.lt_irrefl 0)⟩
  | succ fuel ih =>
    unfold State.select
    split
    · rename_i i e
      obtain ⟨hq, hs⟩ := h.1.rush i e
      have n := queued_unheld hs h.1
      have lt : i < 64 := slotAt_lt (o := s.osq) (by simp [hs])
      have ht : (s.onOsq fun o => { o with rush := none }).osq.Amid (l ++ [none]) k :=
        ⟨tableOk_less (List.Sublist.refl _) nofun h.1, h.2⟩
      dsimp only
      split
      · exact ⟨taken_amid ht lt hq nofun n.1, rfl⟩
      · refine ih ((Counts.amid _ _).rejected _ _ ⟨tableOk_rejected ht.1 hq nofun n.1 n.2, ht.2⟩) (.inl ?_)
        simp [State.rejected, State.onSlot, State.onOsq]
    · rename_i e
      split
      · rename_i i rest hh
        have hi : i ∈ s.osq.held := hh ▸ List.mem_cons_self
        have sus := h.1.suspended i hi
        have hn := List.nodup_cons.1 (hh ▸ h.1.heldOnce)
        have three : rest.length ≤ 3 := by have := h.2.1; simp only [hh, List.length_cons] at this; omega
        dsimp only
        split
        · refine ⟨taken_amid ⟨?_, three, h.2.2⟩ (slotAt_lt (o := s.osq) (by simp [sus])) (fun m => ?_) ?_ hn.1, e⟩
          · exact tableOk_fewer (hh ▸ List.sublist_cons_self _ _) h.1
          · have := (h.1.queued i m).symm.trans sus; cases this
          · exact fun m => by have := e.symm.trans m; cases this
        · rename_i f _
          have K := Counts.amidNoRush (l ++ [none]) k
          have ht : ((s.onOsq fun o => { o with held := rest }).onSlot i fun o => { o with state := .onWeb }).osq.TableOk
              (l ++ [none]) := tableOk_unheld (o := s.osq) h.1 hh
          have hu := K.testClose i (K.rejected i f ⟨⟨ht, three, h.2.2⟩, e⟩)
          exact ih hu.1 (.inl hu.2)
      · split
        · rename_i i rest hq
          have hi : i ∈ s.osq.queue := hq ▸ List.mem_cons_self
          have hs := h.1.queued i hi
          have n := queued_unheld hs h.1
          have hn := List.nodup_cons.1 (hq ▸ h.1.once)
          have hr : s.osq.rush ≠ some i := by rw [e]; nofun
          have lt : i < 64 := slotAt_lt (o := s.osq) (by simp [hs])
          have ht : (s.onOsq fun o => { o with queue := rest }).osq.Amid (l ++ [none]) k :=
            ⟨tableOk_less (hq ▸ List.sublist_cons_self _ _) (fun _ e => e) h.1, h.2⟩
          dsimp only
          split
          · exact ⟨taken_amid ht lt hn.1 hr n.1, e⟩
          · refine ih ((Counts.amid _ _).rejected _ _ ⟨tableOk_rejected ht.1 hn.1 hr n.1 n.2, ht.2⟩) (.inl ?_)
            simpa [State.rejected, State.onSlot, State.onOsq] using e
        · exact ⟨h, e⟩

/-- Steps 1 and 2 of a creation (R71). -/
theorem closeLead_amid {s : State} {g : Segment} (seq : Nat) (b : Bool) (hl : s.lead = some g)
    (hb : b = true → s.osq.rush.isSome = true) (h : s.osq.TableOk s.osq.orders) (hh : s.osq.HeldOk) :
    (s.closeLead g seq b).osq.Amid (s.osq.orders ++ [none]) s.osq.orders := by
  let t := s.onSegments (fun x => x.num == g.num) fun x => { x with closing := some seq }
  have ht := (Counts.amid s.osq.orders s.osq.orders).onSegments (s := s) (fun x => x.num == g.num)
    (fun x => { x with closing := some seq }) (fun _ => rfl) ⟨h, by unfold Osq.HeldOk at hh; omega, rfl⟩
  unfold State.closeLead
  dsimp only
  split
  · rename_i e
    have : t.osq.held.length < 3 := by
      have := hb e
      unfold Osq.HeldOk at hh
      cases hr : s.osq.rush with
      | none => simp [hr] at this
      | some i =>
        simp only [hr, Option.toList, List.length_cons, List.length_nil] at hh
        exact Nat.lt_of_succ_le hh
    obtain ⟨x, hx⟩ : ∃ x, t.lead = some x := by
      have : t.lead = (s.lead.map fun x => if x.num == g.num then { x with closing := some seq } else x) :=
        List.getLast?_map
      exact ⟨_, this.trans (congrArg _ hl)⟩
    exact (suspendLead_amid hx ht.2.2 ht.1 this).1
  · exact ⟨tableOk_none ht.1, ht.2⟩

/-- What the lists say of the slots, and the bound of the held-order stack. -/
def Osq.Settled (o : Osq) : Prop := o.TableOk o.orders ∧ o.HeldOk

theorem Counts.settled : Counts fun s => s.osq.Settled :=
  Counts.table fun a b hk h => by
    refine ⟨?_, ?_⟩
    · rw [show b.orders = a.orders from hk.orders]; exact hk.table _ h.1
    · unfold Osq.HeldOk; rw [hk.held, hk.rush]; exact h.2

theorem openSegment_settled {s : State} {l : List (Option Nat)} {x : Option (Nat × Origin)} (seq : Nat)
    (h : s.osq.Amid (l ++ [x.map fun y => y.1]) l) (hr : s.osq.rush = none) : (s.openSegment x seq).osq.Settled := by
  have e : (s.openSegment x seq).osq.orders = s.osq.orders ++ [x.map fun y => y.1] := by
    simp [Osq.orders, State.openSegment, State.onOsq]
  refine ⟨?_, ?_⟩
  · rw [e, h.2.2]
    exact tableOk_congr (a := s.osq) rfl rfl rfl (fun _ => rfl) (fun _ => rfl) h.1
  · have e : (s.openSegment x seq).osq.rush = none := hr
    unfold Osq.HeldOk
    rw [e]
    exact h.2.1

theorem createBoundary_settled {s : State} (x : Int) (b : Bool) (hb : b = true → s.osq.rush.isSome = true)
    (h : s.osq.Settled) : (s.createBoundary x b).osq.Settled := by
  have K := Counts.settled
  unfold State.createBoundary
  split
  · exact h
  · rename_i g hl
    extract_lets start seq s₁ taken incoming decided mark
    have h₁ : s₁.osq.Amid (s.osq.orders ++ [none]) s.osq.orders := closeLead_amid seq b hl hb h.1 h.2
    have h₂ : taken.1.osq.Amid (s.osq.orders ++ [incoming]) s.osq.orders ∧ taken.1.osq.rush = none :=
      select_amid s₁.candidates h₁ (.inr (by unfold State.candidates; omega))
    have L := Counts.amidNoRush (s.osq.orders ++ [incoming]) s.osq.orders
    have h₃ := L.placeBoundary mark (L.decideFlying incoming seq start h₂)
    exact K.syncNoOrder (K.passPlanning _ (K.reportCandidate (openSegment_settled seq h₃.1 h₃.2)))

/-- The oldest segment leaves, with the flight of its order (R61). -/
theorem retireSegment_settled {s : State} (h : s.osq.Settled) : s.retireSegment.osq.Settled := by
  unfold State.retireSegment
  split
  · rename_i g g' rest hg
    have ho : s.osq.orders = g.order :: g'.order :: rest.map fun x => x.order := by simp [Osq.orders, hg]
    have ok := h.1
    rw [ho] at ok
    let l := g'.order :: rest.map fun x => x.order
    have last : l.getLast? = (g.order :: l).getLast? := (List.getLast?_cons_cons).symm
    dsimp only
    split
    · rename_i e
      refine ⟨?_, h.2⟩
      rw [e] at ok last
      exact ⟨ok.once, ok.queued, ok.rush, ok.heldOnce, ok.suspended, fun i hi => ok.web i (List.mem_cons_of_mem _ hi),
        fun i => (ok.flight i).trans (List.count_cons_of_ne (a := some i) (b := none) nofun), fun i hi => ok.lead i (last ▸ hi)⟩
    · rename_i i e
      refine Counts.settled.testClose _ ⟨?_, h.2⟩
      rw [e] at ok last
      let f (x : Slot) : Slot := { x with inFlight := x.inFlight - 1 }
      let o := s.osq
      have other : ∀ j, j ≠ i → Osq.slotAt { o with slots := modify o.slots i f } j = o.slotAt j :=
        fun j => slotAt_other o f
      have same : Osq.slotAt { o with slots := modify o.slots i f } i = f (o.slotAt i) :=
        slotAt_self o f (slotAt_lt (o := o) (by
          rcases ok.web i List.mem_cons_self with e | e <;> exact fun c => by rw [show (o.slotAt i).state = _ from e] at c; cases c))
      have states : ∀ j, (Osq.slotAt { o with slots := modify o.slots i f } j).state = (o.slotAt j).state := by
        intro j
        by_cases c : j = i
        · rw [c, same]
        · rw [other j c]
      have done : Osq.TableOk { o with slots := modify o.slots i f } l := by
        refine ⟨ok.once, fun j hj => (states j).trans (ok.queued j hj),
          fun j hj => ⟨(ok.rush j hj).1, (states j).trans (ok.rush j hj).2⟩, ok.heldOnce,
          fun j hj => (states j).trans (ok.suspended j hj), fun j hj => ?_, fun j => ?_,
          fun j hj => (states j).trans (ok.lead j (last ▸ hj))⟩
        · rw [states j]; exact ok.web j (List.mem_cons_of_mem _ hj)
        · have hf := ok.flight j
          rw [List.count_cons] at hf
          by_cases c : j = i
          · rw [c, same]
            simp only [c, BEq.rfl, if_true] at hf
            change (o.slotAt i).inFlight = l.count (some i) + 1 at hf
            show (o.slotAt i).inFlight - 1 = l.count (some i)
            omega
          · rw [other j c]
            have : ¬(some i == some j) = true := by simpa using fun e => c e.symm
            rwa [if_neg this] at hf
      exact tableOk_congr (a := { o with slots := modify o.slots i f }) rfl rfl rfl (fun _ => rfl) (fun _ => rfl) done
  · exact h

theorem retired_settled {s : State} (m : Mark) (h : s.osq.Settled) : (s.retired m).osq.Settled := by
  unfold State.retired
  split
  · exact Counts.settled.syncNoOrder (retireSegment_settled h)
  · split <;> exact h
  · exact h

theorem retireMarks_settled {s : State} (h : s.osq.Settled) : s.retireMarks.osq.Settled :=
  foldl_keeps (P := fun s => s.osq.Settled) (fun _ m ht => retired_settled m ht) _ h

/-- What the lists say of the slots stays so, and so does the bound of the held-order stack (R49, R53, R55, R56). -/
theorem Loads.ordersOnce : Loads fun s => s.osq.Settled where
  toCounts := Counts.settled
  created x b _ hb h := createBoundary_settled x b hb h
  retires h := retireMarks_settled h
  enqueue f hf h := by
    refine ⟨?_, hf.held h.2⟩
    have := hf.table _ h.1
    unfold Osq.orders at *
    simpa only [State.onOsq, hf.segments] using this
  feed _ _ h := h
  lsc _ _ _ h _ := h
  line _ _ _ _ _ h := by simpa using h
  irt _ _ h := h
  clear h := h
  port _ _ _ h := h
  ring _ _ h := by simpa using h
  choose _ h := h
  pass _ h := h
  tell _ _ h := h
  plg _ _ h := h
  consts _ h := h
  stands _ h := h
  heat _ h := h
  tables _ h := h

/-! ### Together -/

/-- What stands once, without what follows from it and the bounds of the lists. -/
def State.Standing (s : State) : Prop :=
  (∃ n, Bounded n (n + 1) s) ∧ s.osq.Settled ∧ s.lsc.seen.Nodup

theorem Loads.standing : Loads State.Standing := Loads.boundaries.and (Loads.ordersOnce.and Loads.faultsOnce)

theorem consistent_iff {s : State} (h : s.osq.ListsOk) : s.Consistent ↔ s.Standing := by
  constructor
  · exact fun c => ⟨⟨_, c.marks, rfl, c.boundaries.symm⟩, ⟨c.table, c.held⟩, c.faults.1⟩
  · rintro ⟨⟨n, hm, hn, hl⟩, ⟨ht, hh⟩, hs⟩
    refine ⟨hm, by rw [hn, hl], ?_, ht, hh, hs, seen_length hs⟩
    have := structuralCount_le hm
    have := h.2.1
    omega

end Sys2Proof.Machine
end

