-- ==== Sys2Proof/Laws/Telegrams.lean ====
section
/-! SUPPORT. What reading a telegram from its bytes gives, and what is read of numbers written in bytes (R202, R203). -/

namespace Sys2Proof.Machine

/-! ### Numbers (R202) -/

theorem readNat_append (l m : List Byte) : readNat (l ++ m) = readNat l * 256 ^ m.length + readNat m := by
  have fold : ∀ (m : List Byte) (n : Nat),
      m.foldl (fun n b => n * 256 + b.toNat) n = n * 256 ^ m.length + m.foldl (fun n b => n * 256 + b.toNat) 0 := by
    intro m
    induction m with
    | nil => simp
    | cons b m ih =>
      intro n
      simp only [List.foldl_cons, List.length_cons]
      rw [ih, ih (0 * 256 + b.toNat), pow_succ]
      ring
  unfold readNat
  rw [List.foldl_append, fold]

/-- A number that n bytes hold is read as it was written. -/
theorem readNat_writeInt : ∀ (n v : Nat), v < 256 ^ n → readNat (writeInt n v) = v
  | 0, v, h => by simp at h; simp [writeInt, readNat, h]
  | n + 1, v, h => by
    have ih := readNat_writeInt n (v / 256) (by rw [pow_succ] at h; omega)
    have last : readNat [BitVec.ofInt 8 (v : Int)] = v % 256 := by
      simp [readNat]
    unfold writeInt
    rw [readNat_append, last, show ((v : Int) / 256) = ((v / 256 : Nat) : Int) by omega, ih]
    simp
    omega

/-! ### Telegrams (R173, R203) -/

/-- What a telegram read from bytes says: the bytes are a well-formed telegram of the class, at most 1,500 of them, and the
header and the items are theirs. -/
theorem readTelegram_some {cls : Nat} {x : Arrival} {t : Telegram} (h : readTelegram cls x = some t) :
    bytesWellFormed x.bytes = true ∧ headerClass x.bytes = some cls ∧ t.bytes = x.bytes
      ∧ t.origin = fieldAt 1 1 x.bytes ∧ t.cycle = fieldAt 2 2 x.bytes
      ∧ t.total = x.bytes.length ∧ 6 ≤ t.total ∧ t.total ≤ 1500 ∧ t.items = readItems (itemsOf x.bytes) x.contents := by
  unfold readTelegram at h
  split at h
  · rename_i hw
    simp only [Bool.and_eq_true, beq_iff_eq] at hw
    obtain ⟨hw, hc⟩ := hw
    cases h
    refine ⟨hw, hc, rfl, rfl, rfl, ?_⟩
    unfold bytesWellFormed headerLength at hw
    split at hw
    · cases hw
    · rename_i n hn
      split at hn
      · cases hn
        simp only [Bool.and_eq_true, decide_eq_true_eq, beq_iff_eq] at hw
        dsimp only
        exact ⟨by omega, by omega, by omega, rfl⟩
      · cases hn
  · cases h

/-- Bytes that are no well-formed telegram, or one of another class, are read as none. -/
theorem readTelegram_none {cls : Nat} {x : Arrival}
    (h : bytesWellFormed x.bytes = false ∨ headerClass x.bytes ≠ some cls) : readTelegram cls x = none := by
  unfold readTelegram
  rcases h with h | h <;> simp [h]

/-- Bytes written over others leave their number as it was, where they lie among them (R175). -/
theorem overwrite_length {offset : Nat} {new l : List Byte} (h : offset + new.length ≤ l.length) :
    (overwrite offset new l).length = l.length := by
  simp only [overwrite, List.length_append, List.length_take, List.length_drop]
  omega

/-- A telegram with bytes appended is so much longer (R184). -/
theorem writeAppended_length {t : Telegram} {l : List Byte} (h : 6 ≤ t.bytes.length) :
    (writeAppended t l).length = t.bytes.length + l.length := by
  have : (overwrite 4 (writeInt 2 (t.total + l.length)) t.bytes).length = t.bytes.length :=
    overwrite_length (by rw [writeInt_length]; omega)
  simp only [writeAppended, List.length_append, this]

/-- Items written end to end have the length that R184 reckons with. -/
theorem writeItems_length (source : Nat) (l : List OutItem) :
    (l.flatMap (writeItem source)).length = (l.map outLength).sum := by
  rw [List.length_flatMap]
  exact congrArg List.sum (List.map_congr_left fun o _ => writeItem_length source o)

end Sys2Proof.Machine
end

