-- ==== Sys2Proof/WellFormed.lean ====
section
/-! DEFINITION. Which commands are well formed: their fields lie in the widths and ranges that the layouts and tables of the
manual give, and a telegram is of the class its command says. A command that is not well formed stands for no event at the
part; its meaning is total all the same. -/

namespace Sys2Proof.WellFormed

open Sys2Proof.Machine

/-- A one-byte field. -/
def byteOk (n : Nat) : Bool := n < 256

/-- A two-byte field. -/
def wordOk (n : Nat) : Bool := n < 65536

/-- A reel's fields: a paper code of two bytes, and a caliper, tube and diameter of two bytes (R88, R90). -/
def reelOk (r : Reel) : Bool := wordOk r.paper && wordOk r.caliper && wordOk r.tube && wordOk r.diameter

/-- A report's fields. -/
def reportOk : Report → Bool
  | .feedCount _ => true
  | .lineStatus _ => true
  | .reelDiameter r => reelOk r
  | .spareState .absent => true
  | .spareState .preparing => true
  | .spareState (.prepared r) => reelOk r
  | .spliceFault code => wordOk code
  | .zoneValue raw => wordOk raw
  | .slitterState (.ready id) => byteOk id
  | .slitterState _ => true
  | .stackState _ command => byteOk command

/-- An asker: a station of one byte, and a reply space that holds the reply header within a telegram's 1,500 bytes (R188,
R203, R204). -/
def askerOk (q : Asker) : Bool := byteOk q.requester && 4 ≤ q.space && q.space ≤ 1500

/-- A band entry: its setpoint in 16 signed bits (R107). -/
def entryOk (e : BandEntry) : Bool := -32768 ≤ e.setpoint && e.setpoint ≤ 32767

/-- A setpoint column. -/
def columnOk (c : Column) : Bool := entryOk c.crawl && entryOk c.low && entryOk c.mid && entryOk c.high

/-- A grade: paper codes of two bytes, and its columns (R107). -/
def gradeOk (g : Grade) : Bool :=
  g.papers.toList.all wordOk && g.columns.toList.all fun c => c.all columnOk

/-- The fields of a request that an item's arguments spell. -/
def requestOk : Request → Bool
  | .loadGrade a => gradeOk a.grade
  | _ => true

/-- Whether a request is read from its code, or from its argument bytes, so that these spell nothing more. -/
def readByLayout (code : Nat) : Bool :=
  code == requestCode (.loadOrder []) || bareRequests.any fun r => requestCode r == code

/-- Whether a code names a request (R204). -/
def codeNamed (code : Nat) : Bool := 1 ≤ code && code ≤ 27

/-- What an item's bytes may spell: a report of the item's kind in at least a byte, or arguments of the request that its request
code names; nothing where the manual lays the bytes out, and where a station item is malformed (R203, R204, R208). -/
def contentsOk (l : List Byte) : Contents → Bool
  | .nothing =>
    !(fieldAt 1 1 l == requestKindCode && decide (9 ≤ l.length) && codeNamed (fieldAt 6 1 l) && !readByLayout (fieldAt 6 1 l))
  | .report r => fieldAt 1 1 l == stationKindCode (reportKind r) && decide (6 ≤ l.length) && reportOk r
  | .arguments r _ =>
    fieldAt 1 1 l == requestKindCode && decide (9 ≤ l.length) && fieldAt 6 1 l == requestCode r
      && !readByLayout (requestCode r) && requestOk r

/-- A telegram of a class: its bytes are well formed, and of each item it is said what they spell (R173, R203). -/
def telegramOk (cls : Nat) (x : Arrival) : Bool :=
  (readTelegram cls x).isSome && x.contents.length == (itemsOf x.bytes).length
    && ((itemsOf x.bytes).zip x.contents).all fun y => contentsOk y.1 y.2

/-- Whether a command is well formed. -/
def instrOk : Instr → Bool
  | .powerOn => true
  | .rstN => true
  | .portLinkChange _ _ => true
  | .cycleTelegram _ x => telegramOk 1 x
  | .repeatTelegram _ x => telegramOk 1 x
  | .managementTelegram _ _ x => telegramOk 2 x
  | .badTelegram _ bytes => !bytesWellFormed bytes
  | .ringLost => true
  | .swapTimeout => true
  | .spliceTimeout _ => true
  | .freshnessLapse _ => true
  | .speedRequestRefresh => true
  | .stackCommandResend => true
  | .settleEnd _ => true
  | .loadStation q _ => askerOk q
  | .loadSubscription q _ => askerOk q
  | .setLine q _ => askerOk q
  | .loadStand q _ => askerOk q
  | .loadPoint q _ => askerOk q
  | .loadChannel q _ => askerOk q
  | .loadScan q _ => askerOk q
  | .loadGrade q a => askerOk q && gradeOk a.grade
  | .loadOrder q _ => askerOk q
  | .withdrawOrder q _ => askerOk q
  | .queueAppend q _ => askerOk q
  | .queueRemove q _ _ => askerOk q
  | .insertRush q _ => askerOk q
  | .verifyOrder q _ => askerOk q
  | .readOrder q _ => askerOk q
  | .queueRead q => askerOk q
  | .readStatus q _ _ => askerOk q
  | .readMap q => askerOk q
  | .readStands q => askerOk q
  | .readLog q _ => askerOk q
  | .logMode q _ _ => askerOk q
  | .startThreading q => askerOk q
  | .startProduction q => askerOk q
  | .halt q => askerOk q
  | .lineReset q => askerOk q
  | .manualSplice q _ => askerOk q
  | .operatorCutout q _ _ => askerOk q

end Sys2Proof.WellFormed
end

