-- ==== Sys2Proof/Tests/Slice0.lean ====
section
/-! SUPPORT. Tests: ill-formed commands refused, worked examples of the manual, and, for each statement with hypotheses, a
state and operands that meet them. -/

namespace Sys2Proof.Tests

open Sys2Proof.Machine

/-! ### Helpers -/

/-- A commissioning station with room for a reply and every field it may send. -/
def asker : Asker := { comm := 1, requester := 1, space := 400, present := 22 }

/-- A latched fault. -/
def latched : Latch := { code := .runout, detail := .one 7, stamp := 0 }

/-- The part in a line state, as after power-on but for what the line state itself holds. -/
def inState (x : LineState) : State :=
  let l := (stateReason x).toList
  { State.reset with
    wtr := { Wtr.reset with reasons := l, request := strongest l, governing := governingOf l },
    lineStop := strongest l == .stop,
    lsc := { Lsc.reset with state := x, latch := if x = .faulted then some latched else none } }

/-- A cycle telegram without items, from station 1: class 1, origin 1, the cycle number, total length 6 (R203). -/
def emptyCycle (hi lo : Byte) : Arrival := { bytes := [1, 1, hi, lo, 0, 6], contents := [] }

/-- A cycle telegram from station 1 with cycle number 258 and one item of station 2, of a kind and with two payload bytes. -/
def cycleOf (kind : Byte) (c : Contents) : Arrival :=
  { bytes := [1, 1, 1, 2, 0, 13, 2, kind, 3, 0, 2, 0, 25], contents := [c] }

/-- A management telegram from station 9 with cycle number 0 and one REQUEST item of station 1, instance 15: destination, request
code, no arguments and 6 bytes of reply space. -/
def requestOf (dest code : Byte) (c : Contents) : Arrival :=
  { bytes := [2, 9, 0, 0, 0, 21, 1, 112, 15, 0, 10, dest, code, 0, 0, 0, 0, 0, 0, 0, 0], contents := [c] }

/-- A grade with no paper required and no column. -/
def plainGrade : Grade := { papers := Vector.replicate 7 0, columns := Vector.replicate 12 none }

/-- An order that every validity check passes. -/
def order : OrderRec :=
  { number := 1, grade := 24, length := 5000, cuts := 1, overmake := 500,
    tracks := [{ width := 500, scores := [100, 499] }], perStack := 2000, quality := .lenient }

/-- The part with grade 24 loaded and slot 63 in a state with that order. -/
def withOrder (x : SlotState) : State :=
  { State.reset with
    hgr := { Hgr.reset with grades := put Hgr.reset.grades 23 (some plainGrade) },
    osq := { Osq.reset with slots := put Osq.reset.slots 63 { Slot.blank with state := x, order := some order } } }

/-- Stand 7's configuration, at its greatest distances. -/
def standCfg : StandCfg :=
  { station := 62, dist := 5000000, lead := 50000, joint := 10000, trig := 100000000, stop := 99999999, band := .high,
    timeout := 60000 }

/-- The part in a line state with a stand record in stand 7. -/
def withStand (x : LineState) (st : Stand) : State :=
  { inState x with spl := { stands := put Spl.reset.stands 6 st } }

/-- The load of stand 7 with that configuration. -/
def standArgs : StandArgs :=
  { stand := 7, station := 62, dist := 5000000, lead := 50000, joint := 10000, trig := 100000000, stop := 99999999,
    band := some .high, timeout := 60000 }

/-- A reel of a paper. -/
def reel (paper : Nat) : Reel := { paper := paper, caliper := 80, tube := 0, diameter := 30000 }

theorem slot_reset (i : Nat) : State.reset.slot i = Slot.blank := by
  simp only [State.slot, State.reset, Osq.reset, Vector.getElem?_replicate]
  split <;> rfl

theorem stand_reset (i : Nat) : State.reset.stand i = Stand.cleared none := by
  simp only [State.stand, State.reset, Spl.reset, Vector.getElem?_replicate]
  split <;> rfl

/-- A table of one entry holds its default elsewhere. -/
theorem put_other {α : Type} {n : Nat} (v : Vector α n) (i j : Nat) (x : α) (h : j ≠ i) : (put v i x)[j]? = v[j]? := by
  unfold put
  rw [Vector.getElem?_setIfInBounds]
  simp [Ne.symm h]

/-! ### Well-formed commands -/

theorem test_wellFormed_request : WellFormed.instrOk (.queueRead asker) = true := by decide

theorem test_illFormed_requester : WellFormed.instrOk (.queueRead { asker with requester := 256 }) = false := by decide

theorem test_illFormed_spaceShort : WellFormed.instrOk (.queueRead { asker with space := 3 }) = false := by decide

theorem test_illFormed_spaceLong : WellFormed.instrOk (.queueRead { asker with space := 1501 }) = false := by decide

theorem test_wellFormed_telegram :
    WellFormed.instrOk (.cycleTelegram .a (cycleOf 1 (.report (.feedCount 25)))) = true
      ∧ WellFormed.instrOk (.managementTelegram .a 0 (requestOf 63 16 .nothing)) = true := by decide

/-- The total length says 7 where there are 6 bytes. -/
theorem test_illFormed_total :
    WellFormed.instrOk (.cycleTelegram .a { bytes := [1, 1, 0, 7, 0, 7], contents := [] }) = false := by decide

/-- A management telegram's bytes are no cycle telegram, nor the other way round. -/
theorem test_illFormed_class :
    WellFormed.instrOk (.repeatTelegram .a (requestOf 63 16 .nothing)) = false
      ∧ WellFormed.instrOk (.managementTelegram .a 0 (emptyCycle 0 7)) = false := by decide

theorem test_illFormed_contents :
    WellFormed.instrOk (.cycleTelegram .b { emptyCycle 0 7 with contents := [.nothing] }) = false := by decide

theorem test_illFormed_reportKind :
    WellFormed.instrOk (.cycleTelegram .a (cycleOf 2 (.report (.feedCount 25)))) = false := by decide

/-- A report in a payload of no bytes. -/
theorem test_illFormed_reportEmpty :
    WellFormed.contentsOk [2, 1, 3, 0, 0] (.report (.feedCount 25)) = false := by decide

/-- QUEUE_APPEND's arguments under the request code of INSERT_RUSH. -/
theorem test_illFormed_arguments :
    WellFormed.instrOk (.managementTelegram .a 0 (requestOf 63 13 (.arguments (.queueAppend 1) 1))) = false
      ∧ WellFormed.instrOk (.managementTelegram .a 0 (requestOf 63 11 (.arguments (.queueAppend 1) 1))) = true := by decide

/-- Nothing said of a QUEUE_APPEND's arguments, and something said of a LOAD_ORDER's, whose layout the manual gives. -/
theorem test_illFormed_spelled :
    WellFormed.instrOk (.managementTelegram .a 0 (requestOf 63 11 .nothing)) = false
      ∧ WellFormed.instrOk (.managementTelegram .a 0 (requestOf 63 9 (.arguments (.loadOrder []) 0))) = false := by decide

theorem test_illFormed_reel : WellFormed.reportOk (.reelDiameter { reel 1 with diameter := 65536 }) = false := by decide

theorem test_illFormed_spare : WellFormed.reportOk (.spareState (.prepared (reel 65536))) = false := by decide

theorem test_illFormed_spliceFault : WellFormed.reportOk (.spliceFault 65536) = false := by decide

theorem test_illFormed_zoneValue : WellFormed.reportOk (.zoneValue 65536) = false := by decide

theorem test_illFormed_readyId : WellFormed.reportOk (.slitterState (.ready 256)) = false := by decide

theorem test_illFormed_stackCommand : WellFormed.reportOk (.stackState .ready 256) = false := by decide

theorem test_illFormed_badTelegram :
    WellFormed.instrOk (.badTelegram .a [1, 0, 0, 0, 0, 6]) = false := by decide

theorem test_illFormed_paper :
    WellFormed.gradeOk { plainGrade with papers := Vector.replicate 7 65536 } = false := by decide

theorem test_illFormed_setpoint : WellFormed.entryOk { setpoint := 32768, tolerance := 0 } = false := by decide

/-! ### The manual's worked sequences and tables -/

/-- The feed state of the worked sequence of chapter 1: S = 80,000, J = 100, last count, remainder and debt as given. -/
def feeding (last : FeedCount) (remainder debt : Nat) : State :=
  { State.reset with
    line := { LineConsts.default with nums := { LineConsts.default.nums with feedScale := 80000, jumpLimit := 100 } },
    wtr := { Wtr.reset with firstCount := false, lastCount := last, remainder := remainder, debt := debt } }

/-- Advance, remainder and debt after a cycle telegram. -/
def fed (s : State) (n : Nat) (c : FeedCount) : Nat × Nat × Nat :=
  let x := s.takeFeed n (some c)
  (x.2, x.1.wtr.remainder, x.1.wtr.debt)

/-- Cycle 102: one missed cycle. -/
theorem test_feed_missedCycle : fed (feeding 1061 30336 0) 1 1183 = (149, 25472, 0) := by decide

/-- Cycle 103: a jump is clamped. -/
theorem test_feed_jump : fed (feeding 1183 25472 0) 0 2083 = (122, 30080, 0) := by decide

/-- Cycle 104: the reading moves back. -/
theorem test_feed_back : fed (feeding 2083 30080 0) 0 2018 = (0, 30080, 65) := by decide

/-- Cycle 106: the last of the debt is repaid. -/
theorem test_feed_repaid : fed (feeding 2079 30080 4) 0 2140 = (70, 2560, 0) := by decide

/-- The count wraps at 65,536 (R3). -/
theorem test_feedDelta_wraps : feedDelta 65500 25 = 61 ∧ feedDelta 25 65500 = -61 := by decide

/-- The band hysteresis of section 1.2. -/
theorem test_band_hysteresis :
    bandAfter LineConsts.default.nums 555 .low = .low ∧ bandAfter LineConsts.default.nums 561 .low = .mid
      ∧ bandAfter LineConsts.default.nums 530 .mid = .mid ∧ bandAfter LineConsts.default.nums 519 .mid = .low := by
  decide

/-- The full reel of section 5.3. -/
theorem test_reelLength : reelLength { paper := 1, caliper := 300, tube := 1000, diameter := 15000 } = 58643200 := by
  decide

/-- The readings of section 5.3 that are limited, and the one that is taken whole. -/
theorem test_creep :
    creep 58000000 58643200 = 58290000 ∧ creep 58286000 58580000 = 58577430 ∧ creep 58577430 58500000 = 58500000 := by
  decide

/-- Mark 43 of section 2.7 over an advance of 400: its pinned end stays, its zone grows to 1,700. -/
theorem test_openMark_grows :
    ((openMark .offband .hgr (.offband 7 .deviation) 149700 { kind := .offband, owner := 7, pinned := 151000 }).move
      400).zoneLength = 1700 := by decide

/-- That claim in READ_MAP (R207): kind, owner, and 1,300 above the start. -/
theorem test_claim_bytes :
    writeClaim 149700 { kind := .offband, owner := 7, pinned := 151000 } = [0, 7, 0, 5, 20]
    ∧ writeSigned 3 (-8388608) = [128, 0, 0] ∧ fitsSigned 3 8388608 = false := by decide

/-- READ_MAP's fixed part (R207): 8 bytes, the counts and numbers behind the bytes of the two flags. -/
theorem test_mapFixed_bytes :
    writeMapFixed true false 3 12 259 5
      = [Config.flagByte .mapValid true, Config.flagByte .purgeArmed false, 3, 12, 1, 3, 0, 5] := rfl

/-- The merge of section 2.7: the new cutout joins the off-band mark, 1,500 away, and not the one 2,000 away. -/
theorem test_merge_nearest :
    (nearestDefect (closedMark .operator .mgr (.operator 21) 50000 5000)
      [{ closedMark .offband .hgr (.offband 3 .deviation) 40000 8500 with seq := 102 },
       { openMark .wrongSlit .chg (.wrongSlit .b) 57000 { kind := .wrongSlit, owner := 2, pinned := 80000 } with
           seq := 105 }]).map (fun x => x.2.seq) = some 102 := by decide

/-- The map of section 7.3, seen from a front. -/
def bracketing (front : Int) (quality : Quality) : State :=
  let o : OrderRec := { order with length := 12000, cuts := 60000, quality := quality }
  { inState .producing with
    knp := { Knp.reset with front := front },
    osq := { Osq.reset with slots := put Osq.reset.slots 0 { Slot.blank with state := .onWeb, order := some o } },
    wmp := { Wmp.reset with marks :=
      [closedMark .splice .spl (.splice 4 .runout none) 14000 3000,
       closedMark .operator .mgr (.operator 21) 17000 3000,
       closedMark .offband .hgr (.offband 2 .deviation) 21000 1000,
       boundaryMark 4 60000 3000 0 none false 1,
       closedMark .wrongSlit .chg (.wrongSlit .a) 61500 8500] } }

/-- The segment of section 7.3. -/
def bracketed : Segment :=
  { num := 0, order := some 0, target := 60000, goodPlanned := 0, opening := none, closing := some 4, planning := true }

set_option maxRecDepth 4000 in
/-- Plan 1: the splice, with the cutout that touches it. -/
theorem test_bracket_splice :
    (bracketing 4000 .strict).decideSheet bracketed
      = { length := 16000, disp := .waste, reason := .splice, noted := false } := by decide

/-- Plan 5: a good sheet that ends at the boundary. -/
theorem test_bracket_good :
    (bracketing 48000 .strict).decideSheet bracketed
      = { length := 12000, disp := .good, reason := .normal, noted := false } := by decide

/-- Plan 6: the closing boundary, held at its zone end and at W_min. -/
theorem test_bracket_boundary :
    (bracketing 60000 .strict).decideSheet bracketed
      = { length := 4000, disp := .waste, reason := .boundary, noted := false } := by decide

/-- The lenient case: a good sheet with its noted flag, and 7,000 of boundary waste from 56,000. -/
theorem test_bracket_lenient :
    (bracketing 20000 .lenient).decideSheet bracketed
      = { length := 12000, disp := .good, reason := .normal, noted := true }
    ∧ (bracketing 56000 .lenient).decideSheet bracketed
      = { length := 7000, disp := .waste, reason := .boundary, noted := false } := by decide

/-- The stack of section 8.4: the fortieth cut makes stack 5, which goes at once under number 18. -/
theorem test_stack_sent :
    let s := { withOrder .onWeb with
      stk := { Stk.reset with piles := put Stk.reset.piles 63 { count := 1999, next := 5 }, state := .ready,
                              tracked := 17, counter := 17 } }
    (s.countIntoStack 63).stk.head = .sent 18 64 ∧ (s.countIntoStack 63).pile 63 = { count := 0, next := 6 } := by
  decide

/-- The segment list of section 4.2's example: the projection stands at 599,950. -/
theorem test_projection :
    ({ bracketing 59950 .strict with wmp := Wmp.reset }).projectionOf { bracketed with target := 510, goodPlanned := 465 }
      = some 599950 := by decide

/-- What a command leads to. -/
def after (c : Instr) (s : State) : State :=
  match exec c s with
  | .next t => t
  | _ => s

/-- HALT without a stopped report: HALTING, LINE_STOP asserted, reason HALT alone (R166). -/
theorem test_halt :
    (after (.halt asker) (inState .producing)).lsc.state = .halting
      ∧ (after (.halt asker) (inState .producing)).lineStop = true
      ∧ (after (.halt asker) (inState .producing)).wtr.governing = some (.halt, 0) := by decide

/-- OPERATOR_CUTOUT: an OPERATOR mark at the distance with the requester's code (R38). -/
theorem test_operatorCutout :
    (after (.operatorCutout asker 50000 5000) (inState .producing)).wmp.marks
      = [closedMark .operator .mgr (.operator 1) 50000 5000] := by decide

/-- LOAD_STATION of a duplicate code is refused and loads nothing (R176). -/
theorem test_loadStation_duplicate :
    let s := after (.loadStation asker
      { entry := 0, contents := some { code := 5, role := some .panel, level := 2 } }) State.reset
    (after (.loadStation asker
      { entry := 1, contents := some { code := 5, role := some .supervisor, level := 1 } }) s).reply
      = some (bare .duplicate) := by decide

/-- BAD_STATE carries the line state: THREADING is 1 (R189, R191). -/
theorem test_badState :
    (after (.loadScan asker []) (inState .threading)).reply
      = some { code := .badState, index := 0, detail := 1, data := [] } := by decide

/-- LOAD_SCAN with an empty list is its one length byte, and is taken (R119). -/
theorem test_loadScan_empty :
    (after (.loadScan { asker with present := 1 } []) State.reset).reply = some (bare .ok)
      ∧ (after (.loadScan { asker with present := 0 } []) State.reset).reply = some (badField 1 0) := by decide

/-! ### Sanity values -/

theorem test_nextId_wraps : nextId 255 = 1 := by decide

theorem test_cycleStep_wraps : cycleStep 65535 0 = 1 := by decide

/-- R202: most significant byte first. -/
theorem test_numbers : writeInt 2 258 = [1, 2] ∧ readNat [1, 2] = 258 := by decide

/-- The header and the item header of R203: origin 1, cycle number 1 × 256 + 2, total length 13; source 2, kind code 1, instance 3,
payload length 2. -/
theorem test_readTelegram :
    readTelegram 1 (cycleOf 1 (.report (.feedCount 25))) = some {
      bytes := [1, 1, 1, 2, 0, 13, 2, 1, 3, 0, 2, 0, 25], origin := 1, cycle := 258, total := 13,
      items := [{ source := 2, inst := 3, length := 2, payload := .report (.feedCount 25) }] } := by decide

/-- A CUT_DONE among other items (R205): kind code 64, sequence number 7, 8,000 web units. -/
theorem test_readItem_cutDone :
    readItem [5, 64, 0, 0, 6, 0, 7, 0, 0, 31, 64] .nothing
      = { source := 5, inst := 0, length := 6, payload := .cutDone 7 8000 } := by decide

/-- The payload of R204: destination 63, request code 11, one argument byte, then the reply code 0 of the reply space. -/
theorem test_readRequest :
    readRequest [63, 11, 0, 1, 200, 0, 0, 0, 0] (.arguments (.queueAppend 200) 1)
      = some { dest := 63, argLength := 1, present := 1, replyCode := 0, asked := .known (.queueAppend 200) } := by
  decide +kernel

/-- R205: sequence number in 2 bytes, actual length in 4. -/
theorem test_cutDone_layout : readCutDone [0, 7, 0, 0, 31, 64] = some (7, 8000) := by decide

/-- No row of the table has bits. -/
theorem test_noWord : decodeTableWord 16 0 = none := rfl

/-! ### Witnesses: what meets the hypotheses of each statement -/

theorem inState_inv (x : LineState) (h : x ≠ .stopped) : (inState x).Inv := by
  cases x
  · exact absurd rfl h
  all_goals
    constructor
    · unfold Wtr.FeedOk; decide
    · unfold Wmp.MapOk; decide
    · unfold Osq.ListsOk; decide
    · unfold Chg.RecordsOk; decide
    · unfold Knp.PlansOk; decide
    · unfold Stk.QueueOk; decide
    · unfold Plg.LogOk; decide
    · unfold Rif.QueuesOk; decide
    · unfold Lsc.LatchOk; decide
    · unfold State.RequestOk; decide
    · unfold State.LineReasonOk; decide
    · rfl

/-- A state with the invariant keeps it under what it says nothing of: stands, heat, tables, pins, queue. -/
theorem inv_other {s t : State} (h : s.Inv) (h₁ : t.wtr = s.wtr) (h₂ : t.wmp = s.wmp) (h₃ : t.osq = s.osq)
    (h₄ : t.knp = s.knp) (h₅ : t.stk = s.stk) (h₆ : t.plg = s.plg) (h₇ : t.rif = s.rif) (h₈ : t.lsc = s.lsc)
    (h₉ : t.lineStop = s.lineStop) (h₀ : t.handed = s.handed) (hc : t.chg = s.chg := by rfl) : t.Inv where
  feed := h₁ ▸ h.feed
  map := h₂ ▸ h.map
  lists := h₃ ▸ h.lists
  changes := hc ▸ h.changes
  plans := h₄ ▸ h.plans
  setDowns := h₅ ▸ h.setDowns
  records := h₆ ▸ h.records
  queues := h₇ ▸ h.queues
  latch := h₈ ▸ h.latch
  request := by unfold State.RequestOk; rw [h₁, h₇, h₉]; exact h.request
  lineReason := by unfold State.LineReasonOk; rw [h₁, h₈]; exact h.lineReason
  handed := h₀.trans h.handed

theorem witness_StepRunsTheFrontCommand :
    ({ State.reset with pending := [.halt asker] } : State).pending = .halt asker :: [] ∧ State.reset.pending = [] :=
  ⟨rfl, rfl⟩

/-- What stands once stands so while the map, the order table and the faults seen are as after power-on. -/
theorem consistent_fresh {s : State} (h₁ : s.wmp = Wmp.reset) (h₂ : s.osq = Osq.reset) (h₃ : s.lsc.seen = []) :
    s.Consistent := by
  have free : ∀ i, Osq.reset.slotAt i = Slot.blank := by
    intro i
    simp only [Osq.slotAt, Osq.reset, Vector.getElem?_replicate]
    split <;> rfl
  refine ⟨?_, ?_, ?_, ?_, by rw [h₂]; unfold Osq.HeldOk; decide, by rw [h₃]; exact ⟨List.nodup_nil, Nat.zero_le _⟩⟩
  · rw [h₁]
    constructor <;> simp [Wmp.reset]
    simp [kindCount]
  · rw [h₁, h₂]; simp [Wmp.reset, Osq.reset, kindCount]
  · rw [h₁]; simp [Wmp.reset, structuralCount]
  · rw [h₂]
    refine ⟨List.nodup_nil, ?_, ?_, List.nodup_nil, ?_, ?_, fun i => by rw [free]; simp [Osq.reset, Slot.blank], ?_⟩ <;>
      simp [Osq.reset]

theorem witness_EveryStepKeepsTheInvariant :
    ∃ s t : State, s.Inv ∧ s.Consistent ∧ s.pending = [.settleEnd 15] ∧ step s = .next t :=
  ⟨{ inState .producing with pending := [.settleEnd 15] }, _,
    inv_other (inState_inv .producing (by decide)) rfl rfl rfl rfl rfl rfl rfl rfl rfl rfl, consistent_fresh rfl rfl rfl,
    rfl, rfl⟩

theorem witness_LineStopWhileStoppedOrLost :
    ∃ s t : State, s.Inv ∧ step s = .next t ∧ (t.lsc.state = .stopped ∨ t.lsc.state = .halting ∨ t.lsc.state = .faulted) :=
  ⟨inState .halting, _, inState_inv .halting (by decide), rfl, by decide⟩

theorem witness_ConfigurationChangesOnlyByItsLoads :
    ∃ s t : State, s.Inv ∧ step s = .next t ∧ s.pending = [.settleEnd 0]
      ∧ ∀ c rest, s.pending = c :: rest →
        c ≠ .powerOn ∧ (∀ q r, c = carrying q r → loadsConfiguration r = false)
        ∧ ∀ p pins x y, c = .managementTelegram p pins x → readTelegram 2 x = some y → ∀ it ∈ y.items, ∀ rq r,
          it.payload = .request rq → rq.asked = .known r → loadsConfiguration r = false := by
  refine ⟨{ inState .producing with pending := [.settleEnd 0] }, _,
    inv_other (inState_inv .producing (by decide)) rfl rfl rfl rfl rfl rfl rfl rfl rfl rfl, rfl, rfl, ?_⟩
  intro c rest h
  injection h with h _
  subst h
  refine ⟨nofun, ?_, nofun⟩
  intro q r e
  cases r <;> cases e

theorem witness_RefusedRequestsChangeNothing :
    { asker with space := 3 }.space < 4
    ∧ (4 ≤ { asker with space := 4 }.space
      ∧ State.reset.checkRequest { asker with space := 4, requester := 2 } .halt = some (bare .unknownStation))
    ∧ (State.reset.handed = [] ∧ State.reset.Grants asker (.withdrawOrder 64)
      ∧ (owned asker (.withdrawOrder 64) { State.reset with commStation := 1 }).2.code = .badSlot) :=
  ⟨by decide, by decide, rfl, ⟨by decide, by decide⟩, by decide⟩

/-- A process station 5 and a panel 6 of level 2 in the station table. -/
def stationed : State :=
  let v := put Irt.reset.stations 0 (some { code := 5, role := .processStation, level := 0 })
  { State.reset with irt := { Irt.reset with
      stations := put v 31 (some { code := 6, role := .panel, level := 2 }) } }

theorem witness_AuthorityComesBeforeState :
    stationed.authority 0 7 = .unknown
    ∧ (stationed.authority 62 62 = .level 0 ∧ stationed.authority 63 63 = .unknown)
    ∧ stationed.authority 1 5 = .noAuthority
    ∧ (stationed.irt.stations.toList
      = [] ++ some { code := 5, role := .processStation, level := 0 } :: stationed.irt.stations.toList.tail)
    ∧ (stationed.irt.stations.toList
      = stationed.irt.stations.toList.take 31 ++ [some { code := 6, role := .panel, level := 2 }]
      ∧ ∀ x, some x ∈ stationed.irt.stations.toList.take 31 → x.code ≠ 6)
    ∧ (stationed.authority 1 6 = .level 2 ∧ minimumLevel .lineReset < 2)
    ∧ (2 ≤ minimumLevel .halt ∧ availableIn .halt stationed.lsc.state = false)
    ∧ (2 ≤ minimumLevel .queueRead ∧ availableIn .queueRead stationed.lsc.state = true) := by
  refine ⟨by decide, by decide, by decide, by decide, ⟨by decide, ?_⟩, by decide, by decide, by decide⟩
  have h : stationed.irt.stations.toList.take 31
      = some { code := 5, role := .processStation, level := 0 } :: List.replicate 30 none := by decide
  intro x hx
  rw [h] at hx
  simp at hx
  simp [hx]

/-- Slot 63 LOADED with a record, grade 24 loaded. -/
def slotWith (r : OrderRec) : State := (withOrder .loaded).onSlot 63 fun o => { o with order := some r }

/-- A track of a width with given scores. -/
def trackOf (width : Nat) (scores : List Nat) : Track := { width := width, scores := scores }

/-- Each check fails on one of these records alone, at the edge of its range, and none fails on the order itself. -/
theorem witness_VerifyOrderReportsTheChecks :
    (State.reset.handed = [] ∧ State.reset.Grants asker (.verifyOrder 64) ∧ 63 < 64)
    ∧ (State.reset.Grants asker (.verifyOrder 0) ∧ (State.reset.slot 0).state = .empty)
    ∧ (∀ r, (slotWith r).Grants asker (.verifyOrder 63) ∧ ((slotWith r).slot 63).state ≠ .empty
      ∧ ((slotWith r).slot 63).order = some r)
    ∧ [order, { order with number := 0 }, { order with grade := 23 }, { order with length := 4999 },
        { order with tracks := [trackOf 500 [], trackOf 499 []] }, { order with tracks := [] },
        { order with tracks := [trackOf 500 [], trackOf 24501 []] }, { order with tracks := List.replicate 7 (trackOf 500 []) },
        { order with tracks := [trackOf 500 [499], trackOf 500 [100, 100]] },
        { order with tracks := [trackOf 500 [500]] }, { order with perStack := 0 },
        { order with perStack := 2001 }].map (fun r => (slotWith r).verifyOrder 63)
      = [bare .ok, badField 1 0, badField 2 0, badField 3 0, badField 6 2, badField 6 0, badField 6 0, badField 6 0,
         badField 7 2, badField 7 1, badField 8 0, badField 8 0] := by
  refine ⟨⟨rfl, ⟨by decide, by decide⟩, by decide⟩, ⟨⟨by decide, by decide⟩, by decide⟩, ?_, by decide⟩
  exact fun r => ⟨⟨by decide, rfl⟩, (nofun : SlotState.loaded ≠ .empty), rfl⟩

/-- Slot 63 with an order, in a state and in its list: the run queue, the held-order stack, the rush or a segment. -/
def listed (x : SlotState) (f : Osq → Osq) : State := (withOrder x).onOsq f

theorem witness_ReadsReturnWholeEntries :
    (State.reset.handed = [] ∧ State.reset.Grants asker (.readOrder 63) ∧ State.reset.Grants asker .queueRead
      ∧ State.reset.Grants asker .readStands ∧ (State.reset.slot 63).state = .empty)
    ∧ (let s := listed .queued fun o => { o with rush := some 63 }
       s.handed = [] ∧ s.Grants asker (.readOrder 63) ∧ (s.slot 63).state ≠ .empty ∧ s.osq.rush = some 63)
    ∧ (let s := listed .queued fun o => { o with queue := [6, 63] }
       s.handed = [] ∧ s.Grants asker (.readOrder 63) ∧ (s.slot 63).state ≠ .empty ∧ s.osq.rush ≠ some 63
        ∧ s.osq.queue = [6] ++ 63 :: [] ∧ 63 ∉ [6])
    ∧ (let s := listed .suspended fun o => { o with held := [63] }
       s.handed = [] ∧ s.Grants asker (.readOrder 63) ∧ (s.slot 63).state ≠ .empty ∧ s.osq.rush ≠ some 63
        ∧ 63 ∉ s.osq.queue ∧ s.osq.held = [] ++ 63 :: [] ∧ 63 ∉ ([] : List Nat))
    ∧ (let s := listed .onWeb fun o => { o with segments := [{ bracketed with order := some 63 }] }
       s.handed = [] ∧ s.Grants asker (.readOrder 63) ∧ (s.slot 63).state ≠ .empty ∧ s.osq.rush ≠ some 63
        ∧ 63 ∉ s.osq.queue ∧ 63 ∉ s.osq.held) := by
  unfold State.Grants
  decide

theorem witness_MapAndStatusReads :
    State.reset.handed = []
    ∧ (State.reset.Grants { asker with space := 4 } .readMap ∧ State.reset.Grants { asker with space := 11 } .readMap)
    ∧ State.reset.Grants { asker with space := 12 } .readMap
    ∧ State.reset.Grants { asker with space := 4 } (.readStatus (some .ring) 0)
    ∧ State.reset.Grants asker (.readStatus (some .heat) 27) ∧ State.reset.Grants asker (.readStatus (some .line) 65535) := by
  unfold State.Grants
  decide

theorem witness_LoadStationReplacesAnEntry :
    let full : StationArgs := { entry := 31, contents := some { code := 62, role := some .own, level := 2 } }
    State.reset.handed = [] ∧ State.reset.Grants asker (.loadStation { entry := 31, contents := none })
    ∧ (stationed.Grants asker (.loadStation full)
      ∧ (∀ n, roleLevel .own = some n → (2 : Nat) = n)
      ∧ ∀ j e, j ≠ 31 → stationed.irt.stations[j]? = some (some e) →
        e.code ≠ 62 ∧ (Role.own = .own ∨ Role.own = .lineMaster → e.role ≠ .own)) := by
  refine ⟨rfl, ⟨by decide, by decide⟩, ⟨by decide, by decide⟩, nofun, ?_⟩
  intro j e h₁ h₂
  have h : stationed.irt.stations[j]? = (put Irt.reset.stations 0 (some (StationEntry.mk 5 .processStation 0)))[j]? :=
    put_other _ _ _ _ h₁
  rw [h] at h₂
  by_cases h₀ : j = 0
  · subst h₀
    have : (StationEntry.mk 5 .processStation 0) = e := by simpa [put, Irt.reset] using h₂
    subst this
    decide
  · rw [put_other _ _ _ _ h₀] at h₂
    simp [Irt.reset, Vector.getElem?_replicate] at h₂

/-- Entry 0 FRESH under a kind and owner index, stand 7 configured. -/
def sourced (kind : StationKind) (index : Nat) : State :=
  let c : SubCfg := { source := 2, kind := kind, inst := 0, owner := kindOwner kind, index := index, reload := 10 }
  { withStand .stopped (Stand.cleared (some standCfg)) with
    irt := { Irt.reset with subs := put Irt.reset.subs 0 { cfg := some c, counter := 10, fresh := true } } }

theorem witness_LoadSubscriptionReplacesAnEntry :
    let c : SubscriptionFields :=
      { source := 62, kind := some .zoneValue, inst := 15, owner := some .hgr, index := 15, reload := 255 }
    State.reset.handed = [] ∧ State.reset.Grants asker (.loadSubscription { entry := 0, contents := none })
    ∧ (State.reset.Grants asker (.loadSubscription { entry := 47, contents := some c })
      ∧ c.owner = some (kindOwner .zoneValue) ∧ indexOk .zoneValue c.index = true
      ∧ (∀ (j : Nat) (e : SubEntry) (x : SubCfg), State.reset.irt.subs[j]? = some e → e.cfg = some x → False)
      ∧ ∀ e, State.reset.irt.subs[47]? = some e → e.fresh = false)
    ∧ ((∀ kind index, (sourced kind index).handed = []
          ∧ (sourced kind index).Grants asker (.loadSubscription { entry := 0, contents := none })
          ∧ ∃ e x, (sourced kind index).irt.subs[0]? = some e ∧ e.fresh = true ∧ e.cfg = some x ∧ x.kind = kind
            ∧ x.index = index)
      ∧ ((sourced .reelDiameter 7).stand (7 - 1)).cfg.isSome = true) := by
  refine ⟨rfl, ⟨by decide, by decide⟩, ⟨⟨by decide, by decide⟩, rfl, by decide, ?_, ?_⟩,
    fun kind index => ⟨rfl, ⟨by decide, rfl⟩, _, _, rfl, rfl, rfl, rfl, rfl⟩, by decide⟩
  · intro j e x h₁ h₂
    simp [State.reset, Irt.reset, Vector.getElem?_replicate] at h₁
    rw [← h₁.2] at h₂
    cases h₂
  · intro e h
    simp [State.reset, Irt.reset] at h
    rw [← h]
    rfl

theorem witness_SetLineReplacesTheConstants :
    let nums : LineNumbers := { LineConsts.default.nums with dSs := 5000000, ringTimeout := 50000, feedScale := 1 }
    (State.reset.handed = [] ∧ State.reset.Grants asker (.setLine { nums := nums, side := some .drive })
      ∧ LineNumbersOk nums)
    ∧ (State.reset.Grants asker (.setLine { nums := LineConsts.default.nums, side := some .drive })
      ∧ LineNumbersOk LineConsts.default.nums ∧ (State.reset.line.nums.dSs = 0 ↔ LineConsts.default.nums.dSs = 0)) := by
  refine ⟨⟨rfl, ⟨by decide, by decide⟩, ?_⟩, ⟨by decide, by decide⟩, ?_, Iff.rfl⟩ <;> (unfold LineNumbersOk; decide)

/-- Stand 7 configured, DUE under a maximum splice band of LOW. -/
def dueStand : State := withStand .stopped { Stand.cleared (some { standCfg with band := .low }) with splice := .due }

theorem witness_LoadStandConfiguresItsStand :
    (State.reset.handed = [] ∧ State.reset.Grants asker (.loadStand standArgs)
      ∧ (∀ j x, j ≠ 6 → (State.reset.stand j).cfg = some x → x.station ≠ 62) ∧ (State.reset.stand 6).cfg = none
      ∧ (State.reset.stand 6).splice ≠ .due)
    ∧ (dueStand.handed = [] ∧ dueStand.Grants asker (.loadStand standArgs)
      ∧ (∀ j x, j ≠ 6 → (dueStand.stand j).cfg = some x → x.station ≠ 62)
      ∧ (dueStand.stand 6).splice = .due ∧ (dueStand.stand 6).claim = false) := by
  refine ⟨⟨rfl, ⟨by decide, by decide⟩, ?_, by decide, by decide⟩, rfl, ⟨by decide, by decide⟩, ?_, by decide, by decide⟩
  · intro j x _ h
    rw [stand_reset] at h
    cases h
  · intro j x h₀ h
    have e : dueStand.stand j = State.reset.stand j := by
      unfold State.stand
      exact congrArg (fun x : Option Stand => x.getD (Stand.cleared none)) (put_other _ _ _ _ h₀)
    rw [e, stand_reset] at h
    cases h

theorem witness_LoadStandRemovesItsStand :
    State.reset.handed = [] ∧ State.reset.Grants asker (.loadStand { standArgs with station := 0 })
      ∧ (State.reset.stand 6).cfg = none ∧ dueStand.Grants asker (.loadStand { standArgs with station := 0 })
      ∧ (dueStand.stand 6).splice ≠ .splicing ∧ (dueStand.stand 6).claim = false :=
  ⟨rfl, ⟨by decide, by decide⟩, by decide, ⟨by decide, by decide⟩, by decide, by decide⟩

/-- Point 11 configured, and subscription entry 47 for channel 15. -/
def heated : State :=
  let sub : SubCfg := { source := 62, kind := .zoneValue, inst := 15, owner := .hgr, index := 15, reload := 255 }
  let point : PointCfg := { station := 62, dist := 150000, kind := .plateTemp, column := 7 }
  { State.reset with
    hgr := { Hgr.reset with points := put Hgr.reset.points 11 (Point.cleared (some point)) },
    irt := { Irt.reset with subs := put Irt.reset.subs 47 (SubEntry.cleared (some sub)) } }

/-- A column of one setpoint in every band. -/
def column : Column :=
  let e : BandEntry := { setpoint := 1500, tolerance := 20 }
  { crawl := e, low := e, mid := e, high := e }

/-- Grade 24 with a column at position 7. -/
def columnGrade : Grade := { plainGrade with columns := put plainGrade.columns 7 (some column) }

/-- Point 11 on grade 24, and channel 15 tied to it, with a run state, a latest reading and a stale flag. -/
def measured (run : RunState) (reading : Reading) (stale : Bool) : State :=
  let tie : ChannelCfg := { sub := 47, point := 11, mult := 256, offset := 0, invert := true, confirm := 2, settle := 60000 }
  (heated.onHgr fun h =>
    { h with
      grades := put h.grades 23 (some columnGrade),
      points := modify h.points 11 fun p => { p with grade := 24 },
      channels := put h.channels 15 { cfg := some tie, reading := reading, stale := stale, run := run, settle := 0 },
      scan := [15] })

/-- What names channel 15 alone is tied to point 11 there. -/
theorem measured_others (run : RunState) (reading : Reading) (stale : Bool) (c : Nat) (h : c ≠ 15) :
    (measured run reading stale).channel c = Channel.cleared none := by
  have e : (measured run reading stale).channel c = State.reset.channel c := by
    unfold State.channel
    exact congrArg (fun x : Option Channel => x.getD (Channel.cleared none)) (put_other _ _ _ _ h)
  rw [e]
  simp only [State.channel, State.reset, Hgr.reset, Vector.getElem?_replicate]
  split <;> rfl

theorem witness_LoadChannelWritesItsChannel :
    let a : ChannelArgs :=
      { channel := 15, sub := 47, point := some 11, mult := 4095, offset := -32768, invert := some true, confirm := 8,
        settle := 60000 }
    (heated.handed = [] ∧ heated.Grants asker (.loadChannel a)
      ∧ (∃ e c, heated.irt.subs[47]? = some e ∧ e.cfg = some c ∧ c.owner = .hgr ∧ c.index = 15)
      ∧ (heated.point 11).cfg.isSome = true ∧ (heated.channel 15).isOpen = false)
    ∧ (let s := measured (.opened 0) .none false
       s.handed = [] ∧ s.Grants asker (.loadChannel a) ∧ s.entryFeeds 47 15 = true ∧ (s.channel 15).isOpen = true
        ∧ ((s.channel 15).cfg.map fun k => k.point) = some 11 ∧ (s.point 11).cfg.isSome = true) :=
  ⟨⟨rfl, ⟨by decide, by decide⟩, ⟨_, _, rfl, rfl, rfl, rfl⟩, by decide, by decide⟩,
    rfl, ⟨by decide, by decide⟩, by decide, by decide, by decide, by decide⟩

/-- The clause on an invert flag out of range. -/
theorem witness_LoadChannelWritesItsChannel_invert :
    heated.Grants asker (.loadChannel
      { channel := 15, sub := 47, point := some 11, mult := 1, offset := 32767, invert := none, confirm := 1, settle := 0 }) :=
  ⟨by decide, by decide⟩

/-- An OPEN channel tied to the point: a removal, a new distance and an absent column move it, a reload as it was does not. -/
theorem witness_LoadPointWritesItsPoint :
    let a : PointArgs := { point := 11, station := 62, dist := 150000, kind := some .plateTemp, column := 7 }
    let s := measured (.opened 0) .none false
    let written (a : PointArgs) (p : Point) : Point :=
      { p with cfg := some { station := a.station, dist := a.dist, kind := .plateTemp, column := a.column } }
    (State.reset.handed = [] ∧ State.reset.Grants asker (.loadPoint { a with dist := 5000000 })
      ∧ State.reset.Grants asker (.loadPoint { a with station := 0 })
      ∧ ∀ c, ((State.reset.channel c).tiedTo 11 && (State.reset.channel c).isOpen) = false)
    ∧ (s.handed = [] ∧ s.Grants asker (.loadPoint a) ∧ s.rif.routine.length ≤ 32
      ∧ ((s.channel 15).tiedTo 11 && (s.channel 15).isOpen) = true)
    ∧ (s.point 11).cfg = some { station := 62, dist := 150000, kind := .plateTemp, column := 7 }
    ∧ (s.columnOf (written a (s.point 11))).isSome = true
    ∧ s.columnOf (written { a with column := 11 } (s.point 11)) = none := by
  refine ⟨⟨rfl, ⟨by decide, by decide⟩, ⟨by decide, by decide⟩, ?_⟩, ⟨rfl, ⟨by decide, by decide⟩, by decide, by decide⟩,
    by decide, by decide, by decide⟩
  intro c
  have h : State.reset.channel c = Channel.cleared none := by
    simp only [State.channel, State.reset, Hgr.reset, Vector.getElem?_replicate]
    split <;> rfl
  rw [h]
  rfl

set_option maxRecDepth 4000 in
/-- The OPEN channel's claim ends with the point's removal, and its mark with it (R111). -/
theorem test_loadPoint_closes :
    let s := (measured (.opened 0) .none false).onWmp fun w =>
      { w with marks :=
          [openMark .offband .hgr (.offband 15 .deviation) (-200) { kind := .offband, owner := 15, pinned := 0 }] }
    let t := after (.loadPoint asker { point := 11, station := 0, dist := 150000, kind := some .plateTemp, column := 7 }) s
    t.wmp.marks.map (fun m => (m.closedEnd, m.claims)) = [((150000 : Int) + s.line.nums.gOff, [])]
      ∧ (t.channel 15).run = .clear := by decide

theorem witness_ScanAndGradeLoads :
    (State.reset.handed = [] ∧ State.reset.Grants asker (.loadScan (List.replicate 10 15)))
    ∧ (let q := { asker with comm := 1, requester := 1, space := 4, present := 1 }
       4 ≤ q.space ∧ State.reset.authority q.comm q.requester = .level 0 ∧ State.reset.lsc.state = .stopped ∧ 1 ≤ q.present)
    ∧ (State.reset.Grants asker (.loadGrade { code := 24, grade := plainGrade })
      ∧ (∀ c, some c ∉ plainGrade.columns.toList) ∧ (∀ p ∈ State.reset.hgr.points.toList, p.grade ≠ 24)
      ∧ ∀ o ∈ State.reset.osq.slots.toList, o.order = none) := by
  refine ⟨⟨rfl, by decide, by decide⟩, by decide, ⟨by decide, by decide⟩, ?_, ?_, ?_⟩
  · intro c h
    simp [plainGrade] at h
  · intro p h
    simp [State.reset, Hgr.reset] at h
    simp [h, Point.cleared]
  · intro o h
    simp [State.reset, Osq.reset] at h
    simp [h, Slot.blank]

theorem witness_GradeTableIsKept : (inState .faulted).Inv ∧ (inState .faulted).Grants asker .lineReset :=
  ⟨inState_inv _ (by decide), by decide, by decide⟩

/-- The arguments of a LOAD_ORDER of slot 63 (R206). -/
def orderBytes : List Byte :=
  [63, 0, 0, 0, 1, 24, 19, 136, 0, 1, 1, 244, 7, 208, 1, 1, 1, 244, 2, 0, 100, 1, 243]

theorem test_readOrder : readOrder orderBytes = .whole 63 1 order := by decide

theorem witness_LoadOrderFillsItsSlot :
    State.reset.handed = [] ∧ State.reset.Grants asker (.loadOrder orderBytes)
      ∧ readOrder orderBytes = .whole 63 1 order ∧ (State.reset.slot 63).state = .empty
      ∧ ∀ j, (State.reset.slot j).state = .empty :=
  ⟨rfl, ⟨by decide, by decide⟩, test_readOrder, congrArg Slot.state (slot_reset _),
    fun _ => congrArg Slot.state (slot_reset _)⟩

/-- Slot 63 in a state, the queue holding given slots, slot 62 the candidate. -/
def queueing (x : SlotState) (queue : List Nat) : State :=
  { withOrder x with osq := { (withOrder x).osq with queue := queue, candidate := some 62 } }

/-- Slot 62 the candidate that leaves, slot 63 with its setting behind it, at a configured slitter distance. -/
def replacing (x : SlotState) (queue : List Nat) : State :=
  { (queueing x queue).onSlot 62 fun o => { o with state := .queued } with
    line := { LineConsts.default with nums := { LineConsts.default.nums with dSs := 80000 } } }

/-- The new candidate of such a state is preset: what `State.Forecasts` asks for there. -/
theorem witness_Forecasts (x : SlotState) (queue : List Nat) :
    let s := replacing x queue
    (some 63 : Option Nat) ≠ s.osq.candidate ∧ s.line.nums.dSs ≠ 0 ∧ s.chg.records = [] ∧ s.chg.expected = none
      ∧ s.chg.forecast = none ∧ (some 63 : Option Nat).bind s.settingOf = some order.tracks := by
  refine ⟨?_, nofun, rfl, rfl, rfl, ?_⟩
  · change (some 63 : Option Nat) ≠ some 62
    decide
  · cases x <;> rfl

theorem witness_WithdrawOrderBySlotState :
    let taken : Osq := { (queueing .queued [62, 63]).osq with queue := [62] }
    (State.reset.handed = [] ∧ State.reset.Grants asker (.withdrawOrder 64))
    ∧ (State.reset.Grants asker (.withdrawOrder 63) ∧ (State.reset.slot 63).state = .empty)
    ∧ ((withOrder .suspended).Grants asker (.withdrawOrder 63)
      ∧ ((withOrder .suspended).slot 63).state = .suspended)
    ∧ ((withOrder .short).Grants asker (.withdrawOrder 63) ∧ ((withOrder .short).slot 63).state = .short)
    ∧ ((queueing .queued [62, 63]).Grants asker (.withdrawOrder 63)
      ∧ ((queueing .queued [62, 63]).slot 63).state = .queued ∧ taken.nextCandidate = some 62
      ∧ (queueing .queued [62, 63]).osq.candidate.isSome = true)
    ∧ ((replacing .queued [62, 63]).Grants asker (.withdrawOrder 62)
      ∧ ((replacing .queued [62, 63]).slot 62).state = .queued
      ∧ ({ (replacing .queued [62, 63]).osq with queue := [63] } : Osq).nextCandidate = some 63
      ∧ (replacing .queued [62, 63]).osq.candidate.isSome = true) :=
  ⟨⟨rfl, by decide, by decide⟩, ⟨⟨by decide, by decide⟩, by decide⟩, ⟨⟨by decide, by decide⟩, by decide⟩,
    ⟨⟨by decide, by decide⟩, by decide⟩, ⟨⟨by decide, by decide⟩, by decide, by decide, rfl⟩,
    ⟨by decide, by decide⟩, by decide, by decide, rfl⟩

theorem witness_QueueAppendJoinsTheTail :
    (let s := queueing .loaded (List.replicate 31 62);
      s.handed = [] ∧ s.Grants asker (.queueAppend 63) ∧ (s.slot 63).state = .loaded ∧ s.osq.queue.length < 32
        ∧ s.checkOrder 63 = none ∧ s.osq.candidate.isSome = true
        ∧ ({ s.osq with queue := s.osq.queue ++ [63] } : Osq).nextCandidate = s.osq.candidate)
    ∧ (let s := replacing .loaded [];
      s.handed = [] ∧ s.Grants asker (.queueAppend 63) ∧ (s.slot 63).state = .loaded ∧ s.checkOrder 63 = none
        ∧ s.osq.candidate.isSome = true ∧ ({ s.osq with queue := [63] } : Osq).nextCandidate = some 63)
    ∧ (let s := withOrder .loaded;
      s.handed = [] ∧ s.Grants asker (.queueAppend 63) ∧ (s.slot 63).state = .loaded ∧ s.checkOrder 63 = none
        ∧ s.osq.candidate = none ∧ s.osq.queue = [] ∧ s.osq.rush = none ∧ s.osq.held = []
        ∧ s.osq.segments.length < 4 ∧ (∃ g, s.lead = some g ∧ g.order = none) ∧ (s.slot 63).order = some order) :=
  ⟨⟨rfl, ⟨by decide, by decide⟩, by decide, by decide, by decide, rfl, by decide⟩,
    ⟨rfl, ⟨by decide, by decide⟩, by decide, by decide, rfl, by decide⟩, rfl, ⟨by decide, by decide⟩, by decide, by decide, rfl, rfl, rfl, rfl, by decide, ⟨_, rfl, rfl⟩, by decide⟩

theorem witness_QueueRemoveTakesTheNamedEntry :
    (let s := queueing .queued [62, 63]
     s.handed = [] ∧ s.Grants asker (.queueRemove 1 63) ∧ s.osq.queue[1]? = some 63
      ∧ ({ s.osq with queue := s.osq.queue.eraseIdx 1 } : Osq).nextCandidate = s.osq.candidate
      ∧ s.osq.candidate.isSome = true)
    ∧ (let s := replacing .queued [62, 63]
       s.handed = [] ∧ s.Grants asker (.queueRemove 0 62) ∧ s.osq.queue[0]? = some 62
        ∧ ({ s.osq with queue := s.osq.queue.eraseIdx 0 } : Osq).nextCandidate = some 63 ∧ s.osq.candidate.isSome = true) :=
  ⟨⟨rfl, ⟨by decide, by decide⟩, rfl, rfl, rfl⟩, rfl, ⟨by decide, by decide⟩, rfl, rfl, rfl⟩

/-- Slot 63 LOADED behind four segments and two held orders. -/
def crowded : State :=
  { withOrder .loaded with osq := { (withOrder .loaded).osq with held := [1, 2], segments := List.replicate 4 bracketed } }

/-- Slot 63 LOADED, and slot 62 ON_WEB as the lead order with a target, in sheets of 5,000 from the front 0. -/
def leading (target : Nat) : State :=
  let s := (withOrder .loaded).onSlot 62 fun o => { o with state := .onWeb, order := some order }
  s.onOsq fun o => { o with segments := [{ bracketed with order := some 62, target := target, closing := none }] }

/-- Slot 63 LOADED behind four segments at a configured slitter distance. -/
def presetting : State :=
  { crowded with line := { LineConsts.default with nums := { LineConsts.default.nums with dSs := 5000000 } } }

theorem witness_InsertRushWaitsBehindFourSegments :
    (crowded.handed = [] ∧ crowded.Grants asker (.insertRush 63) ∧ (crowded.slot 63).state = .loaded
      ∧ crowded.osq.rush = none ∧ crowded.osq.held.length < 3 ∧ crowded.checkOrder 63 = none
      ∧ 4 ≤ crowded.osq.segments.length ∧ crowded.line.nums.dSs = 0 ∧ (crowded.slot 63).order = some order)
    ∧ (presetting.Grants asker (.insertRush 63) ∧ (presetting.slot 63).state = .loaded ∧ presetting.checkOrder 63 = none
      ∧ presetting.line.nums.dSs ≠ 0 ∧ presetting.chg.records = [] ∧ presetting.osq.candidate ≠ some 63
      ∧ presetting.chg.expected ≠ some order.tracks
      ∧ (presetting.chg.forecast.map fun f => f.2.setting) ≠ some order.tracks)
    ∧ ((withOrder .loaded).Grants asker (.insertRush 63) ∧ ∃ g, (withOrder .loaded).lead = some g ∧ g.order = none)
    ∧ ((leading 120).Grants asker (.insertRush 63) ∧ (leading 120).checkOrder 63 = none
      ∧ ((leading 120).lead.bind (leading 120).projectionOf) = some (leading 120).line.nums.dCreate)
    ∧ ((leading 121).Grants asker (.insertRush 63) ∧ (leading 121).checkOrder 63 = none
      ∧ ((leading 121).lead.bind (leading 121).projectionOf) = some ((leading 121).line.nums.dCreate + 5000)
      ∧ ((leading 121).lead.bind fun g => g.order) = some 62) :=
  ⟨⟨rfl, ⟨by decide, by decide⟩, by decide, rfl, by decide, by decide, by decide, rfl, by decide⟩,
    ⟨⟨by decide, by decide⟩, by decide, by decide, by decide, rfl, by decide, by decide, by decide⟩,
    ⟨⟨by decide, by decide⟩, _, rfl, rfl⟩, ⟨⟨by decide, by decide⟩, by decide, by decide⟩,
    ⟨by decide, by decide⟩, by decide, by decide, by decide⟩

theorem witness_FourSegmentsHoldCreation : 4 ≤ crowded.osq.segments.length := by decide

/-- One record in the log. -/
def logged : State := State.reset.log (.lineState .stopped .threading (.request 22))

theorem witness_ReadLogRemovesWhatItReturns :
    (logged.handed = [] ∧ logged.Grants asker (.readLog 1) ∧ logged.Grants asker (.readLog 8) ∧ logged.plg.records ≠ [])
      ∧ (State.reset.handed = [] ∧ State.reset.Grants asker (.readLog 0) ∧ State.reset.Grants asker (.readLog 9)
        ∧ State.reset.Grants asker (.readLog 8) ∧ State.reset.plg.records = []) :=
  ⟨⟨rfl, ⟨by decide, by decide⟩, ⟨by decide, by decide⟩, by decide⟩,
   rfl, ⟨by decide, by decide⟩, ⟨by decide, by decide⟩, ⟨by decide, by decide⟩, rfl⟩

theorem witness_LogModeSetsModeAndEmpties :
    logged.handed = [] ∧ logged.Grants asker (.logMode none true) ∧ logged.Grants asker (.logMode (some .halt) false) :=
  ⟨rfl, ⟨by decide, by decide⟩, by decide, by decide⟩

/-- The part STOPPED with the line master's FEED_COUNT and LINE_STATUS subscribed: every start check passes. -/
def ready : State :=
  let feed : SubCfg := { source := 2, kind := .feedCount, inst := 0, owner := .wtr, index := 0, reload := 10 }
  let status : SubCfg := { source := 2, kind := .lineStatus, inst := 0, owner := .lsc, index := 0, reload := 10 }
  let subs := put Irt.reset.subs 0 { cfg := some feed, counter := 10, fresh := true }
  { State.reset with
    irt := { stations := put Irt.reset.stations 0 (some { code := 2, role := .lineMaster, level := 2 }),
             subs := put subs 47 { cfg := some status, counter := 10, fresh := true } } }

theorem ready_inv : ready.Inv := by
  constructor
  · unfold Wtr.FeedOk; decide
  · unfold Wmp.MapOk; decide
  · unfold Osq.ListsOk; decide
  · unfold Chg.RecordsOk; decide
  · unfold Knp.PlansOk; decide
  · unfold Stk.QueueOk; decide
  · unfold Plg.LogOk; decide
  · unfold Rif.QueuesOk; decide
  · unfold Lsc.LatchOk; decide
  · unfold State.RequestOk; decide
  · unfold State.LineReasonOk; decide
  · rfl

theorem witness_StartsEnterTheirState :
    let purge := closedMark .purge .lsc .none (-500) 1000
    (ready.Inv ∧ ready.Grants asker .startThreading ∧ ready.Grants asker .startProduction ∧ ready.startCheck = none
      ∧ ready.wmp.valid = false ∧ ∀ m ∈ ready.wmp.marks, m.kind ≠ .purge)
    ∧ (∃ s : State, s.Inv ∧ s.Grants asker .startThreading ∧ s.startCheck = none ∧ s.wmp.valid = true)
    ∧ (∃ s : State, s.Inv ∧ s.Grants asker .startProduction ∧ s.startCheck = none ∧ s.wmp.valid = false
      ∧ s.wmp.marks = [] ++ purge :: [])
    ∧ purge.kind = .purge := by
  have h := ready_inv
  refine ⟨⟨h, ⟨by decide, by decide⟩, ⟨by decide, by decide⟩, by decide, rfl,
      by simp [ready, State.reset, Wmp.reset]⟩,
    ⟨ready.onWmp fun w => { w with valid := true }, ?_, ⟨by decide, by decide⟩, by decide, rfl⟩,
    ⟨ready.onWmp fun w => { w with marks := [closedMark .purge .lsc .none (-500) 1000] }, ?_, ⟨by decide, by decide⟩,
      by decide, rfl, rfl⟩, rfl⟩
  all_goals
    exact ⟨h.feed, by unfold Wmp.MapOk; decide, h.lists, h.changes, h.plans, h.setDowns, h.records, h.queues, h.latch,
      h.request, h.lineReason, h.handed⟩

theorem witness_HaltBringsTheLineDown :
    ((inState .producing).Inv ∧ (inState .producing).Grants asker .halt ∧ (inState .producing).lsc.status ≠ .stopped)
    ∧ (∃ s : State, s.Inv ∧ s.Grants asker .halt ∧ s.lsc.status = .stopped)
    ∧ ((inState .stopped).lsc.state = .stopped ∧ (inState .threading).lsc.state = .threading)
    ∧ ((inState .halting).lsc.state = .halting
      ∧ (inState .halting).line.nums.dwellFar ≤ (inState .halting).line.nums.dwellNear)
    ∧ ∃ s : State, s.lsc.state = .halting ∧ s.line.nums.dwellNear < s.line.nums.dwellFar
      ∧ defectCount s.wmp.marks < 32 := by
  have h := inState_inv .threading (by decide)
  refine ⟨⟨inState_inv _ (by decide), ⟨by decide, by decide⟩, by decide⟩,
    ⟨(inState .threading).onLsc fun l => { l with status := .stopped }, ?_, ⟨by decide, by decide⟩, rfl⟩, by decide,
    by decide, { inState .halting with
      line := { LineConsts.default with nums := { LineConsts.default.nums with dwellFar := 1 } } }, by decide, by decide,
      by decide⟩
  exact ⟨h.feed, h.map, h.lists, h.changes, h.plans, h.setDowns, h.records, h.queues, h.latch, h.request, h.lineReason,
    h.handed⟩

theorem witness_LineResetStopsTheLine :
    ((inState .faulted).Inv ∧ (inState .faulted).Grants asker .lineReset ∧ (inState .faulted).lsc.state = .faulted
      ∧ (inState .faulted).lsc.status ≠ .stopped)
    ∧ (ready.Inv ∧ ready.Grants asker .lineReset ∧ ¬(ready.lsc.state = .faulted ∧ ready.lsc.status ≠ .stopped)
      ∧ ready.knp.plans = [] ∧ ready.rif.urgent.length ≤ 12)
    ∧ ∃ s : State, s.Inv ∧ s.Grants asker .lineReset ∧ s.lsc.state = .faulted ∧ s.lsc.status = .stopped
      ∧ s.wmp.valid = true ∧ s.line.nums.dwellNear < s.line.nums.dwellFar ∧ defectCount s.wmp.marks ≤ 30 ∧ s.knp.plans ≠ []
      ∧ (s.stand 6).splice = .fault := by
  have h := inState_inv .faulted (by decide)
  let p : Plan :=
    { seq := 9, stop := 900, length := 5000, disp := .waste, reason := .noOrder, order := none, segment := 0,
      noted := false, diverted := false, late := false }
  refine ⟨⟨h, ⟨by decide, by decide⟩, rfl, by decide⟩, ⟨ready_inv, ⟨by decide, by decide⟩, by decide, rfl, by decide⟩,
    { withStand .faulted { Stand.cleared (some standCfg) with splice := .fault } with
      line := { LineConsts.default with nums := { LineConsts.default.nums with dwellFar := 1 } },
      lsc := { (inState .faulted).lsc with status := .stopped },
      wmp := { Wmp.reset with valid := true }, knp := { Knp.reset with plans := [p] } },
    ?_, ⟨by decide, by decide⟩, rfl, rfl, rfl, by decide, by decide, by simp, by decide⟩
  exact ⟨h.feed, h.map, h.lists, h.changes, by unfold Knp.PlansOk; decide, h.setDowns, h.records, h.queues, h.latch,
    h.request, h.lineReason, h.handed⟩

/-- Stand 7 RUNNING with a prepared spare and one unit above its trigger length. -/
def spared : State :=
  withStand .producing
    { Stand.cleared (some standCfg) with
      running := some (reel 5), remain := 100000001, spare := some { reel := reel 5, remain := 88357500 } }

theorem witness_ManualSpliceGoesAtOnce :
    (spared.Inv ∧ spared.Grants asker (.manualSplice 7)
      ∧ (let st := spared.stand 6
         st.cfg = some standCfg ∧ st.splice = .running
          ∧ st.spare.isSome = true ∧ st.demand = none ∧ standCfg.trig < st.remain ∧ st.claim = false)
      ∧ bandCode spared.wtr.band ≤ bandCode standCfg.band ∧ spared.jointOnMap 7 = false
      ∧ spared.holds .spliceBand 7 = false ∧ spared.holds .gradeNotReady 7 = false ∧ spared.rif.urgent.length < 16)
    ∧ (let ok (r : Reel) : Bool := 80 ≤ r.caliper ∧ r.caliper ≤ 900 ∧ r.diameter ≤ 30000 ∧ r.tube ≤ 30000
       let first := withStand .producing { Stand.cleared (some standCfg) with need := 9 }
       let low : Reel := { reel 9 with diameter := 10000 }
       let read := (first.reelDiameter 6 low).stand 6
       [reel 5, { reel 5 with caliper := 900, tube := 30000 }, { reel 5 with caliper := 79 }, { reel 5 with caliper := 901 },
         { reel 5 with diameter := 30001 }, { reel 5 with tube := 30001 }].map ok = [true, true, false, false, false, false]
       ∧ (spared.stand 6).cfg = some standCfg ∧ (spared.stand 6).running = some (reel 5) ∧ spared.rif.routine.length ≤ 40
       ∧ (first.stand 6).cfg = some standCfg ∧ (first.stand 6).running = none ∧ (first.stand 6).need ≠ 0
       ∧ read.remain ≤ standCfg.stop ∧ read.splice ≠ .splicing)
    ∧ (let faulted (cleared : Bool) : State :=
         withStand .producing { Stand.cleared (some standCfg) with splice := .fault, spareCleared := cleared }
       ∀ cleared, ((faulted cleared).stand 6).splice = .fault ∧ ((faulted cleared).stand 6).spareCleared = cleared) :=
  ⟨⟨inv_other (inState_inv .producing (by decide)) rfl rfl rfl rfl rfl rfl rfl rfl rfl rfl, ⟨by decide, by decide⟩,
    by decide, by decide, by decide, by decide, by decide, by decide⟩, by decide, by decide⟩

/-- PRODUCING, with a GOOD plan of a LENIENT order from -3,000 to 2,000, and a defect area full of lenient OFFBAND marks there. -/
def planned : State :=
  let s := inState .producing
  { s with
    osq := (withOrder .onWeb).osq,
    wmp := { s.wmp with marks := List.replicate 32 (closedMark .offband .hgr (.offband 3 .stale) (-4000) 9000), nextSeq := 7 },
    knp := { s.knp with
      plans := [{ seq := 5, stop := 2000, length := 5000, disp := .good, reason := .normal, order := some 63, segment := 0,
                  noted := true, diverted := false, late := false }],
      cutEdge := -3000, front := 2000 } }

/-- A cut-out diverts a GOOD plan under its own number, also where it is merged into a mark that it does not widen, and one that it
does not reach stays (R38, R200). -/
theorem test_cutoutDiverts :
    let t := after (.operatorCutout asker 1999 1) planned
    t.knp.plans.map (fun p => p.diverted) = [true]
      ∧ t.plg.records.map (fun r => r.body) = [.divert 5 .lateMark 7, .markMerged 0 7 .operator]
      ∧ (after (.operatorCutout asker 2000 1) planned).knp.plans.map (fun p => p.diverted) = [false] := by decide

theorem witness_OperatorCutoutIsMarked :
    (planned.Grants asker (.operatorCutout 1999 1)
      ∧ (planStarts planned.knp.cutEdge planned.knp.plans)[0]?.map (fun x => (x.1, x.2.disp, x.2.stop, x.2.diverted))
        = some (-3000, .good, 2000, false) ∧ planned.plg.mode = .wrap)
    ∧ (inState .producing).Inv ∧ (inState .producing).Grants asker (.operatorCutout (-100000) 1)
      ∧ (inState .producing).Grants asker (.operatorCutout 5000000 5000000)
      ∧ (inState .producing).rif.urgent.length ≤ 14 ∧ defectCount (inState .producing).wmp.marks < 32
      ∧ ∃ s : State, s.Inv ∧ s.Grants asker (.operatorCutout 0 1) ∧ s.rif.urgent.length ≤ 14
        ∧ ¬defectCount s.wmp.marks < 32 := by
  have h := inState_inv .producing (by decide)
  refine ⟨⟨⟨by decide, by decide⟩, by decide, rfl⟩, h, ⟨by decide, by decide⟩, ⟨by decide, by decide⟩, by decide, by decide,
    (inState .producing).onWmp fun w =>
      { w with marks := List.replicate 32 (closedMark .dwell .lsc .none 120000 60000) },
    ?_, ⟨by decide, by decide⟩, by decide, by decide⟩
  refine ⟨h.feed, ?_, h.lists, h.changes, h.plans, h.setDowns, h.records, h.queues, h.latch, h.request, h.lineReason,
    h.handed⟩
  exact ⟨List.pairwise_replicate.2 (.inr (Int.le_refl _)), by decide, by decide⟩

theorem witness_PortLinkChangeIsNoticed :
    State.reset.portUp .a = false ∧ State.reset.portUp .b = false ∧ State.reset.rif.portA ≠ true
      ∧ State.reset.rif.portB ≠ true := by decide

theorem witness_RingCycleIsTaken :
    ((inState .producing).Inv ∧ (readTelegram 1 (emptyCycle 0 0)).isSome = true ∧ (inState .producing).rif.cycle = none)
    ∧ (∃ (s : State) (t : Telegram), s.Inv ∧ s.rif.cycle = some 65535 ∧ readTelegram 1 (emptyCycle 0 0) = some t
      ∧ cycleStep 65535 t.cycle ≠ 0)
    ∧ (let m := boundaryMark 4 60000 0 0 none true 0
       (0 : Nat) < 59999 ∧ m.kind.isStructural = true ∧ m.claims = [] ∧ ((59999 : Nat) : Int) < m.closedEnd) := by
  have h := inState_inv .producing (by decide)
  refine ⟨⟨h, by decide, rfl⟩,
    ⟨(inState .producing).onRif fun r => { r with cycle := some 65535 }, _, ?_, rfl, rfl, by decide⟩, by decide⟩
  exact ⟨h.feed, h.map, h.lists, h.changes, h.plans, h.setDowns, h.records, h.queues, h.latch, h.request, h.lineReason, h.handed⟩

theorem witness_RepeatPassesThrough :
    ((readTelegram 1 (emptyCycle 255 255)).map fun t => t.cycle) = some 65535
      ∧ (State.reset.onRif fun r => { r with cycle := some 65535 }).rif.cycle = some 65535
      ∧ cycleStep 65535 65535 = 0 := by decide

/-- What leaves with a QUEUE_READ answered UNKNOWN_STATION in 6 bytes: the code 1, index 0, detail 0, and two bytes of 0
(R204). -/
theorem test_replyWritten : writeReply 6 (bare .unknownStation) = [replyNumber .unknownStation, 0, 0, 0, 0, 0] := by
  decide

theorem witness_BadTelegramPassesUntouched :
    bytesWellFormed [1, 0, 0, 0, 0] = false
    ∧ (let body : List Byte := [255, 255, 255, 0, 1, 9]
       writeInt 1 2 ++ writeInt 1 255 ++ writeInt 2 65535 ++ writeInt 2 (6 + body.length) ++ body
         = [2, 255, 255, 255, 0, 12, 255, 255, 255, 0, 1, 9]) := by decide

/-- A QUEUE_READ and a request of code 28 for the part, which has no code of its own, and one for station 9. -/
theorem witness_ManagementTelegramServesItsRequest :
    (∃ t it x, readTelegram 2 (requestOf 63 16 .nothing) = some t ∧ t.items = [it] ∧ it.payload = .request x ∧ it.inst ≤ 15
      ∧ x.dest = 63 ∧ x.replyCode = 0 ∧ it.length = 4 + x.argLength + 6 ∧ x.asked = .known .queueRead)
    ∧ (∃ t it x, readTelegram 2 (requestOf 63 28 .nothing) = some t ∧ t.items = [it] ∧ it.payload = .request x
      ∧ x.dest = 63 ∧ x.replyCode = 0 ∧ it.length = 4 + x.argLength + 6 ∧ x.asked = .unknown 28)
    ∧ (∃ t it x, readTelegram 2 (requestOf 9 16 .nothing) = some t ∧ t.items = [it] ∧ it.payload = .request x
      ∧ State.reset.isBadItem it = false ∧ x.dest = 9 ∧ State.reset.selfCode ≠ some 9) :=
  ⟨⟨_, _, _, rfl, rfl, rfl, by decide, rfl, rfl, rfl, rfl⟩, ⟨_, _, _, rfl, rfl, rfl, rfl, rfl, rfl, rfl⟩,
    ⟨_, _, _, rfl, rfl, rfl, rfl, rfl, by decide⟩⟩

/-- The part with the ring UP and the ring-loss timer running. -/
def heard (x : LineState) : State := (inState x).onRif fun r => { r with ring := .up, timer := some 5000 }

theorem heard_inv (x : LineState) (h : x ≠ .stopped) : (heard x).Inv := by
  have k := inState_inv x h
  refine ⟨k.feed, k.map, k.lists, k.changes, k.plans, k.setDowns, k.records, k.queues, k.latch, ?_, k.lineReason, k.handed⟩
  cases x <;> (unfold State.RequestOk; decide)

theorem witness_RingLossStopsTheLine :
    ((heard .producing).Inv ∧ (heard .producing).rif.ring = .up ∧ (heard .producing).rif.timer = some 5000
      ∧ (heard .producing).lsc.latch = none)
    ∧ ((heard .faulted).Inv ∧ (heard .faulted).lsc.latch.isSome = true)
    ∧ ((inState .producing).Inv ∧ (inState .producing).rif.ring ≠ .up ∧ (inState .producing).rif.timer = none) :=
  ⟨⟨heard_inv _ (by decide), rfl, rfl, rfl⟩, ⟨heard_inv _ (by decide), rfl⟩, inState_inv _ (by decide), by decide, rfl⟩

/-- The Changeover Unit at a configured slitter distance. -/
def changing (f : Chg → Chg) : State :=
  { State.reset with
    line := { LineConsts.default with nums := { LineConsts.default.nums with dSs := 80000 } }, chg := f Chg.reset }

/-- A changeover record of station A. -/
def change (status : ChangeStatus) : ChangeRec :=
  { boundary := 4, preset := { id := 1, setting := [] }, target := some .a, zoneEnd := 0, status := status }

theorem witness_SwapTimeoutBlocksSwaps :
    let held : Preset := { id := 1, setting := [] }
    State.reset.chg.timer = 0
    ∧ (let s := changing fun c => { c with timer := 1, records := [change .swapping] }
       s.chg.timer ≠ 0 ∧ s.chg.records = change .swapping :: [] ∧ s.line.nums.dSs ≠ 0 ∧ s.chg.changeover = none
        ∧ s.wmp.marks = [])
    ∧ (let s := changing fun c => { c with timer := 1, records := [change .swapping], changeover := some .a }
       s.chg.timer ≠ 0 ∧ s.chg.records = change .swapping :: [] ∧ s.chg.changeover.isSome = true)
    ∧ (let s := changing fun c => { c with stateA := .working, stateB := .working }
       s.chg.stateOf .a = .working ∧ s.chg.stateOf .b = .working)
    ∧ (let s := changing fun c => { c with records := [change .swapping], engaged := some .b, changeover := some .a }
       s.chg.stateOf .b ≠ .working ∧ s.chg.records = change .swapping :: [] ∧ s.chg.engaged ≠ some .a
        ∧ s.chg.changeover = some .a ∧ s.chg.causeOf .a ≠ .untilWorking)
    ∧ (let s := changing fun c => { c with records := [change .crossed], heldA := some held }
       s.chg.stateOf .b ≠ .working ∧ s.chg.records = change .crossed :: [] ∧ s.chg.stateOf .a ≠ .working
        ∧ (s.chg.heldOf .a).map (fun p => p.id) = some (change .crossed).preset.id)
    ∧ (let s := changing fun c => { c with stateA := .working, engaged := some .a, records := [change .swapping] }
       s.chg.stateOf .b ≠ .working ∧ s.chg.engaged = some .a ∧ s.chg.stateOf .a = .working ∧ s.line.nums.dSs ≠ 0
        ∧ s.chg.causeOf .a = .none ∧ s.rif.routine.length ≤ 40)
    ∧ (let s := changing fun c => { c with stateA := .working, engaged := some .a, records := [change .crossed] }
       (s.chg.engaged = some .a ∧ s.chg.stateOf .a = .working ∧ ∀ r ∈ s.chg.records, r.status ≠ .swapping))
    ∧ (let s := changing fun c => { c with stateA := .fault, engaged := some .a, heldA := some held, causeA := .untilWorking }
       s.chg.stateOf .b ≠ .working ∧ s.chg.engaged = some .a ∧ s.chg.stateOf .a ≠ .working ∧ s.chg.records = []
        ∧ s.chg.heldOf .a = some held ∧ s.chg.causeOf .a = .untilWorking ∧ s.chg.changeover ≠ some .a)
    ∧ (let s := changing fun c => { c with stateA := .fault, engaged := some .a }
       s.chg.engaged = some .a ∧ s.chg.stateOf .a ≠ .working ∧ s.chg.records = [] ∧ s.chg.heldOf .a = none)
    ∧ (let s := changing fun c => { c with engaged := some .b, heldA := some held }
       s.chg.stateOf .b ≠ .working ∧ s.chg.engaged ≠ some .a ∧ s.chg.stateOf .a ≠ .working ∧ s.chg.records = []
        ∧ s.chg.heldOf .a = some held ∧ s.rif.routine.length ≤ 40)
    ∧ (let s := changing fun c => { c with records := [change .crossed] }
       s.chg.stateOf .b ≠ .working ∧ s.chg.engaged ≠ some .a ∧ s.chg.stateOf .a ≠ .working
        ∧ s.chg.records = change .crossed :: [] ∧ (change .crossed).target = some .a ∧ (change .crossed).status ≠ .swapping
        ∧ (s.chg.heldOf .a).map (fun p => p.id) ≠ some (change .crossed).preset.id ∧ s.chg.heldOf .a = none
        ∧ s.line.nums.dSs ≠ 0 ∧ s.rif.routine.length ≤ 40) := by
  refine ⟨rfl, ?_, ?_, ?_, ?_, ?_, ?_, ?_, ?_, ?_, ?_, ?_⟩ <;> decide

/-- A confirmed target that reported PARKED during the swap keeps E (R82). -/
theorem test_confirmedKeepsExpected :
    let s := changing fun c => { c with records := [change .swapping], engaged := some .b, expected := some [] }
    let t := s.slitterEvent (some .working) none
    t.chg.expected = some [] ∧ t.chg.engaged = some .a ∧ t.chg.records = [] := by decide

/-- Where one telegram has A working unplanned and B confirming its record, B makes no unplanned engagement (R82, R84). -/
theorem test_confirmedIsNotUnplanned :
    let s := changing fun c => { c with records := [{ change .swapping with target := some .b }], engaged := none, expected := some [] }
    let t := s.slitterEvent (some .working) (some .working)
    t.chg.engaged = some .a ∧ t.rif.routine.countP (fun o => o == .notice .slitterUnplanned) = 1
      ∧ t.handed = [{ code := .slitterConflict, detail := .one 0 }] := by decide

/-- Stand 7 as given, needing the paper 9 for the order of slot 63, which leads up to boundary 4 far above the stand. -/
def papered (st : Stand) : State :=
  { withOrder .onWeb with
    hgr := { Hgr.reset with grades := put Hgr.reset.grades 23 (some { plainGrade with papers := put plainGrade.papers 6 9 }) },
    osq := { (withOrder .onWeb).osq with segments := [{ bracketed with order := some 63 }] },
    wmp := { Wmp.reset with marks := [boundaryMark 4 5020000 0 0 none true 0] },
    spl := { stands := put Spl.reset.stands 6 st } }

/-- Stand 7 SPLICING for the demand of boundary 4, with a spare of a paper. -/
def splicingStand (paper : Nat) : Stand :=
  { Stand.cleared (some standCfg) with
    splice := .splicing, reason := some .grade, timer := 1, spare := some { reel := reel paper, remain := 88357500 },
    demand := some { paper := paper, boundary := some 4 }, need := 9 }

theorem witness_SpliceTimeoutFailsTheSplice :
    ((spared.Inv ∧ (spared.stand 6).splice ≠ .splicing)
      ∧ ∃ s : State, s.Inv ∧ (s.stand 6).splice = .splicing)
    ∧ ((spared.stand 6).cfg.isSome = true ∧ ((papered (splicingStand 5)).stand 6).splice = .splicing)
    ∧ (let s := papered (splicingStand 5)
       (s.stand 6).cfg = some standCfg ∧ s.jointOnMap 7 = false ∧ (s.stand 6).need ≠ 0 ∧ some 5 ≠ some (s.stand 6).need
        ∧ (s.stand 6).claim = false ∧ defectCount s.wmp.marks < 31 ∧ s.wmp.marks.all (fun m => m.claims.isEmpty) = true
        ∧ (∃ m, s.findBoundary 4 = some m ∧ m.payload = .boundary 0 none true 0
          ∧ ((standCfg.dist + standCfg.joint : Nat) : Int) < m.start)
        ∧ ((s.osq.segments.find? fun g => g.num == 0).bind fun g => g.order) = some 63 ∧ s.paperFor (some 63) 6 = 9)
    ∧ (let s := papered { splicingStand 9 with claim := true }
       (s.stand 6).need = 9 ∧ (s.stand 6).claim = true ∧ (s.stand 6).spare.map (fun x => x.reel.paper) = some 9)
    ∧ (let m := closedMark .splice .spl (.splice 7 .runout none) 400 3000
       let s := (papered (splicingStand 5)).onWmp fun w => { w with marks := [m] }
       s.wmp.marks = [] ++ m :: [] ∧ m.isJointOf 7 = true ∧ m.claims = [])
    ∧ (let s := papered { splicingStand 5 with running := some (reel 5) }
       (s.stand 6).paper = some 5 ∧ s.paperFor (some 63) 6 = 9 ∧ (s.stand 6).claim = false)
    ∧ (let s := papered { splicingStand 5 with running := some (reel 9), claim := true }
       (s.stand 6).paper = some 9 ∧ s.paperFor (some 63) 6 = 9 ∧ (s.stand 6).claim = true) :=
  ⟨⟨⟨witness_ManualSpliceGoesAtOnce.1.1, by decide⟩,
    withStand .producing { Stand.cleared (some standCfg) with splice := .splicing, timer := 1 },
    inv_other (inState_inv .producing (by decide)) rfl rfl rfl rfl rfl rfl rfl rfl rfl rfl, by decide⟩,
    by decide, ⟨by decide, by decide, by decide, by decide, by decide, by decide, by decide,
      ⟨boundaryMark 4 5020000 0 0 none true 0, by decide, by decide, by decide⟩, by decide, by decide⟩,
    by decide, by decide, by decide, by decide⟩

/-- The clauses on the timers: a SPLICING stand with its timer at 0, one with it at 1, and a stand in FAULT. -/
theorem witness_SpliceTimeoutFailsTheSplice_timers :
    let stand (x : SpliceState) (n : Nat) : Stand :=
      (withStand .producing { Stand.cleared (some standCfg) with splice := x, timer := n }).stand 6
    ((stand .splicing 0).splice = .splicing ∧ (stand .splicing 0).timer = 0)
    ∧ (stand .splicing 1).timer ≠ 0 ∧ (stand .fault 0).splice ≠ .splicing := by decide

set_option maxRecDepth 8000 in
/-- Section 5.9: the splice is sent at cycle 480 with its timer at 2,000 after that telegram, and the timer stands at 1,980 after
cycle 500. -/
theorem test_spliceTimer_counts_from_the_next_cycle :
    let st : Stand :=
      { Stand.cleared (some { standCfg with timeout := 2000 }) with
        splice := .due, demand := some { paper := 530, boundary := some 7 }, need := 412 }
    let s := withStand .producing st
    let sent := runEvents [fun s => s.tickTimers 0, fun s => s.spareReport 6 (.prepared (reel 530)), fun s => s.timersDue] s
    (sent.stand 6).splice = .splicing ∧ (sent.stand 6).timer = 2000
      ∧ (((sent.tickTimers 19).timersDue).stand 6).timer = 1980 := by
  decide

theorem witness_FreshnessLapseMakesTheSourceStale :
    ready.Inv
    ∧ (ready.irt.subs[1].fresh = false ∧ ready.irt.subs[1].cfg = none)
    ∧ (∀ kind index, (sourced kind index).Inv ∧ (sourced kind index).irt.subs[0].fresh = true
      ∧ ∃ c, (sourced kind index).irt.subs[0].cfg = some c ∧ c.kind = kind ∧ c.index = index)
    ∧ ((sourced .reelDiameter 7).stand (7 - 1)).cfg.isSome = true
    ∧ (let x := cycleOf 1 (.report (.feedCount 25))
       let before (cycle inst : Nat) : State :=
         let c : SubCfg := { source := 2, kind := .feedCount, inst := inst, owner := .wtr, index := 0, reload := 10 }
         { State.reset with
           rif := { Rif.reset with cycle := some cycle },
           irt := { Irt.reset with subs := put Irt.reset.subs 47 { cfg := some c, counter := 2, fresh := true } } }
       let heard (t : Telegram) (s : State) : Bool := t.items.any fun it =>
         itemMalformed it = false ∧ s.selfCode ≠ some it.source ∧ (s.subscriptions.any fun c =>
           it.source = c.source ∧ payloadKind it.payload = some c.kind ∧ it.inst = c.inst)
       ∃ t, readTelegram 1 x = some t ∧ cycleStep 257 t.cycle = 1 ∧ cycleStep 256 t.cycle = 2
         ∧ (before 257 3).rif.cycle = some 257 ∧ heard t (before 257 3) = true ∧ heard t (before 256 4) = false
         ∧ State.reset.rif.cycle = none ∧ heard t State.reset = false) :=
  ⟨ready_inv, by decide,
    fun _ _ => ⟨inv_other ready_inv rfl rfl rfl rfl rfl rfl rfl rfl rfl rfl, rfl, _, rfl, rfl, rfl⟩, by decide,
    _, rfl, by decide, by decide, by decide, by decide, by decide, by decide, by decide⟩

theorem witness_RefreshRepeatsTheSpeedRequest :
    let o : OutItem := .speedRequest .stop none .crawl 0 .change
    let urgent (l : List OutItem) : State := State.reset.onRif fun r => { r with urgent := l }
    ((urgent [o]).handed = [] ∧ (urgent [o]).rif.urgent.any isSpeedRequest = true)
    ∧ ((urgent (List.replicate 15 .cutPlanClear)).rif.urgent.any isSpeedRequest = false
      ∧ (urgent (List.replicate 15 .cutPlanClear)).rif.urgent.length < 16)
    ∧ ((urgent (List.replicate 16 .cutPlanClear)).rif.urgent.any isSpeedRequest = false
      ∧ 16 ≤ (urgent (List.replicate 16 .cutPlanClear)).rif.urgent.length) := by decide

/-- A SENT head under a READY stacker that reports a number. -/
def stacked (tracked : Nat) : State :=
  State.reset.onStk fun k =>
    { k with
      queue := [{ slot := 6, number := 8812, ordinal := 7, cuts := 40, final := false }], head := .sent 20 1,
      state := .ready, tracked := tracked }

theorem witness_StackCommandGoesAgain :
    let setDown : SetDown := { slot := 6, number := 8812, ordinal := 8, cuts := 12, final := true }
    ((stacked 19).handed = [] ∧ (stacked 19).stk.queue ≠ [] ∧ (stacked 19).stk.head = .sent 20 1
      ∧ (stacked 19).stk.state = .ready ∧ (stacked 19).stk.tracked ≠ 20 ∧ (stacked 19).rif.routine.length < 48)
    ∧ (State.reset.stk.queue = [] ∧ (stacked 20).stk.head = .sent (stacked 20).stk.tracked 1)
    ∧ (stacked 19).rif.routine.length < 46
    ∧ (∀ head queue overflow,
      let s := (stacked 19).onStk fun k => { k with head := head, queue := queue, overflow := overflow }
      s.stk.head = head ∧ s.stk.queue = queue ∧ s.stk.overflow = overflow ∧ s.rif.routine.length < 46)
    ∧ ([] ++ (some setDown).toList = setDown :: [] ∧ ([] : List SetDown) ++ (none : Option SetDown).toList = []) :=
  ⟨by decide, by decide, by decide, fun _ _ _ => ⟨rfl, rfl, rfl, Nat.zero_lt_succ 45⟩, rfl, rfl⟩

/-- Sent again under its number. -/
theorem test_stackCommandGoesAgain :
    (match exec .stackCommandResend (stacked 19) with
      | .next t => t.rif.routine
      | _ => []) = [.stackCommand 0 20 8812 7 40 false] := by decide

theorem witness_SettleEndClearsTheTimer :
    let coded (g : Nat) : State :=
      { (measured .clear .none false).onPoint 11 fun p => { p with grade := g } with osq := (withOrder .onWeb).osq }
    (State.reset.point 0).cfg = none
    ∧ (∃ c, ((coded 24).point 11).cfg = some c ∧ ((coded 24).point 11).grade ≠ 0
      ∧ ((coded 24).columnOf ((coded 24).point 11)).isSome = true)
    ∧ (((coded 1).point 11).grade ≠ 0 ∧ (coded 1).columnOf ((coded 1).point 11) = none)
    ∧ (((coded 24).point 11).grade = (coded 24).gradeCode 63 ∧ ((coded 1).point 11).grade ≠ (coded 1).gradeCode 63
      ∧ ((coded 24).columnOf (((coded 1).onPoint 11 fun p => { p with grade := (coded 1).gradeCode 63 }).point 11)).isSome
        = true)
    ∧ (((coded 24).point 11).grade ≠ (coded 24).gradeCode 0
      ∧ (coded 24).columnOf (((coded 24).onPoint 11 fun p => { p with grade := (coded 24).gradeCode 0 }).point 11) = none)
    ∧ (measured .clear .none false).hgr.scan[(measured .clear .none false).hgr.position]? = some 15
    ∧ (State.reset.channel 0).cfg = none
    ∧ ∀ run raw stale,
      let s := measured run (.valid raw) stale
      (s.channel 15).run = run ∧ (s.channel 15).reading = .valid raw ∧ (s.channel 15).stale = stale
        ∧ s.channelHears 15 = true ∧ ((s.channel 15).cfg.map fun k => (k.point, k.confirm)) = some (11, 2)
        ∧ ((s.point 11).cfg.map fun c => c.dist) = some 150000 ∧ s.columnOf (s.point 11) = some column
        ∧ defectCount s.wmp.marks < 32 ∧ s.rif.routine.length < 48 ∧ s.wmp.marks = [] := by
  refine ⟨by decide, ⟨_, rfl, by decide, by decide⟩, by decide, by decide, by decide, rfl, by decide, ?_⟩
  exact fun _ _ _ => ⟨rfl, rfl, rfl, rfl, rfl, rfl, rfl, Nat.zero_lt_succ 31, Nat.zero_lt_succ 47, rfl⟩

/-- The second failure in a row opens the zone where the first one was measured, and a pass in SUSPECT clears it (R120,
R121). -/
theorem test_evaluate :
    let s := measured (.suspect 1 700) (.valid 0) false
    (s.evaluate 15).wmp.marks.map (fun m => (m.start, m.claims))
        = [((150000 : Int) - 700 - s.line.nums.gOff,
            [{ kind := .offband, owner := 15, pinned := (150000 : Int) + s.line.nums.gOff }])]
      ∧ (((measured (.suspect 1 700) (.valid 2595) false).evaluate 15).channel 15).run = .clear := by decide

theorem witness_EncoderDebtLosesNoCount :
    (settleDebt 255 0).reverse = none ∧ (settleDebt 255 (-1)).reverse = some 256 ∧ (255 : Nat) ≤ 255 := by decide

theorem witness_AdvancesDoNotDrift :
    (65535 : Nat) < 65536 ∧ feedRun 80000 0 [61, 61, 61] = (223, 25472) := by decide

theorem witness_HistoryHoldsSixteenCycles : State.reset.wtr.FeedOk := by
  unfold Wtr.FeedOk
  decide

theorem witness_BandMovesOneStep :
    let s := State.reset.onWtr fun w => { w with history := List.replicate 16 55, fill := 16, speedSum := 880, band := .mid }
    (s.takeHistory 0 55).wtr.speedSum = 880 ∧ bandAfter s.line.nums 880 s.wtr.band = .high := by decide

theorem witness_RequestIsTheMostRestrictive :
    let l : List Raised :=
      [{ reason := .threading, inst := 0, req := .limitCrawl }, { reason := .spliceBand, inst := 2, req := .limitLow },
       Raised.stoppedState]
    strongest l = .stop ∧ governingOf l = some (.stoppedState, 0) ∧ strongest [] = .noLimit
      ∧ l.Pairwise fun x y => x.before y = true := by decide

theorem witness_FirstFaultIsLatched :
    State.reset.lsc.latch = none
    ∧ ((inState .faulted).lsc.latch.isSome = true ∧ (inState .faulted).lsc.seen.contains .ringLost = false)
    ∧ (((inState .faulted).onLsc fun l => { l with seen := [.ringLost] }).lsc.latch.isSome = true
      ∧ ((inState .faulted).onLsc fun l => { l with seen := [.ringLost] }).lsc.seen.contains .ringLost = true)
    ∧ losesWeb .encoderLost = true := by
  decide

theorem witness_MarksStandInOrder :
    (bracketing 0 .strict).wmp.marks.Pairwise fun x y => x.start ≤ y.start := by decide

/-- A full defect area. -/
def full : State :=
  { State.reset with wmp := { Wmp.reset with
      marks := List.replicate 32 (closedMark .dwell .lsc .none 120000 60000) } }

theorem witness_NoDefectIsLost :
    (State.reset.wmp.MapOk ∧ full.wmp.MapOk) ∧ MarkKind.isStructural .operator = false
      ∧ (closedMark .operator .mgr (.operator 21) 50000 5000).claims = [] := by
  refine ⟨⟨?_, ?_⟩, rfl, rfl⟩
  · unfold Wmp.MapOk; decide
  · unfold Wmp.MapOk
    refine ⟨List.pairwise_replicate.2 (.inr (Int.le_refl _)), ?_, by decide⟩
    decide

theorem witness_GoodSheetsAvoidBlockingZones :
    ((bracketing 48000 .strict).decideSheet bracketed).disp = .good := by
  rw [test_bracket_good]

/-- One plan outstanding, or one withdrawn. -/
def knife (plans : List Plan) (withdrawn : List Withdrawn) (sent : Bool) : State :=
  (withOrder .onWeb).onKnp fun k => { k with plans := plans, withdrawn := withdrawn, planSent := sent }

/-- A good plan of slot 63. -/
def plan : Plan :=
  { seq := 65535, stop := 900, length := 5000, disp := .good, reason := .normal, order := some 63, segment := 0,
    noted := true, diverted := false, late := false }

theorem witness_CutDoneConfirmsTheOldestPlan :
    ((knife [plan] [] true).knp.plans = plan :: [] ∧ plan.seq = 65535 ∧ plan.order = some 63)
    ∧ ((knife [plan] [] true).knp.plans = plan :: [] ∧ plan.seq ≠ 0)
    ∧ ((knife [] [{ seq := 7, stop := 900, length := 5000 }] true).knp.plans = []
      ∧ ((knife [] [{ seq := 7, stop := 900, length := 5000 }] true).knp.withdrawn.find? fun x => x.seq == 7).isSome = true
      ∧ ∀ w ∈ (knife [] [{ seq := 7, stop := 900, length := 5000 }] true).knp.withdrawn, w.seq ≠ 8) := by decide

/-- A cut 30 too long is within the miscut tolerance, and counts good and noted (R138). -/
theorem test_cutDone_counts :
    plan.outcome 30 30 = .goodNoted ∧ plan.outcome 30 31 = .miscut ∧ plan.outcome 30 (-31) = .miscut := by decide

/-- Slot 63 at a stack count, with set-downs waiting. -/
def piling (count : Nat) (queue : List SetDown) (overflow : Option SetDown) : State :=
  (withOrder .onWeb).onStk fun k =>
    { k with piles := put k.piles 63 { count := count, next := 66036 }, queue := queue, overflow := overflow }

/-- A set-down of another order. -/
def setDown : SetDown := { slot := 0, number := 2, ordinal := 1, cuts := 40, final := false }

theorem witness_FullStackMakesASetDown :
    ((piling 1998 [] none).slot 63).order = some order
    ∧ ((piling 1998 [] none).pile 63).count + 1 ≠ order.perStack
    ∧ (((piling 1999 [setDown] none).pile 63).count + 1 = order.perStack
      ∧ (piling 1999 [setDown] none).stk.queue.length ≤ 1)
    ∧ (2 ≤ (piling 1999 [setDown, setDown] none).stk.queue.length
      ∧ (piling 1999 [setDown, setDown] none).stk.overflow = none)
    ∧ (2 ≤ (piling 1999 [setDown, setDown] (some setDown)).stk.queue.length
      ∧ (piling 1999 [setDown, setDown] (some setDown)).stk.overflow.isSome = true) := by decide

/-- A full log in a mode. -/
def fullLog (mode : LogMode) : State :=
  State.reset.onPlg fun p =>
    { p with mode := mode, records := List.replicate 512 { number := 0, stamp := 0, body := .swap 0 .a 0 } }

theorem witness_LogKeepsTheNewestOrTheOldest :
    (State.reset.plg.records.length < 512 ∧ State.reset.plg.LogOk)
    ∧ (512 ≤ (fullLog .wrap).plg.records.length ∧ (fullLog .wrap).plg.mode = .wrap ∧ (fullLog .wrap).plg.LogOk)
    ∧ (512 ≤ (fullLog .halt).plg.records.length ∧ (fullLog .halt).plg.mode = .halt) := by
  have h : ∀ m, (fullLog m).plg.records.length = 512 := fun m => List.length_replicate
  exact ⟨⟨by decide, by decide, by decide⟩, ⟨Nat.le_of_eq (h _).symm, rfl, Nat.le_of_eq (h _), by decide⟩,
    Nat.le_of_eq (h _).symm, rfl⟩

theorem witness_NewestSetpointReplacesTheWaitingOne :
    let o : OutItem := .setpoint 3 9 .glueGap 1 .low .idle none
    let n : OutItem := .notice .encoderJump
    let waiting (l : List OutItem) : State := State.reset.onRif fun r => { r with routine := l }
    ((waiting [o]).rif.OneEach ∧ ∃ x ∈ (waiting [o]).rif.routineItems, replaces o x = true)
    ∧ ((waiting (List.replicate 47 n)).rif.routine.length < 48
      ∧ ∀ x ∈ (waiting (List.replicate 47 n)).rif.routineItems, replaces o x = false)
    ∧ (let jammed (w : Option OutItem) : State :=
         State.reset.onRif fun r => { r with routine := List.replicate 48 .cutPlanClear, overflow := w }
       (∀ w, 48 ≤ (jammed w).rif.routine.length ∧ (jammed w).rif.routine.any isNotice = false)
       ∧ (jammed none).rif.OneEach ∧ (jammed (some .cutPlanClear)).rif.OneEach
       ∧ ∀ x ∈ (jammed (some .cutPlanClear)).rif.routineItems, replaces o x = false)
    ∧ ((waiting (List.replicate 48 n)).rif.OneEach
      ∧ (∀ x ∈ (waiting (List.replicate 48 n)).rif.routineItems, replaces o x = false ∧ replaces n x = false)
      ∧ 48 ≤ (waiting (List.replicate 48 n)).rif.routine.length
      ∧ (waiting (List.replicate 48 n)).rif.routine.any isNotice = true ∧ isNotice o = false ∧ isNotice n = true) := by
  refine ⟨⟨by unfold Rif.OneEach; decide, by decide⟩, ⟨by decide, ?_⟩,
    ⟨fun _ => ⟨Nat.le_refl _, by simp [State.onRif, isNotice]⟩, ?_, ?_, ?_⟩, ?_, ?_, by decide, by decide, rfl, rfl⟩
  · intro x h
    simp [Rif.routineItems, State.onRif, State.reset, Rif.reset] at h
    subst h
    rfl
  · simp [Rif.OneEach, Rif.routineItems, State.onRif, replaces]
  · simp [Rif.OneEach, Rif.routineItems, State.onRif, replaces]
  · intro x h
    simp [Rif.routineItems, State.onRif] at h
    subst h
    rfl
  · simp [Rif.OneEach, Rif.routineItems, State.onRif, State.reset, Rif.reset, replaces]
  · intro x h
    simp [Rif.routineItems, State.onRif, State.reset, Rif.reset] at h
    subst h
    exact ⟨rfl, rfl⟩

end Sys2Proof.Tests
end

section
namespace Sys2Proof.Machine

/-! ### The invariant as a property that the operations keep -/

/-- The invariant's clauses on the web, the orders and the plans. -/
def State.WebSound (s : State) : Prop :=
  s.wtr.FeedOk ∧ s.wmp.MapOk ∧ s.osq.ListsOk ∧ s.chg.RecordsOk ∧ s.knp.PlansOk ∧ s.stk.QueueOk

/-- The invariant's clauses on the log, the ring and the line, but for the faults handed. -/
def State.LineSound (s : State) : Prop :=
  s.plg.LogOk ∧ s.rif.QueuesOk ∧ s.lsc.LatchOk ∧ s.RequestOk ∧ s.LineReasonOk

/-- What every operation keeps of the invariant, in the middle of an event too. -/
def State.Sound (s : State) : Prop := s.WebSound ∧ s.LineSound

theorem Loads.sound : Loads State.Sound :=
  (Loads.feedState.and (Loads.mapForm.and (Loads.orderLists.and (Loads.changeRecords.and
    (Loads.planQueue.and Loads.setDownQueue))))).and
  (Loads.logTable.and (Loads.outbound.and (Loads.latch.and (Loads.request.and Loads.lineReason))))

theorem inv_iff {s : State} : s.Inv ↔ s.Sound ∧ s.handed = [] := by
  constructor
  · exact fun h => ⟨⟨⟨h.feed, h.map, h.lists, h.changes, h.plans, h.setDowns⟩,
      ⟨h.records, h.queues, h.latch, h.request, h.lineReason⟩⟩, h.handed⟩
  · rintro ⟨⟨⟨feed, map, lists, changes, plans, setDowns⟩, ⟨records, queues, latch, request, lineReason⟩⟩, handed⟩
    exact ⟨feed, map, lists, changes, plans, setDowns, records, queues, latch, request, lineReason, handed⟩

theorem State.Sound.latchOk {s : State} (h : s.Sound) : s.lsc.LatchOk := h.2.2.2.1

/-! ### Faults handed between commands (R168) -/

/-- A NOTICE that finds no room is discarded without a fault (R186). -/
@[simp] theorem notify_handed (s : State) (n : Notice) : (s.notify n).handed = s.handed := by
  unfold State.notify State.queueRoutine
  repeat' split
  all_goals simp_all [isNotice]

@[simp] theorem leave_handed (s : State) (p : RingPort) (l : List Byte) : (s.leave p l).handed = s.handed := rfl

@[simp] theorem linkChange_handed (s : State) (p : RingPort) (b : Bool) : (s.linkChange p b).handed = s.handed := by
  unfold State.linkChange
  split <;> simp

@[simp] theorem badTelegram_handed (s : State) (p : RingPort) (l : List Byte) :
    (s.badTelegram p l).handed = s.handed := by simp [State.badTelegram]

@[simp] theorem noticeBadItem_handed (s : State) (l : List Item) : (s.noticeBadItem l).handed = s.handed := by
  unfold State.noticeBadItem
  repeat' split
  all_goals simp

@[simp] theorem ringHeard_handed (s : State) : s.ringHeard.handed = s.handed := by simp [State.ringHeard]

@[simp] theorem appendItems_handed (s : State) (p : RingPort) (t : Telegram) :
    (s.appendItems p t).handed = s.handed := rfl

/-- Line State Control takes what each event hands when it is over. -/
theorem runEvents_handed (l : List (State → State)) {s : State} (h : s.handed = []) : (runEvents l s).handed = [] := by
  induction l generalizing s with
  | nil => exact h
  | cons f l ih => exact ih (takeFaults_handed _)

theorem ringCycle_handed {s : State} (p : RingPort) (t : Telegram) (n : Nat) (h : s.handed = []) :
    (s.ringCycle p t n).handed = [] := by
  refine runEvents_handed _ ?_
  rw [appendItems_handed]
  exact runEvents_handed _ (by simpa using h)

theorem cycleArrives_handed {s : State} (p : RingPort) (x : Arrival) (h : s.handed = []) :
    (s.cycleArrives p x).handed = [] := by
  unfold State.cycleArrives State.takeCycle
  split
  · split
    · exact ringCycle_handed _ _ _ h
    · split
      · simpa [State.repeatCycle] using h
      · exact ringCycle_handed _ _ _ h
  · simpa using h

theorem ringLost_handed {s : State} (h : s.handed = []) : s.ringLost.handed = [] := by
  unfold State.ringLost
  split
  · exact takeFaults_handed _
  · exact h

theorem serve_handed {s : State} (q : Asker) (r : Request) (f : State → State × Reply) (h : s.handed = []) :
    (s.serve q r f).1.handed = [] := by
  unfold State.serve
  split
  · exact h
  · exact takeFaults_handed _

theorem answer_handed {s : State} (q : Asker) (r : Request) (f : State → State × Reply) (h : s.handed = []) :
    (s.answer q r f).handed = [] := by
  unfold State.answer
  dsimp only
  split
  · simpa using h
  · exact serve_handed q r f h

theorem takeRequest_handed {s : State} (own : Option Nat) (pins : BitVec 6) (it : Item) (h : s.handed = []) :
    (s.takeRequest own pins it).1.handed = [] := by
  unfold State.takeRequest
  split
  · rename_i r _
    dsimp only
    split
    · split
      · simpa using h
      · cases hr : r.asked with
        | known x => exact serve_handed _ _ _ h
        | unknown c => exact h
    · exact h
  · exact h

theorem takeRequests_handed (own : Option Nat) (pins : BitVec 6) (l : List Item) (i : Nat) {s : State}
    (h : s.handed = []) : (s.takeRequests own pins i l).1.handed = [] := by
  induction l generalizing s i with
  | nil => exact h
  | cons it l ih => exact ih _ (takeRequest_handed own pins it h)

theorem managementArrives_handed {s : State} (p : RingPort) (pins : BitVec 6) (x : Arrival) (h : s.handed = []) :
    (s.managementArrives p pins x).handed = [] := by
  unfold State.managementArrives
  dsimp only
  split
  · exact takeRequests_handed _ _ _ _ (by simpa using h)
  · simpa using h

/-- No command leaves a fault handed. -/
theorem exec_handed {i : Instr} {s t : State} (he : exec i s = .next t) (h : s.handed = []) : t.handed = [] := by
  rcases event_or_carrying i with hi | ⟨q, r, rfl⟩
  · cases i
    any_goals simp [isEvent] at hi
    case powerOn => cases he; rfl
    case rstN => cases he; rfl
    case portLinkChange => cases he; simpa using h
    case cycleTelegram => cases he; exact cycleArrives_handed _ _ h
    case repeatTelegram => cases he; exact cycleArrives_handed _ _ h
    case managementTelegram => cases he; exact managementArrives_handed _ _ _ h
    case badTelegram => cases he; simpa using h
    case ringLost => cases he; exact ringLost_handed h
    case swapTimeout =>
      cases he
      split
      · exact h
      · exact takeFaults_handed _
    case spliceTimeout => cases he; exact takeFaults_handed _
    case freshnessLapse => cases he; exact takeFaults_handed _
    case speedRequestRefresh => cases he; exact takeFaults_handed _
    case stackCommandResend => cases he; exact takeFaults_handed _
    case settleEnd => cases he; exact h
  · rw [exec_carrying] at he
    cases he
    exact answer_handed _ _ _ h

/-! ### What every command but the two resets keeps -/

/-- A property that the operations keep, and that answers for the latch, is kept by every command but the two resets. -/
theorem Loads.command {P : State → Prop} (K : Loads P) (hl : ∀ s, P s → s.lsc.LatchOk) {i : Instr} {s t : State}
    (hp : i ≠ .powerOn) (hr : i ≠ .rstN) (he : exec i s = .next t) (h : P s) : P t := by
  rcases event_or_carrying i with hi | ⟨q, r, rfl⟩
  · by_cases hm : ∀ p c x, i ≠ .managementTelegram p c x
    · exact K.toRings.event hi hp hr hm he h
    · push Not at hm
      obtain ⟨p, c, x, rfl⟩ := hm
      cases he
      exact K.toRings.managementArrives p c x
        (fun _ _ _ _ u _ r q _ _ hc hu => K.owned q r (hl u hu) hc hu) h
  · rw [exec_carrying] at he
    cases he
    exact K.toRings.answer q r _ (fun u _ hc hu => K.owned q r (hl u hu) hc hu) h

/-- What stands once stands so on an empty map, with the order table of the reset and no fault seen. -/
theorem consistent_of_reset {s : State} (hm : s.wmp = Wmp.reset) (ho : s.osq = Osq.reset) (hl : s.lsc = Lsc.reset) :
    s.Consistent where
  marks := by rw [hm]; constructor <;> simp [Wmp.reset, kindCount]
  boundaries := by rw [hm, ho]; rfl
  area := by rw [hm]; exact Nat.zero_le _
  table := by
    have blank : ∀ i, Osq.reset.slotAt i = Slot.blank := by
      intro i
      simp only [Osq.slotAt, Osq.reset, Vector.getElem?_replicate]
      split <;> rfl
    rw [ho]
    constructor
    case flight => intro i; rw [blank]; simp [Osq.reset, Slot.blank]
    all_goals simp [Osq.reset]
  held := by rw [ho]; exact Nat.zero_le _
  faults := by rw [hl]; exact ⟨List.nodup_nil, Nat.zero_le _⟩

/-- The blocks of a reset meet the invariant, whatever configuration stands. -/
theorem inv_of_reset {s : State} (m : LogMode)
    (h : s.wtr = Wtr.reset ∧ s.wmp = Wmp.reset ∧ s.osq = Osq.reset ∧ s.chg = Chg.reset ∧ s.knp = Knp.reset
      ∧ s.stk = Stk.reset ∧ s.plg = { Plg.reset with mode := m } ∧ s.lsc = Lsc.reset ∧ s.rif = Rif.reset
      ∧ s.lineStop = true ∧ s.handed = []) : s.Inv := by
  obtain ⟨wtr, wmp, osq, chg, knp, stk, plg, lsc, rif, stop, handed⟩ := h
  constructor
  · rw [wtr]; unfold Wtr.FeedOk; decide
  · rw [wmp]; unfold Wmp.MapOk; decide
  · rw [osq]; unfold Osq.ListsOk; decide
  · rw [chg]; unfold Chg.RecordsOk; decide
  · rw [knp]; unfold Knp.PlansOk; decide
  · rw [stk]; unfold Stk.QueueOk; decide
  · rw [plg]; exact ⟨Nat.zero_le _, Nat.zero_lt_succ _⟩
  · rw [rif]; unfold Rif.QueuesOk; decide
  · rw [lsc]; unfold Lsc.LatchOk; decide
  · unfold State.RequestOk; rw [wtr, rif, stop]; decide
  · unfold State.LineReasonOk; rw [wtr, lsc]; decide
  · exact handed

theorem powerOn_inv {s t : State} (he : exec .powerOn s = .next t) : t.Inv ∧ t.Consistent := by
  cases he
  exact ⟨inv_of_reset .wrap ⟨rfl, rfl, rfl, rfl, rfl, rfl, rfl, rfl, rfl, rfl, rfl⟩, consistent_of_reset rfl rfl rfl⟩

theorem rstN_inv {s t : State} (he : exec .rstN s = .next t) : t.Inv ∧ t.Consistent := by
  cases he
  exact ⟨inv_of_reset s.plg.mode ⟨rfl, rfl, rfl, rfl, rfl, rfl, rfl, rfl, rfl, rfl, rfl⟩, consistent_of_reset rfl rfl rfl⟩

/-- Every command keeps the invariant and, with it, what stands once. -/
theorem exec_inv {i : Instr} {s t : State} (he : exec i s = .next t) (h : s.Inv) :
    t.Inv ∧ (s.Consistent → t.Consistent) := by
  by_cases hp : i = .powerOn
  · subst hp; exact ⟨(powerOn_inv he).1, fun _ => (powerOn_inv he).2⟩
  by_cases hr : i = .rstN
  · subst hr; exact ⟨(rstN_inv he).1, fun _ => (rstN_inv he).2⟩
  have sound := (inv_iff.1 h).1
  have ht : t.Inv := inv_iff.2
    ⟨Loads.sound.command (fun _ hu => hu.latchOk) hp hr he sound, exec_handed he h.handed⟩
  refine ⟨ht, fun hc => (consistent_iff ht.lists).2 ?_⟩
  exact ((Loads.sound.and Loads.standing).command (fun _ hu => hu.1.latchOk) hp hr he
    ⟨sound, (consistent_iff h.lists).1 hc⟩).2

/-- The invariant does not depend on which commands wait. -/
theorem inv_pending {s : State} (l : List Instr) (h : s.Inv) : ({ s with pending := l } : State).Inv := by
  have sound := inv_iff.1 h
  exact inv_iff.2 sound

theorem consistent_pending {s : State} (l : List Instr) (h : s.Consistent) :
    ({ s with pending := l } : State).Consistent :=
  ⟨h.marks, h.boundaries, h.area, h.table, h.held, h.faults⟩

/-- Settles O5: the resets give fresh blocks, every other command is built of operations that keep each clause, and Line State
Control has taken every fault when the command ends. -/
theorem everyStepKeepsTheInvariant : Obligations.EveryStepKeepsTheInvariant := by
  intro s t h he
  unfold step at he
  split at he
  · cases he; exact ⟨h, fun hc => hc⟩
  · obtain ⟨hi, hc⟩ := exec_inv he (inv_pending _ h)
    exact ⟨hi, fun h => hc (consistent_pending _ h)⟩

/-- Settles O4. -/
theorem resetMeetsTheInvariant : Obligations.ResetMeetsTheInvariant :=
  ⟨inv_of_reset .wrap ⟨rfl, rfl, rfl, rfl, rfl, rfl, rfl, rfl, rfl, rfl, rfl⟩, consistent_of_reset rfl rfl rfl⟩

end Sys2Proof.Machine
end

section
namespace Sys2Proof.Machine

/-! ### Tables at their defaults -/

/-- Every place of a table filled with its default reads as that default, inside the table and outside it. -/
theorem replicate_getD {α : Type} (n i : Nat) (x : α) : ((Vector.replicate n x)[i]?).getD x = x := by
  rw [Vector.getElem?_replicate]
  split <;> rfl

/-- Settles O2: each block is reset outright, so what is left to show is that a blank table reads blank at every place. -/
theorem powerOnResetsEveryBlock : Obligations.PowerOnResetsEveryBlock := by
  intro s
  refine ⟨_, rfl, rfl, ?_, ?_, ?_, ?_, ?_, ?_, ?_, ?_, ?_, ?_, ?_, rfl, rfl⟩
  case refine_4 => exact ⟨fun i => replicate_getD 64 i Slot.blank, rfl, rfl, rfl, rfl, rfl, by simp [State.reset, Osq.reset]⟩
  case refine_6 =>
    refine ⟨fun i => replicate_getD 7 i _, fun i => replicate_getD 12 i _, fun i => replicate_getD 16 i _, ?_, rfl, rfl⟩
    intro code
    simp only [State.grade, State.reset, Hgr.reset, Vector.getElem?_replicate]
    split
    · rfl
    · split <;> rfl
  case refine_8 => exact ⟨rfl, rfl, rfl, rfl, rfl, rfl, fun i => replicate_getD 64 i _⟩
  case refine_11 => simp [State.reset, Irt.reset]
  all_goals simp [State.reset, Lsc.reset, Wtr.reset, Wmp.reset, Chg.reset, Knp.reset, Plg.reset, Rif.reset, Raised.stoppedState]

/-! ### The feed (R3 to R6) -/

theorem feedDelta_eq (last new : FeedCount) :
    feedDelta last new = if (new.toNat + 65536 - last.toNat) % 65536 ≤ 32767
      then (((new.toNat + 65536 - last.toNat) % 65536 : Nat) : Int)
      else (((new.toNat + 65536 - last.toNat) % 65536 : Nat) : Int) - 65536 := by
  have := last.isLt
  simp only [feedDelta, BitVec.toInt_eq_toNat_cond, BitVec.toNat_sub]
  rw [show 2 ^ 16 - last.toNat + new.toNat = new.toNat + 65536 - last.toNat by omega]
  split <;> split <;> omega

/-- The count taken is the next last count, on every path of the feed arithmetic. -/
theorem takeFeed_lastCount (s : State) (n : Nat) (c : FeedCount) : (s.takeFeed n (some c)).1.wtr.lastCount = c := by
  unfold State.takeFeed
  dsimp only
  split <;> rfl

/-- Settles O47. -/
theorem feedDeltaIsTheSignedDifference : Obligations.FeedDeltaIsTheSignedDifference :=
  ⟨feedDelta_eq, takeFeed_lastCount⟩

/-- Settles O48: a case for each branch of R5, the delta backward or forward, the debt past its bound or not. -/
theorem encoderDebtLosesNoCount : Obligations.EncoderDebtLosesNoCount := by
  intro debt d hd
  unfold settleDebt
  split
  · split
    · refine ⟨Nat.zero_le _, nofun, ?_, ?_⟩
      · rintro n ⟨⟩
        exact ⟨by omega, by omega, rfl, rfl⟩
      · simp only [Option.isSome_some, true_iff]; omega
    · refine ⟨by dsimp only; omega, fun _ => ⟨?_, .inl rfl⟩, nofun, ?_⟩
      · dsimp only; omega
      · simp only [Option.isSome_none, Bool.false_eq_true, false_iff]; omega
  · split
    · refine ⟨Nat.zero_le _, fun _ => ⟨?_, .inr rfl⟩, nofun, ?_⟩
      · dsimp only; omega
      · simp only [Option.isSome_none, Bool.false_eq_true, false_iff]; omega
    · refine ⟨by dsimp only; omega, fun _ => ⟨?_, .inl rfl⟩, nofun, ?_⟩
      · dsimp only; omega
      · simp only [Option.isSome_none, Bool.false_eq_true, false_iff]; omega

/-- One count's advance and the remainder it leaves make up the scaled count and the remainder it found (R6). -/
theorem scaleCount_sum (remainder count scale : Nat) :
    (scaleCount remainder count scale).1 * 65536 + (scaleCount remainder count scale).2 = remainder + count * scale :=
  Nat.div_add_mod' _ _

theorem feedRun_sum (scale : Nat) (counts : List Nat) (remainder : Nat) :
    (feedRun scale remainder counts).1 * 65536 + (feedRun scale remainder counts).2 = remainder + counts.sum * scale := by
  induction counts generalizing remainder with
  | nil => simp [feedRun]
  | cons c rest ih =>
    have first := scaleCount_sum remainder c scale
    have others := ih (scaleCount remainder c scale).2
    simp only [feedRun, List.sum_cons, Nat.add_mul]
    linarith

theorem feedRun_remainder (scale : Nat) (counts : List Nat) (remainder : Nat) (h : remainder < 65536) :
    (feedRun scale remainder counts).2 < 65536 := by
  induction counts generalizing remainder with
  | nil => exact h
  | cons c rest ih => exact ih _ (Nat.mod_lt _ (by omega))

/-- Settles O49, by induction on the run. -/
theorem advancesDoNotDrift : Obligations.AdvancesDoNotDrift := fun scale remainder counts =>
  ⟨feedRun_sum scale counts remainder, feedRun_remainder scale counts remainder⟩

/-! ### The history and the band (R10 to R12) -/

/-- From sixteen missed cycles on, the zeros alone push the old history out. -/
theorem pushHistory_eq {l : List Nat} (h : l.length = 16) (n a : Nat) :
    pushHistory l n a = (l ++ List.replicate n 0 ++ [a]).drop (n + 1) := by
  unfold pushHistory
  rcases Nat.le_total n 16 with hn | hn
  · rw [Nat.min_eq_left hn]
  · rw [Nat.min_eq_right hn]
    simp only [List.append_assoc, List.drop_append, h, List.drop_replicate, List.length_replicate]
    rw [List.drop_of_length_le (by omega), List.drop_of_length_le (l := l) (by omega),
      show 16 - (16 + 1 - 16) = n - (n + 1 - 16) by omega, show 16 + 1 - 16 - 16 = n + 1 - 16 - n by omega]

/-- Settles O50. -/
theorem historyHoldsSixteenCycles : Obligations.HistoryHoldsSixteenCycles := by
  intro s n a ⟨_, _, _, hl, _⟩
  exact ⟨pushHistory_eq hl n a, pushHistory_length _ _ _ hl, rfl, rfl, rfl, rfl, rfl⟩

/-! ### What an update leaves alone, block by block -/

/-- What the Web Tracker has counted: all it holds but the reasons, what follows from them, and the refresh counter. -/
def Wtr.counted (w : Wtr) : Wtr := { w with reasons := [], request := .noLimit, governing := none, refresh := 0 }

@[simp] theorem setReasons_counted (s : State) (l : List Raised) : (s.setReasons l).wtr.counted = s.wtr.counted := by
  rw [setReasons_wtr]; rfl

@[simp] theorem sendSpeedRequest_counted (s : State) (c : SpeedCause) :
    (s.sendSpeedRequest c).wtr.counted = s.wtr.counted := by
  rw [sendSpeedRequest_wtr]; rfl

/-- What the ring has told: all that the Ring Interface holds but the waiting items. -/
def Rif.told (r : Rif) : Rif := { r with urgent := [], routine := [], overflow := none }

theorem Rif.told_eq {a b : Rif} (h : a.SameRing b) : b.told = a.told := by
  obtain ⟨portA, portB, ring, cycle, timer⟩ := h
  simp [Rif.told, portA, portB, ring, cycle, timer]

@[simp] theorem queueUrgent_told (s : State) (o : OutItem) : (s.queueUrgent o).rif.told = s.rif.told := by
  unfold State.queueUrgent; split <;> rfl

@[simp] theorem queueRoutine_told (s : State) (o : OutItem) : (s.queueRoutine o).rif.told = s.rif.told := by
  unfold State.queueRoutine; (repeat' split) <;> rfl

@[simp] theorem sendSpeedRequest_told (s : State) (c : SpeedCause) : (s.sendSpeedRequest c).rif.told = s.rif.told := by
  unfold State.sendSpeedRequest
  dsimp only
  split
  · rfl
  · rw [queueUrgent_told]; rfl

@[simp] theorem setReasons_told (s : State) (l : List Raised) : (s.setReasons l).rif.told = s.rif.told := by
  unfold State.setReasons
  dsimp only
  split
  · rfl
  · rw [sendSpeedRequest_told]; rfl

/-- What the Web Tracker has counted is kept by everything but the feed itself. -/
theorem Faults.counted (w : Wtr) : Faults fun s => s.wtr.counted = w where
  log _ h := by simpa using h
  urgent _ h := by simpa using h
  routine _ h := by simpa using h
  hand _ _ h := h
  alter _ _ _ _ h := by simpa [State.alter] using h
  speed _ h := by simpa using h
  map _ _ h := h
  knp _ _ h := h
  chg _ h _ := h
  spl _ _ h := h
  hgr _ _ h := h
  osq _ _ h := h
  stk _ _ h := h
  rif _ _ _ h := h
  lsc _ _ _ h _ := h
  line _ _ _ _ _ h := by simpa [State.alter] using h
  clear h := h

/-- What follows a change of band leaves what has been counted (R13). -/
theorem bandReported_counted (s : State) (b : LogBody) :
    ((s.resendSetpoints.examineAll).log b).wtr.counted = s.wtr.counted := by
  have K := Faults.counted s.wtr.counted
  exact K.log b (K.examineAll (K.resendSetpoints (s := s) rfl))

theorem band_of_counted {a b : Wtr} (h : a.counted = b.counted) : a.band = b.band := (Wtr.mk.inj h).2.2.2.2.2.2.2.2.1

/-- Settles O51: the table is R12's own; after the band has moved, the reports to the other blocks leave it. -/
theorem bandMovesOneStep : Obligations.BandMovesOneStep := by
  rintro c v
  refine ⟨rfl, rfl, rfl, rfl, ?_, ?_⟩
  · rintro s n a rfl rfl
    unfold State.takeBand
    dsimp only
    split
    · rename_i same; exact same.symm
    · exact band_of_counted (bandReported_counted _ _)
  · intro b
    cases b <;> simp only [bandAfter] <;> (repeat' split) <;> simp [bandCode]

/-! ### The reason set (R15 to R17) -/

theorem stricter_code (a b : SpeedReq) : speedReqCode (stricter a b) = max (speedReqCode a) (speedReqCode b) := by
  unfold stricter; split <;> omega

/-- The strictest request of a list, from the one to start with on, is carried there or is that one, and none is stricter. -/
theorem foldl_stricter (l : List Raised) (a : SpeedReq) :
    let q := l.foldl (fun a r => stricter a r.req) a
    speedReqCode a ≤ speedReqCode q ∧ (∀ r ∈ l, speedReqCode r.req ≤ speedReqCode q)
      ∧ (q = a ∨ ∃ r ∈ l, r.req = q) := by
  induction l generalizing a with
  | nil => simp
  | cons x l ih =>
    obtain ⟨start, all, found⟩ := ih (stricter a x.req)
    have code := stricter_code a x.req
    refine ⟨by simp only [List.foldl_cons]; omega, ?_, ?_⟩
    · simp only [List.foldl_cons, List.forall_mem_cons]
      exact ⟨by omega, all⟩
    · rcases found with found | ⟨r, hr, e⟩
      · simp only [List.foldl_cons, found]
        unfold stricter
        split
        · exact .inr ⟨x, List.mem_cons_self, rfl⟩
        · exact .inl rfl
      · exact .inr ⟨r, List.mem_cons_of_mem _ hr, e⟩

theorem strongest_ge {l : List Raised} {r : Raised} (h : r ∈ l) : speedReqCode r.req ≤ speedReqCode (strongest l) :=
  (foldl_stricter l .noLimit).2.1 r h

theorem strongest_mem (l : List Raised) : strongest l = .noLimit ∨ ∃ r ∈ l, r.req = strongest l :=
  (foldl_stricter l .noLimit).2.2

/-- The current request is STOP exactly while a reason carries STOP. -/
theorem strongest_stop {l : List Raised} : strongest l = .stop ↔ ∃ r ∈ l, r.req = .stop := by
  constructor
  · intro h
    rcases strongest_mem l with hn | ⟨r, hr, e⟩
    · rw [h] at hn; cases hn
    · exact ⟨r, hr, e.trans h⟩
  · rintro ⟨r, hr, e⟩
    have := strongest_ge hr
    rw [e] at this
    cases h : strongest l <;> simp_all [speedReqCode]

theorem governingOf_noLimit {l : List Raised} (h : strongest l = .noLimit) : governingOf l = none := by
  simp [governingOf, h]

theorem governingOf_eq {l : List Raised} (h : strongest l ≠ .noLimit) :
    governingOf l = (l.find? fun r => r.req == strongest l).map fun r => (r.reason, r.inst) := by
  unfold governingOf
  cases hq : strongest l <;> simp_all

/-- The governing reason is the first of the set that carries the current request (R17). -/
theorem governingOf_first {l : List Raised} (h : strongest l ≠ .noLimit) :
    ∃ a r b, l = a ++ r :: b ∧ r.req = strongest l ∧ (∀ x ∈ a, x.req ≠ strongest l)
      ∧ governingOf l = some (r.reason, r.inst) := by
  obtain ⟨x, hx, e⟩ := (strongest_mem l).resolve_left h
  cases hf : l.find? fun r => r.req == strongest l with
  | none => exact absurd (List.find?_eq_none.1 hf x hx) (by simp [e])
  | some r =>
    obtain ⟨hr, a, b, hl, ha⟩ := List.find?_eq_some_iff_append.1 hf
    exact ⟨a, r, b, hl, by simpa using hr, fun y hy => by simpa using ha y hy, by rw [governingOf_eq h, hf]; rfl⟩

/-! ### The order of the reason set (R16, R17) -/

theorem reasonCode_inj {a b : Reason} (h : reasonCode a = reasonCode b) : a = b := by
  cases a <;> cases b <;> simp_all [reasonCode]

theorem before_iff {x y : Raised} :
    x.before y = true ↔ reasonCode x.reason < reasonCode y.reason ∨ x.reason = y.reason ∧ x.inst < y.inst := by
  simp [Raised.before]

theorem before_trans {x y z : Raised} (h₁ : x.before y = true) (h₂ : y.before z = true) : x.before z = true := by
  rw [before_iff] at *
  rcases h₁ with h₁ | ⟨e₁, h₁⟩ <;> rcases h₂ with h₂ | ⟨e₂, h₂⟩
  · exact .inl (h₁.trans h₂)
  · exact .inl (e₂ ▸ h₁)
  · exact .inl (e₁ ▸ h₂)
  · exact .inr ⟨e₁.trans e₂, h₁.trans h₂⟩

/-- Of two raised reasons that do not share a place, one comes before the other. -/
theorem before_total {x y : Raised} (hn : ¬(y.reason = x.reason ∧ y.inst = x.inst)) (h : x.before y = false) :
    y.before x = true := by
  have h : ¬(x.before y = true) := by simp [h]
  rw [before_iff] at *
  push Not at h
  by_cases e : y.reason = x.reason
  · exact .inr ⟨e, by have := h.2 e.symm; have : y.inst ≠ x.inst := fun hi => hn ⟨e, hi⟩; omega⟩
  · have : reasonCode y.reason ≠ reasonCode x.reason := fun hc => e (reasonCode_inj hc)
    exact .inl (by omega)

theorem mem_addReason {x z : Raised} {l : List Raised} (h : z ∈ addReason x l) : z = x ∨ z ∈ l := by
  induction l with
  | nil => simpa [addReason] using h
  | cons y l ih =>
    unfold addReason at h
    split at h
    · exact .inr h
    · split at h
      · simpa using h
      · rcases List.mem_cons.1 h with rfl | h
        · simp
        · exact (ih h).imp_right (List.mem_cons_of_mem _)

theorem addReason_ordered (x : Raised) {l : List Raised} (h : l.Pairwise fun a b => a.before b = true) :
    (addReason x l).Pairwise fun a b => a.before b = true := by
  induction l with
  | nil => simp [addReason]
  | cons y l ih =>
    obtain ⟨first, rest⟩ := List.pairwise_cons.1 h
    unfold addReason
    split
    · exact h
    · rename_i other
      split
      · rename_i hb
        refine List.pairwise_cons.2 ⟨fun z hz => ?_, h⟩
        rcases List.mem_cons.1 hz with rfl | hz
        · exact hb
        · exact before_trans hb (first z hz)
      · rename_i hb
        refine List.pairwise_cons.2 ⟨fun z hz => ?_, ih rest⟩
        rcases mem_addReason hz with rfl | hz
        · exact before_total other (by simpa using hb)
        · exact first z hz

theorem dropReason_ordered (r : Reason) (i : Nat) {l : List Raised} (h : l.Pairwise fun a b => a.before b = true) :
    (dropReason r i l).Pairwise fun a b => a.before b = true := h.sublist List.filter_sublist

/-- Settles O52. -/
theorem requestIsTheMostRestrictive : Obligations.RequestIsTheMostRestrictive := fun l =>
  ⟨fun _ hr => strongest_ge hr, strongest_mem l, governingOf_noLimit, governingOf_first,
    fun h => ⟨fun x => addReason_ordered x h, fun r i => dropReason_ordered r i h⟩⟩

/-! ### LINE_STOP (R20) -/

/-- The reason that a line state holds stands in the set (R161). -/
theorem stateReason_mem {s : State} {r : Raised} (h : s.LineReasonOk) (hr : stateReason s.lsc.state = some r) :
    r ∈ s.wtr.reasons := by
  have : r ∈ s.wtr.reasons.filter fun r => isLineReason r.reason := by rw [h, hr]; simp
  exact (List.mem_filter.1 this).1

theorem lineStop_iff {s : State} (h : s.RequestOk) :
    s.lineStop = true ↔ (∃ r ∈ s.wtr.reasons, r.req = .stop) ∨ s.rif.ring = .lost := by
  obtain ⟨request, _, stop⟩ := h
  rw [stop, request, strongest_stop]

/-- The three line states in which the line is to stand assert LINE_STOP. -/
theorem lineStop_of_state {s : State} (h : s.Inv)
    (hs : s.lsc.state = .stopped ∨ s.lsc.state = .halting ∨ s.lsc.state = .faulted) : s.lineStop = true := by
  refine (lineStop_iff h.request).2 (.inl ?_)
  rcases hs with hs | hs | hs
  all_goals exact ⟨_, stateReason_mem h.lineReason (by rw [hs]; rfl), rfl⟩

/-- Settles O6: the invariant that every step keeps says it. -/
theorem lineStopWhileStoppedOrLost : Obligations.LineStopWhileStoppedOrLost := by
  intro s t h he
  have ht : t.Inv := (everyStepKeepsTheInvariant s t h he).1
  exact ⟨lineStop_iff ht.request, lineStop_of_state ht⟩

end Sys2Proof.Machine
end

section
namespace Sys2Proof.Machine

/-! ### What no event touches -/

/-- A property that asks nothing of the line state, the feed or the reasons, and that any update of the map and of the order
table keeps, is kept by the events. -/
theorem Bounds.lines {P : State → Prop} (K : Bounds P) (lsc : ∀ {s : State} (f), P s → P (s.onLsc f))
    (alter : ∀ {s : State} (d r), P s → P (s.alter d r)) (clear : ∀ {s : State}, P s → P { s with handed := [] })
    (feed : ∀ {s : State} (f), P s → P (s.onWtr f))
    (irt : ∀ {s : State} (f), s.irt.SameConfig (f s.irt) → P s → P (s.onIrt f)) : Lines P where
  toCounts := K.toCounts
  lsc f _ _ h _ := lsc f h
  line f _ _ _ _ h := alter _ _ (lsc f h)
  clear := clear
  created x _ hn _ h := K.createBoundary x _ hn h
  retires h := K.retireMarks h
  feed f _ h := feed f h
  irt := irt

/-- What stands outside the blocks, with the line constants and what the ring has told. -/
structure Outside where
  line        : LineConsts
  commStation : BitVec 6
  choices     : Nat
  passed      : Option Passage
  reply       : Option Reply
  pending     : List Instr
  told        : Rif

def State.outside (s : State) : Outside where
  line := s.line
  commStation := s.commStation
  choices := s.choices
  passed := s.passed
  reply := s.reply
  pending := s.pending
  told := s.rif.told

/-- No event of a block touches what stands outside it. -/
theorem Lines.outside (x : Outside) : Lines fun s => s.outside = x :=
  have K : Bounds fun s => s.outside = x := {
    log _ h := by simpa [State.outside] using h
    urgent _ h := by simpa [State.outside] using h
    routine _ h := by simpa [State.outside] using h
    hand _ _ h := h
    alter _ _ _ _ h := by simpa [State.outside, State.alter] using h
    speed _ h := by simpa [State.outside] using h
    map _ _ h := h
    knp _ _ h := h
    chg _ h _ := h
    spl _ _ h := h
    hgr _ _ h := h
    osq _ _ h := h
    stk _ _ h := h
    rif f _ h' h := by simpa [State.outside, Rif.told_eq h'] using h
    place _ _ _ h := h
    segs _ _ h := h }
  K.lines (fun _ h => h) (fun _ _ h => by simpa [State.outside, State.alter] using h) (fun h => h) (fun _ h => h)
    (fun _ _ h => h)

/-- The configuration is changed by its loads alone. -/
theorem Rings.configuration (x : Configuration) : Rings fun s => s.configuration = x :=
  have K : Bounds fun s => s.configuration = x := {
    log _ h := by simpa [State.configuration] using h
    urgent _ h := by simpa [State.configuration] using h
    routine _ h := by simpa [State.configuration] using h
    hand _ _ h := h
    alter _ _ _ _ h := by simpa [State.configuration] using h
    speed _ h := by simpa [State.configuration] using h
    map _ _ h := h
    knp _ _ h := h
    chg _ h _ := h
    spl f hf h := by simpa only [State.configuration, State.onSpl, show _ = _ from hf] using h
    hgr f hf h := by
      obtain ⟨grades, points, channels, scan⟩ := hf
      simpa only [State.configuration, State.onHgr, grades, points, channels, scan] using h
    osq _ _ h := h
    stk _ _ h := h
    rif _ _ _ h := h
    place _ _ _ h := h
    segs _ _ h := h }
  { K.lines (fun _ h => h) (fun _ _ h => by simpa [State.configuration] using h) (fun h => h) (fun _ h => h)
      (fun f hf h => by
        obtain ⟨stations, subs⟩ := hf
        simpa only [State.configuration, State.onIrt, stations, subs] using h) with
    enqueue _ _ h := h
    port _ _ _ h := h
    ring _ _ h := by simpa [State.configuration] using h
    choose _ h := h
    pass _ h := h
    tell _ _ h := h
    plg _ _ h := h }

/-! ### Faults taken (R168, R169) -/

@[simp] theorem takeHanded_nothing {s : State} (h : s.handed = []) : s.takeHanded = s := by
  cases s; simp_all [State.takeHanded]

theorem loseMap_if_lsc (c : Prop) [Decidable c] (s : State) : (if c then s.loseMap else s).lsc = s.lsc := by
  split <;> rfl

theorem loseMap_if_rif (c : Prop) [Decidable c] (s : State) : (if c then s.loseMap else s).rif = s.rif := by
  split <;> rfl

theorem notify_stamp (s : State) (n : Notice) : (s.notify n).stamp = s.stamp :=
  have same := queueRoutine_told s (.notice n)
  congrArg (fun c : Option Nat => c.getD 0) (show (s.notify n).rif.cycle = s.rif.cycle from (Rif.mk.inj same).2.2.2.1)

/-- A fault taken with none latched is latched, and takes a running line to FAULTED. -/
theorem takeFault_lsc_unlatched {s : State} (f : FaultReport) (h : s.lsc.latch = none) :
    (s.takeFault f).lsc = { s.lsc with
      state := if runsLine s.lsc.state then .faulted else s.lsc.state,
      latch := some { code := f.code, detail := f.detail, stamp := s.stamp },
      seen := if s.lsc.seen.contains f.code then s.lsc.seen else s.lsc.seen ++ [f.code] } := by
  unfold State.takeFault
  rw [h]
  dsimp only
  generalize ht : (if losesWeb f.code = true then _ else _ : State) = t
  have lsc : t.lsc = s.lsc := by rw [← ht, loseMap_if_lsc]; simp
  have stamp : t.stamp = s.stamp := by
    rw [← ht, State.stamp, loseMap_if_rif]
    exact (notify_stamp _ _).trans (by rw [State.stamp, log_rif]; rfl)
  simp only [State.onLsc_lsc, lsc, stamp]
  split
  · rw [enterState_lsc]; simp [lsc]
  · simp [lsc]

/-- A fault taken while one is latched is noted among those seen, and no more. -/
theorem takeFault_lsc_latched {s : State} (f : FaultReport) (h : s.lsc.latch.isSome = true) :
    (s.takeFault f).lsc = { s.lsc with
      seen := if s.lsc.seen.contains f.code then s.lsc.seen else s.lsc.seen ++ [f.code] } := by
  obtain ⟨x, hx⟩ := Option.isSome_iff_exists.1 h
  unfold State.takeFault
  rw [hx]
  dsimp only
  rw [loseMap_if_lsc]
  split
  · rfl
  · simp

/-- The state with no fault handed. -/
def State.unhanded (s : State) : State := { s with handed := [] }

/-- What Line State Control holds but the faults seen. -/
def Lsc.settled (l : Lsc) : Lsc := { l with seen := [] }

theorem latch_of_settled {a b : Lsc} (h : a.settled = b.settled) : a.latch = b.latch := (Lsc.mk.inj h).2.1

theorem state_of_settled {a b : Lsc} (h : a.settled = b.settled) : a.state = b.state := (Lsc.mk.inj h).1

theorem foldTake_settled (l : List FaultReport) {s : State} (h : s.lsc.latch.isSome = true) :
    (l.foldl (fun s f => s.takeFault f) s).lsc.settled = s.lsc.settled := by
  induction l generalizing s with
  | nil => rfl
  | cons f l ih =>
    rw [List.foldl_cons, ih (takeFault_latched s f), takeFault_lsc_latched f h]
    rfl

/-- Of the faults handed the first one alone decides latch and line state. -/
theorem takeFaults_settled {s : State} {f : FaultReport} {l : List FaultReport} (h : s.handed = f :: l) :
    s.takeFaults.lsc.settled = (s.unhanded.takeFault f).lsc.settled := by
  have first : s.takeHanded = l.foldl (fun s f => s.takeFault f) (s.unhanded.takeFault f) := by
    rw [State.takeHanded, h]; rfl
  have latched := takeFault_latched s.unhanded f
  have held : s.takeHanded.lsc.settled = (s.unhanded.takeFault f).lsc.settled := by
    rw [first]; exact foldTake_settled l latched
  have still : s.takeHanded.lsc.latch.isSome = true := by
    rw [latch_of_settled held]; exact latched
  exact (foldTake_settled s.takeHanded.handed (s := s.takeHanded.unhanded) still).trans held

/-- With none latched the first fault handed is latched, and takes a running line to FAULTED. -/
theorem takeFaults_unlatched {s : State} {f : FaultReport} {l : List FaultReport} (h : s.handed = f :: l)
    (hl : s.lsc.latch = none) :
    s.takeFaults.lsc.latch = some { code := f.code, detail := f.detail, stamp := s.stamp }
      ∧ s.takeFaults.lsc.state = if runsLine s.lsc.state then .faulted else s.lsc.state := by
  have lsc := takeFaults_settled h
  rw [takeFault_lsc_unlatched f (s := s.unhanded) hl] at lsc
  exact ⟨latch_of_settled lsc, state_of_settled lsc⟩

/-- With one latched, faults handed change neither latch nor line state. -/
theorem takeFaults_following {s : State} (hl : s.lsc.latch.isSome = true) :
    s.takeFaults.lsc.latch = s.lsc.latch ∧ s.takeFaults.lsc.state = s.lsc.state := by
  cases h : s.handed with
  | nil => rw [takeFaults_nothing h]; exact ⟨rfl, rfl⟩
  | cons f l =>
    have lsc := takeFaults_settled h
    rw [takeFault_lsc_latched f (s := s.unhanded) hl] at lsc
    exact ⟨latch_of_settled lsc, state_of_settled lsc⟩

/-- A fault handed leaves a fault latched when the event is over. -/
theorem takeFaults_latched {s : State} (h : s.handed ≠ []) : s.takeFaults.lsc.latch.isSome = true := by
  obtain ⟨f, l, h⟩ := List.exists_cons_of_ne_nil h
  rw [latch_of_settled (takeFaults_settled h)]
  exact takeFault_latched _ f

/-! ### The refresh (R19) -/

/-- A counter at 64 stays there while nothing but a SPEED_REQUEST touches it. -/
theorem Faults.refreshLoaded : Faults fun s => s.wtr.refresh = 64 where
  log _ h := by simpa using h
  urgent _ h := by simpa using h
  routine _ h := by simpa using h
  hand _ _ h := h
  alter _ _ _ _ h := by rw [State.alter, setReasons_wtr]; simp [h]
  speed _ _ := by rw [sendSpeedRequest_wtr]
  map _ _ h := h
  knp _ _ h := h
  chg _ h _ := h
  spl _ _ h := h
  hgr _ _ h := h
  osq _ _ h := h
  stk _ _ h := h
  rif _ _ _ h := h
  lsc _ _ _ h _ := h
  line _ _ _ _ _ h := by rw [State.alter, setReasons_wtr]; simp [h]
  clear h := h

/-- The SPEED_REQUEST as it goes out (R18). -/
def State.speedItem (s : State) (c : SpeedCause) : OutItem :=
  .speedRequest s.wtr.request s.wtr.governing s.wtr.band s.wtr.speedSum c

/-- One that waits is rewritten in its place. -/
theorem sendSpeedRequest_waiting {s : State} (c : SpeedCause) (h : s.rif.urgent.any isSpeedRequest = true) :
    s.sendSpeedRequest c = (s.onWtr fun w => { w with refresh := 64 }).onRif fun r =>
      { r with urgent := r.urgent.map fun w => if isSpeedRequest w then s.speedItem c else w } := if_pos h

/-- With none waiting, one joins the urgent queue. -/
theorem sendSpeedRequest_joining {s : State} (c : SpeedCause) (h : s.rif.urgent.any isSpeedRequest = false) :
    s.sendSpeedRequest c = (s.onWtr fun w => { w with refresh := 64 }).queueUrgent (s.speedItem c) :=
  if_neg (by simpa using h)

theorem queueUrgent_room {s : State} (o : OutItem) (h : s.rif.urgent.length < 16) :
    s.queueUrgent o = s.onRif fun r => { r with urgent := r.urgent ++ [o] } := if_pos h

theorem queueUrgent_full {s : State} (o : OutItem) (h : 16 ≤ s.rif.urgent.length) :
    s.queueUrgent o = s.hand .outboundJam (.one 0) := if_neg (Nat.not_lt.2 h)

/-- Settles O44: the waiting SPEED_REQUEST, the free place and the full queue are the three ways of the send. -/
theorem refreshRepeatsTheSpeedRequest : Obligations.RefreshRepeatsTheSpeedRequest := by
  intro s h
  have run : exec .speedRequestRefresh s = .next (s.sendSpeedRequest .refresh).takeFaults := rfl
  refine ⟨fun waits => ?_, fun none room => ?_, fun none full => ?_⟩
  · rw [run, sendSpeedRequest_waiting _ waits]
    exact congrArg Host.Outcome.next (takeFaults_nothing h)
  · rw [run, sendSpeedRequest_joining _ none, queueUrgent_room _ (by simpa using room)]
    exact congrArg Host.Outcome.next (takeFaults_nothing h)
  · refine ⟨_, run, takeFaults_latched ?_, Faults.refreshLoaded.takeFaults ?_⟩
    · rw [sendSpeedRequest_joining _ none, queueUrgent_full _ (by simpa using full)]
      simp [State.hand]
    · rw [sendSpeedRequest_wtr]

/-! ### The loss of the ring (R182) -/

/-- The state in which the loss of the ring is handed to Line State Control. -/
def State.lostRing (s : State) (gap : Nat) : State :=
  (s.onRif fun r => { r with ring := .lost, timer := none }).syncLineStop.hand .ringLost (.one gap)

theorem ringLost_eq {s : State} {gap : Nat} (hr : s.rif.ring = .up) (ht : s.rif.timer = some gap) :
    s.ringLost = (s.lostRing gap).takeFaults := by
  unfold State.ringLost
  rw [hr, ht]
  rfl

theorem ringLost_stopped {s : State} (h : s.rif.ring ≠ .up ∨ s.rif.timer = none) : s.ringLost = s := by
  unfold State.ringLost
  split
  · simp_all
  · rfl

/-- A line state with a fault latched does not run. -/
theorem runsLine_latched {l : Lsc} (h : l.LatchOk) (hl : l.latch.isSome = true) : runsLine l.state = false := by
  rcases h.1 hl with hs | hs <;> rw [hs] <;> rfl

/-- What the loss of the ring leaves when its fault has been taken. -/
theorem lostRing_taken {s : State} (gap : Nat) (h : s.RequestOk) :
    let t := (s.lostRing gap).takeFaults
    t.rif.ring = .lost ∧ t.rif.timer = none ∧ t.lineStop = true ∧ t.configuration = s.configuration
      ∧ t.pending = s.pending := by
  intro t
  have same : t.outside = (s.lostRing gap).outside := (Lines.outside _).takeFaults rfl
  obtain ⟨_, _, _, _, _, pending, told⟩ := Outside.mk.inj same
  obtain ⟨_, _, ring, _, timer, _⟩ := Rif.mk.inj told
  have request : t.RequestOk :=
    Loads.request.takeFaults (Loads.request.hand _ _ (Loads.request.ring _ (fun ok => ok) h))
  exact ⟨ring, timer, request.2.2.2 (.inr ring), (Rings.configuration _).takeFaults rfl, pending⟩

/-- Settles O40: what the loss leaves of the ring, and what its fault makes of latch and line state. -/
theorem ringLossStopsTheLine : Obligations.RingLossStopsTheLine := by
  intro s h
  refine ⟨fun gap hr ht => ?_, fun hn => congrArg Host.Outcome.next (ringLost_stopped hn)⟩
  obtain ⟨ring, timer, stop, configuration, pending⟩ := lostRing_taken gap h.request
  have handed : (s.lostRing gap).handed = [{ code := .ringLost, detail := .one gap }] := by
    simp [State.lostRing, State.hand, h.handed]
  refine ⟨_, congrArg Host.Outcome.next (ringLost_eq hr ht), ring, timer, stop, fun hl => ?_, fun hl => ?_, ?_,
    configuration, pending⟩
  · rw [(takeFaults_unlatched handed hl).1]; rfl
  · exact (takeFaults_following (s := s.lostRing gap) hl).1
  · cases hl : s.lsc.latch with
    | none => exact (takeFaults_unlatched handed hl).2
    | some x =>
      have latched : s.lsc.latch.isSome = true := by rw [hl]; rfl
      rw [runsLine_latched h.latch latched]
      exact (takeFaults_following (s := s.lostRing gap) latched).2

end Sys2Proof.Machine
end

section
namespace Sys2Proof.Machine

/-! ### What orders, stacks and stands do on their own

Reports to the Order Sequencer, the stacker's set-downs and the examination of the stands change the order table, the stacks and
the splice state of the stands, and raise reasons of their own. `Quiet` says so once, more closely than the operations' bounds
need it: no source's staleness, no reel and no tracked stacker state is touched. -/

variable {P : State → Prop}

/-- A change of a stand's record that leaves its reel and its source's notice alone, and brings no splice to FAULT. -/
def KeepsReel (f : Stand → Stand) : Prop :=
  ∀ x, (f x).running = x.running ∧ (f x).remain = x.remain ∧ (f x).staleNotice = x.staleNotice
    ∧ ((f x).splice = .fault → x.splice = .fault)

/-- What they do while no splice is sent. -/
structure Still (P : State → Prop) : Prop where
  log : ∀ {s : State} (b), P s → P (s.log b)
  routine : ∀ {s : State} (o), P s → P (s.queueRoutine o)
  hand : ∀ {s : State} (c d), P s → P (s.hand c d)
  alter : ∀ {s : State} (d : List (Reason × Nat)) (r : List Raised), (∀ x ∈ d, x.1 ≠ .lineStatusStale) →
    (∀ x ∈ r, x.reason ≠ .lineStatusStale) → P s → P (s.alter d r)
  osq : ∀ {s : State} (f : Osq → Osq), P s → P (s.onOsq f)
  stk : ∀ {s : State} (f : Stk → Stk), (f s.stk).state = s.stk.state → P s → P (s.onStk f)
  stand : ∀ {s : State} (i) (f : Stand → Stand), KeepsReel f → P s → P (s.onStand i f)

/-- P is also kept by an urgent item that is not the knife's. -/
structure Quiet (P : State → Prop) : Prop extends Still P where
  urgent : ∀ {s : State} (o), isKnifeItem o = false → P s → P (s.queueUrgent o)

namespace Still

theorem notify (K : Still P) {s : State} (n : Notice) (h : P s) : P (s.notify n) := K.routine _ h

theorem raise (K : Still P) {s : State} (x : Reason) (i : Nat) (q : SpeedReq) (hx : x ≠ .lineStatusStale) (h : P s) :
    P (s.raise x i q) := K.alter _ _ nofun (by simp [hx]) h

theorem drop (K : Still P) {s : State} (x : Reason) (i : Nat) (hx : x ≠ .lineStatusStale) (h : P s) : P (s.drop x i) :=
  K.alter _ _ (by simp [hx]) nofun h

/-! #### The Stacker Link (R149 to R153) -/

theorem examineSetDown (K : Still P) {s : State} (h : P s) : P s.examineSetDown := by
  unfold State.examineSetDown
  split
  · exact h
  · refine ite_keeps (fun _ => K.stk _ ?_ (K.routine _ h)) fun _ => h
    rfl

theorem placeSetDown (K : Still P) {s : State} (d : SetDown) (h : P s) : P (s.placeSetDown d) := by
  unfold State.placeSetDown
  split
  · exact K.examineSetDown (K.stk (fun k => { k with queue := [d], head := .waiting }) rfl h)
  · rename_i x _
    exact K.stk (fun k => { k with queue := [x, d] }) rfl h
  · exact ite_keeps (fun _ => K.raise _ _ _ nofun (K.stk (fun k => { k with overflow := some d }) rfl h)) fun _ =>
      K.notify _ (K.hand _ _ h)

theorem finalSetDown (K : Still P) {s : State} (i : Nat) (h : P s) : P (s.finalSetDown i) :=
  ite_keeps (fun _ => h) fun _ =>
    K.placeSetDown _ (K.stk (fun k => { k with piles := modify k.piles i fun p => { count := 0, next := p.next + 1 } }) rfl h)

/-! #### The Order Sequencer (R53 to R63) -/

theorem testClose (K : Still P) {s : State} (i : Nat) (h : P s) : P (s.testClose i) := by
  unfold State.testClose
  split
  · exact h
  · exact ite_keeps (fun _ => K.finalSetDown _ (K.notify _ (K.log _ (K.osq _ h)))) fun _ => h

theorem reportPlan (K : Still P) {s : State} (p : Plan) (h : P s) : P (s.reportPlan p) := by
  unfold State.reportPlan
  split
  · exact h
  · exact ite_keeps (fun _ => K.osq _ (K.osq _ h)) fun _ => K.osq _ h

theorem withdrawPlan (K : Still P) {s : State} (p : Plan) (h : P s) : P (s.withdrawPlan p) := by
  unfold State.withdrawPlan
  split
  · exact h
  · exact K.testClose _ (ite_keeps (fun _ => K.osq _ (K.osq _ h)) fun _ => K.osq _ h)

theorem passPlanning (K : Still P) (fuel : Nat) {s : State} (h : P s) : P (State.passPlanning fuel s) := by
  induction fuel generalizing s with
  | zero => exact h
  | succ fuel ih =>
    unfold State.passPlanning
    split
    · exact h
    · exact ite_keeps (fun _ => ih (K.osq _ h)) fun _ => h

theorem syncNoOrder (K : Still P) {s : State} (h : P s) : P s.syncNoOrder :=
  ite_keeps (fun _ => h) fun _ => ite_keeps (fun _ => K.raise _ _ _ nofun h) fun _ => K.drop _ _ nofun h

/-! #### The reasons of the stands (R97, R102) -/

theorem syncReasons (K : Still P) {s : State} (l : List Nat) (h : P s) : P (s.syncReasons l) := by
  have own : ∀ x ∈ l.flatMap s.standReasons, x.1.reason ≠ .lineStatusStale := by
    simp only [List.mem_flatMap, State.standReasons]
    rintro x ⟨i, -, hx⟩
    rcases List.mem_pair.1 hx with rfl | rfl <;> nofun
  refine K.alter _ _ ?_ ?_ h
  · simp only [List.mem_map, List.mem_filter]
    rintro y ⟨x, hx, rfl⟩
    exact own x hx.1
  · simp only [List.mem_map, List.mem_filter]
    rintro y ⟨x, hx, rfl⟩
    exact own x hx.1

end Still

namespace Quiet

/-! #### The Splice Planner (R96, R97) -/

theorem examine (K : Quiet P) {s : State} (i : Nat) (h : P s) : P (s.examine i) := by
  unfold State.examine
  dsimp only
  split
  · exact h
  · refine ite_keeps (fun _ => ?_) fun _ => h
    split
    · exact K.stand _ _ (fun _ => ⟨rfl, rfl, rfl, nofun⟩) h
    · split
      · exact K.stand _ _ (fun _ => ⟨rfl, rfl, rfl, nofun⟩) (K.urgent _ rfl h)
      · have due : P (s.onStand i fun st => { st with splice := .due }) := K.stand _ _ (fun _ => ⟨rfl, rfl, rfl, nofun⟩) h
        exact ite_keeps (fun _ => K.notify _ due) fun _ => due

theorem examineAll (K : Quiet P) {s : State} (h : P s) : P s.examineAll :=
  K.syncReasons _ (foldl_keeps (fun _ i => K.examine i) _ h)

end Quiet

/-! ### What a fault taken does (R145, R161, R168) -/

/-- P is also kept by what Line State Control and the Knife Planner do when the line comes to FAULTED. -/
structure Stops (P : State → Prop) : Prop extends Quiet P where
  knp : ∀ {s : State} (f : Knp → Knp), P s → P (s.onKnp f)
  rif : ∀ {s : State} (f : Rif → Rif), P s → P (s.onRif f)
  wmp : ∀ {s : State} (f : Wmp → Wmp), (f s.wmp).marks = s.wmp.marks → P s → P (s.onWmp f)
  lsc : ∀ {s : State} (f : Lsc → Lsc), (f s.lsc).status = s.lsc.status → P s → P (s.onLsc f)
  clear : ∀ {s : State}, P s → P { s with handed := [] }
  cut : ∀ {s : State} (o), P s → P (s.queueUrgent o)

namespace Stops

theorem planSheets (K : Stops P) (fuel : Nat) {s : State} (h : P s) : P (State.planSheets fuel s) := by
  induction fuel generalizing s with
  | zero => exact h
  | succ fuel ih =>
    unfold State.planSheets
    refine ite_keeps (fun _ => ?_) fun _ => h
    split
    · exact h
    · exact ih (K.passPlanning _ (K.reportPlan _ (K.knp _ (K.cut _ h))))

theorem refill (K : Stops P) {s : State} (h : P s) : P s.refill := K.syncNoOrder (K.planSheets _ h)

theorem clearKnife (K : Stops P) {s : State} (h : P s) : P s.clearKnife := by
  unfold State.clearKnife
  dsimp only
  exact K.refill (K.knp _ (foldl_keeps (fun _ p => K.withdrawPlan p) _ (K.knp _ (K.cut _ (K.rif _ h)))))

/-- The line comes to a state that no start leads to. -/
theorem enterState (K : Stops P) {s : State} (new : LineState) (c : StateCause) (further : List (Reason × Nat))
    (hn : new ≠ .threading ∧ new ≠ .producing) (hf : ∀ x ∈ further, x.1 ≠ .lineStatusStale) (h : P s) :
    P (s.enterState new c further) := by
  have own : ∀ x, ∀ r ∈ (stateReason x).toList, r.reason ≠ .lineStatusStale := by
    intro x r hr
    cases x <;> simp [stateReason, Raised.stoppedState] at hr <;> subst hr <;> nofun
  unfold State.enterState State.stateReported
  dsimp only
  have reasons := K.log (.lineState s.lsc.state new c) (K.alter
    (((stateReason s.lsc.state).toList.map fun r => (r.reason, r.inst)) ++ further) (stateReason new).toList
    (fun x hx => (List.mem_append.1 hx).elim
      (fun hx => by obtain ⟨r, hr, rfl⟩ := List.mem_map.1 hx; exact own _ r hr) (hf x))
    (own new) (K.lsc (fun l => { l with state := new }) rfl h))
  have planned := K.examineAll (K.refill (ite_keeps (c := new = .faulted ∧ s.lsc.state ≠ .faulted)
    (fun _ => K.clearKnife reasons) fun _ => reasons))
  exact ite_keeps (fun hc => absurd hc.2 (by simp [hn])) fun _ => planned

theorem takeFault (K : Stops P) {s : State} (f : FaultReport) (h : P s) : P (s.takeFault f) := by
  have lose : ∀ {t : State}, P t → P (if losesWeb f.code then t.loseMap else t) := fun ht =>
    ite_keeps (fun _ => K.wmp (fun w => { w with valid := false, armed := false }) rfl ht) fun _ => ht
  unfold State.takeFault
  split
  · dsimp only
    have taken := lose (K.notify (.faultLatched f.code f.detail (s.log (.fault f.code false f.detail)).lsc.state)
      (K.log (.fault f.code false f.detail) h))
    refine ite_keeps (fun _ => K.enterState _ _ _ ⟨nofun, nofun⟩ nofun (K.lsc _ ?_ taken)) fun _ => K.lsc _ ?_ taken
    all_goals rfl
  · dsimp only
    refine lose (ite_keeps (fun _ => h) fun _ => K.log _ (K.lsc _ ?_ h))
    rfl

theorem takeFaults (K : Stops P) {s : State} (h : P s) : P s.takeFaults := by
  have pass : ∀ {t : State}, P t → P t.takeHanded := fun ht =>
    foldl_keeps (P := P) (fun _ f hu => K.takeFault f hu) _ (K.clear ht)
  exact pass (pass h)

end Stops

end Sys2Proof.Machine
end

section
namespace Sys2Proof.Machine

/-! ### What stands in the reason set (R15) -/

/-- Whether a list of raised reasons holds one. -/
def holdsIn (x : Reason) (i : Nat) (l : List Raised) : Bool := l.any fun r => r.reason == x && r.inst == i

theorem holds_eq (s : State) (x : Reason) (i : Nat) : s.holds x i = holdsIn x i s.wtr.reasons := rfl

theorem holdsIn_drop (x y : Reason) (i j : Nat) (l : List Raised) :
    holdsIn x i (dropReason y j l) = (holdsIn x i l && !(y == x && j == i)) := by
  induction l with
  | nil => rfl
  | cons r l ih =>
    simp only [holdsIn, dropReason, List.filter_cons] at ih ⊢
    by_cases hr : (r.reason == y && r.inst == j) = true
    · obtain ⟨rfl, rfl⟩ : r.reason = y ∧ r.inst = j := by simpa using hr
      simp only [hr, Bool.not_true, Bool.false_eq_true, if_false, ih, List.any_cons]
      cases (r.reason == x && r.inst == i) <;> simp
    · simp only [hr, Bool.not_false, if_true, List.any_cons, ih]
      by_cases hx : (r.reason == x && r.inst == i) = true
      · have : (y == x && j == i) = false := by
          obtain ⟨rfl, rfl⟩ : r.reason = x ∧ r.inst = i := by simpa using hx
          by_contra hc
          obtain ⟨rfl, rfl⟩ : y = r.reason ∧ j = r.inst := by simpa using hc
          simp at hr
        simp [hx, this]
      · simp [hx]

theorem holdsIn_add (x : Reason) (i : Nat) (r : Raised) (l : List Raised) :
    holdsIn x i (addReason r l) = (holdsIn x i l || (r.reason == x && r.inst == i)) := by
  induction l with
  | nil => simp [holdsIn, addReason]
  | cons y l ih =>
    unfold addReason
    split
    · rename_i same
      simp only [holdsIn, List.any_cons, same.1, same.2]
      cases (r.reason == x && r.inst == i) <;> simp
    · split
      · simp [holdsIn, Bool.or_comm]
      · simp only [holdsIn, List.any_cons] at ih ⊢
        rw [ih, Bool.or_assoc]

/-- A raised reason that an alteration does not name stands as it stood. -/
theorem alter_holds_other {s : State} {x : Reason} (i : Nat) {d : List (Reason × Nat)} {r : List Raised}
    (hd : ∀ y ∈ d, y.1 ≠ x) (hr : ∀ y ∈ r, y.reason ≠ x) : (s.alter d r).holds x i = s.holds x i := by
  have drops : ∀ l, holdsIn x i (d.foldl (fun l y => dropReason y.1 y.2 l) l) = holdsIn x i l := by
    induction d with
    | nil => exact fun _ => rfl
    | cons y d ih =>
      intro l
      rw [List.foldl_cons, ih fun z hz => hd z (List.mem_cons_of_mem _ hz), holdsIn_drop]
      simp [hd y List.mem_cons_self]
  have raises : ∀ l, holdsIn x i (r.foldl (fun l y => addReason y l) l) = holdsIn x i l := by
    induction r with
    | nil => exact fun _ => rfl
    | cons y r ih =>
      intro l
      rw [List.foldl_cons, ih fun z hz => hr z (List.mem_cons_of_mem _ hz), holdsIn_add]
      simp [hr y List.mem_cons_self]
  rw [holds_eq, State.alter, setReasons_wtr]
  exact (raises _).trans (drops _)

theorem raise_holds (s : State) (x : Reason) (i : Nat) (q : SpeedReq) : (s.raise x i q).holds x i = true := by
  rw [holds_eq, State.raise, State.alter, setReasons_wtr]
  simp [holdsIn_add]

theorem drop_holds (s : State) (x : Reason) (i : Nat) : (s.drop x i).holds x i = false := by
  rw [holds_eq, State.drop, State.alter, setReasons_wtr]
  simp [holdsIn_drop]

/-! ### What the owners have been told of their sources (R180) -/

/-- What the blocks keep of their sources' freshness, with the heat tables and the Changeover Unit whole. -/
structure Sources where
  status  : TrackedStatus
  stale   : Bool
  notices : List Bool
  chg     : Chg
  hgr     : Hgr
  stacker : StackerState

def State.sources (s : State) : Sources where
  status := s.lsc.status
  stale := s.holds .lineStatusStale 0
  notices := s.spl.stands.toList.map fun st => st.staleNotice
  chg := s.chg
  hgr := s.hgr
  stacker := s.stk.state

/-- Nothing that comes of a fault changes what an owner has been told of its source. -/
theorem Stops.sources (x : Sources) : Stops fun s => s.sources = x where
  log _ h := by simpa [State.sources, State.holds] using h
  urgent _ _ h := by simpa [State.sources, State.holds] using h
  routine _ h := by simpa [State.sources, State.holds] using h
  hand _ _ h := h
  alter _ _ hd hr h := by simpa [State.sources, alter_holds_other 0 hd hr] using h
  osq _ h := h
  stk f hf h := by simpa [State.sources, State.holds, hf] using h
  stand i f hf h := by
    have notices := fun s : State => modify_map (fun st : Stand => st.staleNotice) s.spl.stands i f fun x => (hf x).2.2.1
    simpa [State.sources, State.holds, State.onStand, notices] using h
  knp _ h := h
  rif _ h := h
  wmp _ _ h := h
  lsc f hf h := by simpa [State.sources, State.holds, hf] using h
  clear h := h
  cut _ h := by simpa [State.sources, State.holds] using h

theorem takeFaults_sources (s : State) : s.takeFaults.sources = s.sources := (Stops.sources _).takeFaults rfl

end Sys2Proof.Machine
end

section
namespace Sys2Proof.Machine

/-! ### The tracked states of the slitter-scorers (R76) -/

/-- What the map does is not the Changeover Unit's business. -/
theorem Marks.changeover (c : Chg) : Marks fun s => s.chg = c where
  log _ h := by simpa using h
  urgent _ h := by simpa using h
  routine _ h := by simpa using h
  hand _ _ h := h
  alter _ _ _ _ h := by simpa using h
  speed _ h := by simpa using h
  map _ _ h := h
  knp _ _ h := h

@[simp] theorem openSlit_chg (s : State) (st : Slitter) (x : Int) : (s.openSlit st x).chg = s.chg :=
  ite_keeps (P := fun t => t.chg = s.chg) (fun _ => rfl) fun _ => (Marks.changeover s.chg).insertDefect _ rfl rfl

@[simp] theorem closeSlit_chg (s : State) (st : Slitter) : (s.closeSlit st).chg = s.chg :=
  ite_keeps (P := fun t => t.chg = s.chg) (fun _ => rfl) fun _ => (Marks.changeover s.chg).closeClaim _ _ _ rfl

/-- The tracked states of the two stations. -/
def Chg.tracked (c : Chg) : SlitterState × SlitterState := (c.stateA, c.stateB)

theorem stateOf_tracked {a b : Chg} (h : a.tracked = b.tracked) (st : Slitter) : a.stateOf st = b.stateOf st := by
  obtain ⟨ha, hb⟩ := Prod.mk.inj h
  cases st
  · exact ha
  · exact hb

@[simp] theorem setCause_tracked (c : Chg) (st : Slitter) (x : SlitCause) : (c.setCause st x).tracked = c.tracked := by
  cases st <;> rfl

@[simp] theorem setHeld_tracked (c : Chg) (st : Slitter) (x : Option Preset) : (c.setHeld st x).tracked = c.tracked := by
  cases st <;> rfl

/-- A report sets its station's state, and a preset held besides. -/
theorem track_stateOf (c : Chg) (st : Slitter) (x : SlitterState) : (c.track st x).stateOf st = x := by
  unfold Chg.track
  cases x
  case ready =>
    dsimp only
    split
    · rw [stateOf_tracked (setHeld_tracked _ _ _)]; cases st <;> rfl
    · cases st <;> rfl
  case parked => rw [stateOf_tracked (setHeld_tracked _ _ _)]; cases st <;> rfl
  all_goals cases st <;> rfl

@[simp] theorem sendPreset_tracked (s : State) (st : Slitter) (p : Preset) :
    (s.sendPreset st p).chg.tracked = s.chg.tracked := by
  simp [State.sendPreset, Chg.tracked]

@[simp] theorem endCause_tracked (s : State) (st : Slitter) : (s.endCause st).chg.tracked = s.chg.tracked := by
  unfold State.endCause; split <;> simp

@[simp] theorem openZone_tracked (s : State) (r : ChangeRec) : (s.openZone r).chg.tracked = s.chg.tracked := by
  unfold State.openZone; split <;> simp [Chg.tracked]

@[simp] theorem settleZone_tracked (s : State) : s.settleZone.chg.tracked = s.chg.tracked := by
  unfold State.settleZone
  split
  · rfl
  · split <;> simp [Chg.tracked]

@[simp] theorem forecastFor_tracked (s : State) (c : Option Nat) : (s.forecastFor c).chg.tracked = s.chg.tracked := by
  unfold State.forecastFor
  dsimp only
  split
  · rfl
  · split
    · rfl
    · split
      · rfl
      · split
        · rfl
        · exact sendPreset_tracked _ _ _

@[simp] theorem presetHead_tracked (s : State) : s.presetHead.chg.tracked = s.chg.tracked := by
  unfold State.presetHead
  split
  · rfl
  · split
    · rfl
    · exact sendPreset_tracked _ _ _

@[simp] theorem sendSwap_tracked (s : State) (r : ChangeRec) (st : Slitter) (l : List ChangeRec) :
    (s.sendSwap r st l).chg.tracked = s.chg.tracked := by
  simp [State.sendSwap, Chg.tracked]

@[simp] theorem trySwap_tracked (s : State) : s.trySwap.chg.tracked = s.chg.tracked := by
  unfold State.trySwap
  split
  · rfl
  · split
    · split
      · dsimp only
        split <;> simp
      · exact openZone_tracked _ _
    · exact openZone_tracked _ _

@[simp] theorem examineCrossed_tracked (s : State) : s.examineCrossed.chg.tracked = s.chg.tracked := by
  unfold State.examineCrossed
  split
  · rfl
  · split <;> simp

@[simp] theorem engage_tracked (s : State) (st : Slitter) : (s.engage st).chg.tracked = s.chg.tracked := by
  unfold State.engage
  dsimp only
  split
  · exact endCause_tracked _ _
  · rfl

@[simp] theorem endUntilSwap_tracked (s : State) (st : Slitter) : (s.endUntilSwap st).chg.tracked = s.chg.tracked := by
  unfold State.endUntilSwap; split <;> simp

@[simp] theorem confirmSwap_tracked (s : State) (r : ChangeRec) (st : Slitter) (l : List ChangeRec) :
    (s.confirmSwap r st l).chg.tracked = s.chg.tracked := by
  have engaged : ((s.onChg fun c => { c with timer := 0 }).engage st).chg.tracked = s.chg.tracked := engage_tracked _ _
  unfold State.confirmSwap
  dsimp only
  split <;> simp <;> exact engaged

@[simp] theorem represet_tracked (s : State) (st : Slitter) (x : Option SlitterState) :
    (s.represet st x).chg.tracked = s.chg.tracked := by
  unfold State.represet
  split
  · rfl
  · split <;> simp

@[simp] theorem takeConfirmation_tracked (s : State) (old : Chg) : (s.takeConfirmation old).chg.tracked = s.chg.tracked := by
  unfold State.takeConfirmation; split <;> simp

@[simp] theorem slitterLeft_tracked (s : State) (st : Slitter) : (s.slitterLeft st).chg.tracked = s.chg.tracked := by
  unfold State.slitterLeft
  dsimp only
  split <;> simp

@[simp] theorem slitterBack_tracked (s : State) (st : Slitter) : (s.slitterBack st).chg.tracked = s.chg.tracked := by
  unfold State.slitterBack
  dsimp only
  split
  · split <;> simp
  · simp only [State.onChg_chg]
    split
    · exact setCause_tracked _ _ _
    · rfl

@[simp] theorem learnSetting_tracked (s : State) (st : Slitter) : (s.learnSetting st).chg.tracked = s.chg.tracked := by
  unfold State.learnSetting
  split
  · simp only [State.onChg_chg, openSlit_chg]
    split
    · rfl
    · exact setCause_tracked _ _ _
  · split <;> rfl

@[simp] theorem retarget_tracked (s : State) (st : Slitter) : (s.retarget st).chg.tracked = s.chg.tracked := by
  unfold State.retarget
  split
  · rfl
  · split
    · simp only [examineCrossed_tracked, presetHead_tracked]; rfl
    · rfl

@[simp] theorem stationEvent_tracked (s : State) (old : Chg) (c : Option Slitter) (st : Slitter) :
    (s.stationEvent old c st).chg.tracked = s.chg.tracked := by
  unfold State.stationEvent
  dsimp only
  repeat' split
  all_goals simp [State.slitterUnplanned]

@[simp] theorem reforecast_tracked (s : State) (old : Chg) : (s.reforecast old).chg.tracked = s.chg.tracked := by
  unfold State.reforecast; split <;> simp

@[simp] theorem judgeConflict_tracked (s : State) : s.judgeConflict.chg.tracked = s.chg.tracked := by
  unfold State.judgeConflict; split <;> rfl

/-- After the reports nothing in their event sets a tracked state. -/
theorem slitterEvent_tracked (s : State) (a b : Option SlitterState) :
    (s.slitterEvent a b).chg.tracked = ((s.trackReport .a a).trackReport .b b).chg.tracked := by
  simp [State.slitterEvent]

/-- A station whose source has gone stale is tracked as UNKNOWN (R76). -/
theorem slitterStale_stateOf (s : State) (st : Slitter) : (s.slitterStale st).chg.stateOf st = .unknown := by
  cases st
  · exact (stateOf_tracked (slitterEvent_tracked _ _ _) .a).trans (track_stateOf s.chg .a .unknown)
  · exact (stateOf_tracked (slitterEvent_tracked _ _ _) .b).trans (track_stateOf s.chg .b .unknown)

end Sys2Proof.Machine
end

section
namespace Sys2Proof.Machine

/-! ### Entries of the tables -/

theorem modify_getElem? {α : Type} {n : Nat} (v : Vector α n) (i j : Nat) (f : α → α) :
    (modify v i f)[j]? = if j = i then v[j]?.map f else v[j]? := by
  unfold modify
  by_cases e : j = i
  · subst e
    by_cases hj : j < n
    · simp [put, hj]
    · simp [hj]
  · split
    · simp [put, e, Ne.symm e]
    · simp [e]

/-- A stand after a change of one: a place outside the table stays cleared. -/
theorem stand_onStand (s : State) (i j : Nat) (f : Stand → Stand) :
    (s.onStand i f).stand j = if j = i ∧ i < 7 then f (s.stand i) else s.stand j := by
  simp only [State.stand, State.onStand, State.onSpl, modify_getElem?]
  by_cases e : j = i
  · subst e
    by_cases hj : j < 7
    · simp [hj]
    · simp [hj]
  · simp [e]

theorem channel_onChannel (s : State) (i j : Nat) (f : Channel → Channel) :
    (s.onChannel i f).channel j = if j = i ∧ i < 16 then f (s.channel i) else s.channel j := by
  simp only [State.channel, State.onChannel, State.onHgr, modify_getElem?]
  by_cases e : j = i
  · subst e
    by_cases hj : j < 16
    · simp [hj]
    · simp [hj]
  · simp [e]

/-- A configured stand is one of the table's. -/
theorem stand_lt {s : State} {i : Nat} (h : (s.stand i).cfg.isSome = true) : i < 7 := by
  by_contra hi
  simp [State.stand, Vector.getElem?_eq_none (Nat.le_of_not_lt hi), Stand.cleared] at h

/-- A stand's notice as the sources give it. -/
theorem staleNotice_eq (s : State) (i : Nat) : (s.stand i).staleNotice = (s.sources.notices[i]?).getD false := by
  by_cases hi : i < 7
  · simp [State.stand, State.sources, hi]
  · simp [State.stand, State.sources, Nat.le_of_not_lt hi, Stand.cleared]

/-! ### A source that lapses (R179, R180) -/

/-- The table with an entry lapsed. -/
def State.lapsed (s : State) (i : Nat) (c : SubCfg) : State :=
  s.onIrt fun r => { r with subs := put r.subs i { cfg := some c, counter := 0, fresh := false } }

theorem lapse_fresh {s : State} {i : Fin 48} {c : SubCfg} (hf : s.irt.subs[i].fresh = true)
    (hc : s.irt.subs[i].cfg = some c) : s.lapse i = (s.lapsed i c).staleReport c := by
  have entry : s.irt.subs[(i : Nat)]? = some s.irt.subs[i] := by simp
  unfold State.lapse
  rw [entry]
  simp only [hc, hf, if_true]
  rfl

theorem lapse_quiet {s : State} {i : Fin 48} (h : s.irt.subs[i].fresh = false ∨ s.irt.subs[i].cfg = none) :
    s.lapse i = s := by
  have entry : s.irt.subs[(i : Nat)]? = some s.irt.subs[i] := by simp
  unfold State.lapse
  rw [entry]
  dsimp only
  rcases h with h | h
  · rw [h]; split <;> rfl
  · rw [h]

/-! ### What each owner keeps of a stale source, once the faults of the event are taken -/

theorem statusStale_taken (s : State) :
    s.statusStale.takeFaults.lsc.status = .unknown ∧ s.statusStale.takeFaults.holds .lineStatusStale 0 = true := by
  obtain ⟨status, stale, _⟩ := Sources.mk.inj (takeFaults_sources s.statusStale)
  refine ⟨status.trans ?_, stale.trans (raise_holds _ _ _ _)⟩
  simp [State.statusStale]

theorem diameterStale_taken {s : State} {i : Nat} (h : (s.stand i).cfg.isSome = true) :
    ((s.diameterStale i).takeFaults.stand i).staleNotice = true := by
  rw [staleNotice_eq, takeFaults_sources, ← staleNotice_eq]
  obtain ⟨c, hc⟩ := Option.isSome_iff_exists.1 h
  unfold State.diameterStale
  rw [hc]
  dsimp only
  rw [stand_onStand, if_pos ⟨rfl, stand_lt h⟩]

theorem diameterFresh_notice (s : State) (i : Nat) : ((s.diameterFresh i).stand i).staleNotice = false := by
  by_cases hi : i < 7
  · rw [State.diameterFresh, stand_onStand, if_pos ⟨rfl, hi⟩]
  · simp [State.stand, Nat.le_of_not_lt hi, Stand.cleared]

theorem channelStale_stale (s : State) {i : Nat} (b : Bool) (h : i ≤ 15) : ((s.channelStale i b).channel i).stale = b := by
  unfold State.channelStale
  rw [channel_onChannel, if_pos ⟨rfl, by omega⟩]

theorem channelStale_taken (s : State) {i : Nat} (h : i ≤ 15) :
    ((s.channelStale i true).takeFaults.channel i).stale = true := by
  have hgr := (Sources.mk.inj (takeFaults_sources (s.channelStale i true))).2.2.2.2.1
  rw [State.channel, hgr]
  exact channelStale_stale s true h

theorem slitterStale_taken (s : State) (st : Slitter) : (s.slitterStale st).takeFaults.chg.stateOf st = .unknown := by
  have chg := (Sources.mk.inj (takeFaults_sources (s.slitterStale st))).2.2.2.1
  rw [chg]
  exact slitterStale_stateOf s st

theorem stackStale_taken (s : State) : s.stackStale.takeFaults.stk.state = .unknown :=
  (Sources.mk.inj (takeFaults_sources s.stackStale)).2.2.2.2.2

theorem feedStale_taken (s : State) : s.feedStale.takeFaults.wtr.firstCount = true
    ∧ s.feedStale.takeFaults.wtr.debt = 0 ∧ s.feedStale.takeFaults.lsc.latch.isSome = true := by
  have counted : s.feedStale.takeFaults.wtr.counted = s.feedStale.wtr.counted := (Faults.counted _).takeFaults rfl
  obtain ⟨_, first, _, _, debt, _⟩ := Wtr.mk.inj counted
  exact ⟨first, debt, takeFaults_latched (by simp [State.feedStale, State.hand])⟩

/-! ### A ring cycle at the subscription table (R179) -/

theorem runEvents_append (l m : List (State → State)) (s : State) :
    runEvents (l ++ m) s = runEvents m (runEvents l s) := List.foldl_append ..

/-- Of a run with one event of the router's among others that keep its table, the table takes that event's change, wherever the
append falls. -/
theorem runEvents_split {a b : List (State → State)} {f : State → State} {g : Irt → Irt} {r : Irt}
    (ha : ∀ x ∈ a, ∀ u : State, u.irt = r → (x u).irt = r) (hb : ∀ x ∈ b, ∀ u : State, u.irt = g r → (x u).irt = g r)
    (hf : ∀ u : State, (f u).irt = g u.irt) (k : Nat) {s : State} (hs : s.irt = r) (append : State → State)
    (happend : ∀ u, (append u).irt = u.irt) :
    (runEvents ((a ++ f :: b).drop k) (append (runEvents ((a ++ f :: b).take k) s))).irt = g r := by
  have before : ∀ l : List (State → State), (∀ x ∈ l, x ∈ a) → ∀ u : State, u.irt = r → (runEvents l u).irt = r :=
    fun l h u => (Webs.router r).runEvents l fun x hx => ha x (h x hx)
  have after : ∀ l : List (State → State), (∀ x ∈ l, x ∈ b) → ∀ u : State, u.irt = g r → (runEvents l u).irt = g r :=
    fun l h u => (Webs.router (g r)).runEvents l fun x hx => hb x (h x hx)
  have one : ∀ l : List (State → State), (∀ x ∈ l, x ∈ b) → ∀ u : State, u.irt = r → (runEvents (f :: l) u).irt = g r :=
    fun l h u hu => after l h _ ((Webs.router (g r)).takeFaults ((hf u).trans (congrArg g hu)))
  rcases Nat.le_total k a.length with hk | hk
  · rw [List.drop_append_of_le_length hk, List.take_append_of_le_length hk, runEvents_append]
    exact one _ (fun _ h => h) _ (before _ (fun _ => List.mem_of_mem_drop) _
      ((happend _).trans (before _ (fun _ => List.mem_of_mem_take) _ hs)))
  · obtain ⟨j, rfl⟩ := Nat.exists_eq_add_of_le hk
    rw [List.drop_append, List.take_append, List.drop_of_length_le (by omega), List.take_of_length_le (by omega),
      Nat.add_sub_cancel_left, runEvents_append a]
    have start := before a (fun _ h => h) s hs
    cases j with
    | zero => exact one _ (fun _ h => h) _ ((happend _).trans start)
    | succ j =>
      exact after _ (fun _ => List.mem_of_mem_drop) _ ((happend _).trans (one _ (fun _ => List.mem_of_mem_take) _ start))

/-- Two places of one event in a list are one place, or the event stands in what goes before one and behind the other. -/
theorem same_place {α : Type} {a b c d : List α} {x : α} (h : a ++ x :: b = c ++ x :: d) :
    (a = c ∧ b = d) ∨ x ∈ a ∨ x ∈ b := by
  rcases List.append_eq_append_iff.1 h with ⟨e, rfl, he⟩ | ⟨e, rfl, he⟩
  · cases e with
    | nil => exact .inl ⟨by simp, by simpa using he⟩
    | cons y e =>
      obtain ⟨-, rfl⟩ := List.cons.inj he
      exact .inr (.inr (by simp))
  · cases e with
    | nil => exact .inl ⟨by simp, by simpa using he.symm⟩
    | cons y e =>
      obtain ⟨rfl, -⟩ := List.cons.inj he
      exact .inr (.inl (by simp))

/-- The subscription table after a ring cycle that hears the items l. -/
def Irt.cycle (r : Irt) (n : Nat) (l : List Item) : Irt := { r with subs := r.subs.map (SubEntry.cycle n l) }

/-- The router's own event in the ring cycle of a telegram (R179). -/
def State.routerEvent (s : State) (t : Telegram) (n : Nat) (u : State) : State :=
  (u.noticeBadItem t.items).onIrt fun r => { r with subs := r.subs.map (SubEntry.cycle n (t.items.filter s.looksUp)) }

theorem routerEvent_irt (s : State) (t : Telegram) (n : Nat) (u : State) :
    (s.routerEvent t n u).irt = u.irt.cycle n (t.items.filter s.looksUp) := by
  exact congrArg (fun r : Irt => r.cycle n _) ((Webs.router u.irt).noticeBadItem t.items rfl)

/-- The router's event splits the events of a ring cycle into some that keep the table as it was and some that keep it as the
event leaves it. -/
theorem cycleEvents_split (s : State) (o : EventOrder) (t : Telegram) (n : Nat) :
    ∃ a b, cycleEvents o s t n = a ++ s.routerEvent t n :: b
      ∧ (∀ x ∈ a, ∀ u : State, u.irt = s.irt → (x u).irt = s.irt)
      ∧ ∀ x ∈ b, ∀ u : State, u.irt = s.irt.cycle n (t.items.filter s.looksUp) →
          (x u).irt = s.irt.cycle n (t.items.filter s.looksUp) := by
  obtain ⟨a, b, split, keep⟩ := (Webs.router s.irt).cycleEvents o s t n
  obtain ⟨c, d, split', keep'⟩ := (Webs.router (s.irt.cycle n (t.items.filter s.looksUp))).cycleEvents o s t n
  have still (h : s.routerEvent t n ∈ a ++ b) : s.irt.cycle n (t.items.filter s.looksUp) = s.irt :=
    (routerEvent_irt s t n s).symm.trans (keep _ h s rfl)
  refine ⟨a, b, split, fun x hx => keep x (List.mem_append_left _ hx), ?_⟩
  rcases same_place (split.symm.trans split') with ⟨-, rfl⟩ | h | h
  · exact fun x hx => keep' x (List.mem_append_right _ hx)
  · rw [still (List.mem_append_left _ h)]
    exact fun x hx => keep x (List.mem_append_right _ hx)
  · rw [still (List.mem_append_right _ h)]
    exact fun x hx => keep x (List.mem_append_right _ hx)

/-- What a ring cycle makes of the router's table. -/
theorem ringCycle_irt (s : State) (p : RingPort) (t : Telegram) (n : Nat) :
    (s.ringCycle p t n).irt = s.irt.cycle n (t.items.filter s.looksUp) := by
  obtain ⟨a, b, split, ha, hb⟩ := cycleEvents_split s (Config.order s.choices) t n
  unfold State.ringCycle
  dsimp only
  rw [split]
  refine runEvents_split (g := fun r => r.cycle n (t.items.filter s.looksUp)) ha hb (routerEvent_irt s t n) _ ?_
    (fun u => u.appendItems p t) fun _ => rfl
  rfl

/-! ### An item heard (R178, R179) -/

theorem heard_iff (s : State) (l : List Item) (c : SubCfg) :
    (l.filter s.looksUp).any c.hears = true ↔ ∃ it ∈ l, itemMalformed it = false ∧ s.selfCode ≠ some it.source
      ∧ it.source = c.source ∧ payloadKind it.payload = some c.kind ∧ it.inst = c.inst := by
  simp [SubCfg.hears, State.looksUp, and_assoc]

theorem cycle_entry (r : Irt) (n : Nat) (l : List Item) (i : Fin 48) : (r.cycle n l).subs[i] = r.subs[i].cycle n l := by
  simp [Irt.cycle]

theorem cycle_empty {e : SubEntry} (n : Nat) (l : List Item) (h : e.cfg = none) : e.cycle n l = e := by
  simp [SubEntry.cycle, h]

theorem cycle_heard {e : SubEntry} {c : SubCfg} (n : Nat) {l : List Item} (h : e.cfg = some c) (hl : l.any c.hears = true) :
    e.cycle n l = { cfg := some c, counter := c.reload, fresh := true } := by
  unfold SubEntry.cycle
  rw [h]
  dsimp only
  rw [if_pos hl]

theorem cycle_unheard {e : SubEntry} {c : SubCfg} (n : Nat) {l : List Item} (h : e.cfg = some c)
    (hl : ¬l.any c.hears = true) : e.cycle n l
      = { cfg := some c, counter := e.counter - (n + 1), fresh := e.fresh && decide (n + 1 < e.counter) } := by
  unfold SubEntry.cycle
  rw [h]
  dsimp only
  rw [if_neg hl]

/-! ### The ring cycle that a telegram completes (R174) -/

/-- The missed-cycle count of a telegram. -/
def State.missed (s : State) (t : Telegram) : Nat :=
  match s.rif.cycle with
  | none => 0
  | some c => cycleStep c t.cycle - 1

theorem exec_cycleTelegram {s : State} {p : RingPort} {x : Arrival} {t : Telegram} (ht : readTelegram 1 x = some t)
    (hn : ∀ c, s.rif.cycle = some c → cycleStep c t.cycle ≠ 0) :
    exec (.cycleTelegram p x) s = .next (s.ringCycle p t (s.missed t)) := by
  have arrives : s.cycleArrives p x = s.takeCycle p t := by simp only [State.cycleArrives, ht]
  have takes : s.takeCycle p t = s.ringCycle p t (s.missed t) := by
    unfold State.takeCycle State.missed
    cases hc : s.rif.cycle with
    | none => rfl
    | some c => exact if_neg (hn c hc)
  rw [← takes, ← arrives]
  rfl

/-! ### A source that is fresh again (R180) -/

theorem freshReport_owner (s : State) (c : SubCfg) :
    (c.kind = .lineStatus → (s.freshReport c).holds .lineStatusStale 0 = false)
    ∧ (c.kind = .reelDiameter → ((s.freshReport c).stand (c.index - 1)).staleNotice = false)
    ∧ (c.kind = .zoneValue → c.index ≤ 15 → ((s.freshReport c).channel c.index).stale = false) := by
  refine ⟨fun h => ?_, fun h => ?_, fun h hi => ?_⟩
  · simp only [State.freshReport, h]
    exact drop_holds ..
  · simp only [State.freshReport, h]
    exact diameterFresh_notice ..
  · simp only [State.freshReport, h]
    exact channelStale_stale s false hi

/-- Settles O43: each owner's own rule, kept through the taking of the faults; the router's event among those of the ring
cycle, the others of which keep its table. -/
theorem freshnessLapseMakesTheSourceStale : Obligations.FreshnessLapseMakesTheSourceStale := by
  refine ⟨fun s i inv => ⟨fun h => ?_, fun c hf hc => ?_⟩, fun s p x t ht hn => ?_, freshReport_owner⟩
  · have taken : (s.lapse i).takeFaults = s := by rw [lapse_quiet h, State.takeFaults, takeHanded_nothing (inv_iff.1 inv).2,
      takeHanded_nothing (inv_iff.1 inv).2]
    exact congrArg _ taken
  · have lapse := lapse_fresh hf hc
    refine ⟨(s.lapse i).takeFaults, rfl, ?_, ?_⟩
    · exact (Webs.router _).takeFaults (lapse ▸ (Webs.router _).staleReport c rfl)
    · have configuration := (Rings.configuration s.configuration).takeFaults
        ((Rings.configuration s.configuration).lapse i rfl)
      rw [lapse] at configuration ⊢
      refine ⟨fun k => ?_, fun k => ?_, fun k hs => ?_, fun k hi => ?_, fun k => ?_, fun k => ?_, configuration⟩
      · simpa only [State.staleReport, k] using feedStale_taken _
      · simpa only [State.staleReport, k] using statusStale_taken _
      · simpa only [State.staleReport, k] using diameterStale_taken (s := s.lapsed i c) hs
      · simpa only [State.staleReport, k] using channelStale_taken _ hi
      · simpa only [State.staleReport, k] using slitterStale_taken _ _
      · simpa only [State.staleReport, k] using stackStale_taken _
  · refine ⟨_, exec_cycleTelegram ht hn, by rw [ringCycle_irt]; rfl, fun i => ?_⟩
    rw [ringCycle_irt, cycle_entry]
    refine ⟨cycle_empty _ _, fun c hc => ⟨fun hh => ?_, fun hh => ?_⟩⟩
    · exact cycle_heard _ hc ((heard_iff ..).2 hh)
    · exact cycle_unheard _ hc (mt (heard_iff ..).1 hh)

end Sys2Proof.Machine
end

section
namespace Sys2Proof.Machine

/-! ### What lies on the web while an advance is reported

The reports, examinations and tests of an advance insert and close defect marks, retire marks, judge plans, and change the
order table, the changeover and the heat tables. `Moves` says so once: the structural marks without claims that end above the
knife stay, and so do the places of the plans and the reels. -/

variable {P : State → Prop}

/-- An update of the map that leaves its closed structural marks above the knife. -/
def Wmp.Stands (a b : Wmp) : Prop :=
  ∀ m ∈ a.marks, m.kind.isStructural = true → m.claims = [] → 0 < m.closedEnd → m ∈ b.marks

theorem stands_place (w : Wmp) (m : Mark) : w.Stands { w with marks := place m w.marks } :=
  fun _ hx _ _ _ => (place_perm m _).mem_iff.2 (List.mem_cons_of_mem _ hx)

theorem stands_putBack {w : Wmp} {i : Nat} {old : Mark} (new : Mark) (hi : w.marks[i]? = some old)
    (ho : old.kind.isStructural = false) : w.Stands { w with marks := putBack w.marks i old new } := by
  intro m hm hs _ _
  rcases List.mem_cons.1 ((putBack_perm (new := new) hi).mem_iff.2 (List.mem_cons_of_mem _ hm)) with rfl | hm
  · simp [ho] at hs
  · exact hm

theorem stands_retire (w : Wmp) : w.Stands { w with marks := w.marks.filter fun m => !m.retires } := by
  intro m hm _ hc he
  exact List.mem_filter.2 ⟨hm, by simp [Mark.retires, Mark.isOpen, Mark.zoneEnd, hc, he]⟩

theorem ite_fst_keeps {β : Type} {c : Prop} [Decidable c] {s : State} {b : β} {y : State × β} (h₁ : c → P s)
    (h₂ : ¬c → P y.1) : P (if c then (s, b) else y).1 := by
  split
  · exact h₁ ‹_›
  · exact h₂ ‹_›

/-- A change of a plan that leaves its place alone. -/
def KeepsPlace (f : Plan → Plan) : Prop := ∀ x, (f x).seq = x.seq ∧ (f x).stop = x.stop ∧ (f x).length = x.length

/-- What an insertion of a defect mark, its report and a close do. -/
structure Marked (P : State → Prop) : Prop where
  log : ∀ {s : State} (b), P s → P (s.log b)
  map : ∀ {s : State} (f : Wmp → Wmp), s.wmp.Stands (f s.wmp) → P s → P (s.onWmp f)
  plan : ∀ {s : State} (i) (f : Plan → Plan), KeepsPlace f → P s → P (s.onPlan i f)
  cut : ∀ {s : State} (o), isKnifeItem o = true → P s → P (s.queueUrgent o)

structure Moves (P : State → Prop) : Prop extends Quiet P, Marked P where
  chg : ∀ {s : State} (f : Chg → Chg), P s → P (s.onChg f)
  hgr : ∀ {s : State} (f : Hgr → Hgr), P s → P (s.onHgr f)

namespace Marked

/-! #### The Web Map and the Knife Planner (R28, R29, R141 to R144) -/

theorem judgePlan (K : Marked P) {s : State} (m : Mark) (i : Nat) (h : P s) : P (s.judgePlan m i) := by
  unfold State.judgePlan
  split
  · exact h
  · have flag := K.plan i (fun p => { p with noted := true }) (fun _ => ⟨rfl, rfl, rfl⟩) h
    refine ite_keeps (fun _ => ite_keeps (fun _ => K.log _ (K.plan _ _ ?_ (K.cut _ rfl h))) fun _ => flag) fun _ => h
    exact fun _ => ⟨rfl, rfl, rfl⟩

theorem markReport (K : Marked P) {s : State} (m : Mark) (h : P s) : P (s.markReport m) :=
  foldl_keeps (fun _ i => K.judgePlan m i) _ h

theorem bumpSeq (K : Marked P) {s : State} (h : P s) : P s.bumpSeq := K.map _ (fun _ hm _ _ _ => hm) h

theorem placeMark (K : Marked P) {s : State} (m : Mark) (h : P s) : P (s.placeMark m) :=
  K.markReport m (K.map _ (stands_place _ m) h)

theorem absorb (K : Marked P) {s : State} {i : Nat} {old : Mark} (wide : Mark) (seq : Nat) (kind : MarkKind)
    (hi : s.wmp.marks[i]? = some old) (ho : old.kind.isStructural = false) (h : P s) : P (s.absorb i old wide seq kind) := by
  have put := K.log (.markMerged old.seq seq kind) (K.map (fun w => { w with marks := putBack w.marks i old wide })
    (stands_putBack wide hi ho) h)
  exact ite_keeps (fun _ => K.markReport _ put) fun _ => put

theorem insertDefect (K : Marked P) {s : State} (m : Mark) (h : P s) : P (s.insertDefect m).1 := by
  have bumped := K.bumpSeq h
  refine ite_fst_keeps (fun _ => h) fun _ => ?_
  refine ite_fst_keeps (fun _ => K.placeMark _ bumped) fun _ => ?_
  split
  · exact K.placeMark _ bumped
  · rename_i hd
    obtain ⟨hi, ho⟩ := nearestDefect_mem hd
    exact K.absorb _ _ _ hi ho bumped

theorem closeClaim (K : Marked P) {s : State} (k : ClaimKind) (o : Nat) (x : Int) (h : P s) : P (s.closeClaim k o x) := by
  refine K.map _ (fun m hm _ hc _ => ?_) h
  exact List.mem_filterMap.2 ⟨m, hm, by simp [Mark.holdsClaim, hc]⟩

end Marked

namespace Moves

/-! #### The plans at an advance (R141, R143) -/

theorem knifeTests (K : Moves P) {s : State} (h : P s) : P s.knifeTests := by
  have late : ∀ (s : State) (i : Nat), P s → P (s.judgeLate i) := by
    intro s i h
    unfold State.judgeLate
    split
    · exact h
    · exact ite_keeps (fun _ => K.plan _ _ (fun _ => ⟨rfl, rfl, rfl⟩) (K.hand _ _ h)) fun _ => h
  exact foldl_keeps (P := P) (fun _ i => foldl_keeps (P := P) (fun _ m => K.judgePlan m i) _) _ (foldl_keeps late _ h)

/-! #### The Changeover Unit (R74 to R84) -/

theorem sendPreset (K : Moves P) {s : State} (st : Slitter) (p : Preset) (h : P s) : P (s.sendPreset st p) :=
  K.chg _ (K.routine _ h)

theorem openSlit (K : Moves P) {s : State} (st : Slitter) (x : Int) (h : P s) : P (s.openSlit st x) :=
  ite_keeps (fun _ => h) fun _ => K.insertDefect _ h

theorem openZone (K : Moves P) {s : State} (r : ChangeRec) (h : P s) : P (s.openZone r) :=
  ite_keeps (fun _ => h) fun _ => K.raise _ _ _ nofun (K.chg _ (K.openSlit _ _ h))

theorem forecastFor (K : Moves P) {s : State} (c : Option Nat) (h : P s) : P (s.forecastFor c) := by
  have none_ : P (s.onChg fun c => { c with forecast := none }) := K.chg _ h
  refine ite_keeps (fun _ => none_) fun _ => ?_
  split
  · exact none_
  · exact ite_keeps (fun _ => none_) fun _ => ite_keeps (fun _ => h) fun _ => K.chg _ (K.sendPreset _ _ h)

theorem presetHead (K : Moves P) {s : State} (h : P s) : P s.presetHead := by
  unfold State.presetHead
  split
  · exact h
  · exact ite_keeps (fun _ => h) fun _ => K.chg _ (K.sendPreset _ _ h)

theorem newRecord (K : Moves P) {s : State} (x : Setting) (seq : Nat) (z : Int) (h : P s) :
    P (s.newRecord x seq z).1 := by
  exact ite_fst_keeps (fun _ => K.chg _ h) fun _ => K.presetHead (K.chg _ (K.chg _ h))

theorem decideFlying (K : Moves P) {s : State} (i : Option Nat) (seq : Nat) (x : Int) (h : P s) :
    P (s.decideFlying i seq x).1 := by
  unfold State.decideFlying
  split
  · exact h
  · refine ite_fst_keeps (fun _ => h) fun _ => ?_
    split
    · exact ite_fst_keeps (fun _ => K.chg _ (K.chg _ h)) fun _ => K.newRecord _ _ _ (K.chg _ h)
    · exact K.newRecord _ _ _ (K.chg _ h)

theorem trySwap (K : Moves P) {s : State} (h : P s) : P s.trySwap := by
  have sent (r rest) (st : Slitter) : P (s.sendSwap r st rest) := K.chg _ (K.urgent _ rfl h)
  unfold State.trySwap
  split
  · exact h
  · split
    · exact ite_keeps (fun _ => ite_keeps (fun _ => K.openZone _ (sent ..)) fun _ => sent ..) fun _ =>
        K.openZone _ (K.chg _ h)
    · exact K.openZone _ (K.chg _ h)

theorem crossSlitter (K : Moves P) {s : State} (m : Mark) (h : P s) : P (s.crossSlitter m) := by
  unfold State.crossSlitter
  split
  · exact h
  · exact ite_keeps (fun _ => h) fun _ => ite_keeps (fun _ => K.trySwap (K.presetHead (K.chg _ h))) fun _ =>
      K.openZone _ (K.chg _ h)

theorem swapAdvance (K : Moves P) {s : State} (h : P s) : P s.swapAdvance := by
  unfold State.swapAdvance
  split
  · exact K.openZone _ h
  · exact h

/-! #### The Splice Planner (R91, R94, R102) -/

theorem syncDemand (K : Moves P) {s : State} (i : Nat) (h : P s) : P (s.syncDemand i) :=
  K.stand _ _ (fun _ => by split <;> exact ⟨rfl, rfl, rfl, id⟩) h

theorem judgePaper (K : Moves P) {s : State} (i : Nat) (a b : Int) (h : P s) : P (s.judgePaper i a b) :=
  K.syncDemand _ (ite_keeps (fun _ => K.stand _ _ (fun _ => ⟨rfl, rfl, rfl, id⟩) (K.insertDefect _ h)) fun _ =>
    ite_keeps (fun _ => K.stand _ _ (fun _ => ⟨rfl, rfl, rfl, id⟩) (K.closeClaim _ _ _ h)) fun _ => h)

theorem crossLead (K : Moves P) {s : State} (i : Nat) (o : Option Nat) (b : Nat) (h : P s) : P (s.crossLead i o b) := by
  unfold State.crossLead
  split
  · exact h
  · exact K.syncReasons _ (K.examine _ (K.syncDemand _ (K.stand _ _ (fun _ => ⟨rfl, rfl, rfl, id⟩) h)))

theorem crossSplicePoint (K : Moves P) {s : State} (i : Nat) (o : Option Nat) (x : Int) (h : P s) :
    P (s.crossSplicePoint i o x) := by
  unfold State.crossSplicePoint
  split
  · exact h
  · exact K.syncReasons _ (K.examine _ (K.judgePaper _ _ _ (K.stand _ _ (fun _ => ⟨rfl, rfl, rfl, id⟩) h)))

theorem judgeStands (K : Moves P) {s : State} (h : P s) : P s.judgeStands := by
  have runout : ∀ {s : State} (i : Nat), P s → P (s.judgeRunout i) := by
    intro s i h
    unfold State.judgeRunout
    dsimp only
    split
    · exact h
    · exact ite_keeps (fun _ => K.hand _ _ h) fun _ => h
  exact K.syncReasons _ (foldl_keeps (fun _ i ht => runout i (K.examine i ht)) _ h)

/-! #### The Heat and Glue Regulator (R112, R113, R123) -/

theorem sendSetpoint (K : Moves P) {s : State} (p : Nat) (h : P s) : P (s.sendSetpoint p) := by
  unfold State.sendSetpoint
  dsimp only
  split
  · exact h
  · exact ite_keeps (fun _ => h) fun _ => K.hgr _ (K.hgr _ (K.routine _ h))

theorem closeIfIdle (K : Moves P) {s : State} (p : Nat) (h : P s) : P (s.closeIfIdle p) := by
  have close : ∀ (s : State) (c : Nat) (d), P s → P (s.closeOffband c p d) := fun _ _ _ h =>
    K.notify _ (K.hgr _ (K.closeClaim _ _ _ h))
  unfold State.closeIfIdle
  split
  · exact h
  · exact ite_keeps (fun _ => foldl_keeps (P := P) (fun s c ht => ite_keeps (fun _ => close s c _ ht) fun _ => ht) _ h)
      fun _ => h

theorem crossPoint (K : Moves P) {s : State} (p : Nat) (o : Option Nat) (h : P s) : P (s.crossPoint p o) := by
  unfold State.crossPoint
  split
  · exact h
  · exact ite_keeps (fun _ => h) fun _ => K.closeIfIdle _ (K.sendSetpoint _ (K.hgr _ h))

/-! #### Boundaries (R33, R55, R61, R71) -/

theorem crossed (K : Moves P) {s : State} (m : Mark) (r : StationRole) (h : P s) : P (s.crossed m r) := by
  unfold State.crossed
  split
  · cases r
    · exact K.crossLead _ _ _ h
    · exact K.crossSplicePoint _ _ _ h
    · exact K.crossSlitter _ h
    · exact K.crossPoint _ _ h
  · exact h

theorem rejected (K : Moves P) {s : State} (i : Nat) (f : CheckFailure) (h : P s) : P (s.rejected i f) :=
  K.log _ (K.notify _ h)

theorem taken (K : Moves P) {s : State} (i : Nat) (h : P s) : P (s.taken i) := by
  unfold State.taken State.onSlot
  exact K.osq _ h

theorem select (K : Moves P) (fuel : Nat) {s : State} (h : P s) : P (State.select fuel s).1 := by
  induction fuel generalizing s with
  | zero => exact h
  | succ fuel ih =>
    unfold State.select
    split
    · dsimp only
      split
      · exact K.taken _ (K.osq _ h)
      · exact ih (K.rejected _ _ (K.osq _ (K.osq _ h)))
    · split
      · dsimp only
        split
        · exact K.taken _ (K.osq _ h)
        · exact ih (K.testClose _ (K.rejected _ _ (K.osq _ (K.osq _ h))))
      · split
        · dsimp only
          split
          · exact K.taken _ (K.osq _ h)
          · exact ih (K.rejected _ _ (K.osq _ (K.osq _ h)))
        · exact h

theorem closeLead (K : Moves P) {s : State} (g : Segment) (seq : Nat) (b : Bool) (h : P s) : P (s.closeLead g seq b) := by
  have suspend : ∀ {s : State}, P s → P s.suspendLead := by
    intro s h
    unfold State.suspendLead
    split
    · exact h
    · exact K.osq _ (K.osq _ h)
  exact ite_keeps (fun _ => suspend (K.osq _ h)) fun _ => K.osq _ h

theorem placeBoundary (K : Moves P) {s : State} (m : Mark) (h : P s) : P (s.placeBoundary m) :=
  foldl_keeps (P := P) (fun _ r => K.crossed m r) _ (K.placeMark m (K.bumpSeq h))

theorem openSegment (K : Moves P) {s : State} (x : Option (Nat × Origin)) (seq : Nat) (h : P s) : P (s.openSegment x seq) := by
  unfold State.openSegment
  exact K.osq _ h

theorem reportCandidate (K : Moves P) {s : State} (h : P s) : P s.reportCandidate :=
  ite_keeps (fun _ => h) fun _ => K.forecastFor _ (K.osq _ h)

theorem createBoundary (K : Moves P) {s : State} (x : Int) (b : Bool) (h : P s) : P (s.createBoundary x b) := by
  unfold State.createBoundary
  split
  · exact h
  · exact K.syncNoOrder (K.passPlanning _ (K.reportCandidate (K.openSegment _ _ (K.placeBoundary _ (K.decideFlying _ _ _
      (K.select _ (K.closeLead _ _ _ h)))))))

theorem evaluateCreation (K : Moves P) (fuel : Nat) {s : State} (h : P s) : P (State.evaluateCreation fuel s) := by
  have create : ∀ (s : State) (d : Due), P s → P (s.createDue d) := by
    intro s d h
    cases d with
    | nothing => exact h
    | endBoundary p => exact K.createBoundary _ _ h
    | available => exact K.createBoundary _ _ h
    | suspension => exact K.createBoundary _ _ h
  induction fuel generalizing s with
  | zero => exact h
  | succ fuel ih =>
    unfold State.evaluateCreation
    split
    · exact h
    · exact ih (create _ _ h)

theorem retireSegment (K : Moves P) {s : State} (h : P s) : P s.retireSegment := by
  unfold State.retireSegment
  split
  · dsimp only
    split
    · exact K.osq _ h
    · exact K.testClose _ (K.osq _ (K.osq _ h))
  · exact h

theorem retireMarks (K : Moves P) {s : State} (h : P s) : P s.retireMarks := by
  have retired : ∀ (s : State) (m : Mark), P s → P (s.retired m) := by
    intro s m h
    unfold State.retired
    split
    · exact K.syncNoOrder (K.retireSegment h)
    · exact ite_keeps (fun _ => K.map _ (fun _ hm _ _ _ => hm) h) fun _ => h
    · exact h
  exact foldl_keeps retired _ (K.map _ (stands_retire _) h)

theorem mapReports (K : Moves P) {s : State} (l : List (Mark × StationRole)) (h : P s) : P (s.mapReports l) :=
  K.retireMarks (foldl_keeps (P := P) (fun _ (x : Mark × StationRole) => K.crossed x.1 x.2) _ h)

end Moves

end Sys2Proof.Machine
end

section
namespace Sys2Proof.Machine

/-! ### What an advance moves (R8, R30, R83, R91, R120, R128, R171) -/

/-- The places of the plans, the front, the cut edge and the withdrawn plans. -/
def Knp.places (k : Knp) : List (Nat × Int × Int) × Int × Int × List Withdrawn :=
  (k.plans.map fun x => (x.seq, x.stop, x.length), k.front, k.cutEdge, k.withdrawn)

/-- The running reel of every stand with what remains of it. -/
def State.reels (s : State) : List (Option Reel × Nat) := s.spl.stands.toList.map fun st => (st.running, st.remain)

/-- What lies on the web in v lies so in u, and Line State Control stands. -/
structure Lies (v u : State) : Prop where
  marks  : v.wmp.Stands u.wmp
  places : u.knp.places = v.knp.places
  reels  : u.reels = v.reels
  line   : u.lsc = v.lsc

theorem Lies.refl (v : State) : Lies v v := ⟨fun _ h _ _ _ => h, rfl, rfl, rfl⟩

theorem modify_places (k : Knp) (i : Nat) {f : Plan → Plan} (hf : KeepsPlace f) :
    Knp.places { k with plans := k.plans.modify i f } = k.places := by
  have plans : (k.plans.modify i f).map (fun x => (x.seq, x.stop, x.length))
      = k.plans.map fun x => (x.seq, x.stop, x.length) := by
    refine List.ext_getElem? fun j => ?_
    simp only [List.getElem?_map, List.getElem?_modify]
    cases k.plans[j]? with
    | none => rfl
    | some x =>
      obtain ⟨seq, stop, length⟩ := hf x
      by_cases e : i = j <;> simp [e, seq, stop, length]
  simp only [Knp.places, plans]

/-- What an advance's reports, examinations and tests do leaves what lies on the web where it is. -/
theorem Moves.lies (v : State) : Moves (Lies v) where
  log _ h := ⟨by simpa using h.marks, by simpa using h.places, by simpa [State.reels] using h.reels, by simpa using h.line⟩
  urgent _ _ h :=
    ⟨by simpa using h.marks, by simpa using h.places, by simpa [State.reels] using h.reels, by simpa using h.line⟩
  routine _ h :=
    ⟨by simpa using h.marks, by simpa using h.places, by simpa [State.reels] using h.reels, by simpa using h.line⟩
  hand _ _ h := ⟨h.marks, h.places, h.reels, h.line⟩
  alter _ _ _ _ h :=
    ⟨by simpa using h.marks, by simpa using h.places, by simpa [State.reels] using h.reels, by simpa using h.line⟩
  osq _ h := ⟨h.marks, h.places, h.reels, h.line⟩
  stk _ _ h := ⟨h.marks, h.places, h.reels, h.line⟩
  stand i f hf h := by
    refine ⟨h.marks, h.places, Eq.trans ?_ h.reels, h.line⟩
    exact modify_map (fun st : Stand => (st.running, st.remain)) _ i f fun x => by simp [hf x]
  map _ hf h := ⟨fun m hm hs hc he => hf m (h.marks m hm hs hc he) hs hc he, h.places, h.reels, h.line⟩
  plan i _ hf h := ⟨h.marks, (modify_places _ i hf).trans h.places, h.reels, h.line⟩
  chg _ h := ⟨h.marks, h.places, h.reels, h.line⟩
  hgr _ h := ⟨h.marks, h.places, h.reels, h.line⟩
  cut _ _ h :=
    ⟨by simpa using h.marks, by simpa using h.places, by simpa [State.reels] using h.reels, by simpa using h.line⟩

theorem advance_zero (v : State) (b : Bool) : v.advance 0 b = v := rfl

/-- The state once the map's reports and the stands' judgement of an advance are done, in their order. -/
def State.judged (v : State) (a : Nat) (b : Bool) : State :=
  let reports := crossingsOf a v.registered v.wmp.marks
  if b then (v.shift a).judgeStands.mapReports reports else ((v.shift a).mapReports reports).judgeStands

theorem advance_eq (v : State) {a : Nat} (b : Bool) (h : 0 < a) :
    v.advance a b = if 4 ≤ v.osq.segments.length then (v.judged a b).swapAdvance.knifeTests
      else State.evaluateCreation 4 (v.judged a b).swapAdvance.knifeTests := by
  unfold State.advance
  rw [if_neg (Nat.ne_of_gt h)]
  dsimp only
  by_cases full : 4 ≤ v.osq.segments.length
  · rw [if_pos full, if_pos (decide_eq_true full)]; rfl
  · rw [if_neg full, if_neg (by simpa using full)]; rfl

theorem advance_lies (v : State) {a : Nat} (b : Bool) (h : 0 < a) : Lies (v.shift a) (v.advance a b) := by
  have K := Moves.lies (v.shift a)
  have judged : Lies (v.shift a) (v.judged a b) :=
    ite_keeps (fun _ => K.mapReports _ (K.judgeStands (Lies.refl _))) fun _ => K.judgeStands (K.mapReports _ (Lies.refl _))
  have tested := K.knifeTests (K.swapAdvance judged)
  rw [advance_eq v b h]
  exact ite_keeps (fun _ => tested) fun _ => K.evaluateCreation _ tested

theorem move_eq (a : Nat) (m : Mark) :
    m.move a = { m with start := max (m.start - a) (-100000), closedEnd := m.closedEnd - a } := by
  have : (if m.start - a < knifeFloor then knifeFloor else m.start - a) = max (m.start - a) (-100000) := by
    unfold knifeFloor; split <;> omega
  rw [Mark.move, this]

theorem shift_channel (v : State) (a c : Nat) : (v.shift a).channel c = (v.channel c).advance a := by
  show ((v.hgr.channels.map (Channel.advance a))[c]?).getD _ = _
  rw [Vector.getElem?_map, State.channel]
  cases v.hgr.channels[c]? <;> rfl

theorem shift_stand (v : State) (a k : Nat) : (v.shift a).stand k = { v.stand k with
    remain := if (v.stand k).running.isSome then (v.stand k).remain - a else (v.stand k).remain } := by
  show ((v.spl.stands.map _)[k]?).getD _ = _
  rw [Vector.getElem?_map, State.stand]
  cases v.spl.stands[k]? with
  | none => rfl
  | some st =>
    simp only [Option.map_some, Option.getD_some]
    split <;> rfl

theorem shift_eq (v : State) (a : Nat) : v.shift a = { v with
    wmp := { v.wmp with
      marks := v.wmp.marks.map fun m => { m with start := max (m.start - a) (-100000), closedEnd := m.closedEnd - a } },
    knp := { v.knp with
      plans := v.knp.plans.map fun x => { x with stop := x.stop - a },
      cutEdge := v.knp.cutEdge - a,
      front := v.knp.front - a,
      withdrawn := v.knp.withdrawn.map fun x => { x with stop := x.stop - a } },
    chg := { v.chg with records := v.chg.records.map fun r => { r with zoneEnd := r.zoneEnd - a } },
    spl := (v.shift a).spl, hgr := { v.hgr with channels := (v.shift a).hgr.channels }, lsc := (v.shift a).lsc } := by
  have marks : (v.shift a).wmp = { v.wmp with marks := v.wmp.marks.map fun m =>
      { m with start := max (m.start - a) (-100000), closedEnd := m.closedEnd - a } } := by
    rw [← funext (move_eq a)]; rfl
  rw [← marks]
  rfl

/-- A stand's reel as the list of reels gives it. -/
theorem stand_reel (s : State) (k : Nat) :
    ((s.stand k).running, (s.stand k).remain) = (s.reels[k]?).getD (none, 0) := by
  by_cases hk : k < 7
  · simp [State.stand, State.reels, hk]
  · simp [State.stand, State.reels, Nat.le_of_not_lt hk, Stand.cleared]

end Sys2Proof.Machine
end

section
namespace Sys2Proof.Machine

/-! ### The append (R184) -/

theorem fitting_eq_take (room : Nat) (l : List OutItem) : fitting room l = l.take (fitting room l).length := by
  induction l generalizing room with
  | nil => rfl
  | cons o l ih =>
    unfold fitting
    split
    · simpa using ih _
    · rfl

theorem fitting_length_le (room : Nat) (l : List OutItem) : (fitting room l).length ≤ l.length := by
  rw [fitting_eq_take, List.length_take]
  omega

theorem fitting_fits (room : Nat) (l : List OutItem) : ((fitting room l).map outLength).sum ≤ room := by
  induction l generalizing room with
  | nil => exact Nat.zero_le _
  | cons o l ih =>
    unfold fitting
    split
    · have := ih (room - outLength o)
      simp only [List.map_cons, List.sum_cons]
      omega
    · exact Nat.zero_le _

/-- The first item that is left does not fit. -/
theorem fitting_stops (room : Nat) (l : List OutItem) (h : (fitting room l).length < l.length) :
    room < ((l.take ((fitting room l).length + 1)).map outLength).sum := by
  induction l generalizing room with
  | nil => exact absurd h (by simp)
  | cons o l ih =>
    unfold fitting at h ⊢
    split at h
    · rename_i fits
      have := ih (room - outLength o) (by simpa using h)
      rw [if_pos fits]
      simp only [List.length_cons, List.take_succ_cons, List.map_cons, List.sum_cons]
      omega
    · rename_i fits
      rw [if_neg fits]
      simpa using fits

/-- The items appended are those of the urgent queue up to the first that does not fit, and once every one has gone those of the
routine queue and its overflow. -/
theorem appended_takes (room : Nat) (r : Rif) :
    ∃ i j, (appended room r).1 = r.urgent.take i ∧ (appended room r).2 = (r.routine ++ r.overflow.toList).take j
      ∧ i ≤ r.urgent.length ∧ j ≤ (r.routine ++ r.overflow.toList).length ∧ (0 < j → i = r.urgent.length)
      ∧ ((r.urgent.take i ++ (r.routine ++ r.overflow.toList).take j).map outLength).sum ≤ room
      ∧ (i < r.urgent.length → room < ((r.urgent.take (i + 1)).map outLength).sum)
      ∧ (i = r.urgent.length → j < r.routine.length ∨ 0 < j ∧ j < (r.routine ++ r.overflow.toList).length →
          room < ((r.urgent ++ (r.routine ++ r.overflow.toList).take (j + 1)).map outLength).sum) := by
  have fits := fitting_fits room r.urgent
  unfold appended
  dsimp only
  by_cases hu : (fitting room r.urgent).length < r.urgent.length
  · rw [if_pos hu]
    refine ⟨_, 0, fitting_eq_take _ _, rfl, Nat.le_of_lt hu, Nat.zero_le _, fun h => absurd h (lt_irrefl _), ?_,
      fun _ => fitting_stops _ _ hu, fun h => absurd h (Nat.ne_of_lt hu)⟩
    rwa [List.take_zero, List.append_nil, ← fitting_eq_take]
  · rw [if_neg hu]
    have whole : fitting room r.urgent = r.urgent := by
      rw [fitting_eq_take, List.take_of_length_le (Nat.le_of_not_lt hu)]
    rw [whole] at fits ⊢
    let left := room - (r.urgent.map outLength).sum
    have total : ∀ l : List OutItem, ((r.urgent ++ l).map outLength).sum = (r.urgent.map outLength).sum + (l.map outLength).sum :=
      fun l => by rw [List.map_append, List.sum_append]
    have within : ∀ l : List OutItem, (l.map outLength).sum ≤ left → ((r.urgent ++ l).map outLength).sum ≤ room := by
      intro l hl; rw [total]; omega
    have beyond : ∀ l : List OutItem, left < (l.map outLength).sum → room < ((r.urgent ++ l).map outLength).sum := by
      intro l hl; rw [total]; omega
    refine ⟨r.urgent.length, ?_⟩
    simp only [List.take_length, le_refl, lt_irrefl, false_implies, forall_true_left, implies_true, true_and]
    split
    · refine ⟨(fitting left (r.routine ++ r.overflow.toList)).length, rfl, fitting_eq_take _ _, fitting_length_le _ _,
        within _ ?_, fun h => beyond _ (fitting_stops _ _ ?_)⟩
      · rw [← fitting_eq_take]
        exact fitting_fits _ _
      · rw [List.length_append] at h ⊢
        omega
    · rename_i part
      have stays : ∀ j, j ≤ r.routine.length → (r.routine ++ r.overflow.toList).take j = r.routine.take j := fun j hj =>
        List.take_append_of_le_length hj
      have short := fitting_length_le left r.routine
      refine ⟨(fitting left r.routine).length, rfl, ?_, ?_, within _ ?_, fun h => beyond _ ?_⟩
      · rw [stays _ short]
        exact fitting_eq_take _ _
      · rw [List.length_append]
        omega
      · rw [stays _ short, ← fitting_eq_take]
        exact fitting_fits _ _
      · have some_left : (fitting left r.routine).length < r.routine.length := by
          rcases h with h | h
          · exact h
          · refine lt_of_le_of_ne short fun e => part ⟨e, List.ne_nil_of_length_pos h.1⟩
        rw [stays _ some_left]
        exact fitting_stops _ _ some_left

/-- The bytes of a telegram that leaves with items of the part behind its own. -/
theorem appendItems_passed (v : State) (p : RingPort) (t : Telegram) (l : List OutItem)
    (h : (appended (1500 - t.total) v.rif).1 ++ (appended (1500 - t.total) v.rif).2 = l) :
    (v.appendItems p t).passed = some
      { port := v.wayOut p,
        bytes := t.bytes.take 4 ++ writeInt 2 (t.total + ((l.map outLength).sum : Nat)) ++ t.bytes.drop 6
          ++ l.flatMap (writeItem v.source) } := by
  subst h
  show some ({ port := v.wayOut p, bytes := writeAppended t _ } : Passage) = _
  rw [writeAppended, overwrite, writeInt_length, writeItems_length]

theorem appendItems_rif (v : State) (p : RingPort) (t : Telegram) :
    (v.appendItems p t).rif
      = v.rif.afterAppend (appended (1500 - t.total) v.rif).1 (appended (1500 - t.total) v.rif).2 := rfl

theorem afterAppend_takes (r : Rif) {i j : Nat} (hi : i ≤ r.urgent.length)
    (hj : j ≤ (r.routine ++ r.overflow.toList).length) :
    r.afterAppend (r.urgent.take i) ((r.routine ++ r.overflow.toList).take j) = { r with
      urgent := r.urgent.drop i,
      routine := if j = 0 then r.routine else (r.routine ++ r.overflow.toList).drop j,
      overflow := if j = 0 then r.overflow else none } := by
  unfold Rif.afterAppend
  rw [List.length_take, List.length_take, Nat.min_eq_left hi, Nat.min_eq_left hj]
  cases j with
  | zero => rfl
  | succ j =>
    have taken : ((r.routine ++ r.overflow.toList).take (j + 1)).isEmpty = false := by
      cases e : r.routine ++ r.overflow.toList with
      | nil => simp [e] at hj
      | cons o l => rfl
    simp only [taken, Bool.false_eq_true, if_false, Nat.succ_ne_zero]

/-! ### The ring cycle (R174, R182) -/

/-- The state in which the events of a ring cycle begin. -/
def State.heardCycle (s : State) (t : Telegram) : State := { s with
  choices := s.choices + 1,
  rif := { s.rif with ring := .up, timer := some s.line.nums.ringTimeout, cycle := some (t.cycle % 65536) },
  lineStop := decide (s.wtr.request = .stop) }

/-- The state in which RIF's append takes place. -/
def State.beforeAppend (s : State) (t : Telegram) (n : Nat) : State :=
  runEvents ((cycleEvents (Config.order s.choices) s t n).take (Config.order s.choices).appendAt) (s.heardCycle t)

theorem ringCycle_eq (s : State) (p : RingPort) (t : Telegram) (n : Nat) :
    s.ringCycle p t n = runEvents ((cycleEvents (Config.order s.choices) s t n).drop (Config.order s.choices).appendAt)
      ((s.beforeAppend t n).appendItems p t) := by
  have heard : (({ s with choices := s.choices + 1 } : State).ringHeard.onRif fun r =>
      { r with cycle := some (t.cycle % 65536) }) = s.heardCycle t := by
    have stop : (s.wtr.request == .stop || RingState.up == .lost) = decide (s.wtr.request = .stop) := Bool.or_false _
    rw [State.heardCycle, ← stop]
    rfl
  unfold State.ringCycle State.beforeAppend
  rw [← heard]

theorem beforeAppend_outside (s : State) (t : Telegram) (n : Nat) : (s.beforeAppend t n).outside = (s.heardCycle t).outside :=
  (Lines.outside _).runEvents _ (fun f hf => (Lines.outside _).cycleEvents _ s t n f (List.mem_of_mem_take hf)) rfl

theorem ringCycle_outside (s : State) (p : RingPort) (t : Telegram) (n : Nat) :
    (s.ringCycle p t n).outside = ((s.beforeAppend t n).appendItems p t).outside := by
  rw [ringCycle_eq]
  exact (Lines.outside _).runEvents _ (fun f hf => (Lines.outside _).cycleEvents _ s t n f (List.mem_of_mem_drop hf)) rfl

theorem beforeAppend_configuration (s : State) (t : Telegram) (n : Nat) :
    (s.beforeAppend t n).configuration = s.configuration :=
  (Rings.configuration _).runEvents _ (fun f hf => (Rings.configuration _).cycleEvents _ s t n f (List.mem_of_mem_take hf)) rfl

/-- The source code that the station table gives the part. -/
def ownSource (l : List (Option StationEntry)) : Nat :=
  (((l.filterMap id).find? fun e => e.role == .own).map fun e => e.code).getD 0

theorem source_eq (s : State) : s.source = ownSource s.configuration.stations := rfl

theorem sameRing_of_told {a b : Rif} (h : b.told = a.told) : a.SameRing b := by
  obtain ⟨portA, portB, ring, cycle, timer, -⟩ := Rif.mk.inj h
  exact ⟨portA, portB, ring, cycle, timer⟩

theorem wayOut_congr {s t : State} (p : RingPort) (h : s.rif.SameRing t.rif) : t.wayOut p = s.wayOut p := by
  obtain ⟨portA, portB, -⟩ := h
  have up : t.portUp (otherPort p) = s.portUp (otherPort p) := by cases p <;> assumption
  simp only [State.wayOut, up]

theorem advance_mem (o : EventOrder) (s : State) (t : Telegram) (n : Nat) :
    (fun x : State => x.advance (s.takeFeed n (firstFeed (s.deliveries t.items))).2 o.spliceBeforeMap)
      ∈ cycleEvents o s t n := by
  simp [cycleEvents]

/-- What a ring cycle leaves and sends on (R173, R174, R182). -/
theorem ringCycle_told (s : State) (p : RingPort) (t : Telegram) (n : Nat) :
    (s.ringCycle p t n).rif.told = (s.heardCycle t).rif.told := by
  have before := congrArg Outside.told (beforeAppend_outside s t n)
  have after := congrArg Outside.told (ringCycle_outside s p t n)
  exact after.trans before

theorem ringCycle_kept (s : State) (p : RingPort) (t : Telegram) (n : Nat) :
    (s.ringCycle p t n).commStation = s.commStation ∧ (s.ringCycle p t n).reply = s.reply
      ∧ (s.ringCycle p t n).pending = s.pending
      ∧ (s.ringCycle p t n).passed = ((s.beforeAppend t n).appendItems p t).passed := by
  have before := beforeAppend_outside s t n
  have after := ringCycle_outside s p t n
  exact ⟨(congrArg Outside.commStation after).trans (congrArg Outside.commStation before),
    (congrArg Outside.reply after).trans (congrArg Outside.reply before),
    (congrArg Outside.pending after).trans (congrArg Outside.pending before), congrArg Outside.passed after⟩

/-- The telegram that leaves a ring cycle. -/
theorem beforeAppend_passed (s : State) (p : RingPort) (t : Telegram) (n : Nat) (ht : t.total ≤ 1500) :
    ∃ items : List OutItem, t.total + (items.map outLength).sum ≤ 1500
      ∧ ((s.beforeAppend t n).appendItems p t).passed = some
          { port := s.wayOut p,
            bytes := t.bytes.take 4 ++ writeInt 2 (t.total + (items.map outLength).sum) ++ t.bytes.drop 6
              ++ items.flatMap (writeItem s.source) } := by
  have told : (s.beforeAppend t n).rif.told = (s.heardCycle t).rif.told :=
    congrArg Outside.told (beforeAppend_outside s t n)
  have way : (s.beforeAppend t n).wayOut p = s.wayOut p :=
    (wayOut_congr p (sameRing_of_told told)).trans rfl
  have source : (s.beforeAppend t n).source = s.source := by
    rw [source_eq, source_eq, beforeAppend_configuration]
  obtain ⟨i, j, urgent, routine, -, -, -, fits, -⟩ := appended_takes (1500 - t.total) (s.beforeAppend t n).rif
  refine ⟨_, ?_, (appendItems_passed _ p t _ (by rw [urgent, routine])).trans (by rw [way, source])⟩
  omega

/-- Settles O36: RIF's own part and the append by the events' keeping of what stands outside the blocks, the queues by what
`appended` takes of them, and the advance by the explicit shift, which its reports, examinations and tests leave where it is. -/
theorem ringCycleIsTaken : Obligations.RingCycleIsTaken := by
  refine ⟨fun s p x t _ ht hn => ?_, fun v p t => ?_, fun v a b => ⟨advance_zero v b, fun ha => ?_⟩⟩
  · obtain ⟨-, -, bytes, -, -, total, -, short, -⟩ := readTelegram_some ht
    obtain ⟨items, fits, passed⟩ := beforeAppend_passed s p t (s.missed t) short
    obtain ⟨station, reply, pending, kept⟩ := ringCycle_kept s p t (s.missed t)
    obtain ⟨portA, portB, ring, cycle, timer⟩ := sameRing_of_told (ringCycle_told s p t (s.missed t))
    have configuration := (Rings.configuration s.configuration).ringCycle p t (s.missed t) rfl
    rw [bytes, total] at passed
    rw [total] at fits
    refine ⟨s.ringCycle p t (s.missed t), items, exec_cycleTelegram ht hn, cycle, ring, timer,
      ⟨fits, kept.trans passed⟩, portA, portB, station, reply, configuration, pending, _, _, s.beforeAppend t (s.missed t),
      List.take_append_drop _ _, ?_, rfl, kept.symm,
      ringCycle_eq s p t _⟩
    rw [List.take_append_drop]
    exact advance_mem _ s t _
  · obtain ⟨i, j, urgent, routine, hi, hj, order, fits, stops, stops'⟩ := appended_takes (1500 - t.total) v.rif
    refine ⟨i, j, hi, hj, order, ⟨fits, appendItems_passed v p t _ (by rw [urgent, routine])⟩, stops, stops', ?_⟩
    rw [appendItems_rif, urgent, routine]
    exact afterAppend_takes v.rif hi hj
  · obtain ⟨marks, places, reels, line⟩ := advance_lies v b ha
    obtain ⟨plans, front, cutEdge, withdrawn⟩ : _ ∧ _ ∧ _ ∧ _ := by simpa only [Knp.places, Prod.mk.injEq] using places
    refine ⟨advance_eq v b ha, shift_eq v a, fun c => ?_, fun k => shift_stand v a k, fun m hm hs hc he => ?_, withdrawn,
      front, cutEdge, plans.trans ?_, fun k => ?_, line⟩
    · rw [shift_channel]
      generalize v.channel c = ch
      obtain ⟨cfg, reading, stale, run, settle⟩ := ch
      cases run <;> rfl
    · have moved : m.move a ∈ (v.shift a).wmp.marks := List.mem_map_of_mem hm
      rw [← move_eq]
      exact marks _ moved hs hc (by simp only [Mark.move]; omega)
    · show (v.knp.plans.map _).map _ = _
      rw [List.map_map]
      rfl
    · have reel : _ = _ := (stand_reel (v.advance a b) k).trans ((congrArg (fun l => (l[k]?).getD (none, 0)) reels).trans
        (stand_reel (v.shift a) k).symm)
      obtain ⟨running, remain⟩ := Prod.mk.inj reel
      rw [running, remain, shift_stand]
      exact ⟨rfl, rfl⟩

end Sys2Proof.Machine
end

section
namespace Sys2Proof.Machine

variable {P : State → Prop}

/-! ### A line that does not run (R96, R129, R161)

No sheet is planned and no splice is sent; what the blocks still do on a report of such a state is less than `Quiet` allows. -/

theorem planSheets_idle (fuel : Nat) {s : State} (h : runsLine s.lsc.state = false) : State.planSheets fuel s = s := by
  cases fuel with
  | zero => rfl
  | succ fuel =>
    unfold State.planSheets
    rw [if_neg (by simp [h])]

theorem refill_idle {s : State} (h : runsLine s.lsc.state = false) : s.refill = s.syncNoOrder := by
  rw [State.refill, planSheets_idle 2 h]

namespace Still

theorem examine_idle (K : Still P) {s : State} (i : Nat) (hl : runsLine s.lsc.state = false) (h : P s) : P (s.examine i) := by
  unfold State.examine
  dsimp only
  split
  · exact h
  · refine ite_keeps (fun _ => ?_) fun _ => h
    split
    · exact K.stand _ _ (fun _ => ⟨rfl, rfl, rfl, nofun⟩) h
    · split
      · rename_i all _ _
        simp [State.unmet, hl] at all
      · have due : P (s.onStand i fun st => { st with splice := .due }) :=
          K.stand _ _ (fun _ => ⟨rfl, rfl, rfl, nofun⟩) h
        exact ite_keeps (fun _ => K.notify _ due) fun _ => due

theorem examineAll_idle (K : Still P) {s : State} (hl : runsLine s.lsc.state = false) (h : P s) : P s.examineAll := by
  have every : ∀ l : List Nat, ∀ t : State, P t → t.lsc = s.lsc → P (l.foldl (fun s i => s.examine i) t) := by
    intro l
    induction l with
    | nil => exact fun _ ht _ => ht
    | cons i l ih =>
      exact fun t ht hs => ih _ (K.examine_idle i (hs ▸ hl) ht) ((Counts.lineState _).examine i hs)
  exact K.syncReasons _ (every _ s h rfl)

theorem refill_idle (K : Still P) {s : State} (hl : runsLine s.lsc.state = false) (h : P s) : P s.refill := by
  rw [Machine.refill_idle hl]
  exact K.syncNoOrder h

/-- The line comes to STOPPED. -/
theorem enterStopped (K : Still P) {s : State} (c : StateCause) (further : List (Reason × Nat))
    (hf : ∀ x ∈ further, x.1 ≠ .lineStatusStale) (h : P (s.onLsc fun l => { l with state := .stopped })) :
    P (s.enterState .stopped c further) := by
  have own : ∀ x, ∀ r ∈ (stateReason x).toList, r.reason ≠ .lineStatusStale := by
    intro x r hr
    cases x <;> simp [stateReason, Raised.stoppedState] at hr <;> subst hr <;> nofun
  unfold State.enterState State.stateReported
  dsimp only
  have reasons := K.log (.lineState s.lsc.state .stopped c) (K.alter
    (((stateReason s.lsc.state).toList.map fun r => (r.reason, r.inst)) ++ further) (stateReason .stopped).toList
    (fun x hx => (List.mem_append.1 hx).elim
      (fun hx => by obtain ⟨r, hr, rfl⟩ := List.mem_map.1 hx; exact own _ r hr) (hf x)) (own .stopped) h)
  have idle : ∀ t : State, t.lsc = { s.lsc with state := .stopped } → runsLine t.lsc.state = false :=
    fun t ht => by rw [ht]; rfl
  rw [if_neg (by simp), if_neg (by simp)]
  refine K.examineAll_idle (idle _ ((Counts.lineState _).refill ?_)) (K.refill_idle (idle _ ?_) reasons)
  all_goals simp

end Still

/-! ### The urgent queue (R18, R185) -/

/-- A property of the urgent queue that the SPEED_REQUESTs keep. -/
structure Speeds (Q : List OutItem → Prop) : Prop where
  rewritten : ∀ {l : List OutItem} (o : OutItem), isSpeedRequest o = true → l.any isSpeedRequest = true → Q l →
    Q (l.map fun w => if isSpeedRequest w then o else w)
  joined : ∀ {l : List OutItem} (o : OutItem), isSpeedRequest o = true → l.any isSpeedRequest = false → Q l → Q (l ++ [o])

theorem queueUrgent_keeps {Q : List OutItem → Prop} {s : State} (o : OutItem)
    (h : s.rif.urgent.length < 16 → Q (s.rif.urgent ++ [o])) (hs : Q s.rif.urgent) : Q (s.queueUrgent o).rif.urgent := by
  by_cases room : s.rif.urgent.length < 16
  · rw [queueUrgent_room o room]
    exact h room
  · rw [queueUrgent_full o (Nat.le_of_not_lt room)]
    exact hs

theorem Speeds.send {Q : List OutItem → Prop} (K : Speeds Q) {s : State} (c : SpeedCause) (h : Q s.rif.urgent) :
    Q (s.sendSpeedRequest c).rif.urgent := by
  cases waits : s.rif.urgent.any isSpeedRequest with
  | true =>
    rw [sendSpeedRequest_waiting c waits]
    exact K.rewritten _ rfl waits h
  | false =>
    rw [sendSpeedRequest_joining c waits]
    exact queueUrgent_keeps _ (fun _ => K.joined _ rfl waits h) h

theorem queueRoutine_urgent (s : State) (o : OutItem) : (s.queueRoutine o).rif.urgent = s.rif.urgent := by
  unfold State.queueRoutine
  (repeat' split) <;> rfl

theorem Speeds.still {Q : List OutItem → Prop} (K : Speeds Q) : Still fun s => Q s.rif.urgent where
  log _ h := by simpa using h
  routine _ h := by rw [queueRoutine_urgent]; exact h
  hand _ _ h := h
  alter d r _ _ h := by
    unfold State.alter State.setReasons
    dsimp only
    split
    · exact h
    · exact K.send _ h
  osq _ h := h
  stk _ _ h := h
  stand _ _ _ h := h

end Sys2Proof.Machine
end

section
namespace Sys2Proof.Machine

/-! ### The knife's clear on a line that does not run (R145) -/

/-- The Knife Planner is kept by what the other blocks do. -/
theorem Still.knife (k : Knp) : Still fun s => s.knp = k where
  log _ h := by simpa using h
  routine _ h := by simpa using h
  hand _ _ h := h
  alter _ _ _ _ h := by simpa using h
  osq _ h := h
  stk _ _ h := h
  stand _ _ _ h := h

/-- The plans withdrawn, as the clear leaves them. -/
def Knp.cleared (k : Knp) : Knp :=
  { k with
    plans := [],
    withdrawn := if k.plans.isEmpty then k.withdrawn
      else k.plans.map fun p => { seq := p.seq, stop := p.stop, length := p.length },
    front := k.cutEdge }

/-- The clear before the front returns to the cut edge and the queue is filled again. -/
def State.withdrawAll (s : State) : State :=
  s.knp.plans.foldl (fun s p => s.withdrawPlan p)
    (((s.onRif fun r => { r with urgent := r.urgent.filter fun o => !isKnifeItem o }).queueUrgent .cutPlanClear).onKnp
      fun k => { s.knp.cleared with front := k.front })

theorem clearKnife_eq (s : State) : s.clearKnife = (s.withdrawAll.onKnp fun k => { k with front := k.cutEdge }).refill := by
  have knp : ((s.onRif fun r => { r with urgent := r.urgent.filter fun o => !isKnifeItem o }).queueUrgent
      .cutPlanClear).knp = s.knp := by simp
  unfold State.clearKnife State.withdrawAll State.onKnp Knp.cleared
  dsimp only
  rw [knp]

theorem withdrawAll_lsc (s : State) : s.withdrawAll.lsc = s.lsc :=
  foldl_keeps (P := fun t => t.lsc = s.lsc) (fun _ p => (Counts.lineState _).withdrawPlan p) _ (by simp)

theorem clearKnife_knp {s : State} (h : runsLine s.lsc.state = false) : s.clearKnife.knp = s.knp.cleared := by
  have knp : s.withdrawAll.knp = { s.knp.cleared with front := s.knp.front } :=
    foldl_keeps (P := fun t => t.knp = _) (fun _ p => (Still.knife _).withdrawPlan p) _ (by simp)
  rw [clearKnife_eq]
  refine (Still.knife _).refill_idle (by rw [State.onKnp_lsc, withdrawAll_lsc]; exact h) ?_
  rw [State.onKnp_knp, knp]
  rfl

/-- How many waiting items are not the knife's. -/
def others (l : List OutItem) : Nat := l.countP fun o => !isKnifeItem o

/-- The urgent queue holds at most 12 items that are not the knife's, and a SPEED_REQUEST. -/
def Roomy (l : List OutItem) : Prop := others l ≤ if l.any isSpeedRequest then 13 else 12

theorem not_knife_of_speed {o : OutItem} (h : isSpeedRequest o = true) : isKnifeItem o = false := by
  cases o <;> simp_all [isSpeedRequest, isKnifeItem]

theorem Speeds.roomy : Speeds Roomy where
  rewritten {l} o ho hl h := by
    have any : (l.map fun w => if isSpeedRequest w then o else w).any isSpeedRequest = true := by
      obtain ⟨x, hx, hs⟩ := List.any_eq_true.1 hl
      exact List.any_eq_true.2 ⟨o, List.mem_map.2 ⟨x, hx, if_pos hs⟩, ho⟩
    have same : others (l.map fun w => if isSpeedRequest w then o else w) = others l := by
      rw [others, List.countP_map]
      refine List.countP_congr fun x _ => ?_
      by_cases hs : isSpeedRequest x = true
      · simp [hs, not_knife_of_speed ho, not_knife_of_speed hs]
      · simp [hs]
    rw [Roomy, hl] at h
    rwa [Roomy, any, same]
  joined {l} o ho hl h := by
    rw [Roomy, hl] at h
    have more : others (l ++ [o]) = others l + 1 := by simp [others, not_knife_of_speed ho]
    have any : (l ++ [o]).any isSpeedRequest = true := by simp [ho]
    rw [Roomy, any, more]
    exact Nat.succ_le_succ h

/-- What the clear leaves of the urgent queue: none of the knife's items, and the CUT_PLAN_CLEAR if there was room. -/
def Cleared (room : Prop) (l : List OutItem) : Prop :=
  (∀ o ∈ l, isKnifeItem o = false) ∧ (room → .cutPlanClear ∈ l)

theorem Cleared.join {room : Prop} {l : List OutItem} {o : OutItem} (ho : isKnifeItem o = false) (h : Cleared room l) :
    Cleared room (l ++ [o]) := by
  refine ⟨fun x hx => ?_, fun r => List.mem_append_left _ (h.2 r)⟩
  rcases List.mem_append.1 hx with hx | hx
  · exact h.1 x hx
  · rw [List.mem_singleton.1 hx]
    exact ho

theorem Speeds.cleared (room : Prop) : Speeds (Cleared room) where
  rewritten {l} o ho hl h := by
    refine ⟨fun x hx => ?_, fun r => List.mem_map.2 ⟨_, h.2 r, rfl⟩⟩
    obtain ⟨y, hy, rfl⟩ := List.mem_map.1 hx
    split
    · exact not_knife_of_speed ho
    · exact h.1 y hy
  joined o ho _ h := h.join (not_knife_of_speed ho)

theorem clearKnife_urgent {s : State} {room : Prop} (hl : runsLine s.lsc.state = false) (h : room → Roomy s.rif.urgent) :
    Cleared room s.clearKnife.rif.urgent := by
  have K := (Speeds.cleared room).still
  have queued : Cleared room ((s.onRif fun r => { r with urgent := r.urgent.filter fun o => !isKnifeItem o }).queueUrgent
      .cutPlanClear).rif.urgent := by
    have kept : ∀ o ∈ s.rif.urgent.filter fun o => !isKnifeItem o, isKnifeItem o = false := fun o ho => by
      simpa using (List.mem_filter.1 ho).2
    by_cases full : (s.rif.urgent.filter fun o => !isKnifeItem o).length < 16
    · rw [queueUrgent_room _ full]
      refine ⟨fun o ho => ?_, fun _ => List.mem_append_right _ (List.mem_singleton.2 rfl)⟩
      rcases List.mem_append.1 ho with ho | ho
      · exact kept o ho
      · rw [List.mem_singleton.1 ho]
        rfl
    · rw [queueUrgent_full _ (Nat.le_of_not_lt full)]
      refine ⟨kept, fun r => absurd (h r) ?_⟩
      rw [← List.countP_eq_length_filter] at full
      unfold Roomy others
      split <;> omega
  rw [clearKnife_eq]
  refine K.refill_idle (by rw [State.onKnp_lsc, withdrawAll_lsc]; exact hl) ?_
  exact foldl_keeps (P := fun t => Cleared room t.rif.urgent) (fun _ p => K.withdrawPlan p) _ queued

end Sys2Proof.Machine
end

section
namespace Sys2Proof.Machine

/-! ### The defect marks after an insertion (R28) -/

/-- A mark's report leaves the map as it is. -/
theorem markReport_wmp (s : State) (m : Mark) : (s.markReport m).wmp = s.wmp := by
  refine foldl_keeps (P := fun t => t.wmp = s.wmp) (fun t i ht => ?_) _ rfl
  unfold State.judgePlan
  split
  · exact ht
  · refine ite_keeps (P := fun t => t.wmp = s.wmp) (fun _ => ite_keeps (P := fun t => t.wmp = s.wmp) (fun _ => ?_) fun _ => ht)
      fun _ => ht
    simpa [State.divertLate, State.onPlan] using ht

theorem absorb_marks (s : State) (i : Nat) (old wide : Mark) (seq : Nat) (kind : MarkKind) :
    (s.absorb i old wide seq kind).wmp.marks = putBack s.wmp.marks i old wide := by
  unfold State.absorb
  dsimp only
  split
  · rw [markReport_wmp]
    simp
  · simp

/-- The claim of a new mark that the map holds. -/
def State.holdsNew (s : State) (m : Mark) : Bool := m.claims.any fun c => s.wmp.marks.any fun x => x.holdsClaim c.kind c.owner

/-- An insertion leaves the marks alone when the claim is held; else it places the mark, or merges it in a full area. -/
theorem insertDefect_marks (s : State) (m : Mark) :
    (s.holdsNew m = true ∧ (s.insertDefect m).1.wmp.marks = s.wmp.marks)
    ∨ (s.insertDefect m).1.wmp.marks = place { m with seq := s.wmp.nextSeq } s.wmp.marks
    ∨ 32 ≤ defectCount s.wmp.marks ∧ ∃ i old, s.wmp.marks[i]? = some old ∧ old.kind.isStructural = false
        ∧ (s.insertDefect m).1.wmp.marks
          = putBack s.wmp.marks i old (mergeMarks old { m with seq := s.wmp.nextSeq }) := by
  have placed : (s.bumpSeq.placeMark { m with seq := s.wmp.nextSeq }).wmp.marks
      = place { m with seq := s.wmp.nextSeq } s.wmp.marks := by
    rw [State.placeMark, markReport_wmp]
    rfl
  unfold State.insertDefect State.holdsNew
  by_cases held : (m.claims.any fun c => s.wmp.marks.any fun x => x.holdsClaim c.kind c.owner) = true
  · rw [if_pos held]
    exact .inl ⟨held, rfl⟩
  · rw [if_neg held]
    dsimp only
    by_cases room : defectCount s.bumpSeq.wmp.marks < 32
    · rw [if_pos room]
      exact .inr (.inl placed)
    · rw [if_neg room]
      split
      · exact .inr (.inl placed)
      · rename_i hd
        obtain ⟨hi, ho⟩ := nearestDefect_mem hd
        refine .inr (.inr ⟨Nat.le_of_not_lt room, _, _, hi, ho, ?_⟩)
        exact absorb_marks ..

/-- Where a zone ends: at the closed end or at a pinned end beyond it. -/
theorem lt_zoneEnd_iff (m : Mark) (x : Int) : x < m.zoneEnd ↔ x < m.closedEnd ∨ ∃ c ∈ m.claims, x < c.pinned := by
  have fold : ∀ (l : List Claim) (e : Int),
      x < l.foldl (fun e c => max e c.pinned) e ↔ x < e ∨ ∃ c ∈ l, x < c.pinned := by
    intro l
    induction l with
    | nil => simp
    | cons c l ih =>
      intro e
      rw [List.foldl_cons, ih, lt_max_iff]
      simp [or_assoc]
  exact fold m.claims m.closedEnd

theorem covered_place {m : Mark} {l : List Mark} {x : Int} (h : Covered (m :: l) x) : Covered (place m l) x := by
  obtain ⟨y, hy, covers⟩ := h
  exact ⟨y, (place_perm m l).mem_iff.2 hy, covers⟩

/-- The surviving mark of a merge covers what either mark covered. -/
theorem merge_covers {old m : Mark} {x : Int} (h : old.start ≤ x ∧ x < old.zoneEnd ∨ m.start ≤ x ∧ x < m.zoneEnd) :
    (mergeMarks old m).start ≤ x ∧ x < (mergeMarks old m).zoneEnd := by
  rw [lt_zoneEnd_iff, lt_zoneEnd_iff] at h
  rw [lt_zoneEnd_iff]
  simp only [mergeMarks, List.mem_append, lt_max_iff, min_le_iff]
  rcases h with ⟨start, h | ⟨c, hc, hx⟩⟩ | ⟨start, h | ⟨c, hc, hx⟩⟩
  · exact ⟨.inl start, .inl (.inl h)⟩
  · exact ⟨.inl start, .inr ⟨c, .inl hc, hx⟩⟩
  · exact ⟨.inr start, .inl (.inr h)⟩
  · exact ⟨.inr start, .inr ⟨c, .inr hc, hx⟩⟩

/-- A mark put back is on the map. -/
theorem mem_putBack {l : List Mark} {i : Nat} {old new : Mark} (hi : l[i]? = some old) : new ∈ putBack l i old new := by
  have perm := putBack_perm (new := new) hi
  rcases List.mem_cons.1 (perm.mem_iff.2 List.mem_cons_self) with rfl | h
  · exact perm.cons_inv.mem_iff.2 (List.mem_of_getElem? hi)
  · exact h

theorem covered_merge {old m : Mark} {l : List Mark} {i : Nat} {x : Int} (hi : l[i]? = some old)
    (ho : old.kind.isStructural = false) (h : Covered l x ∨ m.start ≤ x ∧ x < m.zoneEnd) :
    Covered (putBack l i old (mergeMarks old m)) x := by
  rcases h with ⟨y, hy, hs, covers⟩ | covers
  · rcases List.mem_cons.1 ((putBack_perm (new := mergeMarks old m) hi).mem_iff.2 (List.mem_cons_of_mem _ hy)) with rfl | hm
    · exact ⟨_, mem_putBack hi, hs, merge_covers (.inl covers)⟩
    · exact ⟨y, hm, hs, covers⟩
  · exact ⟨_, mem_putBack hi, ho, merge_covers (.inr covers)⟩

/-- What lay in a defect mark's zone still does. -/
theorem insertDefect_covers (s : State) (m : Mark) (x : Int) (h : Covered s.wmp.marks x) :
    Covered (s.insertDefect m).1.wmp.marks x := by
  rcases insertDefect_marks s m with ⟨-, e⟩ | e | ⟨-, i, old, hi, ho, e⟩
  · rwa [e]
  · rw [e]
    obtain ⟨y, hy, covers⟩ := h
    exact covered_place ⟨y, List.mem_cons_of_mem _ hy, covers⟩
  · rw [e]
    exact covered_merge hi ho (.inl h)

/-- A new mark whose claims the map does not hold is placed under the next number where there is room. -/
theorem insertDefect_placed (s : State) (m : Mark) (hc : s.holdsNew m = false) (room : defectCount s.wmp.marks < 32) :
    (s.insertDefect m).1.wmp.marks = place { m with seq := s.wmp.nextSeq } s.wmp.marks := by
  rcases insertDefect_marks s m with ⟨held, -⟩ | e | ⟨full, -⟩
  · rw [hc] at held
    cases held
  · exact e
  · omega

/-- A new defect mark whose claims the map does not hold covers its zone. -/
theorem insertDefect_covers_new (s : State) (m : Mark) (hc : s.holdsNew m = false) (hm : m.kind.isStructural = false) {x : Int}
    (h : m.start ≤ x ∧ x < m.zoneEnd) : Covered (s.insertDefect m).1.wmp.marks x := by
  rcases insertDefect_marks s m with ⟨held, -⟩ | e | ⟨-, i, old, hi, ho, e⟩
  · rw [hc] at held
    cases held
  · rw [e]
    exact covered_place ⟨_, List.mem_cons_self, hm, h⟩
  · rw [e]
    exact covered_merge hi ho (.inr h)

end Sys2Proof.Machine
end

section
namespace Sys2Proof.Machine

variable {P : State → Prop}

/-! ### The Changeover Unit at LINE_RESET (R81) -/

/-- What the Changeover Unit does at LINE_RESET: the timer stops, a head may return to CROSSED, the zone may open, the swap may go
out anew. A head returns to CROSSED with the timer stopped, or is CROSSED already. -/
theorem chgLineReset_keeps {s : State} (start : P (s.onChg fun c => { c with timer := 0, blocked := false }))
    (cross : ∀ (u : State) (r : ChangeRec) (rest : List ChangeRec), u.chg.timer = 0 ∨ r.status = .crossed →
      u.chg.records = r :: rest → P u → P (u.onChg fun c => { c with records := { r with status := .crossed } :: rest }))
    (zone : ∀ (u : State) (r : ChangeRec), P u → P (u.openZone r))
    (swap : ∀ (u : State) (r : ChangeRec) (st : Slitter) (rest : List ChangeRec), P u → P (u.sendSwap r st rest)) :
    P s.chgLineReset := by
  have again : ∀ u : State, P u → P u.examineCrossed := by
    intro u h
    unfold State.examineCrossed
    split
    · exact h
    · rename_i r rest records
      refine ite_keeps (fun crossed => ?_) fun _ => h
      unfold State.trySwap
      rw [records]
      dsimp only
      split
      · exact ite_keeps (fun _ => ite_keeps (fun _ => zone _ _ (swap _ _ _ _ h)) fun _ => swap _ _ _ _ h) fun _ =>
          zone _ _ (cross _ _ _ (.inr crossed) records h)
      · exact zone _ _ (cross _ _ _ (.inr crossed) records h)
  unfold State.chgLineReset
  refine again _ ?_
  split
  · rename_i records
    exact ite_keeps (fun _ => zone _ _ (cross _ _ _ (.inl rfl) records start)) fun _ => start
  · exact start

/-- The WRONG_SLIT mark that a station asks for. -/
def State.slitMark (s : State) (st : Slitter) (start : Int) : Mark :=
  openMark .wrongSlit .chg (.wrongSlit st) start { kind := .wrongSlit, owner := slitterCode st, pinned := s.line.nums.dSs }

theorem openSlit_eq {s : State} (st : Slitter) (start : Int) (h : s.line.nums.dSs ≠ 0) :
    s.openSlit st start = (s.insertDefect (s.slitMark st start)).1 := if_neg h

/-- The zone is open already, or D_ss is 0, or a WRONG_SLIT mark is asked for. -/
theorem openZone_cases (s : State) (r : ChangeRec) :
    s.openZone r = s ∨ s.chg.changeover = none ∧ ∃ (m : Mark) (owner : Slitter), m.kind = .wrongSlit
      ∧ s.openZone r = ((s.insertDefect m).1.onChg fun c => { c with changeover := some owner }).raise .slitterNotReady 0
          .limitCrawl := by
  unfold State.openZone
  by_cases shut : s.line.nums.dSs = 0 ∨ s.chg.changeover.isSome
  · rw [if_pos shut]
    exact .inl rfl
  · rw [if_neg shut]
    obtain ⟨hd, open_⟩ := not_or.1 shut
    exact .inr ⟨by simpa using open_, s.slitMark _ _, r.target.getD s.chg.idle, rfl, by rw [← openSlit_eq _ _ hd]⟩

/-- What lay in a defect mark's zone still does. -/
theorem chgLineReset_covers (s : State) (x : Int) (h : Covered s.wmp.marks x) : Covered s.chgLineReset.wmp.marks x := by
  refine chgLineReset_keeps (P := fun u => Covered u.wmp.marks x) h (fun _ _ _ _ _ hu => hu) (fun u r hu => ?_)
    fun u r st rest hu => by simpa [State.sendSwap] using hu
  rcases openZone_cases u r with e | ⟨-, m, owner, -, e⟩
  · rwa [e]
  · rw [e]
    simpa using insertDefect_covers u m x hu

/-- A mark stays on the map while the defect area has room for the one mark that the zone may ask for. -/
theorem chgLineReset_keepsMark (s : State) (d : Mark) (h : d ∈ s.wmp.marks) (room : defectCount s.wmp.marks ≤ 31) :
    d ∈ s.chgLineReset.wmp.marks := by
  refine (chgLineReset_keeps (P := fun u => d ∈ u.wmp.marks ∧ (u.chg.changeover = none → defectCount u.wmp.marks ≤ 31))
    ⟨h, fun _ => room⟩ (fun _ _ _ _ _ hu => hu) (fun u r hu => ?_) fun u r st rest hu => ?_).1
  · rcases openZone_cases u r with e | ⟨shut, m, owner, -, e⟩
    · rwa [e]
    · rw [e]
      refine ⟨?_, by simp⟩
      rcases insertDefect_marks u m with ⟨-, marks⟩ | marks | ⟨full, -⟩
      · simpa [marks] using hu.1
      · simpa [marks] using (place_perm _ _).mem_iff.2 (List.mem_cons_of_mem _ hu.1)
      · have := hu.2 shut
        omega
  · simpa [State.sendSwap] using hu

/-- Swaps are unblocked, and the timer runs for a swap sent anew alone. -/
theorem chgLineReset_timer (s : State) : s.chgLineReset.chg.blocked = false ∧ (s.chgLineReset.chg.timer = 0
    ∨ ∃ r rest, s.chgLineReset.chg.records = r :: rest ∧ r.status = .swapping) := by
  refine chgLineReset_keeps (P := fun u => u.chg.blocked = false ∧ (u.chg.timer = 0
    ∨ ∃ r rest, u.chg.records = r :: rest ∧ r.status = .swapping)) ⟨rfl, .inl rfl⟩ (fun u r rest stopped records hu => ?_)
    (fun u r hu => ?_) fun u r st rest hu => ?_
  · refine ⟨hu.1, .inl ?_⟩
    rcases stopped with timer | crossed
    · exact timer
    · rcases hu.2 with timer | ⟨r', rest', e, swapping⟩
      · exact timer
      · obtain ⟨rfl, -⟩ := List.cons.inj (records.symm.trans e)
        rw [crossed] at swapping
        cases swapping
  · rcases openZone_cases u r with e | ⟨-, m, owner, slit, e⟩
    · rwa [e]
    · have chg : (u.insertDefect m).1.chg = u.chg := (Marks.changeover u.chg).insertDefect m (by rw [slit]; rfl) rfl
      rw [e]
      simpa [chg] using hu
  · exact ⟨by simpa [State.sendSwap] using hu.1, .inr ⟨_, _, rfl, rfl⟩⟩

/-! ### An insertion while no plan is queued -/

theorem markReport_bare {s : State} (m : Mark) (h : s.knp.plans = []) : s.markReport m = s := by
  rw [State.markReport, h]
  rfl

theorem insertDefect_bare {s : State} (m : Mark) (h : s.knp.plans = []) :
    (s.insertDefect m).1.knp = s.knp ∧ (s.insertDefect m).1.spl = s.spl ∧ (s.insertDefect m).1.rif = s.rif := by
  have placed (m : Mark) : s.bumpSeq.placeMark m = s.bumpSeq.onWmp fun w => { w with marks := place m w.marks } :=
    markReport_bare m h
  unfold State.insertDefect
  split
  · exact ⟨rfl, rfl, rfl⟩
  · dsimp only
    split
    · rw [placed]
      exact ⟨rfl, rfl, rfl⟩
    · split
      · rw [placed]
        exact ⟨rfl, rfl, rfl⟩
      · unfold State.absorb
        dsimp only
        split
        · rw [markReport_bare _ (by simpa [State.bumpSeq] using h)]
          simp [State.bumpSeq]
        · simp [State.bumpSeq]

/-- With no plan queued the Changeover Unit leaves the knife, the stands and the urgent queue's clear alone. -/
theorem chgLineReset_bare {s : State} {room : Prop} (h : s.knp.plans = []) (hu : Cleared room s.rif.urgent) :
    s.chgLineReset.knp = s.knp ∧ s.chgLineReset.spl = s.spl ∧ Cleared room s.chgLineReset.rif.urgent := by
  refine chgLineReset_keeps (P := fun u => u.knp = s.knp ∧ u.spl = s.spl ∧ Cleared room u.rif.urgent) ⟨rfl, rfl, hu⟩
    (fun _ _ _ _ _ h => h) (fun u r hu => ?_) fun u r st rest hu => ?_
  · rcases openZone_cases u r with e | ⟨-, m, owner, -, e⟩
    · rwa [e]
    · obtain ⟨knp, spl, urgent⟩ := hu
      obtain ⟨knp', spl', rif'⟩ := insertDefect_bare (s := u) m (by rw [knp, h])
      rw [e]
      refine ⟨by simpa [knp'] using knp, by simpa [spl'] using spl, ?_⟩
      refine (Speeds.cleared room).still.raise _ _ _ nofun (s := (u.insertDefect m).1.onChg _) ?_
      rw [State.onChg_rif, rif']
      exact urgent
  · obtain ⟨knp, spl, urgent⟩ := hu
    exact ⟨by simpa [State.sendSwap] using knp, by simpa [State.sendSwap] using spl,
      queueUrgent_keeps _ (fun _ => urgent.join rfl) urgent⟩

end Sys2Proof.Machine
end

section
namespace Sys2Proof.Machine

variable {P : State → Prop}

/-! ### LINE_RESET step by step (R170) -/

/-- The dwell mark is asked for. -/
def State.dwelled (s : State) : State := if s.lsc.state = .faulted ∧ s.wmp.valid = true then s.askDwell.1 else s

/-- The line has come to STOPPED with nothing latched. -/
def State.stoppedAnew (s : State) : State :=
  (s.dwelled.onLsc fun l => { l with latch := none, seen := [], threading := 0 }).enterState .stopped (.request 25)
    [(.halt, 0), (.fault, 0)]

/-- The plans are withdrawn and the stands in FAULT run. -/
def State.standsReset (s : State) : State := s.stoppedAnew.clearKnife.splLineReset

/-- Whether LINE_RESET asks for the dwell mark and has a stretch to mark. -/
abbrev State.Dwells (s : State) : Prop :=
  s.lsc.state = .faulted ∧ s.wmp.valid = true ∧ s.line.nums.dwellNear < s.line.nums.dwellFar

theorem resetLine_eq (s : State) :
    s.resetLine = (s.standsReset.chgLineReset.onWtr fun w => { w with debt := 0 }, decide s.Dwells) := by
  have asked : (if s.lsc.state = .faulted ∧ s.wmp.valid = true then s.askDwell else (s, false))
      = (s.dwelled, decide s.Dwells) := by
    unfold State.dwelled
    by_cases ask : s.lsc.state = .faulted ∧ s.wmp.valid = true
    · rw [if_pos ask, if_pos ask]
      by_cases stretch : s.line.nums.dwellNear < s.line.nums.dwellFar
      · rw [decide_eq_true (p := s.Dwells) ⟨ask.1, ask.2, stretch⟩]
        simp only [State.askDwell, if_pos stretch]
      · rw [decide_eq_false (p := s.Dwells) fun h => stretch h.2.2]
        simp only [State.askDwell, if_neg stretch]
    · rw [if_neg ask, if_neg ask, decide_eq_false (p := s.Dwells) fun h => ask ⟨h.1, h.2.1⟩]
  unfold State.resetLine
  rw [asked]
  rfl

/-! #### Line State Control -/

theorem dwelled_lsc (s : State) : s.dwelled.lsc = s.lsc :=
  ite_keeps (P := fun t => t.lsc = s.lsc) (fun _ => (Counts.lineState _).askDwell rfl) fun _ => rfl

theorem stoppedAnew_lsc (s : State) :
    s.stoppedAnew.lsc = { s.lsc with state := .stopped, latch := none, seen := [], threading := 0 } := by
  rw [State.stoppedAnew, enterState_lsc, State.onLsc_lsc, dwelled_lsc]

theorem standsReset_lsc (s : State) : s.standsReset.lsc = s.stoppedAnew.lsc :=
  (Counts.lineState _).splLineReset ((Counts.lineState _).clearKnife rfl)

theorem stoppedAnew_idle (s : State) : runsLine s.stoppedAnew.lsc.state = false := by rw [stoppedAnew_lsc]; rfl

theorem cleared_idle (s : State) : runsLine s.stoppedAnew.clearKnife.lsc.state = false := by
  rw [show s.stoppedAnew.clearKnife.lsc = s.stoppedAnew.lsc from (Counts.lineState _).clearKnife rfl]
  exact stoppedAnew_idle s

/-- What an event at rest keeps is kept while the line comes to STOPPED. -/
theorem Still.stoppedAnew (K : Still P) {s : State}
    (h : P (s.dwelled.onLsc fun l => { l with state := .stopped, latch := none, seen := [], threading := 0 })) :
    P s.stoppedAnew := K.enterStopped _ _ (by simp) h

/-- The stands with those in FAULT running (R106). -/
def Spl.unfaulted (p : Spl) : Spl :=
  { p with stands := p.stands.map fun st => if st.splice == .fault then { st with splice := .running } else st }

/-- What an event at rest keeps is kept while the plans are withdrawn and the stands in FAULT run. -/
theorem Still.standsReset (K : Still P) {s : State} (h : P (s.stoppedAnew.clearKnife.onSpl Spl.unfaulted)) :
    P s.standsReset := by
  have idle : runsLine (s.stoppedAnew.clearKnife.onSpl Spl.unfaulted).lsc.state = false := cleared_idle s
  unfold State.standsReset State.splLineReset
  exact K.examineAll_idle idle h

/-! #### The marks -/

/-- The marks are kept by what comes of a fault. -/
theorem Stops.marks (l : List Mark) : Stops fun s => s.wmp.marks = l where
  log _ h := by simpa using h
  routine _ h := by simpa using h
  hand _ _ h := h
  alter _ _ _ _ h := by simpa using h
  osq _ h := h
  stk _ _ h := h
  stand _ _ _ h := h
  urgent _ _ h := by simpa using h
  knp _ h := h
  rif _ h := h
  wmp _ hf h := hf.trans h
  lsc _ _ h := h
  clear h := h
  cut _ h := by simpa using h

theorem standsReset_marks (s : State) : s.standsReset.wmp.marks = s.dwelled.wmp.marks := by
  have K := Stops.marks s.dwelled.wmp.marks
  refine K.toStill.standsReset ?_
  rw [State.onSpl_wmp]
  exact K.clearKnife (K.toStill.stoppedAnew rfl)

/-! #### The knife -/

theorem dwelled_lies (s : State) : Lies s s.dwelled := by
  refine ite_keeps (fun _ => ?_) fun _ => Lies.refl s
  unfold State.askDwell
  dsimp only
  split
  · exact (Moves.lies s).toMarked.insertDefect _ (Lies.refl s)
  · exact Lies.refl s

theorem standsReset_knp (s : State) : s.standsReset.knp = s.dwelled.knp.cleared := by
  have stopped : s.stoppedAnew.knp = s.dwelled.knp := (Still.knife _).stoppedAnew rfl
  refine (Still.knife _).standsReset ?_
  rw [State.onSpl_knp]
  exact (clearKnife_knp (stoppedAnew_idle s)).trans (congrArg Knp.cleared stopped)

/-- The clear of plans that stand in the same places. -/
theorem cleared_of_places {a b : Knp} (h : b.places = a.places) :
    b.cleared.plans = [] ∧ b.cleared.cutEdge = a.cutEdge ∧ b.cleared.front = a.cutEdge
      ∧ (a.plans = [] → b.cleared.withdrawn = a.withdrawn)
      ∧ (a.plans ≠ [] → b.cleared.withdrawn = a.plans.map fun p => { seq := p.seq, stop := p.stop, length := p.length }) := by
  obtain ⟨plans, -, cutEdge, withdrawn⟩ : _ ∧ _ ∧ _ ∧ _ := by simpa only [Knp.places, Prod.mk.injEq] using h
  have empty : b.plans.isEmpty = a.plans.isEmpty := by
    have := congrArg List.isEmpty plans
    simpa using this
  have ends : b.plans.map (fun p => ({ seq := p.seq, stop := p.stop, length := p.length } : Withdrawn))
      = a.plans.map fun p => { seq := p.seq, stop := p.stop, length := p.length } := by
    have := congrArg (List.map fun x : Nat × Int × Int => ({ seq := x.1, stop := x.2.1, length := x.2.2 } : Withdrawn)) plans
    rwa [List.map_map, List.map_map] at this
  refine ⟨rfl, cutEdge, cutEdge, fun none_ => ?_, fun some_ => ?_⟩
  · rw [Knp.cleared, empty, none_]
    exact withdrawn
  · rw [Knp.cleared, empty, if_neg (by simpa using some_)]
    exact ends

/-! #### The urgent queue -/

theorem Roomy.knife {l : List OutItem} {o : OutItem} (ho : isKnifeItem o = true) (h : Roomy l) : Roomy (l ++ [o]) := by
  have other : others (l ++ [o]) = others l := by simp [others, ho]
  have speed : (l ++ [o]).any isSpeedRequest = l.any isSpeedRequest := by
    cases hs : isSpeedRequest o with
    | true => rw [not_knife_of_speed hs] at ho; cases ho
    | false => simp [hs]
  rwa [Roomy, other, speed]

theorem roomy_of_length {l : List OutItem} (h : l.length ≤ 12) : Roomy l := by
  have : others l ≤ l.length := List.countP_le_length
  unfold Roomy
  split <;> omega

/-- An insertion queues items of the knife's alone. -/
theorem Marked.roomy : Marked fun s => Roomy s.rif.urgent where
  log _ h := by simpa using h
  map _ _ h := h
  plan _ _ _ h := h
  cut _ ho h := queueUrgent_keeps _ (fun _ => h.knife ho) h

theorem standsReset_urgent (s : State) : Cleared (s.rif.urgent.length ≤ 12) s.standsReset.rif.urgent := by
  have dwelled (room : s.rif.urgent.length ≤ 12) : Roomy s.dwelled.rif.urgent := by
    refine ite_keeps (P := fun t => Roomy t.rif.urgent) (fun _ => ?_) fun _ => roomy_of_length room
    unfold State.askDwell
    dsimp only
    split
    · exact Marked.roomy.insertDefect _ (roomy_of_length room)
    · exact roomy_of_length room
  have clear := clearKnife_urgent (stoppedAnew_idle s) fun room => Speeds.roomy.still.stoppedAnew (dwelled room)
  refine (Speeds.cleared _).still.standsReset ?_
  rw [State.onSpl_rif]
  exact clear

/-! #### The stands -/

/-- No stand is in FAULT. -/
def State.Spliced (s : State) : Prop := ∀ k, (s.stand k).splice ≠ .fault

theorem Still.spliced : Still State.Spliced where
  log _ h k := by simpa [State.stand] using h k
  routine _ h k := by simpa [State.stand] using h k
  hand _ _ h := h
  alter _ _ _ _ h k := by simpa [State.stand] using h k
  osq _ h := h
  stk _ _ h := h
  stand i f hf h k := by
    rw [stand_onStand]
    split
    · exact fun fault => h i ((hf _).2.2.2 fault)
    · exact h k

theorem standsReset_spliced (s : State) : s.standsReset.Spliced := by
  refine Still.spliced.standsReset fun k => ?_
  rw [State.stand, State.onSpl_spl, Spl.unfaulted, Vector.getElem?_map]
  cases s.stoppedAnew.clearKnife.spl.stands[k]? with
  | none => nofun
  | some st =>
    simp only [Option.map_some, Option.getD_some]
    split
    · nofun
    · rename_i h
      simpa using h

end Sys2Proof.Machine
end

section
namespace Sys2Proof.Machine

/-! #### The dwell mark (R37, R167) -/

/-- The dwell mark as it is asked for. -/
def State.dwellMark (s : State) : Mark :=
  closedMark .dwell .lsc .none s.line.nums.dwellNear ((s.line.nums.dwellFar : Int) - s.line.nums.dwellNear)

theorem dwelled_eq {s : State} (h : s.Dwells) : s.dwelled = (s.insertDefect s.dwellMark).1 := by
  obtain ⟨faulted, valid, stretch⟩ := h
  rw [State.dwelled, if_pos ⟨faulted, valid⟩, State.askDwell, if_pos stretch]
  rfl

theorem dwellMark_end (s : State) : s.dwellMark.closedEnd = s.line.nums.dwellFar := by
  simp [State.dwellMark, closedMark]

theorem dwelled_covers (s : State) {x : Int} (h : Covered s.wmp.marks x) : Covered s.dwelled.wmp.marks x := by
  refine ite_keeps (P := fun t => Covered t.wmp.marks x) (fun _ => ?_) fun _ => h
  unfold State.askDwell
  dsimp only
  split
  · exact insertDefect_covers _ _ x h
  · exact h

theorem dwelled_covers_dwell {s : State} {x : Int} (h : s.Dwells) (near : (s.line.nums.dwellNear : Int) ≤ x)
    (far : x < s.line.nums.dwellFar) : Covered s.dwelled.wmp.marks x := by
  rw [dwelled_eq h]
  refine insertDefect_covers_new s _ rfl rfl ⟨near, (lt_zoneEnd_iff _ _).2 (.inl ?_)⟩
  rwa [dwellMark_end]

/-- The dwell mark is placed under the next number, and leaves room for one more mark. -/
theorem dwelled_marks {s : State} (h : s.Dwells) (room : defectCount s.wmp.marks ≤ 30) :
    { s.dwellMark with seq := s.wmp.nextSeq } ∈ s.dwelled.wmp.marks ∧ defectCount s.dwelled.wmp.marks ≤ 31 := by
  have placed := insertDefect_placed s s.dwellMark rfl (by omega)
  rw [dwelled_eq h, placed]
  refine ⟨(place_perm _ _).mem_iff.2 List.mem_cons_self, ?_⟩
  rw [place_defectCount]
  split <;> omega

/-! #### LINE_RESET whole -/

/-- LINE_RESET before the faults of its event are taken. -/
def State.lineReset (s : State) : State := s.standsReset.chgLineReset.onWtr fun w => { w with debt := 0 }

theorem lineReset_lsc (s : State) :
    s.lineReset.lsc = { s.lsc with state := .stopped, latch := none, seen := [], threading := 0 } := by
  have lsc : s.standsReset.chgLineReset.lsc = s.standsReset.lsc := (Counts.lineState _).chgLineReset rfl
  rw [State.lineReset, State.onWtr_lsc, lsc, standsReset_lsc, stoppedAnew_lsc]

theorem lineReset_dwelled (s : State) {x : Int} (h : Covered s.dwelled.wmp.marks x) : Covered s.lineReset.wmp.marks x := by
  rw [State.lineReset, State.onWtr_wmp]
  exact chgLineReset_covers s.standsReset x (by rwa [standsReset_marks])

theorem lineReset_covers (s : State) {x : Int} (h : Covered s.wmp.marks x) : Covered s.lineReset.wmp.marks x :=
  lineReset_dwelled s (dwelled_covers s h)

theorem lineReset_covers_dwell {s : State} {x : Int} (h : s.Dwells) (near : (s.line.nums.dwellNear : Int) ≤ x)
    (far : x < s.line.nums.dwellFar) : Covered s.lineReset.wmp.marks x :=
  lineReset_dwelled s (dwelled_covers_dwell h near far)

theorem lineReset_dwell {s : State} (h : s.Dwells) (room : defectCount s.wmp.marks ≤ 30) :
    { s.dwellMark with seq := s.wmp.nextSeq } ∈ s.lineReset.wmp.marks := by
  obtain ⟨mem, count⟩ := dwelled_marks h room
  rw [State.lineReset, State.onWtr_wmp]
  exact chgLineReset_keepsMark s.standsReset _ (by rwa [standsReset_marks]) (by rwa [standsReset_marks])

theorem lineReset_knp (s : State) : s.lineReset.knp = s.dwelled.knp.cleared := by
  have knp := standsReset_knp s
  obtain ⟨kept, -⟩ := chgLineReset_bare (s := s.standsReset) (by rw [knp]; rfl) (standsReset_urgent s)
  rw [State.lineReset, State.onWtr_knp, kept, knp]

theorem lineReset_others (s : State) :
    s.lineReset.Spliced ∧ Cleared (s.rif.urgent.length ≤ 12) s.lineReset.rif.urgent := by
  obtain ⟨-, spl, urgent⟩ := chgLineReset_bare (s := s.standsReset) (by rw [standsReset_knp]; rfl) (standsReset_urgent s)
  rw [State.lineReset, State.onWtr_rif]
  refine ⟨fun k => ?_, urgent⟩
  rw [State.stand, State.onWtr_spl, spl]
  exact standsReset_spliced s k

theorem lineReset_timer (s : State) : s.lineReset.chg.blocked = false ∧ (s.lineReset.chg.timer = 0
    ∨ ∃ r rest, s.lineReset.chg.records = r :: rest ∧ r.status = .swapping) := by
  rw [State.lineReset, State.onWtr_chg]
  exact chgLineReset_timer s.standsReset

theorem lineReset_counted (s : State) : s.lineReset.wtr.counted = { s.wtr.counted with debt := 0 } := by
  have K := Faults.counted s.wtr.counted
  have dwelled : s.dwelled.wtr.counted = s.wtr.counted :=
    ite_keeps (P := fun t => t.wtr.counted = s.wtr.counted) (fun _ => K.askDwell rfl) fun _ => rfl
  have stopped : s.stoppedAnew.wtr.counted = s.wtr.counted :=
    K.enterStateWith _ _ _ _ rfl (Faults.latchOk_stopped _) (fun _ => List.nodup_nil) (by simp [isLineReason]) dwelled
  have reset : s.standsReset.chgLineReset.wtr.counted = s.wtr.counted :=
    K.chgLineReset (K.splLineReset (K.clearKnife stopped))
  rw [State.lineReset, State.onWtr_wtr, ← reset]
  rfl

/-! #### The faults of the event, at a line that does not run (R168) -/

/-- What a fault taken at a line that does not run leaves alone. -/
def State.resting (s : State) : List Mark × Knp × Spl × Chg × List OutItem × LineState × Nat :=
  (s.wmp.marks, s.knp, s.spl, s.chg, s.rif.urgent, s.lsc.state, s.lsc.threading)

theorem loseMap_if_resting (c : Prop) [Decidable c] (s : State) : (if c then s.loseMap else s).resting = s.resting := by
  split <;> rfl

theorem takeFault_resting {s : State} (f : FaultReport) (h : runsLine s.lsc.state = false) :
    (s.takeFault f).resting = s.resting := by
  unfold State.takeFault
  split
  · dsimp only
    generalize ht : (if losesWeb f.code = true then _ else _ : State) = t
    have rest : t.resting = s.resting := by
      rw [← ht, loseMap_if_resting]
      simp [State.resting, State.notify, queueRoutine_urgent]
    have idle : runsLine t.lsc.state = false := by
      rw [show t.lsc.state = s.lsc.state from congrArg (fun x => x.2.2.2.2.2.1) rest]
      exact h
    rw [if_neg (by rw [State.onLsc_lsc, idle]; exact Bool.false_ne_true)]
    exact rest
  · dsimp only
    rw [loseMap_if_resting]
    split
    · rfl
    · simp [State.resting]

theorem takeFaults_resting {s : State} (h : runsLine s.lsc.state = false) : s.takeFaults.resting = s.resting := by
  have pass : ∀ (l : List FaultReport) (t : State), t.resting = s.resting →
      (l.foldl (fun s f => s.takeFault f) t).resting = s.resting := by
    intro l
    induction l with
    | nil => exact fun _ ht => ht
    | cons f l ih =>
      intro t ht
      have state : t.lsc.state = s.lsc.state := congrArg (fun x => x.2.2.2.2.2.1) ht
      exact ih _ ((takeFault_resting f (by rw [state]; exact h)).trans ht)
  exact pass _ _ (pass _ _ rfl)

end Sys2Proof.Machine
end

section
namespace Sys2Proof.Machine

/-! #### The granted request -/

/-- The state in which a request is served: the station pins are the asker's. -/
def State.asked (s : State) (q : Asker) : State := { s with commStation := q.comm }

def State.withReply (s : State) (r : Reply) : State := { s with reply := some r }

theorem exec_lineReset {s : State} {q : Asker} (h : s.Grants q .lineReset) :
    exec (.lineReset q) s = .next
      ((s.asked q).lineResetRequest.1.takeFaults.withReply ((s.asked q).lineResetRequest.2.cut q.space)) := by
  obtain ⟨space, check⟩ := h
  have answered : s.answer q .lineReset State.lineResetRequest
      = ((s.asked q).lineResetRequest.1.takeFaults.withReply ((s.asked q).lineResetRequest.2.cut q.space)) := by
    have check : (s.asked q).checkRequest q .lineReset = none := check
    unfold State.answer State.serve
    rw [if_neg (Nat.not_lt.2 space)]
    unfold State.asked at check
    rw [check]
    rfl
  rw [← answered]
  rfl

theorem lineResetRequest_busy {s : State} (h : s.lsc.state = .faulted ∧ s.lsc.status ≠ .stopped) :
    s.lineResetRequest = (s, bare .busy) := if_pos h

theorem lineResetRequest_taken {s : State} (h : ¬(s.lsc.state = .faulted ∧ s.lsc.status ≠ .stopped)) :
    s.lineResetRequest
      = (s.lineReset, okWith [.faultCode (s.lsc.latch.map fun l => l.code), .flag (decide s.Dwells)]) := by
  unfold State.lineResetRequest
  rw [if_neg h, resetLine_eq]
  rfl

/-- What LINE_RESET keeps of the configuration, of what stands outside the blocks and of the router. -/
theorem lineReset_kept (s : State) : s.lineReset.takeFaults.configuration = s.configuration
    ∧ s.lineReset.takeFaults.outside = s.outside ∧ s.lineReset.takeFaults.irt = s.irt := by
  have fst : s.resetLine.1 = s.lineReset := by rw [resetLine_eq]; rfl
  rw [← fst]
  exact ⟨(Rings.configuration _).takeFaults ((Rings.configuration _).resetLine rfl),
    (Lines.outside _).takeFaults ((Lines.outside _).resetLine rfl), (Webs.router _).takeFaults ((Webs.router _).resetLine rfl)⟩

theorem lineReset_counts (s : State) : s.lineReset.takeFaults.wtr.counted = { s.wtr.counted with debt := 0 } :=
  (Faults.counted _).takeFaults (lineReset_counted s)

/-- The feed, the ring and what stands outside, as the blocks' keeping gives them. -/
theorem feedAndRing_of_kept {s t : State} (outside : t.outside = s.outside) (irt : t.irt = s.irt)
    (wtr : t.wtr.counted = { s.wtr.counted with debt := 0 }) : s.SameFeedAndRing t ∧ t.wtr.debt = 0 := by
  obtain ⟨-, -, -, passed, -, pending, told⟩ := Outside.mk.inj outside
  obtain ⟨lastCount, firstCount, elapsed, remainder, debt, history, fill, speedSum, band, -⟩ := Wtr.mk.inj wtr
  exact ⟨⟨irt, sameRing_of_told told, ⟨lastCount, firstCount, elapsed, remainder⟩, ⟨history, fill, speedSum, band⟩, passed,
    pending⟩, debt⟩

/-- Settles O32: the request's branches, LINE_RESET step by step on a line that does not run, and the faults of the event, which
such a line takes without a change of what is asked here. -/
theorem lineResetStopsTheLine : Obligations.LineResetStopsTheLine := by
  intro s q inv grants
  refine ⟨fun faulted status => ?_, fun free => ?_⟩
  · have busy := lineResetRequest_busy (s := s.asked q) ⟨faulted, status⟩
    have handed : (s.asked q).handed = [] := (inv_iff.1 inv).2
    rw [exec_lineReset grants, busy, takeFaults_nothing handed]
    rfl
  · have taken := lineResetRequest_taken (s := s.asked q) free
    obtain ⟨configuration, outside, irt⟩ := lineReset_kept (s.asked q)
    have counts := lineReset_counts (s.asked q)
    have lsc := lineReset_lsc (s.asked q)
    have rest := takeFaults_resting (s := (s.asked q).lineReset) (by rw [lsc]; rfl)
    have dwell := @lineReset_dwell (s.asked q)
    have covered := @lineReset_covers_dwell (s.asked q)
    have covers := @lineReset_covers (s.asked q)
    have clear := cleared_of_places (dwelled_lies (s.asked q)).places
    rw [← lineReset_knp] at clear
    obtain ⟨spliced, cleared⟩ := lineReset_others (s.asked q)
    have swap := lineReset_timer (s.asked q)
    rw [exec_lineReset grants, taken]
    revert configuration outside irt counts lsc rest dwell covered covers clear spliced cleared swap
    generalize (s.asked q).lineReset = u
    intro configuration outside irt counts lsc rest dwell covered covers clear spliced cleared swap
    refine ⟨_, u, rfl, ?_⟩
    dsimp only
    generalize u.takeFaults = v at configuration outside irt counts rest ⊢
    obtain ⟨marks, knp, spl, chg, urgent, state, threading⟩ : _ ∧ _ ∧ _ ∧ _ ∧ _ ∧ _ ∧ _ := by
      simpa only [State.resting, Prod.mk.injEq] using rest
    obtain ⟨feed, debt⟩ := feedAndRing_of_kept outside irt counts
    rw [lsc] at state threading
    rw [← marks] at dwell covered covers
    rw [← knp] at clear
    rw [← chg] at swap
    rw [← urgent] at cleared
    obtain ⟨plans, cutEdge, front, before, withdrawn⟩ := clear
    refine ⟨state, threading, debt, rfl, configuration, feed, rfl, lsc, fun dwells room => ?_, fun dwells x => covered dwells,
      fun x => covers, plans, cutEdge, front, before, withdrawn, cleared.1, cleared.2, fun k => ?_, swap⟩
    · exact ⟨_, dwell dwells room, rfl, rfl, rfl, dwellMark_end s, rfl⟩
    · have stand : v.stand k = u.stand k := by rw [State.stand, spl]; rfl
      show (v.stand k).splice ≠ .fault
      rw [stand]
      exact spliced k

end Sys2Proof.Machine
end

section
namespace Sys2Proof.Machine

/-! ### The order of the map and its defects (R26, R28) -/

/-- Settles O54. -/
theorem marksStandInOrder : Obligations.MarksStandInOrder := by
  intro m l ordered
  obtain ⟨a, b, split, placed, below, above⟩ := place_splits m l ordered
  exact ⟨a, b, split, placed, below, above, place_ascending m l ordered⟩

/-- A mark asks for no claim that stands when the map holds none of its claims. -/
theorem holdsNew_false {s : State} {m : Mark} (h : ∀ c ∈ m.claims, ∀ y ∈ s.wmp.marks, y.holdsClaim c.kind c.owner = false) :
    s.holdsNew m = false := by
  simpa [State.holdsNew] using h

/-- Settles O55: a mark placed or merged covers what it and the survivor covered, and the map's form is an invariant. -/
theorem noDefectIsLost : Obligations.NoDefectIsLost := fun s m ok defect =>
  ⟨insertDefect_covers s m, fun unclaimed _ start stop =>
    insertDefect_covers_new s m (holdsNew_false unclaimed) defect ⟨start, stop⟩,
    Loads.mapForm.toMarks.insertDefect m defect ok⟩

end Sys2Proof.Machine
end

section
namespace Sys2Proof.Machine

variable {P : State → Prop}

/-! ### What a change of line state does (R96, R114, R129, R145, R161)

The report of a line state plans sheets and sends splices and setpoints; on the way to FAULTED it clears the knife. It touches
neither the map nor the changeover, and no fault that it hands loses the web. `Enters` says so once. -/

structure Enters (P : State → Prop) : Prop where
  log : ∀ {s : State} (b), P s → P (s.log b)
  urgent : ∀ {s : State} (o), P s → P (s.queueUrgent o)
  routine : ∀ {s : State} (o), P s → P (s.queueRoutine o)
  hand : ∀ {s : State} (c d), losesWeb c = false → P s → P (s.hand c d)
  alter : ∀ {s : State} (d r), P s → P (s.alter d r)
  osq : ∀ {s : State} (f : Osq → Osq), P s → P (s.onOsq f)
  stk : ∀ {s : State} (f : Stk → Stk), P s → P (s.onStk f)
  knp : ∀ {s : State} (f : Knp → Knp), P s → P (s.onKnp f)
  rif : ∀ {s : State} (f : Rif → Rif), P s → P (s.onRif f)
  stand : ∀ {s : State} (i) (f : Stand → Stand), P s → P (s.onStand i f)
  hgr : ∀ {s : State} (f : Hgr → Hgr), P s → P (s.onHgr f)
  lsc : ∀ {s : State} (f : Lsc → Lsc), P s → P (s.onLsc f)
  clear : ∀ {s : State}, P s → P { s with handed := [] }

namespace Enters

theorem notify (K : Enters P) {s : State} (n : Notice) (h : P s) : P (s.notify n) := K.routine _ h

/-! #### Stacks and orders (R59, R62, R150, R151) -/

theorem placeSetDown (K : Enters P) {s : State} (d : SetDown) (h : P s) : P (s.placeSetDown d) := by
  have examined : ∀ {s : State}, P s → P s.examineSetDown := by
    intro s h
    unfold State.examineSetDown
    split
    · exact h
    · exact ite_keeps (fun _ => K.stk _ (K.routine _ h)) fun _ => h
  unfold State.placeSetDown
  split
  · exact examined (K.stk _ h)
  · exact K.stk _ h
  · exact ite_keeps (fun _ => K.alter _ _ (K.stk _ h)) fun _ => K.notify _ (K.hand _ _ rfl h)

theorem testClose (K : Enters P) {s : State} (i : Nat) (h : P s) : P (s.testClose i) := by
  unfold State.testClose
  split
  · exact h
  · exact ite_keeps (fun _ => ite_keeps (fun _ => K.notify _ (K.log _ (K.osq _ h))) fun _ =>
      K.placeSetDown _ (K.stk _ (K.notify _ (K.log _ (K.osq _ h))))) fun _ => h

theorem reportPlan (K : Enters P) {s : State} (p : Plan) (h : P s) : P (s.reportPlan p) := by
  unfold State.reportPlan
  split
  · exact h
  · exact ite_keeps (fun _ => K.osq _ (K.osq _ h)) fun _ => K.osq _ h

theorem withdrawPlan (K : Enters P) {s : State} (p : Plan) (h : P s) : P (s.withdrawPlan p) := by
  unfold State.withdrawPlan
  split
  · exact h
  · exact K.testClose _ (ite_keeps (fun _ => K.osq _ (K.osq _ h)) fun _ => K.osq _ h)

/-! #### The plan queue (R127, R129, R135, R145) -/

theorem passPlanning (K : Enters P) (fuel : Nat) {s : State} (h : P s) : P (State.passPlanning fuel s) := by
  induction fuel generalizing s with
  | zero => exact h
  | succ fuel ih =>
    unfold State.passPlanning
    split
    · exact h
    · exact ite_keeps (fun _ => ih (K.osq _ h)) fun _ => h

theorem planSheets (K : Enters P) (fuel : Nat) {s : State} (h : P s) : P (State.planSheets fuel s) := by
  induction fuel generalizing s with
  | zero => exact h
  | succ fuel ih =>
    unfold State.planSheets
    refine ite_keeps (fun _ => ?_) fun _ => h
    split
    · exact h
    · exact ih (K.passPlanning _ (K.reportPlan _ (K.knp _ (K.urgent _ h))))

theorem refill (K : Enters P) {s : State} (h : P s) : P s.refill := by
  have planned := K.planSheets 2 h
  exact ite_keeps (fun _ => planned) fun _ => ite_keeps (fun _ => K.alter _ _ planned) fun _ => K.alter _ _ planned

theorem clearKnife (K : Enters P) {s : State} (h : P s) : P s.clearKnife := by
  unfold State.clearKnife
  dsimp only
  exact K.refill (K.knp _ (foldl_keeps (fun _ p => K.withdrawPlan p) _ (K.knp _ (K.urgent _ (K.rif _ h)))))

/-! #### The judgement of a mark (R34, R142) -/

theorem markReport (K : Enters P) {s : State} (m : Mark) (h : P s) : P (s.markReport m) := by
  refine foldl_keeps (fun t i ht => ?_) _ h
  unfold State.judgePlan
  split
  · exact ht
  · exact ite_keeps (fun _ => ite_keeps (fun _ => K.log _ (K.knp _ (K.urgent _ ht))) fun _ => K.knp _ ht) fun _ => ht

/-! #### Stands and setpoints (R96, R97, R113, R114) -/

theorem examine (K : Enters P) {s : State} (i : Nat) (h : P s) : P (s.examine i) := by
  unfold State.examine
  dsimp only
  split
  · exact h
  · refine ite_keeps (fun _ => ?_) fun _ => h
    split
    · exact K.stand _ _ h
    · split
      · exact K.stand _ _ (K.urgent _ h)
      · exact ite_keeps (fun _ => K.notify _ (K.stand _ _ h)) fun _ => K.stand _ _ h

theorem syncReasons (K : Enters P) {s : State} (l : List Nat) (h : P s) : P (s.syncReasons l) := K.alter _ _ h

theorem examineAll (K : Enters P) {s : State} (h : P s) : P s.examineAll :=
  K.syncReasons _ (foldl_keeps (fun _ i => K.examine i) _ h)

theorem resendSetpoints (K : Enters P) {s : State} (h : P s) : P s.resendSetpoints := by
  refine foldl_keeps (fun t p ht => ?_) _ h
  unfold State.sendSetpoint
  dsimp only
  split
  · exact ht
  · exact ite_keeps (fun _ => ht) fun _ => K.hgr _ (K.hgr _ (K.routine _ ht))

/-! #### Line State Control (R161, R168) -/

theorem stateReported (K : Enters P) {s : State} (old new : LineState) (h : P s) : P (s.stateReported old new) := by
  unfold State.stateReported
  dsimp only
  have cleared : P (if new = .faulted ∧ old ≠ .faulted then s.clearKnife else s) :=
    ite_keeps (fun _ => K.clearKnife h) fun _ => h
  have examined := K.examineAll (K.refill cleared)
  exact ite_keeps (fun _ => K.resendSetpoints examined) fun _ => examined

theorem enterState (K : Enters P) {s : State} (new : LineState) (c : StateCause) (further : List (Reason × Nat)) (h : P s) :
    P (s.enterState new c further) := K.stateReported _ _ (K.log _ (K.alter _ _ (K.lsc _ h)))

/-- A fault taken that does not lose the web. -/
theorem takeFault (K : Enters P) {s : State} {f : FaultReport} (hf : losesWeb f.code = false) (h : P s) :
    P (s.takeFault f) := by
  unfold State.takeFault
  simp only [hf, Bool.false_eq_true, if_false]
  split
  · have told := K.notify (.faultLatched f.code f.detail (s.log (.fault f.code false f.detail)).lsc.state)
      (K.log (.fault f.code false f.detail) h)
    exact ite_keeps (fun _ => K.enterState _ _ _ (K.lsc _ told)) fun _ => K.lsc _ told
  · exact ite_keeps (fun _ => h) fun _ => K.log _ (K.lsc _ h)

/-- The faults handed when none of them loses the web. -/
theorem takeFaults (K : Enters P) (safe : ∀ s, P s → ∀ f ∈ s.handed, losesWeb f.code = false) {s : State} (h : P s) :
    P s.takeFaults := by
  have fold : ∀ (l : List FaultReport) (t : State), (∀ f ∈ l, losesWeb f.code = false) → P t →
      P (l.foldl (fun s f => s.takeFault f) t) := by
    intro l
    induction l with
    | nil => exact fun _ _ ht => ht
    | cons f l ih =>
      exact fun t hl ht => ih _ (fun g hg => hl g (List.mem_cons_of_mem _ hg)) (K.takeFault (hl f List.mem_cons_self) ht)
  have pass : ∀ t : State, P t → P t.takeHanded := fun t ht => fold _ _ (safe t ht) (K.clear ht)
  exact pass _ (pass _ h)

end Enters

/-- The map stands at a change of line state. -/
theorem Enters.map (w : Wmp) : Enters fun s => s.wmp = w where
  log _ h := by simpa using h
  urgent _ h := by simpa using h
  routine _ h := by simpa using h
  hand _ _ _ h := h
  alter _ _ h := by simpa using h
  osq _ h := h
  stk _ h := h
  knp _ h := h
  rif _ h := h
  stand _ _ h := h
  hgr _ h := h
  lsc _ h := h
  clear h := h

/-! ### A fault taken (R35, R168) -/

theorem losesWeb_iff (c : FaultCode) : losesWeb c = true ↔ c = .encoderLost ∨ c = .encoderReverse ∨ c = .ringLost := by
  cases c <;> simp [losesWeb]

/-- A fault taken while one is latched is logged once as following; a lost count leaves the map not valid. -/
theorem takeFault_following {s : State} (f : FaultReport) (h : s.lsc.latch.isSome = true) :
    s.takeFault f =
      let t := if s.lsc.seen.contains f.code then s
        else (s.onLsc fun l => { l with seen := l.seen ++ [f.code] }).log (.fault f.code true f.detail)
      if losesWeb f.code then t.loseMap else t := by
  obtain ⟨x, hx⟩ := Option.isSome_iff_exists.1 h
  unfold State.takeFault
  rw [hx]

/-- A lost count, latched or following, leaves the map not valid and no purge armed. -/
theorem takeFault_losesMap (s : State) {f : FaultReport} (h : losesWeb f.code = true) :
    (s.takeFault f).wmp.valid = false ∧ (s.takeFault f).wmp.armed = false := by
  unfold State.takeFault
  simp only [h, if_true]
  split
  · generalize hu : State.onLsc (State.loseMap _) _ = u
    have lost : u.wmp.valid = false ∧ u.wmp.armed = false := hu ▸ ⟨rfl, rfl⟩
    refine ite_keeps (P := fun t => t.wmp.valid = false ∧ t.wmp.armed = false) (fun _ => ?_) fun _ => lost
    rw [(Enters.map u.wmp).enterState _ _ _ rfl]
    exact lost
  · exact ⟨rfl, rfl⟩

/-- Settles O53. -/
theorem firstFaultIsLatched : Obligations.FirstFaultIsLatched := fun s f =>
  ⟨takeFault_lsc_unlatched f, takeFault_losesMap s,
    fun latched unseen => (takeFault_following f latched).trans (by rw [unseen]; rfl),
    fun latched seen => (takeFault_following f latched).trans (by rw [seen]; rfl), losesWeb_iff f.code⟩

end Sys2Proof.Machine
end

section
namespace Sys2Proof.Machine

/-! ### A granted request (R189, R191) -/

/-- A granted request is its owner's part, Line State Control's taking of the faults it handed, and the reply cut to its space. -/
theorem exec_granted {s : State} {q : Asker} {r : Request} (h : s.Grants q r) :
    exec (carrying q r) s = .next
      ((owned q r (s.asked q)).1.takeFaults.withReply ((owned q r (s.asked q)).2.cut q.space)) := by
  obtain ⟨space, check⟩ := h
  have check : (s.asked q).checkRequest q r = none := check
  rw [exec_carrying]
  unfold State.answer State.serve
  rw [if_neg (Nat.not_lt.2 space)]
  unfold State.asked at check ⊢
  rw [check]
  rfl

theorem cut_bare (x : Reply) (n : Nat) (h : x.data = []) : x.cut n = x := by
  cases x
  cases h
  rfl

/-- A granted request whose owner hands no fault and answers without data. -/
theorem exec_granted_plain {s : State} {q : Asker} {r : Request} {t : State} {x : Reply} (h : s.Grants q r)
    (ho : owned q r (s.asked q) = (t, x)) (handed : t.handed = []) (data : x.data = []) :
    exec (carrying q r) s = .next (t.withReply x) := by
  rw [exec_granted h, ho, takeFaults_nothing handed, cut_bare x _ data]

theorem firstBad_none {l : List (Nat × Bool)} (h : ∀ x ∈ l, x.2 = true) : firstBad l = none := by
  induction l with
  | nil => rfl
  | cons x l ih =>
    rw [firstBad, if_pos (h x List.mem_cons_self)]
    exact ih fun y hy => h y (List.mem_cons_of_mem _ hy)

/-! ### Tables changed twice -/

theorem table_ext {α : Type} {n : Nat} {v w : Vector α n} (h : ∀ j : Nat, v[j]? = w[j]?) : v = w := by
  refine Vector.ext fun j hj => ?_
  have same := h j
  rw [Vector.getElem?_eq_getElem hj, Vector.getElem?_eq_getElem hj] at same
  exact Option.some.inj same

theorem modify_modify {α : Type} {n : Nat} (v : Vector α n) (i : Nat) (f g : α → α) :
    modify (modify v i f) i g = modify v i fun x => g (f x) := by
  refine table_ext fun j => ?_
  simp only [modify_getElem?]
  split
  · rw [Option.map_map]
    rfl
  · rfl

theorem modify_congr {α : Type} {n : Nat} (v : Vector α n) (i : Nat) {f g : α → α} (h : ∀ x, v[i]? = some x → f x = g x) :
    modify v i f = modify v i g := by
  refine table_ext fun j => ?_
  simp only [modify_getElem?]
  split
  · rename_i e
    subst e
    cases hx : v[j]? with
    | none => rfl
    | some x => simp [h x hx]
  · rfl

theorem onPoint_congr {s : State} {p : Nat} {f g : Point → Point} (h : f (s.point p) = g (s.point p)) :
    s.onPoint p f = s.onPoint p g := by
  have points : modify s.hgr.points p f = modify s.hgr.points p g :=
    modify_congr _ _ fun x hx => by simpa [State.point, hx] using h
  simp only [State.onPoint, State.onHgr, points]

theorem point_onPoint (s : State) (i j : Nat) (f : Point → Point) :
    (s.onPoint i f).point j = if j = i ∧ i < 12 then f (s.point i) else s.point j := by
  simp only [State.point, State.onPoint, State.onHgr, modify_getElem?]
  by_cases e : j = i
  · subst e
    by_cases hj : j < 12
    · simp [hj]
    · simp [hj]
  · simp [e]

theorem onChannel_onChannel (s : State) (c : Nat) (f g : Channel → Channel) :
    (s.onChannel c f).onChannel c g = s.onChannel c fun x => g (f x) := by
  simp only [State.onChannel, State.onHgr, modify_modify]

/-! ### Notices (R186) -/

/-- A NOTICE replaces no waiting item. -/
theorem replaces_notice (n : Notice) (x : OutItem) : replaces (.notice n) x = false := by
  cases x <;> rfl

/-- A NOTICE joins the routine queue while fewer than 48 items wait, and is discarded otherwise. -/
theorem notify_eq (s : State) (n : Notice) :
    s.notify n = if s.rif.routine.length < 48 then s.onRif fun r => { r with routine := r.routine ++ [.notice n] } else s := by
  have waiting : s.rif.routine.any (replaces (.notice n)) = false := by simp [replaces_notice]
  have overflow : s.rif.overflow.any (replaces (.notice n)) = false := by cases s.rif.overflow <;> simp [replaces_notice]
  unfold State.notify State.queueRoutine
  rw [if_neg (by simp [waiting]), if_neg (by simp [overflow])]
  rfl

theorem notify_onHgr (s : State) (n : Notice) (f : Hgr → Hgr) : (s.onHgr f).notify n = (s.notify n).onHgr f := by
  rw [notify_eq, notify_eq, State.onHgr_rif]
  split <;> rfl

theorem notify_onChannel (s : State) (n : Notice) (c : Nat) (f : Channel → Channel) :
    (s.onChannel c f).notify n = (s.notify n).onChannel c f := notify_onHgr s n _

/-- A NOTICE does not depend on what the pins read. -/
theorem notify_asked (s : State) (q : Asker) (n : Notice) : (s.asked q).notify n = (s.notify n).asked q := by
  rw [notify_eq, notify_eq]
  by_cases room : s.rif.routine.length < 48
  · rw [if_pos room, if_pos (show (s.asked q).rif.routine.length < 48 from room)]
    rfl
  · rw [if_neg room, if_neg (show ¬(s.asked q).rif.routine.length < 48 from room)]

theorem closeClaim_asked (s : State) (q : Asker) (k : ClaimKind) (o : Nat) (x : Int) :
    (s.asked q).closeClaim k o x = (s.closeClaim k o x).asked q := rfl

theorem onChannel_asked (s : State) (q : Asker) (c : Nat) (f : Channel → Channel) :
    (s.asked q).onChannel c f = (s.onChannel c f).asked q := rfl

/-! ### LOAD_CHANNEL (R116) -/

/-- The record that a LOAD_CHANNEL carries. -/
def channelCfgOf (a : ChannelArgs) : Option ChannelCfg :=
  a.point.map fun p => { sub := a.sub, point := p, mult := a.mult, offset := a.offset, invert := a.invert.getD false,
                         confirm := a.confirm, settle := a.settle }

/-- The fields of a LOAD_CHANNEL but the invert flag are in range, and name an HGR subscription of the channel and a configured
point. -/
structure State.ChannelInRange (s : State) (a : ChannelArgs) : Prop where
  channel : a.channel ≤ 15
  sub     : a.sub ≤ 47 ∧ s.entryFeeds a.sub a.channel = true
  point   : s.pointOk a.point = true
  mult    : 1 ≤ a.mult ∧ a.mult ≤ 4095
  offset  : -32768 ≤ a.offset ∧ a.offset ≤ 32767
  confirm : 1 ≤ a.confirm ∧ a.confirm ≤ 8
  settle  : a.settle ≤ 60000

theorem entryFeeds_of {s : State} {entry channel : Nat}
    (h : ∃ e c, s.irt.subs[entry]? = some e ∧ e.cfg = some c ∧ c.owner = .hgr ∧ c.index = channel) :
    s.entryFeeds entry channel = true := by
  obtain ⟨e, c, he, hc, owner, index⟩ := h
  simp [State.entryFeeds, he, hc, owner, index]

theorem pointOk_of {s : State} {p : Option Nat} (h : ∀ x, p = some x → x ≤ 11 ∧ (s.point x).cfg.isSome = true) :
    s.pointOk p = true := by
  cases p with
  | none => rfl
  | some x => simpa [State.pointOk] using h x rfl

theorem loadChannel_uninverted {s : State} {a : ChannelArgs} (h : s.ChannelInRange a) (hi : a.invert = none) :
    s.loadChannel a = (s, badField 6 0) := by
  obtain ⟨channel, sub, point, mult, offset, confirm, settle⟩ := h
  simp [State.loadChannel, firstBad, within, channel, sub, point, mult, offset, hi, State.refuse]

/-- The open claim of a channel is closed at its point's distance, as LOAD_CHANNEL does first. -/
def State.channelFreed (s : State) (c : Nat) : State :=
  match (s.channel c).cfg with
  | some k =>
    if (s.channel c).isOpen then s.closeOffband c k.point (((s.point k.point).cfg.map fun (x : PointCfg) => x.dist).getD 0)
    else s
  | none => s

theorem channelFreed_shut {s : State} {c : Nat} (h : (s.channel c).isOpen = false) : s.channelFreed c = s := by
  unfold State.channelFreed
  split
  · rw [h]; rfl
  · rfl

theorem channelFreed_open {s : State} {c : Nat} {k : ChannelCfg} {pc : PointCfg} (h : (s.channel c).isOpen = true)
    (hk : (s.channel c).cfg = some k) (hp : (s.point k.point).cfg = some pc) :
    s.channelFreed c = s.closeOffband c k.point pc.dist := by
  simp [State.channelFreed, hk, h, hp]

/-- A close and a change of the channel are one change of the channel behind the claim's end, with the notice. -/
theorem closeOffband_onChannel (s : State) (c p d : Nat) {f : Channel → Channel} (hf : ∀ x, f { x with run := .clear } = f x) :
    (s.closeOffband c p d).onChannel c f
      = ((s.closeClaim .offband c ((d : Int) + s.line.nums.gOff)).onChannel c f).notify (.offbandClosed c p) := by
  rw [State.closeOffband, ← notify_onChannel, onChannel_onChannel]
  simp only [hf]

/-- In range, an open claim of the channel is closed, and the record is written. -/
theorem loadChannel_written {s : State} {a : ChannelArgs} (h : s.ChannelInRange a) (hi : a.invert.isSome = true) :
    s.loadChannel a = ((s.channelFreed a.channel).onChannel a.channel fun ch =>
      { ch with cfg := channelCfgOf a, run := .clear, settle := 0 }, bare .ok) := by
  obtain ⟨channel, sub, point, mult, offset, confirm, settle⟩ := h
  have passed : firstBad [(1, decide (a.channel ≤ 15)), (2, decide (a.sub ≤ 47) && s.entryFeeds a.sub a.channel),
      (3, s.pointOk a.point), (4, within 1 4095 a.mult), (5, decide (-32768 ≤ a.offset) && decide (a.offset ≤ 32767)),
      (6, a.invert.isSome), (7, within 1 8 a.confirm), (8, decide (a.settle ≤ 60000))] = none :=
    firstBad_none (by simp [within, channel, sub, point, mult, offset, confirm, settle, hi])
  unfold State.loadChannel
  rw [passed]
  rfl

/-- Settles O19. -/
theorem loadChannelWritesItsChannel : Obligations.LoadChannelWritesItsChannel := by
  intro s q a handed grants channel sub feeds point mult mult' offset offset' confirm confirm' settle
  have range : (s.asked q).ChannelInRange a :=
    ⟨channel, ⟨sub, entryFeeds_of feeds⟩, pointOk_of point, ⟨mult, mult'⟩, ⟨offset, offset'⟩, ⟨confirm, confirm'⟩, settle⟩
  refine ⟨fun unread => exec_granted_plain grants (loadChannel_uninverted range unread) handed rfl, fun invert hi => ?_⟩
  have cfg : channelCfgOf a = a.point.map fun p : Nat =>
      ({ sub := a.sub, point := p, mult := a.mult, offset := a.offset, invert := invert, confirm := a.confirm,
         settle := a.settle } : ChannelCfg) := by rw [channelCfgOf, hi]; rfl
  have written := loadChannel_written range (by rw [hi]; rfl)
  rw [cfg] at written
  refine ⟨fun shut => ?_, fun k pc open_ hk hpc => ?_⟩
  · rw [channelFreed_shut (s := s.asked q) shut] at written
    exact exec_granted_plain grants written handed rfl
  · rw [channelFreed_open (s := s.asked q) open_ hk hpc, closeOffband_onChannel _ _ _ _ fun _ => rfl] at written
    rw [closeClaim_asked, onChannel_asked, notify_asked] at written
    exact exec_granted_plain grants written ((notify_handed _ _).trans handed) rfl

end Sys2Proof.Machine
end

section
namespace Sys2Proof.Machine

/-! ### Closing the claims of several channels at one distance (R29, R111, R123) -/

/-- A mark at the close of some of its claims at a distance. -/
def Mark.closedAt (ended : Claim → Bool) (x : Int) (m : Mark) : Mark :=
  { m with closedEnd := max m.closedEnd x, claims := m.claims.filter fun c => !ended c }

/-- What a close leaves of a mark: none where it retires. -/
def Mark.close (ended : Claim → Bool) (x : Int) (m : Mark) : Option Mark :=
  if m.claims.any ended then (if (m.closedAt ended x).retires then none else some (m.closedAt ended x)) else some m

theorem close_untouched {ended : Claim → Bool} {x : Int} {m : Mark} (h : m.claims.any ended = false) :
    m.close ended x = some m := if_neg (by simp [h])

theorem close_touched {ended : Claim → Bool} {x : Int} {m : Mark} (h : m.claims.any ended = true) :
    m.close ended x = if (m.closedAt ended x).retires then none else some (m.closedAt ended x) := if_pos h

theorem close_congr {p q : Claim → Bool} (x : Int) {m : Mark} (h : ∀ c ∈ m.claims, p c = q c) : m.close p x = m.close q x := by
  have any : m.claims.any p = m.claims.any q := by
    rw [Bool.eq_iff_iff, List.any_eq_true, List.any_eq_true]
    exact exists_congr fun c => and_congr_right fun hc => by rw [h c hc]
  have filter : (m.claims.filter fun c => !p c) = m.claims.filter fun c => !q c :=
    List.filter_congr fun c hc => by rw [h c hc]
  have closed : m.closedAt p x = m.closedAt q x := by rw [Mark.closedAt, filter]; rfl
  rw [Mark.close, any, closed]
  rfl

/-- Two closes at one distance are one. -/
theorem close_close (p q : Claim → Bool) (x : Int) (m : Mark) :
    (m.close p x).bind (Mark.close q x) = m.close (fun c => p c || q c) x := by
  by_cases hp : m.claims.any p = true
  · have both : m.claims.any (fun c => p c || q c) = true := by
      obtain ⟨c, hc, e⟩ := List.any_eq_true.1 hp
      exact List.any_eq_true.2 ⟨c, hc, by simp [e]⟩
    have rest : (m.claims.filter fun c => !p c).filter (fun c => !q c) = m.claims.filter fun c => !(p c || q c) := by
      rw [List.filter_filter]
      exact List.filter_congr fun c _ => by simp [Bool.and_comm]
    have again : (m.closedAt p x).closedAt q x = m.closedAt (fun c => p c || q c) x := by
      simp only [Mark.closedAt, rest, max_assoc, max_self]
    rw [close_touched hp, close_touched both]
    by_cases hq : (m.closedAt p x).claims.any q = true
    · have stays : (m.closedAt p x).retires = false := by
        obtain ⟨c, hc, -⟩ := List.any_eq_true.1 hq
        have : (m.closedAt p x).claims ≠ [] := List.ne_nil_of_mem hc
        simp [Mark.retires, Mark.isOpen, this]
      rw [stays, if_neg Bool.false_ne_true, Option.bind_some, close_touched hq, again]
    · have none_ : ∀ c ∈ m.claims, p c = false → q c = false := by
        intro c hc e
        by_contra hqc
        exact hq (List.any_eq_true.2 ⟨c, List.mem_filter.2 ⟨hc, by simp [e]⟩, by simpa using hqc⟩)
      have same : m.closedAt (fun c => p c || q c) x = m.closedAt p x := by
        have : (m.claims.filter fun c => !(p c || q c)) = m.claims.filter fun c => !p c :=
          List.filter_congr fun c hc => by
            cases e : p c with
            | true => rfl
            | false => simp [none_ c hc e]
        simp only [Mark.closedAt, this]
      rw [same]
      split
      · rfl
      · exact close_untouched (by simpa using hq)
  · have none_ : ∀ c ∈ m.claims, p c = false := by simpa using hp
    rw [close_untouched (by simpa using hp), Option.bind_some]
    exact close_congr x fun c hc => by simp [none_ c hc]

theorem closeClaim_wmp (s : State) (k : ClaimKind) (o : Nat) (x : Int) :
    (s.closeClaim k o x).wmp =
      { s.wmp with marks := s.wmp.marks.filterMap (Mark.close (fun c => c.kind == k && c.owner == o) x) } := rfl

/-! ### The channels tied to a point (R111, R123) -/

/-- Whether a channel is tied to a point and OPEN. -/
def State.openAt (s : State) (p c : Nat) : Bool := (s.channel c).tiedTo p && (s.channel c).isOpen

theorem openAt_lt {s : State} {p c : Nat} (h : s.openAt p c = true) : c < 16 := by
  by_contra hc
  simp [State.openAt, State.channel, Nat.le_of_not_lt hc, Channel.cleared, Channel.tiedTo] at h

/-- What a close of channels leaves alone: all but the map, the channels and the outbound queues. -/
def State.apart (s : State) : State :=
  { s with wmp := Wmp.reset, hgr := { s.hgr with channels := Hgr.reset.channels }, rif := Rif.reset }

/-- Channels closed one after another. -/
def State.closeEach (s : State) (p d : Nat) (l : List Nat) : State := l.foldl (fun s c => s.closeOffband c p d) s

theorem closeOffband_channel (s : State) (c p d j : Nat) :
    (s.closeOffband c p d).channel j = if j = c ∧ c < 16 then { s.channel c with run := .clear } else s.channel j := by
  have noticed (t : State) (n : Notice) : (t.notify n).channel j = t.channel j := by simp [State.channel]
  rw [State.closeOffband, noticed, channel_onChannel]
  rfl

theorem closeOffband_apart (s : State) (c p d : Nat) : (s.closeOffband c p d).apart = s.apart := by
  rw [State.closeOffband, notify_eq]
  split <;> rfl

theorem closeOffband_rif {s : State} (c p d : Nat) (h : s.rif.routine.length < 48) :
    (s.closeOffband c p d).rif = { s.rif with routine := s.rif.routine ++ [.notice (.offbandClosed c p)] } := by
  rw [State.closeOffband, notify_eq]
  exact congrArg State.rif (if_pos h)

theorem closeEach_apart (s : State) (p d : Nat) (l : List Nat) : (s.closeEach p d l).apart = s.apart :=
  foldl_keeps (P := fun t => t.apart = s.apart) (fun t c ht => (closeOffband_apart t c p d).trans ht) l rfl

theorem closeEach_channel (s : State) (p d j : Nat) (l : List Nat) (hl : ∀ c ∈ l, c < 16) :
    (s.closeEach p d l).channel j = if j ∈ l then { s.channel j with run := .clear } else s.channel j := by
  induction l generalizing s with
  | nil => rfl
  | cons c l ih =>
    have hc := hl c List.mem_cons_self
    have step := ih (s.closeOffband c p d) fun x hx => hl x (List.mem_cons_of_mem _ hx)
    rw [closeOffband_channel] at step
    rw [State.closeEach, List.foldl_cons]
    refine step.trans ?_
    by_cases e : j = c
    · subst e
      simp [hc]
    · simp [e]

theorem closeOffband_line (s : State) (c p d : Nat) : (s.closeOffband c p d).line = s.line := by
  have line := congrArg State.line (closeOffband_apart s c p d)
  exact line

theorem closeEach_wmp (s : State) (p d : Nat) (l : List Nat) :
    (s.closeEach p d l).wmp = { s.wmp with
      marks := s.wmp.marks.filterMap
        (Mark.close (fun c => c.kind == .offband && l.contains c.owner) ((d : Int) + s.line.nums.gOff)) } := by
  induction l generalizing s with
  | nil =>
    have same : s.wmp.marks.filterMap (Mark.close (fun c => c.kind == .offband && ([] : List Nat).contains c.owner)
        ((d : Int) + s.line.nums.gOff)) = s.wmp.marks :=
      (List.filterMap_congr fun m _ => close_untouched (by simp)).trans List.filterMap_some
    rw [same]
    rfl
  | cons c l ih =>
    have wmp : (s.closeOffband c p d).wmp
        = (s.closeClaim .offband c ((d : Int) + s.line.nums.gOff)).wmp := by simp [State.closeOffband, State.onChannel]
    rw [State.closeEach, List.foldl_cons]
    refine (ih (s.closeOffband c p d)).trans ?_
    rw [wmp, closeOffband_line, closeClaim_wmp]
    simp only [List.filterMap_filterMap, close_close]
    congr 2
    funext m
    exact close_congr _ fun x _ => by
      simp only [List.contains_cons]
      cases (x.kind == ClaimKind.offband) <;> simp

theorem closeEach_rif (s : State) (p d : Nat) (l : List Nat) (h : s.rif.routine.length + l.length ≤ 48) :
    (s.closeEach p d l).rif
      = { s.rif with routine := s.rif.routine ++ l.map fun c => .notice (.offbandClosed c p) } := by
  induction l generalizing s with
  | nil => simp [State.closeEach]
  | cons c l ih =>
    rw [List.length_cons] at h
    have rif := closeOffband_rif c p d (show s.rif.routine.length < 48 by omega)
    rw [State.closeEach, List.foldl_cons]
    refine (ih (s.closeOffband c p d) (by rw [rif]; simp; omega)).trans ?_
    rw [rif]
    simp

/-- Closing the OPEN channels tied to a point is closing each that is so beforehand. -/
theorem closeTied_eq (s : State) (p d : Nat) : s.closeTied p d = s.closeEach p d ((List.range 16).filter (s.openAt p)) := by
  have each : ∀ (l : List Nat) (t : State), l.Nodup → (∀ c ∈ l, t.openAt p c = s.openAt p c) →
      l.foldl (fun s c => if (s.channel c).tiedTo p && (s.channel c).isOpen then s.closeOffband c p d else s) t
        = t.closeEach p d (l.filter (s.openAt p)) := by
    intro l
    induction l with
    | nil => exact fun _ _ _ => rfl
    | cons c l ih =>
      intro t once same
      obtain ⟨notin, once⟩ := List.nodup_cons.1 once
      have head : ((t.channel c).tiedTo p && (t.channel c).isOpen) = s.openAt p c := same c List.mem_cons_self
      have tail : ∀ x ∈ l, t.openAt p x = s.openAt p x := fun x hx => same x (List.mem_cons_of_mem _ hx)
      rw [List.foldl_cons, head]
      cases open_ : s.openAt p c with
      | true =>
        rw [List.filter_cons_of_pos open_, if_pos rfl]
        refine ih _ once fun x hx => ?_
        have other : x ≠ c := fun e => notin (e ▸ hx)
        rw [← tail x hx, State.openAt, closeOffband_channel, if_neg (fun h => other h.1)]
        rfl
      | false =>
        rw [List.filter_cons_of_neg (by simp [open_]), if_neg Bool.false_ne_true]
        exact ih t once tail
  exact each _ s List.nodup_range fun _ _ => rfl

theorem mem_openAt {s : State} {p c : Nat} : c ∈ (List.range 16).filter (s.openAt p) ↔ s.openAt p c = true := by
  simp only [List.mem_filter, List.mem_range, and_iff_right_iff_imp]
  exact openAt_lt

/-- With no OPEN channel tied to the point nothing is closed. -/
theorem closeTied_none {s : State} {p : Nat} (d : Nat) (h : ∀ c, s.openAt p c = false) : s.closeTied p d = s := by
  rw [closeTied_eq, List.filter_eq_nil_iff.2 fun c _ => by simp [h c]]
  rfl

/-- What the close of a point's channels leaves. -/
structure State.TiedClosed (s t : State) (p d : Nat) : Prop where
  apart   : t.apart = s.apart
  channel : ∀ c, t.channel c = if s.openAt p c then { s.channel c with run := .clear } else s.channel c
  wmp     : t.wmp = { s.wmp with
    marks := s.wmp.marks.filterMap
      (Mark.close (fun c => c.kind == .offband && s.openAt p c.owner) ((d : Int) + s.line.nums.gOff)) }
  rif     : s.rif.routine.length ≤ 32 →
    t.rif = { s.rif with
      routine := s.rif.routine ++ ((List.range 16).filter (s.openAt p)).map fun c => .notice (.offbandClosed c p) }

theorem closeTied_closed (s : State) (p d : Nat) : s.TiedClosed (s.closeTied p d) p d := by
  have contains : ∀ c, ((List.range 16).filter (s.openAt p)).contains c = s.openAt p c := fun c => by
    rw [Bool.eq_iff_iff, List.contains_iff_mem, mem_openAt]
  rw [closeTied_eq]
  refine ⟨closeEach_apart s p d _, fun c => ?_, ?_, fun room => ?_⟩
  · rw [closeEach_channel s p d c _ fun x hx => openAt_lt (mem_openAt.1 hx)]
    simp only [mem_openAt]
  · simp only [closeEach_wmp, contains]
  · refine closeEach_rif s p d _ ?_
    have : ((List.range 16).filter (s.openAt p)).length ≤ 16 := by
      simpa using List.length_filter_le (s.openAt p) (List.range 16)
    omega

/-- Once closed, a point's channels are closed for good. -/
theorem closeTied_again {s t : State} {p d : Nat} (e : Nat) (h : s.TiedClosed t p d) : t.closeTied p e = t := by
  refine closeTied_none e fun c => ?_
  rw [State.openAt, h.channel c]
  cases open_ : s.openAt p c with
  | true => simp [Channel.isOpen]
  | false => simpa [State.openAt] using open_

/-! ### LOAD_POINT (R110, R111) -/

/-- A point's record after a LOAD_POINT: removed for station 0, cleared where it was not configured, and with its grade kept where
it was. -/
def PointCfg.writtenTo (c : PointCfg) (pt : Point) : Point :=
  if c.station = 0 then Point.cleared none else if pt.cfg.isNone then Point.cleared (some c) else { pt with cfg := some c }

/-- A LOAD_POINT that carries c removes the point, moves it from its old record o, or gives it a column that is absent. -/
def State.pointMoves (s : State) (p : Nat) (o c : PointCfg) : Prop :=
  c.station = 0 ∨ o.dist ≠ c.dist ∨ s.columnOf (c.writtenTo (s.point p)) = none

/-- What a LOAD_POINT in range that carries c leaves. -/
def State.pointLoaded (s : State) (p : Nat) (c : PointCfg) : State :=
  match (s.point p).cfg with
  | none => s.onPoint p fun _ => if c.station = 0 then Point.cleared none else Point.cleared (some c)
  | some o =>
    if c.station = 0 then (s.closeTied p o.dist).onPoint p fun _ => Point.cleared none
    else
      ((if o.dist = c.dist then s else s.closeTied p o.dist).onPoint p fun pt => { pt with cfg := some c }).closeIfIdle p

theorem loadPoint_loaded {s : State} {a : PointArgs} {kind : PointKind} (point : a.point ≤ 11) (station : a.station ≤ 62)
    (dist : 1 ≤ a.dist ∧ a.dist ≤ 5000000) (hk : a.kind = some kind) (column : a.column ≤ 11) :
    s.loadPoint a
      = (s.pointLoaded a.point { station := a.station, dist := a.dist, kind := kind, column := a.column }, bare .ok) := by
  have passed : firstBad [(1, decide (a.point ≤ 11)), (2, decide (a.station ≤ 62)), (3, within 1 5000000 a.dist),
      (4, a.kind.isSome), (5, decide (a.column ≤ 11))] = none :=
    firstBad_none (by simp [within, point, station, dist, hk, column])
  unfold State.loadPoint State.pointLoaded
  rw [passed, hk]
  dsimp only
  cases (s.point a.point).cfg <;> by_cases removed : a.station = 0 <;> simp only [removed, if_true, if_false]

/-- The record that stands at a point once it has been written. -/
theorem point_written {s t : State} {p : Nat} {f : Point → Point} (hp : p ≤ 11) (h : t.hgr.points = (s.onPoint p f).hgr.points)
    (j : Nat) : t.point j = if j = p then f (s.point p) else s.point j := by
  have same : t.point j = (s.onPoint p f).point j := congrArg (fun v : Vector Point 12 => (v[j]?).getD (Point.cleared none)) h
  rw [same, point_onPoint]
  simp [Nat.lt_succ_of_le hp]

theorem columnOf_congr {s t : State} (h : t.hgr.grades = s.hgr.grades) (pt : Point) : t.columnOf pt = s.columnOf pt := by
  simp only [State.columnOf, State.grade, h]

/-- A point that holds a configured record is closed where its column is absent. -/
theorem closeIfIdle_eq {s : State} {p : Nat} {c : PointCfg} (h : (s.point p).cfg = some c) :
    s.closeIfIdle p = if s.columnOf (s.point p) = none then s.closeTied p c.dist else s := by
  unfold State.closeIfIdle
  rw [h]
  simp

/-- A write of a point before a close of its channels or behind it. -/
theorem State.TiedClosed.written {s t : State} {p d : Nat} (f : Point → Point) (h : s.TiedClosed t p d) :
    (s.onPoint p f).TiedClosed (t.onPoint p f) p d where
  apart := congrArg (fun x : State => x.onPoint p f) h.apart
  channel := h.channel
  wmp := h.wmp
  rif := h.rif

theorem State.TiedClosed.points {s t : State} {p d : Nat} (h : s.TiedClosed t p d) : t.hgr.points = s.hgr.points := by
  have points := congrArg (fun x : State => x.hgr.points) h.apart
  exact points

theorem State.TiedClosed.grades {s t : State} {p d : Nat} (h : s.TiedClosed t p d) : t.hgr.grades = s.hgr.grades := by
  have grades := congrArg (fun x : State => x.hgr.grades) h.apart
  exact grades

section
variable {s : State} {p : Nat} {o c : PointCfg}

theorem onPoint_new (h : (s.point p).cfg = none) :
    (s.onPoint p fun _ => if c.station = 0 then Point.cleared none else Point.cleared (some c)) = s.onPoint p c.writtenTo :=
  onPoint_congr (by simp [PointCfg.writtenTo, h])

theorem onPoint_removed (h : c.station = 0) : (s.onPoint p fun _ => Point.cleared none) = s.onPoint p c.writtenTo :=
  onPoint_congr (by simp [PointCfg.writtenTo, h])

theorem onPoint_reloaded (h : c.station ≠ 0) (ho : (s.point p).cfg = some o) :
    (s.onPoint p fun pt => { pt with cfg := some c }) = s.onPoint p c.writtenTo :=
  onPoint_congr (by simp [PointCfg.writtenTo, h, ho])

/-- The record stands in the table once a write and perhaps a close have been made. -/
theorem closeIfIdle_written {t : State} (hp : p ≤ 11) (h : c.station ≠ 0) (ho : (s.point p).cfg = some o)
    (points : t.hgr.points = (s.onPoint p c.writtenTo).hgr.points) (grades : t.hgr.grades = s.hgr.grades) :
    t.closeIfIdle p = if s.columnOf (c.writtenTo (s.point p)) = none then t.closeTied p c.dist else t := by
  have point : t.point p = c.writtenTo (s.point p) := (point_written hp points p).trans (if_pos rfl)
  have cfg : (t.point p).cfg = some c := by rw [point]; simp [PointCfg.writtenTo, h, ho]
  rw [closeIfIdle_eq cfg, point, columnOf_congr grades]

/-- Where no OPEN channel is tied to the point, or nothing moves, the record is written and nothing else. -/
theorem pointLoaded_plain (hp : p ≤ 11)
    (h : (∀ x, s.openAt p x = false) ∨ ∃ o, (s.point p).cfg = some o ∧ ¬s.pointMoves p o c) :
    s.pointLoaded p c = s.onPoint p c.writtenTo := by
  unfold State.pointLoaded
  split
  · rename_i hn
    exact onPoint_new hn
  · rename_i o ho
    have shut : s.pointMoves p o c → ∀ d, s.closeTied p d = s := by
      rintro moves d
      rcases h with h | ⟨o', ho', kept⟩
      · exact closeTied_none d h
      · cases ho.symm.trans ho'
        exact absurd moves kept
    have shut' : s.pointMoves p o c → ∀ d, (s.onPoint p c.writtenTo).closeTied p d = s.onPoint p c.writtenTo := by
      rintro moves d
      rcases h with h | ⟨o', ho', kept⟩
      · exact closeTied_none d h
      · cases ho.symm.trans ho'
        exact absurd moves kept
    by_cases removed : c.station = 0
    · rw [if_pos removed, shut (.inl removed), onPoint_removed removed]
    · have near : (if o.dist = c.dist then s else s.closeTied p o.dist) = s := by
        split
        · rfl
        · rename_i far
          exact shut (.inr (.inl far)) _
      rw [if_neg removed, near, onPoint_reloaded removed ho, closeIfIdle_written hp removed ho rfl rfl]
      split
      · rename_i idle
        exact shut' (.inr (.inr idle)) _
      · rfl

/-- A removal, a new distance or an absent column closes the point's channels at the distance it had. -/
theorem pointLoaded_moved (hp : p ≤ 11) (ho : (s.point p).cfg = some o) (moves : s.pointMoves p o c) :
    (s.onPoint p c.writtenTo).TiedClosed (s.pointLoaded p c) p o.dist := by
  have closed := closeTied_closed s p o.dist
  unfold State.pointLoaded
  rw [ho]
  dsimp only
  by_cases removed : c.station = 0
  · rw [if_pos removed, onPoint_removed removed]
    exact closed.written _
  · rw [if_neg removed]
    by_cases near : o.dist = c.dist
    · have idle : s.columnOf (c.writtenTo (s.point p)) = none := (moves.resolve_left removed).resolve_left (fun h => h near)
      rw [if_pos near, onPoint_reloaded removed ho, closeIfIdle_written hp removed ho rfl rfl, if_pos idle, near]
      exact closeTied_closed _ _ _
    · have ho' : ((s.closeTied p o.dist).point p).cfg = some o := by
        rw [State.point, closed.points]
        exact ho
      have written := closed.written c.writtenTo
      rw [if_neg near, onPoint_reloaded removed ho', closeIfIdle_written hp removed ho written.points written.grades]
      split
      · rw [closeTied_again _ written]
        exact written
      · exact written

end

/-- Settles O18. -/
theorem loadPointWritesItsPoint : Obligations.LoadPointWritesItsPoint := by
  intro s q a kind handed grants point station dist dist' hk column
  have loaded : owned q (.loadPoint a) (s.asked q) = _ := loadPoint_loaded point station ⟨dist, dist'⟩ hk column
  refine ⟨fun plain => ?_, fun o ho moves => ?_⟩
  · rw [pointLoaded_plain (s := s.asked q) (c := ⟨a.station, a.dist, kind, a.column⟩) point plain] at loaded
    exact exec_granted_plain grants loaded handed rfl
  · have closed := pointLoaded_moved (s := s.asked q) (c := ⟨a.station, a.dist, kind, a.column⟩) point ho moves
    revert loaded closed
    generalize (s.asked q).pointLoaded a.point _ = u
    intro loaded closed
    have points := point_written (s := s.asked q) point closed.points
    obtain ⟨line, wtr, -, osq, chg, spl, hgr, knp, stk, plg, lsc, -, irt, -, -, none_, -⟩ := State.mk.inj closed.apart
    obtain ⟨grades, -, -, scan, position⟩ := Hgr.mk.inj hgr
    refine ⟨_, exec_granted_plain grants loaded (none_.trans handed) rfl, rfl, ?_, fun j hj => ?_, closed.channel, closed.wmp,
      closed.rif, grades, scan, position, wtr, osq, chg, spl, knp, stk, plg, lsc, irt, line⟩
    · exact (points a.point).trans (if_pos rfl)
    · exact (points j).trans (if_neg hj)

end Sys2Proof.Machine
end

section
namespace Sys2Proof.Machine

/-! ### What fits into a reply space (R191) -/

/-- What fits is the first entries, and one more would not fit. -/
theorem fitData_take (room : Nat) (l : List Datum) : ∃ k, k ≤ l.length ∧ fitData room l = l.take k
    ∧ ((l.take k).map datumLength).sum ≤ room ∧ (k < l.length → room < ((l.take (k + 1)).map datumLength).sum) := by
  induction l generalizing room with
  | nil => exact ⟨0, by simp [fitData]⟩
  | cons d l ih =>
    unfold fitData
    by_cases fits : datumLength d ≤ room
    · obtain ⟨k, le, taken, sum, next⟩ := ih (room - datumLength d)
      rw [if_pos fits]
      refine ⟨k + 1, Nat.succ_le_succ le, by rw [taken, List.take_succ_cons], ?_, fun more => ?_⟩
      · simp only [List.take_succ_cons, List.map_cons, List.sum_cons]
        omega
      · have := next (Nat.lt_of_succ_lt_succ more)
        rw [List.take_succ_cons, List.map_cons, List.sum_cons]
        omega
    · rw [if_neg fits]
      exact ⟨0, Nat.zero_le _, rfl, Nat.zero_le _, fun _ => by simpa using fits⟩

theorem fitData_append (room : Nat) (l m : List Datum) (h : (l.map datumLength).sum ≤ room) :
    fitData room (l ++ m) = l ++ fitData (room - (l.map datumLength).sum) m := by
  induction l generalizing room with
  | nil => rfl
  | cons d l ih =>
    simp only [List.map_cons, List.sum_cons] at h
    rw [List.cons_append, fitData, if_pos (by omega), ih _ (by omega), List.map_cons, List.sum_cons, List.cons_append,
      Nat.sub_sub]

theorem fitData_all {room : Nat} {l : List Datum} (h : (l.map datumLength).sum ≤ room) : fitData room l = l := by
  simpa [fitData] using fitData_append room l [] h

theorem fitData_one (room : Nat) (d : Datum) : fitData room [d] = if datumLength d ≤ room then [d] else [] := rfl

theorem take_length {k : Nat} {l : List Datum} (h : k ≤ l.length) : (l.take k).length = k := by
  rw [List.length_take, Nat.min_eq_left h]

/-! ### READ_MAP (R39, R207) -/

theorem mapFixed_length (valid armed : Bool) (structural defects nextSeq returned : Nat) :
    datumLength (.mapFixed valid armed structural defects nextSeq returned) = 8 := by
  simp [datumLength, writeDatum, writeMapFixed, writeFlag, writeInt_length]

theorem markPayload_length (outgoing : Nat) (p : MarkPayload) : (writeMarkPayload outgoing p).length = 6 := by
  cases p <;> simp [writeMarkPayload, writeFlag, writeInt_length]

theorem mark_length (m : Mark) (outgoing : Nat) : datumLength (.mark m outgoing) = 20 + 5 * m.claims.length := by
  have claims : (m.claims.flatMap (writeClaim m.start)).length = m.claims.length * 5 := by
    simp [List.length_flatMap, writeClaim_length]
  simp only [datumLength, writeDatum, writeMark, List.length_append, writeInt_length, writeSigned_length, markPayload_length,
    claims]
  omega

/-- The marks as READ_MAP returns them. -/
def State.markData (s : State) : List Datum := s.wmp.marks.map fun m => .mark m (s.outgoingPosition m)

theorem markData_take (s : State) (k : Nat) :
    s.markData.take k = (s.wmp.marks.take k).map fun m => .mark m (s.outgoingPosition m) := by
  rw [State.markData, List.map_take]

theorem markData_size (s : State) (k : Nat) : ((s.markData.take k).map datumLength).sum
    = ((s.wmp.marks.take k).map fun m => 20 + 5 * m.claims.length).sum := by
  rw [markData_take, List.map_map]
  exact congrArg List.sum (List.map_congr_left fun m _ => mark_length m _)

theorem mapReply_short {s : State} {space : Nat} (h : space < 12) : s.mapReply space = bare .truncated := by
  unfold State.mapReply
  dsimp only
  rw [mapFixed_length, if_neg (by unfold dataRoom; omega)]

theorem mapReply_marks {s : State} {space k : Nat} (h : 12 ≤ space) (hk : k ≤ s.wmp.marks.length)
    (taken : fitData (dataRoom space - 8) s.markData = s.markData.take k) :
    s.mapReply space =
      { code := if k < s.wmp.marks.length then .truncated else .ok, index := 0, detail := 0,
        data := .mapFixed s.wmp.valid s.wmp.armed (structuralCount s.wmp.marks) (defectCount s.wmp.marks) s.wmp.nextSeq k
          :: s.markData.take k } := by
  have count : s.markData.length = s.wmp.marks.length := by simp [State.markData]
  have length : (s.markData.take k).length = k := take_length (by rw [count]; exact hk)
  unfold State.mapReply
  dsimp only
  rw [mapFixed_length, if_pos (by unfold dataRoom; omega), show s.wmp.marks.map (fun m => Datum.mark m (s.outgoingPosition m))
    = s.markData from rfl, taken, length, count]

/-- Data that fits is not cut. -/
theorem cut_fitting {x : Reply} {space : Nat} (h : (x.data.map datumLength).sum ≤ dataRoom space) : x.cut space = x := by
  rw [Reply.cut, fitData_all h]

/-- A granted read is its reply cut to its space, and changes nothing. -/
theorem exec_read {s : State} {q : Asker} {r : Request} {x : Reply} (h : s.Grants q r) (handed : s.handed = [])
    (ho : owned q r (s.asked q) = (s.asked q, x)) : exec (carrying q r) s = .next (s.replied q (x.cut q.space)) := by
  rw [exec_granted h, ho, takeFaults_nothing (s := s.asked q) handed]
  rfl

theorem readMap_marks {s : State} {q : Asker} (handed : s.handed = []) (grants : s.Grants q .readMap) (h : 12 ≤ q.space) :
    let size (n : Nat) := ((s.wmp.marks.take n).map fun m => 20 + 5 * m.claims.length).sum
    ∃ k, k ≤ s.wmp.marks.length ∧ 12 + size k ≤ q.space ∧ (k < s.wmp.marks.length → q.space < 12 + size (k + 1))
      ∧ exec (.readMap q) s = .next (s.replied q
          { code := if k < s.wmp.marks.length then .truncated else .ok, index := 0, detail := 0,
            data := .mapFixed s.wmp.valid s.wmp.armed (structuralCount s.wmp.marks) (defectCount s.wmp.marks) s.wmp.nextSeq k
              :: (s.wmp.marks.take k).map fun m => .mark m (s.outgoingPosition m) }) := by
  intro size
  obtain ⟨k, le, taken, fits, next⟩ := fitData_take (dataRoom q.space - 8) s.markData
  have count : s.markData.length = s.wmp.marks.length := by simp [State.markData]
  rw [markData_size] at fits next
  rw [count] at le next
  have room : dataRoom q.space = q.space - 4 := rfl
  refine ⟨k, le, by simp only [size]; omega, fun more => by have := next more; simp only [size]; omega, ?_⟩
  refine (exec_read (r := .readMap) grants handed rfl).trans ?_
  rw [show (s.asked q).mapReply q.space = s.mapReply q.space from rfl, mapReply_marks h le taken, cut_fitting, markData_take]
  rw [List.map_cons, List.sum_cons, mapFixed_length, markData_size]
  omega

/-! ### READ_STATUS (R197) -/

/-- The head of READ_STATUS's reply: the section and its fixed part. -/
def State.statusHead (s : State) (x : Section) : List Datum := .statusOf x :: s.fixedData x

/-- Where the fixed part does not fit beside the number that follows, as much of it as fits is returned. -/
theorem statusReply_short {s : State} {space first : Nat} {x : Section}
    (h : dataRoom space < ((s.statusHead x).map datumLength).sum + datumLength (.next none)) :
    s.statusReply space x first =
      { code := .truncated, index := 0, detail := 0,
        data := fitData (dataRoom space - datumLength (.next none)) (s.statusHead x) } := by
  have short : (fitData (dataRoom space - datumLength (.next none)) (s.statusHead x)).length < (s.statusHead x).length
      ∨ dataRoom space < datumLength (.next none) := by
    by_contra hn
    push Not at hn
    obtain ⟨k, le, taken, fits, -⟩ := fitData_take (dataRoom space - datumLength (.next none)) (s.statusHead x)
    rw [taken, take_length le] at hn
    rw [Nat.le_antisymm le hn.1, List.take_length] at fits
    omega
  exact if_pos short

/-- Where it fits, the entries that fit follow, and the number of the entry behind them. -/
theorem statusReply_long {s : State} {space first k : Nat} {x : Section}
    (h : ((s.statusHead x).map datumLength).sum + datumLength (.next none) ≤ dataRoom space)
    (hk : k ≤ ((s.listData x).drop first).length)
    (taken : fitData (dataRoom space - datumLength (.next none) - ((s.statusHead x).map datumLength).sum)
      ((s.listData x).drop first) = ((s.listData x).drop first).take k) :
    s.statusReply space x first =
      { code := if k < ((s.listData x).drop first).length then .truncated else .ok, index := 0, detail := 0,
        data := s.statusHead x ++ ((s.listData x).drop first).take k
          ++ [.next (if k < ((s.listData x).drop first).length then some (first + k) else none)] } := by
  have whole : fitData (dataRoom space - datumLength (.next none)) (s.statusHead x) = s.statusHead x :=
    fitData_all (by omega)
  have long : ¬((fitData (dataRoom space - datumLength (.next none)) (s.statusHead x)).length < (s.statusHead x).length
      ∨ dataRoom space < datumLength (.next none)) := by
    rw [whole]
    omega
  refine (if_neg long).trans ?_
  rw [show Datum.statusOf x :: s.fixedData x = s.statusHead x from rfl, taken, take_length hk]
  by_cases more : k < ((s.listData x).drop first).length
  · simp only [beq_eq_false_iff_ne.2 more.ne, more, if_true, Bool.false_eq_true, if_false]
  · have all : k = ((s.listData x).drop first).length := by omega
    simp only [more, if_false, beq_iff_eq.2 all, if_true]

/-- A table read entry by entry. -/
theorem zipIdx_eq_finRange {α β : Type} {n : Nat} (v : Vector α n) (f : α × Nat → β) :
    v.toList.zipIdx.map f = (List.finRange n).map fun i : Fin n => f (v[i], i.val) := by
  refine List.ext_getElem (by simp) fun i h₁ h₂ => ?_
  simp

theorem numberOf_eq (s : State) (o : Option Nat) :
    s.numberOf o = (((o.bind fun i => (s.slot i).order).map fun r => r.number).getD 0) := by
  cases o <;> rfl

/-- What READ_STATUS returns of a section whose head and list are given. -/
theorem readStatus_section {s : State} {q : Asker} {x : Section} {first : Nat} (handed : s.handed = [])
    (grants : s.Grants q (.readStatus (some x) first)) {fixed list : List Datum} (hf : s.fixedData x = fixed)
    (hl : s.listData x = list) :
    let size (l : List Datum) : Nat := (l.map datumLength).sum
    let room := dataRoom q.space
    let head := .statusOf x :: fixed
    let rest := list.drop first
    ∃ R, exec (.readStatus q (some x) first) s = .next (s.replied q R) ∧ R.index = 0 ∧ R.detail = 0
      ∧ if room < size head + datumLength (.next none) then
          ∃ k, k ≤ head.length ∧ size (head.take k) ≤ room - datumLength (.next none)
            ∧ (k < head.length → room - datumLength (.next none) < size (head.take (k + 1)))
            ∧ R.code = .truncated ∧ R.data = head.take k
        else
          ∃ k, k ≤ rest.length ∧ size head + size (rest.take k) + datumLength (.next none) ≤ room
            ∧ (k < rest.length → room < size head + size (rest.take (k + 1)) + datumLength (.next none))
            ∧ R.code = (if k < rest.length then .truncated else .ok)
            ∧ (let next : Datum := .next (if k < rest.length then some (first + k) else none)
               R.data = head ++ rest.take k
                 ++ if size head + size (rest.take k) + datumLength next ≤ room then [next] else []) := by
  subst hf hl
  intro size room head rest
  have run : exec (.readStatus q (some x) first) s = .next (s.replied q ((s.statusReply q.space x first).cut q.space)) :=
    exec_read (r := .readStatus (some x) first) grants handed rfl
  have size_def (l : List Datum) : size l = (l.map datumLength).sum := rfl
  have room_def : dataRoom q.space = room := rfl
  have head_def : s.statusHead x = head := rfl
  by_cases short : room < size head + datumLength (.next none)
  · obtain ⟨k, le, taken, fits, next⟩ := fitData_take (room - datumLength (.next none)) head
    have reply := statusReply_short (first := first) (x := x) (s := s) short
    rw [room_def, head_def, taken] at reply
    rw [reply, cut_fitting (by dsimp only; omega)] at run
    exact ⟨_, run, rfl, rfl, by rw [if_pos short]; exact ⟨k, le, fits, next, rfl, rfl⟩⟩
  · obtain ⟨k, le, taken, fits, next⟩ := fitData_take (room - datumLength (.next none) - size head) rest
    have reply := statusReply_long (first := first) (x := x) (s := s) (space := q.space) (Nat.not_lt.1 short) le taken
    rw [reply] at run
    refine ⟨_, run, rfl, rfl, ?_⟩
    rw [if_neg short]
    refine ⟨k, le, by rw [size_def (rest.take k)]; omega, fun more => by have := next more; rw [size_def (rest.take (k + 1))]; omega,
      rfl, ?_⟩
    have front : ((head ++ rest.take k).map datumLength).sum = size head + size (rest.take k) := by
      rw [List.map_append, List.sum_append]
    intro next
    refine (fitData_append room (head ++ rest.take k) [next] (by rw [front, size_def (rest.take k)]; omega)).trans ?_
    rw [front, fitData_one]
    have same : datumLength next ≤ room - (size head + size (rest.take k))
        ↔ size head + size (rest.take k) + datumLength next ≤ room := by
      rw [size_def (rest.take k)]
      omega
    simp only [same]

/-- Settles O12: a read is its reply cut to its space; each of the two replies is as many of its first entries as
fit. -/
theorem mapAndStatusReads : Obligations.MapAndStatusReads := by
  intro s q handed
  refine ⟨fun grants short => ?_, fun grants long => readMap_marks handed grants long, fun x first grants => ?_⟩
  · refine (exec_read (r := .readMap) (x := bare .truncated) grants handed ?_).trans (by rw [cut_bare _ _ rfl])
    exact congrArg (Prod.mk _) (mapReply_short short)
  · cases x with
    | line => exact readStatus_section handed grants rfl rfl
    | constants => exact readStatus_section handed grants rfl rfl
    | changeover => exact readStatus_section handed grants rfl rfl
    | heat =>
      exact readStatus_section handed grants rfl
        (congrArg₂ (· ++ ·) (zipIdx_eq_finRange s.hgr.points _) (zipIdx_eq_finRange s.hgr.channels _))
    | knife =>
      refine readStatus_section handed grants rfl ?_
      simp only [State.listData, numberOf_eq]
    | stacker => exact readStatus_section handed grants rfl rfl
    | log => exact readStatus_section handed grants rfl rfl
    | ring => exact readStatus_section handed grants rfl (zipIdx_eq_finRange s.irt.subs _)

end Sys2Proof.Machine
end

section
namespace Sys2Proof.Machine

variable {P : State → Prop}

/-! ### The faults of an event that leaves the line running (R168) -/

/-- A running line with no fault latched keeps its state when no fault was handed, and is FAULTED otherwise. -/
theorem takeFaults_running {u : State} (latch : u.lsc.latch = none) (runs : runsLine u.lsc.state = true) :
    (u.takeFaults.lsc.state = u.lsc.state ∧ u.takeFaults.lsc.latch = none
      ∨ u.takeFaults.lsc.state = .faulted ∧ u.takeFaults.lsc.latch.isSome = true)
      ∧ u.takeFaults.lsc.threading = u.lsc.threading ∧ u.takeFaults.lsc.purge = u.lsc.purge := by
  cases handed : u.handed with
  | nil =>
    rw [takeFaults_nothing handed]
    exact ⟨.inl ⟨rfl, latch⟩, rfl, rfl⟩
  | cons f l =>
    have lsc := takeFaults_settled handed
    rw [takeFault_lsc_unlatched f (s := u.unhanded) latch] at lsc
    obtain ⟨state, latched, -, -, -, threading, purge⟩ := Lsc.mk.inj lsc
    exact ⟨.inr ⟨by rw [state]; exact if_pos runs, by rw [latched]; rfl⟩, threading, purge⟩

/-- No fault waits that loses the web. -/
def State.KeepsWeb (s : State) : Prop := ∀ f ∈ s.handed, losesWeb f.code = false

theorem State.KeepsWeb.hand {s : State} {c : FaultCode} (d : Detail) (hc : losesWeb c = false) (h : s.KeepsWeb) :
    (s.hand c d).KeepsWeb := by
  intro f hf
  rcases List.mem_append.1 hf with hf | hf
  · exact h f hf
  · rw [List.mem_singleton.1 hf]
    exact hc

theorem State.KeepsWeb.queueUrgent {s : State} (o : OutItem) (h : s.KeepsWeb) : (s.queueUrgent o).KeepsWeb :=
  ite_keeps (P := State.KeepsWeb) (fun _ => h) fun _ => h.hand _ rfl

theorem State.KeepsWeb.queueRoutine {s : State} (o : OutItem) (h : s.KeepsWeb) : (s.queueRoutine o).KeepsWeb := by
  unfold State.queueRoutine
  iterate 6 refine ite_keeps (P := State.KeepsWeb) (fun _ => h) fun _ => ?_
  exact h.hand _ rfl

/-- What is queued by a change of the speed asked for. -/
theorem State.KeepsWeb.alter {s : State} (d : List (Reason × Nat)) (r : List Raised) (h : s.KeepsWeb) : (s.alter d r).KeepsWeb := by
  unfold State.alter State.setReasons
  dsimp only
  refine ite_keeps (P := State.KeepsWeb) (fun _ => ?_) fun _ => ?_
  · simpa [State.KeepsWeb] using h
  · refine ite_keeps (P := State.KeepsWeb) (fun _ => ?_) fun _ => State.KeepsWeb.queueUrgent _ ?_
    all_goals simpa [State.KeepsWeb] using h

/-- A change of line state keeps the map, and hands no fault that would lose it. -/
theorem Enters.mapSafe (w : Wmp) : Enters fun s => s.wmp = w ∧ s.KeepsWeb where
  log _ h := ⟨(Enters.map w).log _ h.1, by simpa [State.KeepsWeb] using h.2⟩
  urgent _ h := ⟨(Enters.map w).urgent _ h.1, h.2.queueUrgent _⟩
  routine _ h := ⟨(Enters.map w).routine _ h.1, h.2.queueRoutine _⟩
  hand _ d hc h := ⟨h.1, h.2.hand d hc⟩
  alter d r h := ⟨(Enters.map w).alter d r h.1, h.2.alter d r⟩
  osq _ h := h
  stk _ h := h
  knp _ h := h
  rif _ h := h
  stand _ _ h := h
  hgr _ h := h
  lsc _ h := h
  clear h := ⟨h.1, fun _ hf => nomatch hf⟩

/-- The faults of an event that hands none that loses the web leave the map. -/
theorem takeFaults_wmp {s : State} (h : s.KeepsWeb) : s.takeFaults.wmp = s.wmp :=
  ((Enters.mapSafe s.wmp).takeFaults (fun _ ht => ht.2) ⟨rfl, h⟩).1

/-! ### The purge (R36, R163) -/

/-- The map with the purge asked for: it is armed, and a PURGE mark reaches to the distance d. -/
def Wmp.purged (w : Wmp) (d : Int) : Wmp :=
  match w.marks.zipIdx.find? fun x => x.1.kind == .purge with
  | none =>
    { w with
      armed := true
      marks := place { closedMark .purge .lsc .none 0 d with seq := w.nextSeq } w.marks
      nextSeq := (w.nextSeq + 1) % 65536 }
  | some (old, i) => { w with armed := true, marks := w.marks.set i { old with closedEnd := max old.closedEnd d } }

theorem find_zipIdx_mem {α : Type} {l : List α} {p : α × Nat → Bool} {x : α} {i : Nat}
    (h : l.zipIdx.find? p = some (x, i)) : l[i]? = some x :=
  List.mem_zipIdx_iff_getElem?.1 (List.mem_of_find?_eq_some h)

/-- The request of a purge leaves the map so, and no fault that would lose it. -/
theorem requestPurge_map {s : State} (h : s.KeepsWeb) :
    s.requestPurge.wmp = s.wmp.purged s.line.nums.dCreate ∧ s.requestPurge.KeepsWeb := by
  unfold State.requestPurge Wmp.purged
  dsimp only [State.onWmp_wmp]
  cases found : s.wmp.marks.zipIdx.find? fun x => x.1.kind == .purge with
  | none => exact (Enters.mapSafe _).markReport _ ⟨rfl, h⟩
  | some x =>
    obtain ⟨old, i⟩ := x
    dsimp only
    by_cases shorter : old.closedEnd < s.line.nums.dCreate
    · rw [if_pos shorter, max_eq_right shorter.le]
      exact (Enters.mapSafe _).markReport _ ⟨rfl, h⟩
    · have held := find_zipIdx_mem found
      have same : s.wmp.marks.set i old = s.wmp.marks := by
        obtain ⟨hi, e⟩ := List.getElem?_eq_some_iff.1 held
        rw [← e, List.set_getElem_self]
      rw [if_neg shorter, max_eq_left (Int.not_lt.1 shorter), show ({ old with closedEnd := old.closedEnd } : Mark) = old from rfl,
        same]
      exact ⟨rfl, h⟩

theorem purged_none {w : Wmp} (d : Int) (h : ∀ m ∈ w.marks, m.kind ≠ .purge) :
    w.purged d =
      { w with
        armed := true
        marks := place { closedMark .purge .lsc .none 0 d with seq := w.nextSeq } w.marks
        nextSeq := (w.nextSeq + 1) % 65536 } := by
  unfold Wmp.purged
  rw [List.find?_eq_none.2 fun x hx => ?_]
  exact fun hk => h x.1 (List.fst_mem_of_mem_zipIdx hx) (beq_iff_eq.1 hk)

theorem purged_some {w : Wmp} (d : Int) {a b : List Mark} {m : Mark} (marks : w.marks = a ++ m :: b)
    (before : ∀ x ∈ a, x.kind ≠ .purge) (purge : m.kind = .purge) :
    w.purged d = { w with armed := true, marks := a ++ { m with closedEnd := max m.closedEnd d } :: b } := by
  have found : w.marks.zipIdx.find? (fun x => x.1.kind == .purge) = some (m, a.length) := by
    rw [marks, List.zipIdx_append, List.find?_append, List.find?_eq_none.2, Option.none_or, List.zipIdx_cons, Nat.zero_add,
      List.find?_cons_of_pos (by simp [purge])]
    exact fun x hx hk => before x.1 (List.fst_mem_of_mem_zipIdx hx) (beq_iff_eq.1 hk)
  unfold Wmp.purged
  rw [found]
  dsimp only
  rw [marks, List.set_append_right _ _ (Nat.le_refl _), Nat.sub_self, List.set_cons_zero]

/-! ### The starts (R163 to R165) -/

/-- The state in which a start enters its line state: a free order is used, and START_THREADING sets the threading distance
to 0. -/
def State.startFrom (s : State) (new : LineState) : State :=
  let s := { s with choices := s.choices + 1 }
  if new = .threading then s.onLsc fun l => { l with threading := 0 } else s

theorem start_eq (s : State) (new : LineState) (code : Nat) :
    s.start new code =
      if (s.startFrom new).wmp.valid then (s.startFrom new).enterState new (.request code) []
      else if (Config.order s.choices).planBeforePurge then ((s.startFrom new).enterState new (.request code) []).startPurge
      else (s.startFrom new).startPurge.enterState new (.request code) [] := rfl

theorem startFrom_keeps {s : State} (new : LineState) (choose : P { s with choices := s.choices + 1 })
    (lsc : ∀ t f, P t → P (State.onLsc t f)) : P (s.startFrom new) :=
  ite_keeps (fun _ => lsc _ _ choose) fun _ => choose

theorem startFrom_wmp (s : State) (new : LineState) : (s.startFrom new).wmp = s.wmp :=
  startFrom_keeps (P := fun t => t.wmp = s.wmp) new rfl fun _ _ h => h

/-- What a change of line state and the request of a purge keep is kept by a start from where it enters. -/
theorem Faults.startFrom (K : Faults P) {s : State} (new : LineState) (code : Nat) (hn : new ≠ .faulted)
    (hl : (s.startFrom new).lsc.latch = none) (h : P (s.startFrom new)) : P (s.start new code) := by
  have ok : ∀ l : Lsc, l.latch = none → Lsc.LatchOk { l with state := new } :=
    fun l hl => ⟨by simp [hl], fun hf => absurd hf hn⟩
  rw [start_eq]
  refine ite_keeps (fun _ => ?_) fun _ => ite_keeps (fun _ => ?_) fun _ => ?_
  · exact K.enterState _ _ _ (ok _ hl) (by simp) h
  · exact K.startPurge (K.enterState _ _ _ (ok _ hl) (by simp) h)
  · exact K.enterState _ _ _ (ok _ ((Faults.startPurge_latch _).1.trans hl)) (by simp) (K.startPurge h)

theorem startPurge_lsc (s : State) : s.startPurge.lsc = { s.lsc with purge := s.line.nums.dCreate } := by
  have lsc := (Counts.lineState s.lsc).requestPurge (s := s) rfl
  simp only [State.startPurge, State.onLsc_lsc, lsc]

/-- The line constants stand at a change of line state. -/
theorem Enters.line (x : LineConsts) : Enters fun s => s.line = x where
  log _ h := by simpa using h
  urgent _ h := by simpa using h
  routine _ h := by simpa using h
  hand _ _ _ h := h
  alter _ _ h := by simpa [State.alter] using h
  osq _ h := h
  stk _ h := h
  knp _ h := h
  rif _ h := h
  stand _ _ h := h
  hgr _ h := h
  lsc _ h := h
  clear h := h

theorem enterState_line (s : State) (new : LineState) (c : StateCause) (further : List (Reason × Nat)) :
    (s.enterState new c further).line = s.line :=
  (Enters.line s.line).enterState new c further rfl

theorem start_lsc (s : State) (new : LineState) (code : Nat) :
    (s.start new code).lsc =
      { s.lsc with
        state := new
        threading := if new = .threading then 0 else s.lsc.threading
        purge := if s.wmp.valid then s.lsc.purge else s.line.nums.dCreate } := by
  have entered : (s.startFrom new).lsc = { s.lsc with threading := if new = .threading then 0 else s.lsc.threading } := by
    unfold State.startFrom
    dsimp only
    split <;> rfl
  have line : (s.startFrom new).line = s.line := startFrom_keeps (P := fun t => t.line = s.line) new rfl fun _ _ h => h
  rw [start_eq, startFrom_wmp]
  cases s.wmp.valid
  · simp only [Bool.false_eq_true, if_false]
    split
    · rw [startPurge_lsc, enterState_lsc, enterState_line, entered, line]
    · rw [enterState_lsc, startPurge_lsc, entered, line]
  · simp only [if_true]
    rw [enterState_lsc, entered]

/-- A start with the map valid leaves it, and one with the map not valid asks for a purge. -/
theorem start_map {s : State} (new : LineState) (code : Nat) (handed : s.handed = []) :
    (s.start new code).wmp = (if s.wmp.valid then s.wmp else s.wmp.purged s.line.nums.dCreate)
      ∧ (s.start new code).KeepsWeb := by
  have safe : (s.startFrom new).wmp = s.wmp ∧ (s.startFrom new).KeepsWeb :=
    startFrom_keeps (P := fun t => t.wmp = s.wmp ∧ t.KeepsWeb) new ⟨rfl, fun f hf => by simp [handed] at hf⟩ fun _ _ h => h
  have line : (s.startFrom new).line = s.line := startFrom_keeps (P := fun t => t.line = s.line) new rfl fun _ _ h => h
  rw [start_eq, safe.1]
  cases s.wmp.valid
  · simp only [Bool.false_eq_true, if_false]
    split
    · obtain ⟨map, keeps⟩ := (Enters.mapSafe _).enterState new (.request code) [] safe
      have purged := requestPurge_map keeps
      rw [map, enterState_line, line] at purged
      exact purged
    · have purged := requestPurge_map safe.2
      rw [safe.1, line] at purged
      exact (Enters.mapSafe _).enterState _ _ _ purged
  · simp only [if_true]
    exact (Enters.mapSafe _).enterState _ _ _ safe

/-- The feed, the ring and what last left the part, as the blocks' keeping gives them. -/
theorem sameFeedAndRing {s t : State} (irt : t.irt = s.irt) (told : t.rif.told = s.rif.told)
    (counted : t.wtr.counted = s.wtr.counted) (passed : t.passed = s.passed) (pending : t.pending = s.pending) :
    s.SameFeedAndRing t ∧ t.wtr.debt = s.wtr.debt := by
  obtain ⟨lastCount, firstCount, elapsed, remainder, debt, history, fill, speedSum, band, -⟩ := Wtr.mk.inj counted
  exact ⟨⟨irt, sameRing_of_told told, ⟨lastCount, firstCount, elapsed, remainder⟩, ⟨history, fill, speedSum, band⟩, passed,
    pending⟩, debt⟩

/-- What a start and the faults of its event leave alone. -/
theorem start_kept {s : State} (new : LineState) (code : Nat) (hn : new ≠ .faulted) (hl : s.lsc.latch = none) :
    let t := (s.start new code).takeFaults
    t.configuration = s.configuration ∧ s.SameFeedAndRing t ∧ t.wtr.debt = s.wtr.debt := by
  have latch : (s.startFrom new).lsc.latch = none := by
    unfold State.startFrom
    dsimp only
    split <;> exact hl
  have kept {Q : State → Prop} (K : Faults Q) (h : Q (s.startFrom new)) : Q (s.start new code).takeFaults :=
    K.takeFaults (K.startFrom new code hn latch h)
  have same {α : Type} (f : State → α) (choose : f { s with choices := s.choices + 1 } = f s)
      (lsc : ∀ t g, f (State.onLsc t g) = f t) : f (s.startFrom new) = f s :=
    startFrom_keeps (P := fun t => f t = f s) new choose fun t g h => (lsc t g).trans h
  have outside := kept ((Lines.outside _).toFaults) rfl
  obtain ⟨-, -, -, passed, -, pending, told⟩ := Outside.mk.inj outside
  refine ⟨kept (Rings.configuration _).toFaults (same _ rfl fun _ _ => rfl), sameFeedAndRing ?_ ?_ ?_ ?_ ?_⟩
  · exact kept (Webs.router _).toFaults (same _ rfl fun _ _ => rfl)
  · exact told.trans (same (fun t => t.rif.told) rfl fun _ _ => rfl)
  · exact kept (Faults.counted _) (same (fun t => t.wtr.counted) rfl fun _ _ => rfl)
  · exact passed.trans (same State.passed rfl fun _ _ => rfl)
  · exact pending.trans (same State.pending rfl fun _ _ => rfl)

theorem startRequest_taken {s : State} (new : LineState) (code : Nat) (h : s.startCheck = none) :
    s.startRequest new code = (s.start new code,
      okWith (if s.wmp.valid then [.flag false] else [.flag true, .number s.line.nums.dCreate])) := by
  unfold State.startRequest
  rw [h]

/-- What a start leaves when the faults of its event are taken. -/
theorem start_leaves {s : State} (new : LineState) (code : Nat) (hr : runsLine new = true) (handed : s.handed = [])
    (hl : s.lsc.latch = none) :
    let t := (s.start new code).takeFaults
    (t.lsc.state = new ∧ t.lsc.latch = none ∨ t.lsc.state = .faulted ∧ t.lsc.latch.isSome = true)
      ∧ t.lsc.threading = (if new = .threading then 0 else s.lsc.threading)
      ∧ t.lsc.purge = (if s.wmp.valid then s.lsc.purge else s.line.nums.dCreate)
      ∧ t.wmp = (if s.wmp.valid then s.wmp else s.wmp.purged s.line.nums.dCreate)
      ∧ t.configuration = s.configuration ∧ s.SameFeedAndRing t ∧ t.wtr.debt = s.wtr.debt := by
  have lsc := start_lsc s new code
  obtain ⟨map, keeps⟩ := start_map (s := s) new code handed
  obtain ⟨state, threading, purge⟩ := takeFaults_running (u := s.start new code) (by rw [lsc]; exact hl) (by rw [lsc]; exact hr)
  rw [lsc] at state threading purge
  exact ⟨state, threading, purge, (takeFaults_wmp keeps).trans map,
    start_kept new code (fun e => by rw [e] at hr; cases hr) hl⟩

/-- Settles O30: the start's line state by `start_lsc`, the map by the request of a purge, and the faults of the event, of
which none loses the web. -/
theorem startsEnterTheirState : Obligations.StartsEnterTheirState := by
  refine ⟨fun s q c r new inv grants which check => ?_, fun s m purge => ?_⟩
  · obtain ⟨code, run, served, runs⟩ : ∃ code, c = carrying q r ∧ owned q r (s.asked q) = (s.asked q).startRequest new code
        ∧ runsLine new = true := by
      rcases which with ⟨rfl, rfl, rfl⟩ | ⟨rfl, rfl, rfl⟩
      · exact ⟨22, rfl, rfl, rfl⟩
      · exact ⟨23, rfl, rfl, rfl⟩
    have exec := exec_granted grants
    rw [← run, served, startRequest_taken (s := s.asked q) new code check] at exec
    obtain ⟨state, threading, purge, map, configuration, feed, debt⟩ :=
      start_leaves (s := s.asked q) new code runs (inv_iff.1 inv).2 (Rings.startCheck_latch check)
    have purged (invalid : s.wmp.valid = false) :
        ((s.asked q).start new code).takeFaults.wmp = s.wmp.purged s.line.nums.dCreate :=
      map.trans (if_neg fun valid => absurd (valid.symm.trans invalid) (by decide))
    refine ⟨_, exec, state, threading, purge, rfl, fun valid => map.trans (if_pos valid), fun invalid fresh => ?_,
      fun a m b invalid marks before kind => ?_, configuration, feed, debt⟩
    · exact (purged invalid).trans ((purged_none _ fresh).trans (by rw [invalid]))
    · exact (purged invalid).trans ((purged_some _ marks before kind).trans (by rw [invalid]))
  · unfold State.retired
    rw [purge]
    rfl

end Sys2Proof.Machine
end

section
namespace Sys2Proof.Machine

variable {P : State → Prop}

/-! ### HALT (R166) -/

theorem completeHalt_lsc (s : State) : s.completeHalt.lsc = { s.lsc with state := .stopped } := by
  have entered := enterState_lsc s .stopped .statusStopped []
  exact (Counts.lineState _).toMarks.askDwell entered

theorem haltLine_lsc (s : State) :
    s.haltLine.lsc = { s.lsc with state := if s.lsc.status = .stopped then .stopped else .halting } := by
  have entered := enterState_lsc s .halting (.request 24) []
  unfold State.haltLine
  dsimp only
  rw [entered]
  split
  · rw [completeHalt_lsc, entered]
  · exact entered

/-- A request granted while the line runs finds no fault latched. -/
theorem granted_halt {s : State} {q : Asker} (inv : s.Inv) (h : s.Grants q .halt) : s.lsc.latch = none := by
  exact latchOk_running (inv_iff.1 inv).1.latchOk (availableIn_halt (availableIn_of_check h.2))

theorem haltLine_kept {s : State} (hl : s.lsc.latch = none) :
    let t := s.haltLine.takeFaults
    t.configuration = s.configuration ∧ s.SameFeedAndRing t ∧ t.wtr.debt = s.wtr.debt := by
  have kept {Q : State → Prop} (K : Faults Q) (h : Q s) : Q s.haltLine.takeFaults := K.takeFaults (K.haltLine hl h)
  obtain ⟨-, -, -, passed, -, pending, told⟩ := Outside.mk.inj (kept (Lines.outside _).toFaults rfl)
  exact ⟨kept (Rings.configuration _).toFaults rfl,
    sameFeedAndRing (kept (Webs.router _).toFaults rfl) told (kept (Faults.counted _) rfl) passed pending⟩

/-- A halted line that stands keeps its state when the faults handed are taken. -/
theorem takeFaults_stopped {u : State} (h : u.lsc.state = .stopped) : u.takeFaults.lsc.state = .stopped := by
  by_cases latched : u.lsc.latch.isSome = true
  · rw [(takeFaults_following latched).2, h]
  · cases handed : u.handed with
    | nil => rw [takeFaults_nothing handed, h]
    | cons f l =>
      rw [(takeFaults_unlatched handed (by simpa using latched)).2, h]
      rfl

/-! ### LINE_STATUS (R162) -/

/-- What stands of the line's own reasons is kept by everything that is not Line State Control's. -/
theorem Counts.lineReason {x : Reason} (hx : isLineReason x = true) (i : Nat) (b : Bool) :
    Counts fun s => s.holds x i = b where
  log _ h := by simpa [State.holds] using h
  urgent _ h := by simpa [State.holds] using h
  routine _ h := by simpa [State.holds] using h
  hand _ _ h := h
  alter d r hd hr h := by
    rw [alter_holds_other i (fun y hy e => ?_) fun y hy e => ?_]
    · exact h
    · have := hd y hy
      rw [e, hx] at this
      cases this
    · have := hr y hy
      rw [e, hx] at this
      cases this
  speed c h := by
    rw [holds_eq] at h ⊢
    unfold State.sendSpeedRequest
    dsimp only
    refine ite_keeps (P := fun t => holdsIn x i t.wtr.reasons = b) (fun _ => h) fun _ => ?_
    simpa using h
  map _ _ h := h
  knp _ _ h := h
  chg _ h _ := h
  spl _ _ h := h
  hgr _ _ h := h
  osq _ _ h := h
  stk _ _ h := h
  rif _ _ _ h := h

/-- A line reason after a change of line state is as the alteration leaves it. -/
theorem enterState_holds {s : State} {x : Reason} (hx : isLineReason x = true) (i : Nat) (new : LineState) (c : StateCause)
    (further : List (Reason × Nat)) : (s.enterState new c further).holds x i
      = ((s.onLsc fun l => { l with state := new }).alter
          (((stateReason s.lsc.state).toList.map fun r => (r.reason, r.inst)) ++ further) (stateReason new).toList).holds x i := by
  unfold State.enterState
  exact (Counts.lineReason hx i _).stateReported _ _ ((Counts.lineReason hx i _).log _ rfl)

/-- A halt completed drops HALT and raises STOPPED_STATE. -/
theorem completeHalt_holds {s : State} (h : s.lsc.state = .halting) :
    s.completeHalt.holds .halt 0 = false ∧ s.completeHalt.holds .stoppedState 0 = true := by
  have stopped (x : Reason) (hx : isLineReason x = true) :
      s.completeHalt.holds x 0 = holdsIn x 0 (addReason Raised.stoppedState (dropReason .halt 0 s.wtr.reasons)) := by
    have entered := enterState_holds (s := s) hx 0 .stopped .statusStopped []
    rw [holds_eq (State.alter _ _ _), State.alter, setReasons_wtr, h] at entered
    exact (Counts.lineReason hx 0 _).toMarks.askDwell entered
  rw [stopped _ rfl, stopped _ rfl, holdsIn_add, holdsIn_add, holdsIn_drop]
  simp [Raised.stoppedState]

/-- The map after a halt completed: the dwell mark, where its limits differ. -/
theorem completeHalt_map (s : State) :
    let n := s.line.nums
    (n.dwellFar ≤ n.dwellNear → s.completeHalt.wmp = s.wmp)
      ∧ (n.dwellNear < n.dwellFar → defectCount s.wmp.marks < 32 →
          { s.dwellMark with seq := s.wmp.nextSeq } ∈ s.completeHalt.wmp.marks)
      ∧ (n.dwellNear < n.dwellFar → ∀ x : Int, n.dwellNear ≤ x → x < n.dwellFar → Covered s.completeHalt.wmp.marks x) := by
  intro n
  have map := (Enters.map s.wmp).enterState .stopped .statusStopped [] rfl
  have line := enterState_line s .stopped .statusStopped []
  unfold State.completeHalt State.askDwell
  generalize s.enterState .stopped .statusStopped [] = u at map line
  have mark : closedMark .dwell .lsc .none u.line.nums.dwellNear ((u.line.nums.dwellFar : Int) - u.line.nums.dwellNear)
      = s.dwellMark := by rw [line]; rfl
  dsimp only
  rw [mark, line]
  refine ⟨fun empty => ?_, fun stretch room => ?_, fun stretch x near far => ?_⟩
  · rw [if_neg (Nat.not_lt.2 empty)]
    exact map
  · rw [if_pos stretch, insertDefect_placed u s.dwellMark rfl (by rw [map]; exact room), map]
    exact (place_perm _ _).mem_iff.2 List.mem_cons_self
  · rw [if_pos stretch]
    refine insertDefect_covers_new u s.dwellMark rfl rfl ⟨near, (lt_zoneEnd_iff _ _).2 (.inl ?_)⟩
    rwa [dwellMark_end]

theorem notify_onLsc (s : State) (n : Notice) (f : Lsc → Lsc) : (s.onLsc f).notify n = (s.notify n).onLsc f := by
  rw [notify_eq, notify_eq, State.onLsc_rif]
  split <;> rfl

/-- LINE_STATUS stopped, by the line state it finds. -/
theorem lineStatus_halting {s : State} (h : s.lsc.state = .halting) :
    s.lineStatus false = (s.onLsc fun l => { l with status := .stopped }).completeHalt := by
  unfold State.lineStatus
  simp only [Bool.false_eq_true, if_false, State.onLsc_lsc, h]

theorem lineStatus_standing {s : State} (h : s.lsc.state = .stopped ∨ s.lsc.state = .faulted) :
    s.lineStatus false = s.onLsc fun l => { l with status := .stopped } := by
  unfold State.lineStatus
  dsimp only [State.onLsc_lsc]
  rcases h with h | h <;> rw [h] <;> rfl

theorem lineStatus_running {s : State} (h : s.lsc.state = .threading ∨ s.lsc.state = .producing) :
    let told : State := { s with lsc := { s.lsc with status := .stopped, held := true } }
    s.lineStatus false = if s.lsc.held then told else told.notify (.lineHeld s.lsc.state) := by
  intro told
  have same : s.lineStatus false = if s.lsc.held then s.onLsc fun l => { l with status := .stopped }
      else ((s.onLsc fun l => { l with status := .stopped }).notify (.lineHeld s.lsc.state)).onLsc
        fun l => { l with held := true } := by
    unfold State.lineStatus
    rcases h with h | h <;> simp only [Bool.false_eq_true, if_false, State.onLsc_lsc, h]
  rw [same]
  cases held : s.lsc.held
  · rw [if_neg (by decide), if_neg (by decide)]
    exact (notify_onLsc _ _ _).symm
  · refine congrArg (fun l => ({ s with lsc := l } : State)) ?_
    rw [← held]

/-- Settles O31: HALT by its two changes of line state, LINE_STATUS by the line state it finds. -/
theorem haltBringsTheLineDown : Obligations.HaltBringsTheLineDown := by
  refine ⟨fun s q inv grants => ?_, fun s => ⟨rfl, lineStatus_standing, lineStatus_running, fun halting => ?_⟩⟩
  · have latch := granted_halt inv grants
    have run : exec (.halt q) s = .next ((s.asked q).haltLine.takeFaults.withReply ((bare .ok).cut q.space)) := exec_granted grants
    rw [cut_bare (bare .ok) _ rfl] at run
    have lsc := haltLine_lsc (s.asked q)
    obtain ⟨configuration, feed, debt⟩ := haltLine_kept (s := s.asked q) latch
    have stopped (status : s.lsc.status = .stopped) : (s.asked q).haltLine.takeFaults.lsc.state = .stopped :=
      takeFaults_stopped (by rw [lsc]; exact if_pos status)
    have halting (status : s.lsc.status ≠ .stopped) :
        (s.asked q).haltLine.takeFaults.lsc.state = .halting ∧ (s.asked q).haltLine.takeFaults.lsc.latch = none
          ∨ (s.asked q).haltLine.takeFaults.lsc.state = .faulted
            ∧ (s.asked q).haltLine.takeFaults.lsc.latch.isSome = true := by
      have state : (s.asked q).haltLine.lsc.state = .halting := by rw [lsc]; exact if_neg status
      have taken := (takeFaults_running (u := (s.asked q).haltLine) (by rw [lsc]; exact latch) (by rw [state]; rfl)).1
      rwa [state] at taken
    refine ⟨_, run, rfl, stopped, halting, lineStop_of_state (exec_inv run inv).1 ?_, configuration, feed, debt⟩
    by_cases status : s.lsc.status = .stopped
    · exact .inl (stopped status)
    · exact .inr ((halting status).imp (fun h => h.1) fun h => h.1)
  · intro n t
    have same : t = (s.onLsc fun l => { l with status := .stopped }).completeHalt := lineStatus_halting halting
    obtain ⟨drops, raises⟩ := completeHalt_holds (s := s.onLsc fun l => { l with status := .stopped }) halting
    obtain ⟨empty, room, covered⟩ := completeHalt_map (s.onLsc fun l => { l with status := .stopped })
    have lsc := completeHalt_lsc (s.onLsc fun l => { l with status := .stopped })
    have line : t.line = s.line := (Outside.mk.inj ((Lines.outside s.outside).lineStatus false rfl)).1
    rw [← same] at drops raises empty room covered lsc
    refine ⟨lsc, drops, raises, empty, fun stretch free => ?_, covered, (Webs.router s.irt).lineStatus false rfl, line⟩
    exact ⟨_, room stretch free, rfl, rfl, rfl, dwellMark_end _, rfl⟩

end Sys2Proof.Machine
end

section
namespace Sys2Proof.Machine

variable {P Q : State → Prop}

/-! ### What a mark's report does to a plan (R34, R142, R144) -/

theorem planStarts_plan {e b : Int} {l : List Plan} {i : Nat} {p : Plan} (h : (planStarts e l)[i]? = some (b, p)) :
    l[i]? = some p := by
  induction l generalizing e i with
  | nil => cases h
  | cons q l ih =>
    cases i with
    | zero =>
      obtain ⟨-, rfl⟩ : e = b ∧ q = p := by simpa [planStarts] using h
      rfl
    | succ i => exact ih h

theorem planStarts_modify {e : Int} {l : List Plan} {i j : Nat} (hj : j ≠ i) {f : Plan → Plan} (hf : ∀ p, (f p).stop = p.stop) :
    (planStarts e (l.modify j f))[i]? = (planStarts e l)[i]? := by
  induction l generalizing e i j with
  | nil => rw [List.modify_nil]
  | cons q l ih =>
    cases i with
    | zero =>
      obtain ⟨j, rfl⟩ := Nat.exists_eq_succ_of_ne_zero hj
      rfl
    | succ i =>
      cases j with
      | zero => simp only [List.modify_zero_cons, planStarts, List.getElem?_cons_succ, hf]
      | succ j => exact ih fun e => hj (congrArg Nat.succ e)

/-- A plan is left, noted, or diverted; the last two only when it was not diverted before. -/
theorem judgePlan_cases (s : State) (m : Mark) (i : Nat) :
    s.judgePlan m i = s ∨ ∃ p, s.knp.plans[i]? = some p ∧ p.diverted = false
      ∧ (s.judgePlan m i = s.onPlan i (fun p => { p with noted := true }) ∨ s.judgePlan m i = s.divertLate i p m.seq) := by
  unfold State.judgePlan
  split
  · exact .inl rfl
  · rename_i b p h
    by_cases crosses : (p.disp == .good && !p.diverted && zoneOverlaps m.start m.zoneEnd b p.stop) = true
    · rw [if_pos crosses]
      refine .inr ⟨p, planStarts_plan h, by simp_all, ?_⟩
      split
      · exact .inr rfl
      · exact .inl rfl
    · exact .inl (if_neg crosses)

/-- What a report keeps: what a note and a divert of a plan that was not diverted keep. -/
structure Judged (m : Mark) (P : State → Prop) : Prop where
  note : ∀ {s : State} {i : Nat} {p : Plan}, s.knp.plans[i]? = some p → p.diverted = false → P s →
    P (s.onPlan i fun p => { p with noted := true })
  divert : ∀ {s : State} {i : Nat} {p : Plan}, s.knp.plans[i]? = some p → p.diverted = false → P s →
    P (s.divertLate i p m.seq)

theorem Judged.judgePlan {m : Mark} (K : Judged m P) {s : State} (i : Nat) (h : P s) : P (s.judgePlan m i) := by
  rcases judgePlan_cases s m i with e | ⟨p, hp, undiverted, e | e⟩
  · rwa [e]
  · rw [e]
    exact K.note hp undiverted h
  · rw [e]
    exact K.divert hp undiverted h

theorem Judged.markReport {m : Mark} (K : Judged m P) {s : State} (h : P s) : P (s.markReport m) :=
  foldl_keeps (fun _ i => K.judgePlan i) _ h

/-- A fold that brings Q about at one of its elements, where what comes before keeps P and what comes after keeps Q. -/
theorem foldl_reaches {α : Type} [DecidableEq α] {f : State → α → State} {a : α} (before : ∀ s x, x ≠ a → P s → P (f s x))
    (here : ∀ s, P s → Q (f s a)) (after : ∀ s x, Q s → Q (f s x)) {l : List α} (ha : a ∈ l) {s : State} (h : P s) :
    Q (l.foldl f s) := by
  induction l generalizing s with
  | nil => cases ha
  | cons x l ih =>
    rw [List.foldl_cons]
    by_cases e : x = a
    · subst e
      exact foldl_keeps after l (here s h)
    · exact ih ((List.mem_cons.1 ha).resolve_left fun c => e c.symm) (before s x e h)

/-! #### The room for the diverts -/

/-- How many plans have not been diverted. -/
def State.undiverted (s : State) : Nat := s.knp.plans.countP fun p => !p.diverted

/-- A change of one element moves a count by what it moves there. -/
theorem countP_modify {α : Type} {l : List α} {i : Nat} {x : α} (h : l[i]? = some x) (q : α → Bool) (f : α → α) :
    (l.modify i f).countP q + (q x).toNat = l.countP q + (q (f x)).toNat := by
  induction l generalizing i with
  | nil => cases h
  | cons y l ih =>
    cases i with
    | zero =>
      obtain rfl : y = x := by simpa using h
      rw [List.modify_zero_cons, List.countP_cons, List.countP_cons]
      cases q y <;> cases q (f y) <;> simp
    | succ i =>
      have rest := ih (by simpa using h)
      rw [List.modify_succ_cons, List.countP_cons, List.countP_cons]
      omega

theorem undiverted_divert {s : State} {i : Nat} {p : Plan} (hp : s.knp.plans[i]? = some p) (h : p.diverted = false) :
    (s.onPlan i fun p => { p with diverted := true }).undiverted + 1 = s.undiverted := by
  have moved := countP_modify hp (fun p => !p.diverted) fun p => { p with diverted := true }
  rw [h] at moved
  exact moved

theorem undiverted_note {s : State} {i : Nat} {p : Plan} (hp : s.knp.plans[i]? = some p) :
    (s.onPlan i fun p => { p with noted := true }).undiverted = s.undiverted := by
  exact Nat.add_right_cancel (countP_modify hp (fun p => !p.diverted) fun p => { p with noted := true })

theorem undiverted_le (s : State) : s.undiverted ≤ s.knp.plans.length := List.countP_le_length

/-- The urgent queue takes a DIVERT for every plan that has none, and no fault waits. -/
def State.DivertsFit (s : State) : Prop := s.handed = [] ∧ s.rif.urgent.length + s.undiverted ≤ 16

theorem divertLate_eq {s : State} {i : Nat} (p : Plan) (mark : Nat) (room : s.rif.urgent.length < 16) :
    s.divertLate i p mark
      = ((s.onPlan i fun p => { p with diverted := true }).onRif fun r =>
          { r with urgent := r.urgent ++ [.divert p.seq .lateMark] }).log (.divert p.seq .lateMark mark) := by
  rw [State.divertLate, queueUrgent_room _ room]
  rfl

theorem Judged.divertsFit (m : Mark) : Judged m State.DivertsFit where
  note hp _ h := ⟨h.1, by rw [undiverted_note hp]; exact h.2⟩
  divert {s i p} hp undiverted h := by
    have less := undiverted_divert hp undiverted
    have fits := h.2
    rw [divertLate_eq p _ (by omega)]
    refine ⟨by rw [State.log_handed]; exact h.1, ?_⟩
    rw [State.log_rif, State.undiverted, State.log_knp]
    refine le_trans ?_ fits
    rw [← less]
    exact (Nat.add_le_add_right (List.length_append (as := s.rif.urgent)).le _).trans_eq (Nat.add_right_comm _ _ _)

/-! #### The records of the diverts (R144, R156, R157) -/

/-- What a record makes of the log depends on the log and the cycle number alone. -/
theorem log_plg_congr {s t : State} (b : LogBody) (plg : t.plg = s.plg) (stamp : t.stamp = s.stamp) :
    (t.log b).plg = (s.log b).plg := by
  unfold State.log
  dsimp only
  rw [plg, stamp]
  split
  · simp only [State.onPlg_plg, plg]
  · split <;> simp only [State.onPlg_plg, plg]

theorem divertLate_plg (s : State) (i : Nat) (p : Plan) (mark : Nat) :
    (s.divertLate i p mark).plg = (s.log (.divert p.seq .lateMark mark)).plg := by
  refine log_plg_congr _ ?_ ?_ <;> unfold State.queueUrgent <;> split <;> rfl

theorem divertLate_knp (s : State) (i : Nat) (p : Plan) (mark : Nat) :
    (s.divertLate i p mark).knp = (s.onPlan i fun p => { p with diverted := true }).knp := by
  simp [State.divertLate, State.onPlan]

theorem divertLate_undiverted {s : State} {i : Nat} {p : Plan} (mark : Nat) (hp : s.knp.plans[i]? = some p)
    (h : p.diverted = false) : (s.divertLate i p mark).undiverted + 1 = s.undiverted := by
  rw [State.undiverted, divertLate_knp]
  exact undiverted_divert hp h

/-- The log takes n records. -/
def State.LogTakes (n : Nat) (s : State) : Prop := s.plg.mode = .wrap ∨ s.plg.records.length + n ≤ 512

/-- A record that the log takes stands last in it. -/
theorem log_stored {s : State} (b : LogBody) {n : Nat} (h : s.LogTakes (n + 1)) :
    (s.log b).LogTakes n ∧ ∃ r, r.body = b
      ∧ (s.log b).plg.records = s.plg.records.drop (if s.plg.records.length < 512 then 0 else 1) ++ [r] := by
  unfold State.log State.LogTakes
  dsimp only
  by_cases room : s.plg.records.length < 512
  · rw [if_pos room, if_pos room]
    refine ⟨h.imp id fun h => ?_, _, rfl, rfl⟩
    simp only [State.onPlg_plg, List.length_append, List.length_singleton]
    omega
  · have wrap := h.resolve_right (by omega)
    rw [if_neg room, if_neg room, wrap]
    exact ⟨.inl wrap, _, rfl, rfl⟩

/-- A record stands in the log, with at most n behind it. -/
def State.Recorded (b : LogBody) (n : Nat) (s : State) : Prop :=
  ∃ l r k, s.plg.records = l ++ r :: k ∧ r.body = b ∧ k.length ≤ n

theorem recorded_log {s : State} (b : LogBody) {n k : Nat} (h : s.LogTakes (n + 1)) : (s.log b).Recorded b k := by
  obtain ⟨-, r, body, records⟩ := log_stored b h
  exact ⟨_, r, [], records, body, Nat.zero_le _⟩

/-- A record taken later puts no other out, as long as few stand behind that. -/
theorem State.Recorded.log {s : State} {b : LogBody} {n k : Nat} (c : LogBody) (takes : s.LogTakes (n + 1)) (few : k < 511)
    (h : s.Recorded b k) : (s.log c).Recorded b (k + 1) := by
  obtain ⟨l, r, later, split, body, length⟩ := h
  obtain ⟨-, x, -, records⟩ := log_stored c takes
  refine ⟨l.drop (if (l ++ r :: later).length < 512 then 0 else 1), r, later ++ [x], ?_, body, by simpa using length⟩
  rw [records, split, List.drop_append_of_le_length, List.append_assoc, List.cons_append]
  split
  · exact Nat.zero_le _
  · rename_i full
    simp only [List.length_append, List.length_cons] at full
    omega

/-- The log takes the records of the diverts to come and n more. -/
def State.LogRoom (n : Nat) (s : State) : Prop := s.LogTakes (s.undiverted + n)

theorem Judged.logRoom (m : Mark) (n : Nat) : Judged m (State.LogRoom n) where
  note hp _ h := by
    rw [State.LogRoom, undiverted_note hp]
    exact h
  divert {s i p} hp undiverted h := by
    have less := divertLate_undiverted m.seq hp undiverted
    have takes : s.LogTakes ((s.divertLate i p m.seq).undiverted + n + 1) := by
      rw [State.LogRoom] at h
      rwa [show (s.divertLate i p m.seq).undiverted + n + 1 = s.undiverted + n by omega]
    rw [State.LogRoom, State.LogTakes, divertLate_plg]
    exact (log_stored _ takes).1

/-- A record stands, and stays while the diverts to come and n more records are taken. -/
def State.Stays (b : LogBody) (n : Nat) (s : State) : Prop :=
  s.LogRoom n ∧ ∃ k, k + s.undiverted + n ≤ 3 ∧ s.Recorded b k

theorem Judged.stays (m : Mark) (b : LogBody) (n : Nat) : Judged m (State.Stays b n) where
  note hp undiverted h := by
    refine ⟨(Judged.logRoom m n).note hp undiverted h.1, ?_⟩
    rw [undiverted_note hp]
    exact h.2
  divert {s i p} hp undiverted h := by
    obtain ⟨room, k, few, recorded⟩ := h
    have less := divertLate_undiverted m.seq hp undiverted
    have takes : s.LogTakes (s.undiverted + n - 1 + 1) := by
      rw [show s.undiverted + n - 1 + 1 = s.undiverted + n by omega]
      exact room
    refine ⟨(Judged.logRoom m n).divert hp undiverted room, k + 1, by omega, ?_⟩
    rw [State.Recorded, divertLate_plg]
    exact recorded.log _ takes (by omega)

/-- A record that is no divert's uses one place up. -/
theorem State.Stays.log {s : State} {b : LogBody} {n : Nat} (c : LogBody) (h : s.Stays b (n + 1)) : (s.log c).Stays b n := by
  obtain ⟨room, k, few, recorded⟩ := h
  have same : (s.log c).undiverted = s.undiverted := by rw [State.undiverted, State.log_knp, State.undiverted]
  refine ⟨?_, k + 1, by omega, recorded.log c room (by omega)⟩
  rw [State.LogRoom, same]
  exact (log_stored c room).1

/-! #### The plan that a mark diverts -/

theorem judgePlan_diverts {s : State} {m : Mark} {i : Nat} {b : Int} {p : Plan} (kind : m.kind ≠ .offband)
    (hp : (planStarts s.knp.cutEdge s.knp.plans)[i]? = some (b, p)) (good : p.disp = .good) (undiverted : p.diverted = false)
    (overlaps : zoneOverlaps m.start m.zoneEnd b p.stop = true) : s.judgePlan m i = s.divertLate i p m.seq := by
  have blocks : blocks m.kind m.lenient (s.qualityOf p.order) = true := by
    cases h : m.kind <;> simp_all [Machine.blocks]
  unfold State.judgePlan
  simp only [hp, good, undiverted, overlaps, blocks]
  rfl

/-- A plan diverted stays as it is. -/
theorem Judged.plan (m : Mark) (i : Nat) {q : Plan} (diverted : q.diverted = true) :
    Judged m fun s => s.knp.plans[i]? = some q where
  note {s j p} hp undiverted h := by
    have other : j ≠ i := fun e => by rw [e, h] at hp; cases hp; simp [diverted] at undiverted
    exact (List.getElem?_modify_ne _ _ other).trans h
  divert {s j p} hp undiverted h := by
    have other : j ≠ i := fun e => by rw [e, h] at hp; cases hp; simp [diverted] at undiverted
    rw [divertLate_knp]
    exact (List.getElem?_modify_ne _ _ other).trans h

/-- Where a plan stands is kept while the others are judged. -/
theorem judgePlan_other {s : State} (m : Mark) {i j : Nat} (hj : j ≠ i) :
    (planStarts (s.judgePlan m j).knp.cutEdge (s.judgePlan m j).knp.plans)[i]?
      = (planStarts s.knp.cutEdge s.knp.plans)[i]? := by
  rcases judgePlan_cases s m j with e | ⟨p, -, -, e | e⟩
  · rw [e]
  · rw [e]
    exact planStarts_modify hj fun _ => rfl
  · rw [e, divertLate_knp]
    exact planStarts_modify hj fun _ => rfl

theorem Judged.undiverted (m : Mark) (n : Nat) : Judged m fun s => s.undiverted ≤ n where
  note hp _ h := (undiverted_note hp).trans_le h
  divert hp undiverted h := by
    have less := divertLate_undiverted m.seq hp undiverted
    omega

/-- The report of a mark that is not lenient diverts a good plan that its zone overlaps. -/
theorem markReport_diverts {s : State} {m : Mark} {i : Nat} {b : Int} {p : Plan} (kind : m.kind ≠ .offband)
    (hp : (planStarts s.knp.cutEdge s.knp.plans)[i]? = some (b, p)) (good : p.disp = .good)
    (overlaps : zoneOverlaps m.start m.zoneEnd b p.stop = true) :
    (s.markReport m).knp.plans[i]? = some { p with diverted := true } := by
  cases before : p.diverted with
  | true =>
    have same : { p with diverted := true } = p := by rw [← before]
    rw [same]
    exact (Judged.plan m i before).markReport (planStarts_plan hp)
  | false =>
    have mem : i ∈ List.range s.knp.plans.length :=
      List.mem_range.2 (List.getElem?_eq_some_iff.1 (planStarts_plan hp)).1
    refine foldl_reaches (P := fun t => (planStarts t.knp.cutEdge t.knp.plans)[i]? = some (b, p))
      (Q := fun t => t.knp.plans[i]? = some { p with diverted := true }) (fun t j hj ht => ?_) (fun t ht => ?_)
      (fun t j ht => (Judged.plan m i rfl).judgePlan j ht) mem hp
    · rw [judgePlan_other m hj]
      exact ht
    · rw [judgePlan_diverts kind ht good before overlaps, divertLate_knp]
      refine (List.getElem?_modify_eq _ _ _).trans ?_
      rw [planStarts_plan ht]
      rfl

/-- The DIVERT of such a plan is recorded, and its record stays while n more records are taken. -/
theorem markReport_records {s : State} {m : Mark} {i : Nat} {b : Int} {p : Plan} (kind : m.kind ≠ .offband)
    (hp : (planStarts s.knp.cutEdge s.knp.plans)[i]? = some (b, p)) (good : p.disp = .good)
    (overlaps : zoneOverlaps m.start m.zoneEnd b p.stop = true) (before : p.diverted = false) (few : s.undiverted ≤ 2)
    (room : s.LogRoom 1) : (s.markReport m).Stays (.divert p.seq .lateMark m.seq) 1 := by
  have mem : i ∈ List.range s.knp.plans.length :=
    List.mem_range.2 (List.getElem?_eq_some_iff.1 (planStarts_plan hp)).1
  refine foldl_reaches
    (P := fun t => (planStarts t.knp.cutEdge t.knp.plans)[i]? = some (b, p) ∧ t.undiverted ≤ 2 ∧ t.LogRoom 1)
    (fun t j hj ⟨ht, few, room⟩ => ?_) (fun t ⟨ht, few, room⟩ => ?_) (fun t j ht => (Judged.stays m _ 1).judgePlan j ht) mem
    ⟨hp, few, room⟩
  · rw [judgePlan_other m hj]
    exact ⟨ht, (Judged.undiverted m 2).judgePlan j few, (Judged.logRoom m 1).judgePlan j room⟩
  · rw [judgePlan_diverts kind ht good before overlaps]
    have less := divertLate_undiverted m.seq (planStarts_plan ht) before
    refine ⟨(Judged.logRoom m 1).divert (planStarts_plan ht) before room, 0, by omega, ?_⟩
    rw [State.Recorded, divertLate_plg]
    exact recorded_log _ room

/-! ### The insertion of a closed defect mark (R28) -/

/-- A mark without claims is placed while the defect area has room, and merged when it is full. -/
theorem insertDefect_closed (s : State) {m : Mark} (h : m.claims = []) :
    defectCount s.wmp.marks < 32 ∧ s.insertDefect m = (s.bumpSeq.placeMark { m with seq := s.wmp.nextSeq }, none)
    ∨ 32 ≤ defectCount s.wmp.marks ∧ ∃ i old, s.wmp.marks[i]? = some old ∧ old.kind.isStructural = false
        ∧ s.insertDefect m = (s.bumpSeq.absorb i old (mergeMarks old { m with seq := s.wmp.nextSeq }) s.wmp.nextSeq m.kind,
            some old.seq) := by
  have unclaimed : ¬(m.claims.any fun c => s.wmp.marks.any fun x => x.holdsClaim c.kind c.owner) = true := by
    rw [h]
    exact Bool.false_ne_true
  unfold State.insertDefect
  rw [if_neg unclaimed]
  dsimp only
  rw [show s.bumpSeq.wmp.marks = s.wmp.marks from rfl]
  by_cases room : defectCount s.wmp.marks < 32
  · rw [if_pos room]
    exact .inl ⟨room, rfl⟩
  · rw [if_neg room]
    obtain ⟨⟨i, old⟩, nearest⟩ := Option.isSome_iff_exists.1
      (nearestDefect_isSome (new := { m with seq := s.wmp.nextSeq }) (l := s.wmp.marks) (by omega))
    obtain ⟨hi, ho⟩ := nearestDefect_mem nearest
    rw [nearest]
    exact .inr ⟨Nat.le_of_not_lt room, i, old, hi, ho, rfl⟩

/-- What reports keep, and the record of a merge uses up, is kept by an insertion. -/
theorem insertDefect_judged {R : Nat → State → Prop} (report : ∀ m n, Judged m (R n))
    (map : ∀ {s n} (f : Wmp → Wmp), R n s → R n (s.onWmp f)) (log : ∀ {s n} (c), R (n + 1) s → R n (s.log c))
    (less : ∀ {s}, R 1 s → R 0 s) {s : State} {m : Mark} (hm : m.claims = []) (h : R 1 s) : R 0 (s.insertDefect m).1 := by
  rcases insertDefect_closed s hm with ⟨-, e⟩ | ⟨-, i, old, -, -, e⟩
  · rw [e]
    exact (report _ 0).markReport (less (map _ (map _ h)))
  · rw [e]
    have merged := log (.markMerged old.seq s.wmp.nextSeq m.kind)
      (map (fun w => { w with marks := putBack w.marks i old (mergeMarks old { m with seq := s.wmp.nextSeq }) })
        (map (fun w => { w with nextSeq := (w.nextSeq + 1) % 65536 }) h))
    exact ite_keeps (fun _ => (report _ 0).markReport merged) fun _ => merged

/-! ### OPERATOR_CUTOUT (R38, R200) -/

/-- The cut-out as it is asked for. -/
def State.cutout (s : State) (requester : Nat) (d l : Int) : Mark :=
  { closedMark .operator .mgr (.operator requester) d l with seq := s.wmp.nextSeq }

theorem operatorCutout_taken {s : State} {requester : Nat} {d l : Int} (hd : -100000 ≤ d) (hd' : d ≤ 5000000) (hl : 1 ≤ l)
    (hl' : l ≤ 5000000) : s.operatorCutout requester d l =
      (((s.markReport (s.cutout requester d l)).insertDefect (s.cutout requester d l)).1,
        okWith [.number s.wmp.nextSeq,
          .optional ((s.markReport (s.cutout requester d l)).insertDefect (s.cutout requester d l)).2]) := by
  unfold State.operatorCutout
  rw [if_neg (by simp [hd, hd']), if_neg (by simp [hl, hl'])]
  rfl

theorem placeMark_wmp (s : State) (m : Mark) : (s.placeMark m).wmp = { s.wmp with marks := place m s.wmp.marks } :=
  markReport_wmp _ m

theorem absorb_wmp (s : State) (i : Nat) (old wide : Mark) (seq : Nat) (kind : MarkKind) :
    (s.absorb i old wide seq kind).wmp = { s.wmp with marks := putBack s.wmp.marks i old wide } := by
  unfold State.absorb
  dsimp only
  split
  · rw [markReport_wmp, State.log_wmp]
    rfl
  · rw [State.log_wmp]
    rfl

/-- The map after the insertion of a closed defect mark. -/
theorem insertDefect_map (s : State) {m : Mark} (h : m.claims = []) :
    let new := { m with seq := s.wmp.nextSeq }
    (s.insertDefect m).1.wmp.nextSeq = (s.wmp.nextSeq + 1) % 65536
      ∧ ((s.insertDefect m).2 = none ∧ defectCount s.wmp.marks < 32 ∧ (s.insertDefect m).1.wmp.marks = place new s.wmp.marks
        ∨ 32 ≤ defectCount s.wmp.marks ∧ ∃ i old, s.wmp.marks[i]? = some old ∧ old.kind.isStructural = false
            ∧ (s.insertDefect m).2 = some old.seq
            ∧ (s.insertDefect m).1.wmp.marks = putBack s.wmp.marks i old (mergeMarks old new)) := by
  rcases insertDefect_closed s h with ⟨room, e⟩ | ⟨full, i, old, hi, ho, e⟩
  · rw [e, placeMark_wmp]
    exact ⟨rfl, .inl ⟨rfl, room, rfl⟩⟩
  · rw [e, absorb_wmp]
    exact ⟨rfl, .inr ⟨full, i, old, hi, ho, rfl, rfl⟩⟩

theorem State.Stays.less {b : LogBody} {s : State} (h : s.Stays b 1) : s.Stays b 0 := by
  obtain ⟨room, k, few, recorded⟩ := h
  refine ⟨?_, k, by omega, recorded⟩
  exact room.imp id fun h => by omega

/-- What an insertion and a report leave alone. -/
theorem Marked.aside (s : State) :
    Marked fun t => t.wtr = s.wtr ∧ t.osq = s.osq ∧ t.lsc = s.lsc ∧ t.configuration = s.configuration where
  log _ h := by simpa [State.configuration] using h
  map _ _ h := h
  plan _ _ _ h := h
  cut _ _ h := by simpa [State.configuration] using h

/-- Settles O34: the cut-out's report diverts the plans, its insertion places or merges it, and the reports and records of the
insertion leave what the first report did. -/
theorem operatorCutoutIsMarked : Obligations.OperatorCutoutIsMarked := by
  intro s q d l inv grants hd hd' hl hl' urgent
  let v := s.asked q
  let m := v.cutout q.requester d l
  let u := v.markReport m
  let x := u.insertDefect m
  have run : exec (.operatorCutout q d l) s
      = .next (x.1.takeFaults.withReply ((okWith [.number s.wmp.nextSeq, .optional x.2]).cut q.space)) := by
    have exec := exec_granted grants
    rw [show owned q (.operatorCutout d l) (s.asked q) = v.operatorCutout q.requester d l from rfl,
      operatorCutout_taken hd hd' hl hl'] at exec
    exact exec
  have few : v.undiverted ≤ 2 := (undiverted_le v).trans inv.plans.1
  have fits : x.1.DivertsFit := by
    refine insertDefect_judged (R := fun _ => State.DivertsFit) (fun m _ => Judged.divertsFit m) (fun _ h => h) (fun c h => ?_)
      id rfl ((Judged.divertsFit m).markReport ⟨inv.handed, ?_⟩)
    · simpa [State.DivertsFit, State.undiverted] using h
    · exact (Nat.add_le_add urgent few)
  rw [takeFaults_nothing fits.1] at run
  have map : u.wmp = s.wmp := markReport_wmp v m
  have claims : m.claims = [] := rfl
  obtain ⟨wtr, osq, lsc, configuration⟩ :=
    (Marked.aside v).insertDefect (s := u) m ((Marked.aside v).markReport m ⟨rfl, rfl, rfl, rfl⟩)
  obtain ⟨nextSeq, marks⟩ := insertDefect_map u claims
  rw [map] at nextSeq marks
  have stop : m.zoneEnd = d + l := rfl
  have covers : ∀ y, d ≤ y → y < d + l → Covered x.1.wmp.marks y := fun y near far =>
    insertDefect_covers_new u m rfl rfl ⟨near, far⟩
  have keeps : ∀ y, Covered s.wmp.marks y → Covered x.1.wmp.marks y := fun y h =>
    insertDefect_covers u m y (map ▸ h)
  refine ⟨_, x.2, run, rfl, ?_, ?_, ?_, ?_, fun i b p hp good below above => ?_, covers, keeps, wtr, osq, lsc, configuration⟩
  · exact nextSeq
  · rcases marks with ⟨none, room, -⟩ | ⟨full, i, old, -, -, some, -⟩
    · exact iff_of_true none room
    · exact iff_of_false (fun e => nomatch some.symm.trans e) (Nat.not_lt.2 full)
  · rcases marks with ⟨-, -, placed⟩ | ⟨-, i, old, -, -, some, -⟩
    · exact fun _ => placed
    · exact fun e => nomatch some.symm.trans e
  · rcases marks with ⟨none, -⟩ | ⟨-, i, old, hi, ho, some, merged⟩
    · exact fun n e => nomatch none.symm.trans e
    · intro n e
      have reaches := (merge_covers (old := old) (m := m) (x := d + l - 1) (.inr ⟨by change d ≤ _; omega, by omega⟩)).2
      refine ⟨mergeMarks old m, ?_, ho, Option.some.inj (some.symm.trans e), min_le_right _ _, by omega⟩
      change _ ∈ x.1.wmp.marks
      rw [merged]
      exact mem_putBack hi
  · have overlaps : zoneOverlaps m.start m.zoneEnd b p.stop = true := by
      rw [stop]
      simp only [zoneOverlaps, rawOverlap, Bool.and_eq_true, decide_eq_true_eq]
      exact ⟨Int.lt_add_of_pos_right _ hl, below, above⟩
    have report := markReport_diverts (s := v) (m := m) nofun hp good overlaps
    refine ⟨?_, fun before room => ?_⟩
    · exact insertDefect_judged (R := fun _ t => t.knp.plans[i]? = some { p with diverted := true })
        (fun m _ => Judged.plan m i rfl) (fun _ h => h) (fun c h => by simpa using h) id claims report
    · have recorded := markReport_records (s := v) (m := m) nofun hp good overlaps before few
        (room.imp id fun h => (Nat.add_le_add h (Nat.add_le_add_right few 1) : _ ≤ 509 + (2 + 1)))
      obtain ⟨-, k, -, before, r, after, records, body, -⟩ :=
        insertDefect_judged (R := State.Stays (.divert p.seq .lateMark m.seq)) (fun m n => Judged.stays m _ n) (fun _ h => h)
          (fun c h => h.log c) State.Stays.less claims recorded
      exact ⟨r, by rw [State.withReply, records]; simp, body⟩

end Sys2Proof.Machine
end

section
namespace Sys2Proof.Machine

variable {P : State → Prop}

/-! ### What a block does outside its own records

The Splice Planner and the Changeover Unit log, queue, hand faults, alter reasons, and place, widen and close marks with their
reports. -/

structure Acts (P : State → Prop) : Prop where
  log : ∀ {s : State} (b), P s → P (s.log b)
  urgent : ∀ {s : State} (o), P s → P (s.queueUrgent o)
  routine : ∀ {s : State} (o), P s → P (s.queueRoutine o)
  hand : ∀ {s : State} (c d), P s → P (s.hand c d)
  alter : ∀ {s : State} (d r), P s → P (s.alter d r)
  map : ∀ {s : State} (f : Wmp → Wmp), P s → P (s.onWmp f)
  plan : ∀ {s : State} (j) (f : Plan → Plan), P s → P (s.onPlan j f)

namespace Acts

theorem toMarked (K : Acts P) : Marked P := ⟨K.log, fun f _ => K.map f, fun j f _ => K.plan j f, fun o _ => K.urgent o⟩

theorem notify (K : Acts P) {s : State} (n : Notice) (h : P s) : P (s.notify n) := K.routine _ h

theorem absorb (K : Acts P) {s : State} (j : Nat) (old wide : Mark) (seq : Nat) (kind : MarkKind) (h : P s) :
    P (s.absorb j old wide seq kind) := by
  have put := K.log (.markMerged old.seq seq kind) (K.map (fun w => { w with marks := putBack w.marks j old wide }) h)
  exact ite_keeps (fun _ => K.toMarked.markReport _ put) fun _ => put

theorem insertSplice (K : Acts P) {s : State} (k : Nat) (r : SpliceReason) (paper : Option Nat) (a b : Int) (h : P s) :
    P (s.insertSplice k r paper a b) := by
  unfold State.insertSplice
  dsimp only
  have bumped := K.toMarked.bumpSeq h
  split
  · exact K.toMarked.placeMark _ bumped
  · exact K.absorb _ _ _ _ _ bumped

end Acts

/-! ### What the Splice Planner does at one stand (R96 to R104) -/

/-- P is kept by an examination of stand i and what follows it: items, faults, reasons and the stand's record. -/
structure Examines (i : Nat) (P : State → Prop) : Prop where
  urgent : ∀ {s : State} (o), P s → P (s.queueUrgent o)
  routine : ∀ {s : State} (o), P s → P (s.queueRoutine o)
  hand : ∀ {s : State} (c d), P s → P (s.hand c d)
  alter : ∀ {s : State} (d r), P s → P (s.alter d r)
  stand : ∀ {s : State} (f : Stand → Stand), P s → P (s.onStand i f)

namespace Examines

variable {i : Nat}

theorem notify (K : Examines i P) {s : State} (n : Notice) (h : P s) : P (s.notify n) := K.routine _ h

theorem examine (K : Examines i P) {s : State} (h : P s) : P (s.examine i) := by
  unfold State.examine
  dsimp only
  split
  · exact h
  · refine ite_keeps (fun _ => ?_) fun _ => h
    split
    · exact K.stand _ h
    · split
      · exact K.stand _ (K.urgent _ h)
      · exact ite_keeps (fun _ => K.notify _ (K.stand _ h)) fun _ => K.stand _ h

theorem judgeRunout (K : Examines i P) {s : State} (h : P s) : P (s.judgeRunout i) := by
  unfold State.judgeRunout
  dsimp only
  split
  · exact h
  · exact ite_keeps (fun _ => K.hand _ _ h) fun _ => h

theorem noticeSplice (K : Examines i P) {s : State} (r : SpliceReason) (paper : Option Nat) (x : Int) (b : Bool) (h : P s) :
    P (s.noticeSplice i r paper x b) :=
  K.notify _ (ite_keeps (fun _ => h) fun _ => K.notify _ h)

end Examines

/-- P is kept by all that it does at stand i. -/
structure Joins (i : Nat) (P : State → Prop) : Prop extends Acts P, Examines i P

namespace Joins

variable {i : Nat}

theorem earlySplice (K : Joins i P) {s : State} (r : SpliceReason) (d : Option Demand) (paper : Option Nat) (x : Int) (h : P s) :
    P (s.earlySplice i r d paper x) := by
  unfold State.earlySplice
  split
  · exact h
  · split
    · exact ite_keeps (fun _ => K.toMarked.insertDefect _ h) fun _ => h
    · exact h

theorem judgePaper (K : Joins i P) {s : State} (a b : Int) (h : P s) : P (s.judgePaper i a b) :=
  K.stand _ (ite_keeps (fun _ => K.stand _ (K.toMarked.insertDefect _ h)) fun _ =>
    ite_keeps (fun _ => K.stand _ (K.map _ h)) fun _ => h)

theorem completeSplice (K : Joins i P) {s : State} (c : StandCfg) (r : SpliceReason) (n : Nat) (b : Bool) (h : P s) :
    P (s.completeSplice i c r n b) := by
  have spliced := K.earlySplice r (s.stand i).demand ((s.stand i).spare.map fun x => x.reel.paper)
    ((c.dist : Int) - ((n * s.line.nums.feedScale / 65536 : Nat) : Int) + c.joint)
    (K.stand (Stand.spliced r) (K.insertSplice (i + 1) r ((s.stand i).spare.map fun x => x.reel.paper)
      ((c.dist : Int) - ((n * s.line.nums.feedScale / 65536 : Nat) : Int)) c.joint h))
  exact K.alter _ _ (K.judgeRunout (K.examine (K.noticeSplice _ _ _ _ (K.log _ (K.judgePaper _ _ spliced)))))

theorem failSplice (K : Joins i P) {s : State} (x : SpliceResult) (code : Option Nat) (h : P s) : P (s.failSplice i x code) :=
  K.judgeRunout (K.toExamines.notify _ (K.log _ (K.stand _ h)))

end Joins

theorem stand_congr {s t : State} (h : t.spl = s.spl) (i : Nat) : t.stand i = s.stand i := by rw [State.stand, h, State.stand]

/-! ### What the two blocks leave alone -/

/-- The blocks that neither the Splice Planner nor the Changeover Unit touches, and the line constants. -/
def State.OthersStand (s t : State) : Prop :=
  t.osq = s.osq ∧ t.hgr = s.hgr ∧ t.stk = s.stk ∧ t.lsc = s.lsc ∧ t.irt = s.irt ∧ t.line = s.line

theorem Acts.others (s : State) : Acts (State.OthersStand s) where
  log _ h := by simpa [State.OthersStand] using h
  urgent _ h := by simpa [State.OthersStand] using h
  routine _ h := by simpa [State.OthersStand] using h
  hand _ _ h := h
  alter _ _ h := by simpa [State.OthersStand] using h
  map _ h := h
  plan _ _ h := h

theorem Acts.changeover (x : Chg) : Acts fun s => s.chg = x where
  log _ h := by simpa using h
  urgent _ h := by simpa using h
  routine _ h := by simpa using h
  hand _ _ h := h
  alter _ _ h := by simpa using h
  map _ h := h
  plan _ _ h := h

theorem Acts.stands (x : Spl) : Acts fun s => s.spl = x where
  log _ h := by simpa using h
  urgent _ h := by simpa using h
  routine _ h := by simpa using h
  hand _ _ h := h
  alter _ _ h := by simpa using h
  map _ h := h
  plan _ _ h := h

theorem Acts.and {Q : State → Prop} (K : Acts P) (L : Acts Q) : Acts fun s => P s ∧ Q s where
  log _ h := ⟨K.log _ h.1, L.log _ h.2⟩
  urgent _ h := ⟨K.urgent _ h.1, L.urgent _ h.2⟩
  routine _ h := ⟨K.routine _ h.1, L.routine _ h.2⟩
  hand _ _ h := ⟨K.hand _ _ h.1, L.hand _ _ h.2⟩
  alter _ _ h := ⟨K.alter _ _ h.1, L.alter _ _ h.2⟩
  map _ h := ⟨K.map _ h.1, L.map _ h.2⟩
  plan _ _ h := ⟨K.plan _ _ h.1, L.plan _ _ h.2⟩

/-- Another stand's record, as the stands' table gives it. -/
theorem Acts.stand (j : Nat) (x : Stand) : Acts fun s => s.stand j = x where
  log _ h := (stand_congr (by simp) j).trans h
  urgent _ h := (stand_congr (by simp) j).trans h
  routine _ h := (stand_congr (by simp) j).trans h
  hand _ _ h := h
  alter _ _ h := (stand_congr (by simp) j).trans h
  map _ h := h
  plan _ _ h := h

theorem Joins.otherStand {i j : Nat} (hj : j ≠ i) (x : Stand) : Joins i fun s => s.stand j = x where
  toActs := Acts.stand j x
  stand f h := by rw [stand_onStand, if_neg (fun e => hj e.1)]; exact h

/-- The map and the log. -/
theorem Examines.records (i : Nat) (w : Wmp) (p : Plg) : Examines i fun s => s.wmp = w ∧ s.plg = p where
  urgent _ h := by simpa using h
  routine _ h := by simpa using h
  hand _ _ h := h
  alter _ _ h := by simpa using h
  stand _ h := h

/-- What the Splice Planner leaves alone. -/
theorem Joins.aside (i : Nat) (s : State) : Joins i fun t => s.OthersStand t ∧ t.chg = s.chg where
  toActs := (Acts.others s).and (Acts.changeover s.chg)
  stand _ h := h

/-! #### The record of the stand -/

theorem stand_onStand_self {s : State} {i : Nat} (hi : i < 7) (f : Stand → Stand) : (s.onStand i f).stand i = f (s.stand i) := by
  rw [stand_onStand, if_pos ⟨rfl, hi⟩]

theorem judgeRunout_only (s : State) (i : Nat) : ∃ h, s.judgeRunout i = { s with handed := h } := by
  unfold State.judgeRunout
  dsimp only
  split
  · exact ⟨_, rfl⟩
  · split
    · exact ⟨_, rfl⟩
    · exact ⟨_, rfl⟩

/-- The record when the wrong-paper condition has been judged (R94, R102). -/
def Stand.judged (st : Stand) : Stand :=
  { st with
    claim := st.wrongPaper
    demand := if st.wrongPaper && st.demand.isNone then some { paper := st.need, boundary := none } else st.demand }

/-- The mark of a wrong-paper zone that opens at a start (R102). -/
def State.paperMark (s : State) (i : Nat) (start : Int) : Mark :=
  openMark .wrongPaper .spl (.wrongPaper (i + 1)) start
    { kind := .wrongPaper, owner := i + 1, pinned := ((s.stand i).cfg.map fun c => (c.dist : Int)).getD 0 }

/-- The map when the wrong-paper condition has been judged: a claim opens, or one ends. -/
def State.paperMarked (s : State) (i : Nat) (start closing : Int) : State :=
  if (s.stand i).wrongPaper && !(s.stand i).claim then (s.insertDefect (s.paperMark i start)).1
  else if !(s.stand i).wrongPaper && (s.stand i).claim then s.closeClaim .wrongPaper (i + 1) closing
  else s

theorem paperMarked_spl (s : State) (i : Nat) (a b : Int) : (s.paperMarked i a b).spl = s.spl :=
  ite_keeps (P := fun t => t.spl = s.spl) (fun _ => (Acts.stands _).toMarked.insertDefect _ rfl) fun _ =>
    ite_keeps (P := fun t => t.spl = s.spl) (fun _ => rfl) fun _ => rfl

/-- A judgement is its marks, the claim's flag, and the demand that an open claim gives. -/
theorem judgePaper_eq (s : State) (i : Nat) (a b : Int) : s.judgePaper i a b =
    (if (s.stand i).wrongPaper = (s.stand i).claim then s.paperMarked i a b
      else (s.paperMarked i a b).onStand i fun st => { st with claim := (s.stand i).wrongPaper }).syncDemand i := by
  unfold State.judgePaper State.paperMarked State.paperMark
  dsimp only
  cases (s.stand i).wrongPaper <;> cases (s.stand i).claim <;> rfl

theorem judgePaper_wmp (s : State) (i : Nat) (a b : Int) : (s.judgePaper i a b).wmp = (s.paperMarked i a b).wmp := by
  rw [judgePaper_eq]
  exact ite_keeps (P := fun t => t.wmp = (s.paperMarked i a b).wmp) (fun _ => rfl) fun _ => rfl

theorem judgePaper_stand {s : State} {i : Nat} (hi : i < 7) (a b : Int) :
    (s.judgePaper i a b).stand i = (s.stand i).judged := by
  have marked := stand_congr (paperMarked_spl s i a b) i
  rw [judgePaper_eq, State.syncDemand, stand_onStand_self hi, Stand.judged]
  split
  · rename_i same
    have claimed : ({ s.stand i with claim := (s.stand i).wrongPaper } : Stand) = s.stand i := by rw [same]
    rw [marked, ← same]
    split
    · rfl
    · exact claimed.symm
  · rw [stand_onStand_self hi, marked]
    split
    · rfl
    · rfl

/-- The stand becomes DUE. -/
def State.standDue (s : State) (i : Nat) : State := s.onStand i fun st => { st with splice := .due }

/-- An examination leaves the stand alone, sets it RUNNING, sends a splice of its spare, or makes it DUE with or without a
notice. -/
theorem examine_cases (s : State) (i : Nat) : s.examine i = s ∨ s.examine i = s.onStand i (fun st => { st with splice := .running })
    ∨ (∃ c r x, (s.stand i).spare = some x ∧ s.examine i = s.sendSplice i c r x)
    ∨ s.examine i = s.standDue i ∨ ∃ n, s.examine i = (s.standDue i).notify n := by
  unfold State.examine
  dsimp only
  split
  · exact .inl rfl
  · split
    · split
      · exact .inr (.inl rfl)
      · split
        · exact .inr (.inr (.inl ⟨_, _, _, by assumption, rfl⟩))
        · split
          · exact .inr (.inr (.inr (.inr ⟨_, rfl⟩)))
          · exact .inr (.inr (.inr (.inl rfl)))
    · exact .inl rfl

/-- A record but for its splice state and a splice's reason and timer. -/
def Stand.besides (st : Stand) : Stand := { st with splice := .running, reason := none, timer := 0 }

theorem notify_spl (s : State) (n : Notice) : (s.notify n).spl = s.spl := by simp [State.notify]

theorem standDue_stand {s : State} {i : Nat} (hi : i < 7) : (s.standDue i).stand i = { s.stand i with splice := .due } :=
  stand_onStand_self hi _

/-- An examination changes nothing else of the record that it judges. -/
theorem examine_besides {s : State} {i : Nat} (hi : i < 7) : ((s.examine i).stand i).besides = (s.stand i).besides := by
  rcases examine_cases s i with e | e | ⟨c, r, x, -, e⟩ | e | ⟨n, e⟩
  · rw [e]
  · rw [e, stand_onStand_self hi]
    rfl
  · rw [e, State.sendSplice, stand_onStand_self hi, stand_congr (s := s) (by simp)]
    rfl
  · rw [e, standDue_stand hi]
    rfl
  · rw [e, stand_congr (notify_spl _ n), standDue_stand hi]
    rfl

/-- With no spare no splice is sent: a stand that runs, runs or is DUE afterwards. -/
theorem examine_spareless {s : State} {i : Nat} (hi : i < 7) (splice : (s.stand i).splice = .running)
    (spare : (s.stand i).spare = none) :
    ∃ x, (x = .running ∨ x = .due) ∧ (s.examine i).stand i = { s.stand i with splice := x } := by
  have due := standDue_stand (s := s) hi
  rcases examine_cases s i with e | e | ⟨c, r, x, some, -⟩ | e | ⟨n, e⟩
  · exact ⟨.running, .inl rfl, by rw [e, ← splice]⟩
  · exact ⟨.running, .inl rfl, by rw [e, stand_onStand_self hi]⟩
  · rw [spare] at some
    cases some
  · exact ⟨.due, .inr rfl, by rw [e, due]⟩
  · exact ⟨.due, .inr rfl, by rw [e, stand_congr (notify_spl _ n), due]⟩

/-! #### The reasons of the stand (R97, R102) -/

theorem addReasons_holds (x : Reason) (i : Nat) (r : List Raised) (l : List Raised) :
    holdsIn x i (r.foldl (fun l y => addReason y l) l) = (holdsIn x i l || r.any fun y => y.reason == x && y.inst == i) := by
  induction r generalizing l with
  | nil => simp
  | cons y r ih => rw [List.foldl_cons, ih, holdsIn_add, List.any_cons, Bool.or_assoc]

theorem dropReasons_holds (x : Reason) (i : Nat) (d : List (Reason × Nat)) (l : List Raised) :
    holdsIn x i (d.foldl (fun l y => dropReason y.1 y.2 l) l)
      = (holdsIn x i l && !d.any fun y => y.1 == x && y.2 == i) := by
  induction d generalizing l with
  | nil => simp
  | cons y d ih => rw [List.foldl_cons, ih, holdsIn_drop, List.any_cons, Bool.not_or, Bool.and_assoc]

/-- What an alteration leaves of an instance: it is raised, or it stood and is not dropped. -/
theorem alter_holds (s : State) (d : List (Reason × Nat)) (r : List Raised) (x : Reason) (i : Nat) :
    (s.alter d r).holds x i = (s.holds x i && !(d.any fun y => y.1 == x && y.2 == i)
      || r.any fun y => y.reason == x && y.inst == i) := by
  rw [holds_eq, State.alter, setReasons_wtr, addReasons_holds, dropReasons_holds, holds_eq]

/-- GRADE_NOT_READY stands for a stand as its claim calls for it. -/
theorem syncReasons_grade (s : State) (i : Nat) : (s.syncReasons [i]).holds .gradeNotReady (i + 1) = (s.stand i).claim := by
  unfold State.syncReasons
  rw [alter_holds]
  cases claim : (s.stand i).claim <;>
    cases due : ((s.stand i).splice == .due
      && decide (bandCode (((s.stand i).cfg.map fun c => c.band).getD .high) < bandCode s.wtr.band)) <;>
    simp [State.standReasons, claim, due]

theorem syncReasons_spl (s : State) (l : List Nat) : (s.syncReasons l).spl = s.spl := by
  obtain ⟨w, k, z, h, e⟩ := syncReasons_only s l
  rw [e]

end Sys2Proof.Machine
end

section
namespace Sys2Proof.Machine

variable {P : State → Prop}

/-! ### What the Changeover Unit does (R74 to R84) -/

/-- The tracked states and the held presets of the stations. -/
def Chg.stations (c : Chg) : SlitterState × SlitterState × Option Preset × Option Preset := (c.stateA, c.stateB, c.heldA, c.heldB)

theorem setCause_stations (c : Chg) (st : Slitter) (x : SlitCause) : (c.setCause st x).stations = c.stations := by
  cases st <;> rfl

/-- P is also kept by changes of the Changeover Unit's state beside the stations'. -/
structure Slits (P : State → Prop) : Prop extends Acts P where
  chg : ∀ {s : State} (f : Chg → Chg), P s → (hf : ∀ c, (f c).stations = c.stations := by exact fun _ => rfl) → P (s.onChg f)

namespace Slits

theorem openSlit (K : Slits P) {s : State} (st : Slitter) (x : Int) (h : P s) : P (s.openSlit st x) :=
  ite_keeps (fun _ => h) fun _ => K.toMarked.insertDefect _ h

theorem closeSlit (K : Slits P) {s : State} (st : Slitter) (h : P s) : P (s.closeSlit st) :=
  ite_keeps (fun _ => h) fun _ => K.map _ h

theorem endCause (K : Slits P) {s : State} (st : Slitter) (h : P s) : P (s.endCause st) :=
  ite_keeps (fun _ => h) fun _ => K.closeSlit _ (K.chg _ h fun _ => setCause_stations ..)

theorem openZone (K : Slits P) {s : State} (r : ChangeRec) (h : P s) : P (s.openZone r) :=
  ite_keeps (fun _ => h) fun _ => K.alter _ _ (K.chg _ (K.openSlit _ _ h))

theorem settleZone (K : Slits P) {s : State} (h : P s) : P s.settleZone := by
  unfold State.settleZone
  split
  · exact h
  · exact ite_keeps (fun _ => h) fun _ => K.alter _ _ (K.closeSlit _ (K.chg _ h))

theorem sendPreset (K : Slits P) {s : State} (st : Slitter) (p : Preset) (h : P s) : P (s.sendPreset st p) :=
  K.chg _ (K.routine _ h)

theorem forecastFor (K : Slits P) {s : State} (c : Option Nat) (h : P s) : P (s.forecastFor c) := by
  unfold State.forecastFor
  dsimp only
  refine ite_keeps (fun _ => K.chg _ h) fun _ => ?_
  split
  · exact K.chg _ h
  · exact ite_keeps (fun _ => K.chg _ h) fun _ => ite_keeps (fun _ => h) fun _ => K.chg _ (K.sendPreset _ _ h)

theorem presetHead (K : Slits P) {s : State} (h : P s) : P s.presetHead := by
  unfold State.presetHead
  split
  · exact h
  · exact ite_keeps (fun _ => h) fun _ => K.chg _ (K.sendPreset _ _ h)

theorem trySwap (K : Slits P) {s : State} (h : P s) : P s.trySwap := by
  have sent (r : ChangeRec) (rest : List ChangeRec) (st : Slitter) : P (s.sendSwap r st rest) := K.chg _ (K.urgent _ h)
  unfold State.trySwap
  split
  · exact h
  · split
    · exact ite_keeps (fun _ => ite_keeps (fun _ => K.openZone _ (sent ..)) fun _ => sent ..) fun _ => K.openZone _ (K.chg _ h)
    · exact K.openZone _ (K.chg _ h)

theorem examineCrossed (K : Slits P) {s : State} (h : P s) : P s.examineCrossed := by
  unfold State.examineCrossed
  split
  · exact h
  · exact ite_keeps (fun _ => K.trySwap h) fun _ => h

theorem swapExpired (K : Slits P) {s : State} (h : P s) : P s.swapExpired := by
  unfold State.swapExpired
  split
  · exact h
  · exact ite_keeps (fun _ => K.openZone _ (K.chg _ (K.hand _ _ h))) fun _ => h

theorem swapDue (K : Slits P) {s : State} (h : P s) : P s.swapDue := ite_keeps (fun _ => K.swapExpired h) fun _ => h

/-! #### The slitters' event (R76 to R84) -/

theorem engage (K : Slits P) {s : State} (st : Slitter) (h : P s) : P (s.engage st) :=
  ite_keeps (fun _ => K.endCause _ (K.chg _ h)) fun _ => K.chg _ h

theorem endUntilSwap (K : Slits P) {s : State} (st : Slitter) (h : P s) : P (s.endUntilSwap st) :=
  ite_keeps (fun _ => K.endCause _ h) fun _ => h

theorem confirmSwap (K : Slits P) {s : State} (r : ChangeRec) (st : Slitter) (rest : List ChangeRec) (h : P s) :
    P (s.confirmSwap r st rest) := by
  have settled := K.settleZone (K.examineCrossed (K.presetHead (K.endUntilSwap .b (K.endUntilSwap .a
    (K.log (.swap r.boundary st r.preset.id) (K.chg (fun c => { c with records := rest })
      (K.engage st (K.chg (fun c => { c with timer := 0 }) h))))))))
  exact ite_keeps (fun _ => K.forecastFor _ settled) fun _ => settled

theorem takeConfirmation (K : Slits P) {s : State} (old : Chg) (h : P s) : P (s.takeConfirmation old) := by
  unfold State.takeConfirmation
  split
  · exact K.confirmSwap _ _ _ h
  · exact h

theorem represet (K : Slits P) {s : State} (st : Slitter) (x : Option SlitterState) (h : P s) : P (s.represet st x) := by
  unfold State.represet
  split
  · exact h
  · exact ite_keeps (fun _ => K.sendPreset _ _ h) fun _ => h

theorem slitterLeft (K : Slits P) {s : State} (st : Slitter) (h : P s) : P (s.slitterLeft st) :=
  K.toActs.notify _ (ite_keeps (fun _ => K.chg _ (K.openSlit _ _ h) fun _ => setCause_stations ..) fun _ => h)

theorem slitterBack (K : Slits P) {s : State} (st : Slitter) (h : P s) : P (s.slitterBack st) := by
  refine ite_keeps (fun _ => ite_keeps (fun _ => K.endCause _ h) fun _ => h) fun _ => K.chg _ h fun c => ?_
  split
  · exact setCause_stations ..
  · rfl

theorem learnSetting (K : Slits P) {s : State} (st : Slitter) (h : P s) : P (s.learnSetting st) := by
  unfold State.learnSetting
  split
  · refine K.chg _ (K.openSlit _ _ h) fun c => ?_
    split
    · rfl
    · exact setCause_stations ..
  · exact ite_keeps (fun _ => K.chg _ h) fun _ => h

theorem retarget (K : Slits P) {s : State} (st : Slitter) (h : P s) : P (s.retarget st) := by
  unfold State.retarget
  split
  · exact h
  · exact ite_keeps (fun _ => K.examineCrossed (K.presetHead (K.chg _ h))) fun _ => h

theorem stationEvent (K : Slits P) {s : State} (old : Chg) (c : Option Slitter) (st : Slitter) (h : P s) :
    P (s.stationEvent old c st) := by
  unfold State.stationEvent
  dsimp only
  refine ite_keeps (fun _ => h) fun _ => ite_keeps (fun _ => ?_) fun _ => ite_keeps (fun _ => ?_) fun _ => h
  · split
    · exact ite_keeps (fun _ => K.slitterBack _ h) fun _ => h
    · exact K.slitterLeft _ h
    · exact ite_keeps (fun _ => h) fun _ => K.slitterLeft _ h
  · exact K.retarget _ (K.learnSetting _ (K.toActs.notify _ (K.engage _ h)))

theorem reforecast (K : Slits P) {s : State} (old : Chg) (h : P s) : P (s.reforecast old) :=
  ite_keeps (fun _ => h) fun _ => K.forecastFor _ h

theorem judgeConflict (K : Slits P) {s : State} (h : P s) : P s.judgeConflict := ite_keeps (fun _ => K.hand _ _ h) fun _ => h

end Slits

/-- What the Changeover Unit leaves alone. -/
theorem Slits.aside (s : State) : Slits fun t => s.OthersStand t ∧ t.spl = s.spl where
  toActs := (Acts.others s).and (Acts.stands s.spl)
  chg _ h _ := h

theorem State.OthersStand.refl (s : State) : s.OthersStand s := ⟨rfl, rfl, rfl, rfl, rfl, rfl⟩

end Sys2Proof.Machine
end

section
namespace Sys2Proof.Machine

variable {P : State → Prop}

/-! ### A splice that fails (R98, R101) -/

/-- A stand whose splice has failed. -/
def Stand.failed (timedOut : Bool) (st : Stand) : Stand :=
  { st with splice := .fault, timer := 0, manual := false, spareCleared := false, timedOut := timedOut }

theorem judgeRunout_spl (s : State) (i : Nat) : (s.judgeRunout i).spl = s.spl := by
  obtain ⟨h, e⟩ := judgeRunout_only s i
  rw [e]

theorem failSplice_spl (s : State) (i : Nat) (x : SpliceResult) (code : Option Nat) :
    (s.failSplice i x code).spl = (s.onStand i (Stand.failed (x == .timeout))).spl := by
  unfold State.failSplice
  dsimp only
  rw [judgeRunout_spl, notify_spl, State.log_spl]
  rfl

theorem judgeRunout_wmp_knp (s : State) (i : Nat) :
    (s.judgeRunout i).wmp = s.wmp ∧ (s.judgeRunout i).knp = s.knp := by
  obtain ⟨h, e⟩ := judgeRunout_only s i
  rw [e]
  exact ⟨rfl, rfl⟩

/-- A failed splice leaves the map and the plans alone. -/
theorem failSplice_wmp_knp (s : State) (i : Nat) (x : SpliceResult) (code : Option Nat) :
    (s.failSplice i x code).wmp = s.wmp ∧ (s.failSplice i x code).knp = s.knp := by
  unfold State.failSplice
  dsimp only
  rw [(judgeRunout_wmp_knp _ i).1, (judgeRunout_wmp_knp _ i).2]
  simp [State.notify, State.onStand]

theorem syncReasons_wmp_knp (s : State) (l : List Nat) : (s.syncReasons l).wmp = s.wmp ∧ (s.syncReasons l).knp = s.knp := by
  obtain ⟨w, k, z, h, e⟩ := syncReasons_only s l
  rw [e]
  exact ⟨rfl, rfl⟩

/-- SPLICE_TIMEOUT. -/
theorem spliceTimeout_fails (s : State) (k : Fin 7) (inv : s.Inv) :
    ((s.stand k).splice ≠ .splicing → exec (.spliceTimeout k) s = .next s)
    ∧ ((s.stand k).splice = .splicing →
        ∃ u : State, exec (.spliceTimeout k) s = .next u.takeFaults
          ∧ u.spl = (s.onStand k fun st =>
              { st with splice := .fault, timer := 0, manual := false, spareCleared := false, timedOut := true }).spl
          ∧ u.osq = s.osq ∧ u.chg = s.chg ∧ u.wmp = s.wmp ∧ u.hgr = s.hgr ∧ u.knp = s.knp ∧ u.stk = s.stk
          ∧ u.lsc = s.lsc ∧ u.takeFaults.configuration = s.configuration) := by
  have run : exec (.spliceTimeout k) s = .next (s.spliceExpired k).takeFaults := rfl
  refine ⟨fun still => ?_, fun splicing => ⟨s.spliceExpired k, run, ?_⟩⟩
  · rw [run, State.spliceExpired, if_neg still, takeFaults_nothing inv.handed]
  · have configuration : (s.spliceExpired k).takeFaults.configuration = s.configuration :=
      (Rings.configuration _).takeFaults ((Rings.configuration _).toRuns.spliceExpired k rfl)
    rw [State.spliceExpired, if_pos splicing] at configuration ⊢
    have K := Joins.aside k s
    obtain ⟨⟨osq, hgr, stk, lsc, -, -⟩, chg⟩ :=
      K.alter _ _ (K.failSplice .timeout none ⟨.refl s, rfl⟩)
    obtain ⟨wmp, knp⟩ := failSplice_wmp_knp s k .timeout none
    obtain ⟨wmp', knp'⟩ := syncReasons_wmp_knp (s.failSplice k .timeout none) [k.val]
    exact ⟨(syncReasons_spl _ _).trans (failSplice_spl ..), osq, chg, wmp'.trans wmp, hgr, knp'.trans knp, stk, lsc, configuration⟩

/-- SPLICE_FAULT. -/
theorem spliceFault_spl {s : State} {i : Nat} (code : Nat) (h : (s.stand i).cfg.isSome = true) :
    (s.spliceFault i code).spl = if (s.stand i).splice = .splicing then (s.onStand i (Stand.failed false)).spl else s.spl := by
  obtain ⟨c, hc⟩ := Option.isSome_iff_exists.1 h
  unfold State.spliceFault
  dsimp only
  rw [hc]
  dsimp only
  split
  · rw [syncReasons_spl, failSplice_spl]
    rfl
  · exact notify_spl ..

/-! ### The timers (R98, R174) -/

/-- The first event of a ring cycle counts the timers, and a later one lets them run out. -/
theorem cycleEvents_timers (o : EventOrder) (s : State) (t : Telegram) (n : Nat) :
    ∃ rest, cycleEvents o s t n = (fun u => u.tickTimers n) :: rest ∧ (fun u => u.timersDue) ∈ rest := by
  refine ⟨_, rfl, ?_⟩
  cases o.itemsBeforeAdvance <;> cases o.timersBeforeItems <;> simp

/-- One change of every stand of a list reaches each of them once. -/
theorem everyStand_stand {l : List Nat} (f : Stand → Stand) (once : l.Nodup) (s : State) (i : Nat) :
    (l.foldl (fun s j => s.onStand j f) s).stand i = if i ∈ l ∧ i < 7 then f (s.stand i) else s.stand i := by
  induction l generalizing s with
  | nil => simp
  | cons j l ih =>
    obtain ⟨fresh, once⟩ := List.nodup_cons.1 once
    rw [List.foldl_cons, ih once, stand_onStand]
    by_cases e : i = j
    · subst e
      simp [fresh]
    · simp [e]

theorem stand_outside {s : State} {i : Nat} (hi : ¬i < 7) : s.stand i = Stand.cleared none := by
  simp [State.stand, Vector.getElem?_eq_none (Nat.le_of_not_lt hi)]

theorem everyStand_once : everyStand.Nodup := List.nodup_range

theorem tickSplices_stand (s : State) (n i : Nat) :
    (s.tickSplices n).stand i = { s.stand i with timer := (s.stand i).timer - (n + 1) } := by
  rw [State.tickSplices, everyStand_stand _ everyStand_once]
  by_cases hi : i < 7
  · rw [if_pos ⟨List.mem_range.2 hi, hi⟩]
  · rw [if_neg fun h => hi h.2, stand_outside hi]
    simp only [Stand.cleared, Nat.zero_sub]

theorem tickTimers_stand (s : State) (n i : Nat) :
    (s.tickTimers n).stand i = { s.stand i with timer := (s.stand i).timer - (n + 1) } := by
  have spl : (s.tickTimers n).spl = (s.tickSplices n).spl := by rw [State.tickTimers_eq]
  rw [stand_congr spl, tickSplices_stand]

theorem failSplice_stand {s : State} {i : Nat} (hi : i < 7) (x : SpliceResult) (code : Option Nat) :
    (s.failSplice i x code).stand i = (s.stand i).failed (x == .timeout) := by
  rw [stand_congr (failSplice_spl s i x code), stand_onStand_self hi]

theorem spliceDue_other {s : State} {i j : Nat} (hj : j ≠ i) : (s.spliceDue j).stand i = s.stand i :=
  ite_keeps (P := fun t => t.stand i = s.stand i) (fun _ => (Joins.otherStand hj.symm _).failSplice _ _ rfl) fun _ => rfl

theorem spliceDue_stand {s : State} {i : Nat} (hi : i < 7) (splicing : (s.stand i).splice = .splicing)
    (out : (s.stand i).timer = 0) : (s.spliceDue i).stand i = (s.stand i).failed true := by
  rw [State.spliceDue, if_pos ⟨splicing, out⟩, failSplice_stand hi]
  rfl

theorem spliceDue_still {s : State} {i : Nat} (h : ¬((s.stand i).splice = .splicing ∧ (s.stand i).timer = 0)) :
    s.spliceDue i = s := if_neg h

/-- The swap timer is no stand's business. -/
theorem swapDue_spl (s : State) : s.swapDue.spl = s.spl := ((Slits.aside s).swapDue ⟨.refl s, rfl⟩).2

/-- The splice timers that have reached 0 fail their splices. -/
theorem timersDue_stand (s : State) (i : Nat) :
    ((s.stand i).splice = .splicing → (s.stand i).timer = 0 → s.timersDue.stand i = (s.stand i).failed true)
      ∧ ((s.stand i).splice ≠ .splicing ∨ (s.stand i).timer ≠ 0 → s.timersDue.stand i = s.stand i) := by
  have same : s.swapDue.stand i = s.stand i := stand_congr (swapDue_spl s) i
  have due : s.timersDue.spl = (everyStand.foldl (fun s i => s.spliceDue i) s.swapDue).spl := by
    rw [State.timersDue, State.splicesDue, syncReasons_spl]
  rw [stand_congr due, ← same]
  refine ⟨fun splicing out => ?_, fun h => ?_⟩
  · have hi : i < 7 := by
      by_contra hi
      rw [stand_outside hi] at splicing
      cases splicing
    have stays : ∀ (t : State) (j : Nat), t.stand i = (s.swapDue.stand i).failed true →
        (t.spliceDue j).stand i = (s.swapDue.stand i).failed true := by
      intro t j ht
      by_cases e : j = i
      · subst e
        have failed : (t.stand j).splice = .fault := by rw [ht]; rfl
        rw [spliceDue_still fun h => by rw [failed] at h; exact nomatch h.1]
        exact ht
      · rw [spliceDue_other e, ht]
    refine foldl_reaches (P := fun t => t.stand i = s.swapDue.stand i) (a := i) (fun t j hj ht => ?_) (fun t ht => ?_) stays
      (List.mem_range.2 hi) rfl
    · exact (spliceDue_other hj).trans ht
    · rw [spliceDue_stand hi (ht ▸ splicing) (ht ▸ out), ht]
  · have still : ¬((s.swapDue.stand i).splice = .splicing ∧ (s.swapDue.stand i).timer = 0) :=
      fun e => h.elim (fun h => h e.1) fun h => h e.2
    refine foldl_keeps (P := fun t => t.stand i = s.swapDue.stand i) (fun t j ht => ?_) _ rfl
    by_cases e : j = i
    · subst e
      rw [spliceDue_still (ht ▸ still), ht]
    · exact (spliceDue_other e).trans ht

end Sys2Proof.Machine
end

section
namespace Sys2Proof.Machine

variable {P : State → Prop}

/-! ### The marks of a splice and of a wrong paper (R27 to R29, R100 to R103) -/

/-- A mark that no insertion and no close touches: structural and without claims, or a closed defect mark while the area has
room. -/
theorem insertDefect_structural {s : State} {m x : Mark} (hm : m.kind.isStructural = true) (h : m ∈ s.wmp.marks) :
    m ∈ (s.insertDefect x).1.wmp.marks := by
  rcases insertDefect_marks s x with ⟨-, e⟩ | e | ⟨-, i, old, hi, ho, e⟩
  · rwa [e]
  · rw [e]
    exact (place_perm _ _).mem_iff.2 (List.mem_cons_of_mem _ h)
  · rw [e]
    rcases List.mem_cons.1 ((putBack_perm (new := mergeMarks old { x with seq := s.wmp.nextSeq }) hi).mem_iff.2
      (List.mem_cons_of_mem _ h)) with rfl | h
    · rw [hm] at ho
      cases ho
    · exact h

theorem closeClaim_closed {s : State} {m : Mark} (k : ClaimKind) (o : Nat) (x : Int) (hm : m.claims = [])
    (h : m ∈ s.wmp.marks) : m ∈ (s.closeClaim k o x).wmp.marks := by
  rw [closeClaim_wmp]
  exact List.mem_filterMap.2 ⟨m, h, close_untouched (by rw [hm]; rfl)⟩

/-- A claim closed stands on no mark. -/
theorem closeClaim_gone (s : State) (k : ClaimKind) (o : Nat) (x : Int) :
    ∀ m ∈ (s.closeClaim k o x).wmp.marks, m.holdsClaim k o = false := by
  rw [closeClaim_wmp]
  intro m hm
  obtain ⟨y, -, closed⟩ := List.mem_filterMap.1 hm
  unfold Mark.close at closed
  unfold Mark.holdsClaim
  split at closed
  · split at closed
    · cases closed
    · obtain rfl := Option.some.inj closed
      exact List.any_eq_false.2 fun c hc => by simpa [imp_iff_not_or] using (List.mem_filter.1 hc).2
  · obtain rfl := Option.some.inj closed
    simp_all

/-! #### The SPLICE mark (R27, R100) -/

/-- The SPLICE mark as it is placed. -/
def State.spliceMark (s : State) (k : Nat) (r : SpliceReason) (paper : Option Nat) (start length : Int) : Mark :=
  { closedMark .splice .spl (.splice k r paper) start length with seq := s.wmp.nextSeq }

/-- A stand's mark widened to a joint. -/
def Mark.widened (m : Mark) (start stop : Int) : Mark := { m with start := min m.start start, closedEnd := max m.closedEnd stop }

/-- Where a search over a list with its places stops. -/
theorem find_zipIdx_split {α : Type} {l : List α} {p : α → Bool} {x : α} {i : Nat}
    (h : l.zipIdx.find? (fun y => p y.1) = some (x, i)) :
    ∃ a b, l = a ++ x :: b ∧ (∀ y ∈ a, p y = false) ∧ p x = true ∧ i = a.length := by
  obtain ⟨holds, a, b, split, before⟩ := List.find?_eq_some_iff_append.1 h
  have values := congrArg (List.map Prod.fst) split
  rw [List.zipIdx_map_fst, List.map_append, List.map_cons] at values
  have place : l.zipIdx[a.length]? = some (x, i) := by rw [split]; simp
  have index : i = a.length := by
    rw [List.getElem?_zipIdx, Option.map_eq_some_iff] at place
    obtain ⟨y, -, e⟩ := place
    have := congrArg Prod.snd e
    simpa using this.symm
  refine ⟨a.map Prod.fst, b.map Prod.fst, values, fun y hy => ?_, holds, by simpa using index⟩
  obtain ⟨z, hz, rfl⟩ := List.mem_map.1 hy
  simpa using before z hz

/-- The map with the splice on it: a mark of its own, or the stand's mark widened to it. -/
theorem insertSplice_map (s : State) (k : Nat) (r : SpliceReason) (paper : Option Nat) (start length : Int) :
    (s.jointOnMap k = false
      ∧ (s.insertSplice k r paper start length).wmp.marks = place (s.spliceMark k r paper start length) s.wmp.marks)
    ∨ ∃ a m b, s.wmp.marks = a ++ m :: b ∧ (∀ x ∈ a, x.isJointOf k = false) ∧ m.isJointOf k = true
      ∧ (s.insertSplice k r paper start length).wmp.marks
        = putBack s.wmp.marks a.length m (m.widened start (start + length)) := by
  unfold State.insertSplice
  dsimp only
  rw [show s.bumpSeq.wmp.marks = s.wmp.marks from rfl]
  cases found : s.wmp.marks.zipIdx.find? fun x => x.1.isJointOf k with
  | none =>
    refine .inl ⟨List.any_eq_false.2 fun x hx => ?_, ?_⟩
    · obtain ⟨i, hi, rfl⟩ := List.getElem_of_mem hx
      exact List.find?_eq_none.1 found (s.wmp.marks[i], i) (List.mem_zipIdx_iff_getElem?.2 (by simp [hi]))
    · rw [placeMark_wmp]
      rfl
  | some y =>
    obtain ⟨m, i⟩ := y
    obtain ⟨a, b, split, before, joint⟩ := find_zipIdx_split found
    obtain rfl := joint.2
    refine .inr ⟨a, m, b, split, fun x hx => by simpa using before x hx, joint.1, ?_⟩
    rw [absorb_wmp]
    rfl

theorem structural_of_joint {m : Mark} {k : Nat} (h : m.isJointOf k = true) : m.kind = .splice := by
  unfold Mark.isJointOf at h
  split at h
  · simp_all
  · cases h

/-- A place before which no joint of a stand stands is the first of its joints. -/
theorem first_joint {a b a' b' : List Mark} {m m' : Mark} {k : Nat} (e : a ++ m :: b = a' ++ m' :: b')
    (ha : ∀ x ∈ a, x.isJointOf k = false) (hm : m.isJointOf k = true) (ha' : ∀ x ∈ a', x.isJointOf k = false)
    (hm' : m'.isJointOf k = true) : m = m' := by
  have first (a b : List Mark) (m : Mark) (ha : ∀ x ∈ a, x.isJointOf k = false) (hm : m.isJointOf k = true) :
      (a ++ m :: b).find? (Mark.isJointOf k) = some m := by
    rw [List.find?_append, List.find?_eq_none.2 (fun x hx => by simp [ha x hx]), Option.none_or, List.find?_cons_of_pos hm]
  have found := first a b m ha hm
  rw [e, first a' b' m' ha' hm'] at found
  exact (Option.some.inj found).symm

/-- A splice's joint is on the map: on a mark of its own, or on the stand's mark. -/
theorem insertSplice_joint (s : State) (k : Nat) (r : SpliceReason) (paper : Option Nat) (start length : Int) :
    (s.jointOnMap k = false →
        s.spliceMark k r paper start length ∈ (s.insertSplice k r paper start length).wmp.marks)
      ∧ ∀ a m b, s.wmp.marks = a ++ m :: b → (∀ x ∈ a, x.isJointOf k = false) → m.isJointOf k = true →
          m.widened start (start + length) ∈ (s.insertSplice k r paper start length).wmp.marks := by
  rcases insertSplice_map s k r paper start length with ⟨fresh, e⟩ | ⟨a, m, b, split, before, joint, e⟩
  · refine ⟨fun _ => by rw [e]; exact (place_perm _ _).mem_iff.2 List.mem_cons_self, fun a m b split before joint => ?_⟩
    have none := List.any_eq_false.1 fresh m (by simp [split])
    exact absurd joint none
  · refine ⟨fun fresh => ?_, fun a' m' b' split' before' joint' => ?_⟩
    · have none := List.any_eq_false.1 fresh m (by simp [split])
      exact absurd joint none
    · obtain rfl := first_joint (split.symm.trans split') before joint before' joint'
      rw [e]
      exact mem_putBack (by simp [split])

/-- Besides the splice's mark the map holds what it held. -/
theorem insertSplice_perm (s : State) (k : Nat) (r : SpliceReason) (paper : Option Nat) (start length : Int) :
    ∃ new : Mark, new.kind = .splice
      ∧ ((s.insertSplice k r paper start length).wmp.marks.Perm (new :: s.wmp.marks) ∧ new.claims = []
        ∨ ∃ old ∈ s.wmp.marks, old.kind = .splice ∧ new.claims = old.claims
          ∧ (old :: (s.insertSplice k r paper start length).wmp.marks).Perm (new :: s.wmp.marks)) := by
  rcases insertSplice_map s k r paper start length with ⟨-, e⟩ | ⟨a, m, b, split, -, joint, e⟩
  · exact ⟨s.spliceMark k r paper start length, rfl, .inl ⟨e ▸ place_perm _ _, rfl⟩⟩
  · have splice := structural_of_joint joint
    refine ⟨m.widened start (start + length), splice, .inr ⟨m, by simp [split], splice, rfl, ?_⟩⟩
    rw [e]
    exact putBack_perm (by simp [split])

theorem insertSplice_defectCount (s : State) (k : Nat) (r : SpliceReason) (paper : Option Nat) (start length : Int) :
    defectCount (s.insertSplice k r paper start length).wmp.marks = defectCount s.wmp.marks := by
  obtain ⟨new, splice, ⟨perm, -⟩ | ⟨old, -, splice', -, perm⟩⟩ := insertSplice_perm s k r paper start length
  · rw [defectCount, perm.countP_eq, List.countP_cons, splice]
    rfl
  · have counts := perm.countP_eq fun m => !m.kind.isStructural
    rw [List.countP_cons, List.countP_cons, splice, splice'] at counts
    exact counts

theorem insertSplice_unclaimed {s : State} {k : Nat} (r : SpliceReason) (paper : Option Nat) (start length : Int)
    {c : ClaimKind} {o : Nat} (h : ∀ m ∈ s.wmp.marks, m.holdsClaim c o = false) :
    ∀ m ∈ (s.insertSplice k r paper start length).wmp.marks, m.holdsClaim c o = false := by
  intro m hm
  obtain ⟨new, -, ⟨perm, closed⟩ | ⟨old, held, -, claims, perm⟩⟩ := insertSplice_perm s k r paper start length
  · rcases List.mem_cons.1 (perm.mem_iff.1 hm) with rfl | hm
    · rw [Mark.holdsClaim, closed]
      rfl
    · exact h m hm
  · rcases List.mem_cons.1 (perm.mem_iff.1 (List.mem_cons_of_mem _ hm)) with rfl | hm
    · rw [Mark.holdsClaim, claims]
      exact h old held
    · exact h m hm

theorem find_place {p : Mark → Bool} {m : Mark} (hm : p m = false) (l : List Mark) : (place m l).find? p = l.find? p := by
  induction l with
  | nil => simp [place, hm]
  | cons x l ih =>
    unfold place
    split
    · rw [List.find?_cons, List.find?_cons, ih]
    · rw [List.find?_cons, hm]

theorem find_putBack {p : Mark → Bool} {old new : Mark} (a b : List Mark) (ho : p old = false) (hn : p new = false) :
    (putBack (a ++ old :: b) a.length old new).find? p = (a ++ old :: b).find? p := by
  have gone : (a ++ old :: b).find? p = (a ++ b).find? p := by
    rw [List.find?_append, List.find?_cons, ho, List.find?_append]
  unfold putBack
  split
  · rw [find_place hn, gone, List.eraseIdx_append_of_length_le (Nat.le_refl _), Nat.sub_self, List.eraseIdx_cons_zero]
  · rw [List.set_append_right _ _ (Nat.le_refl _), Nat.sub_self, List.set_cons_zero, gone, List.find?_append, List.find?_cons,
      hn, List.find?_append]

/-- A splice moves no boundary. -/
theorem insertSplice_findBoundary (s : State) (k : Nat) (r : SpliceReason) (paper : Option Nat) (start length : Int) (n : Nat) :
    (s.insertSplice k r paper start length).findBoundary n = s.findBoundary n := by
  unfold State.findBoundary
  rcases insertSplice_map s k r paper start length with ⟨-, e⟩ | ⟨a, m, b, split, -, joint, e⟩
  · rw [e]
    exact find_place rfl _
  · have splice := structural_of_joint joint
    rw [e, split]
    exact find_putBack a b (by simp [splice]) (by simp [Mark.widened, splice])

/-! #### The board before an early splice's boundary (R103) -/

/-- The mark of the board between an early splice and its boundary. -/
def earlyMark (i : Nat) (jointEnd start : Int) : Mark :=
  closedMark .wrongPaper .spl (.wrongPaper (i + 1)) jointEnd (start - jointEnd)

theorem earlySplice_cases (s : State) (i : Nat) (r : SpliceReason) (d : Option Demand) (paper : Option Nat) (x : Int) :
    s.earlySplice i r d paper x = s ∨ ∃ y, s.earlySplice i r d paper x = (s.insertDefect (earlyMark i x y)).1 := by
  unfold State.earlySplice
  split
  · exact .inl rfl
  · split
    · dsimp only
      split
      · exact .inr ⟨_, rfl⟩
      · exact .inl rfl
    · exact .inl rfl

theorem earlySplice_marked {s : State} {i : Nat} {d : Demand} {n : Nat} {m : Mark} {outgoing : Nat}
    {incoming : Option Nat} {flying : Bool} {preset : Nat} {paper : Option Nat} {x : Int} (hd : d.boundary = some n)
    (hm : s.findBoundary n = some m) (hp : m.payload = .boundary outgoing incoming flying preset) (early : x < m.start)
    (needs : s.paperFor ((s.osq.segments.find? fun g => g.num == outgoing).bind fun g => g.order) i ≠ 0)
    (other : paper ≠ some (s.paperFor ((s.osq.segments.find? fun g => g.num == outgoing).bind fun g => g.order) i)) :
    s.earlySplice i .grade (some d) paper x = (s.insertDefect (earlyMark i x m.start)).1 := by
  unfold State.earlySplice
  rw [Option.bind_some, hd, Option.bind_some, hm]
  dsimp only
  rw [hp]
  dsimp only
  rw [if_pos ⟨rfl, early, needs, other⟩]
  rfl

theorem insertDefect_defectCount {s : State} (m : Mark) (room : defectCount s.wmp.marks < 32) :
    defectCount (s.insertDefect m).1.wmp.marks ≤ defectCount s.wmp.marks + 1 := by
  rcases insertDefect_marks s m with ⟨-, e⟩ | e | ⟨full, -⟩
  · rw [e]
    exact Nat.le_succ _
  · rw [e, place_defectCount]
    split <;> omega
  · omega

/-! #### The wrong-paper claim (R102) -/

/-- The claim of a stand whose paper is wrong opens on a mark of its own while the area has room. -/
theorem paperMarked_opens {s : State} {i : Nat} {c : StandCfg} (a b : Int) (hc : (s.stand i).cfg = some c)
    (wrong : (s.stand i).wrongPaper = true) (shut : (s.stand i).claim = false) (room : defectCount s.wmp.marks < 32)
    (unclaimed : ∀ m ∈ s.wmp.marks, m.holdsClaim .wrongPaper (i + 1) = false) :
    ∃ m ∈ (s.paperMarked i a b).wmp.marks, m.kind = .wrongPaper ∧ m.seq = s.wmp.nextSeq ∧ m.start = a
      ∧ m.claims = [{ kind := .wrongPaper, owner := i + 1, pinned := c.dist }] := by
  have fresh : s.holdsNew (s.paperMark i a) = false := holdsNew_false fun x hx y hy => by
    obtain rfl := List.mem_singleton.1 hx
    exact unclaimed y hy
  have pinned : ((s.stand i).cfg.map fun c => (c.dist : Int)).getD 0 = c.dist := by rw [hc]; rfl
  rw [State.paperMarked, wrong, shut]
  refine ⟨{ s.paperMark i a with seq := s.wmp.nextSeq }, ?_, rfl, rfl, rfl, ?_⟩
  · exact (insertDefect_placed s _ fresh room).symm ▸ (place_perm _ _).mem_iff.2 List.mem_cons_self
  · rw [← pinned]
    rfl

/-- A claim whose paper is right ends. -/
theorem paperMarked_closes {s : State} {i : Nat} (a b : Int) (right : (s.stand i).wrongPaper = false)
    (claimed : (s.stand i).claim = true) : ∀ m ∈ (s.paperMarked i a b).wmp.marks, m.holdsClaim .wrongPaper (i + 1) = false := by
  rw [State.paperMarked, right, claimed]
  exact closeClaim_gone s .wrongPaper (i + 1) b

/-- A structural mark without claims stands. -/
theorem paperMarked_structural {s : State} (i : Nat) (a b : Int) {m : Mark} (hm : m.kind.isStructural = true)
    (claims : m.claims = []) (h : m ∈ s.wmp.marks) : m ∈ (s.paperMarked i a b).wmp.marks :=
  ite_keeps (P := fun t => m ∈ t.wmp.marks) (fun _ => insertDefect_structural hm h) fun _ =>
    ite_keeps (P := fun t => m ∈ t.wmp.marks) (fun _ => closeClaim_closed _ _ _ claims h) fun _ => h

/-- So does a defect mark without claims, while a claim that opens finds room. -/
theorem paperMarked_keeps {s : State} {i : Nat} (a b : Int) {m : Mark} (claims : m.claims = []) (h : m ∈ s.wmp.marks)
    (room : (s.stand i).wrongPaper = true → (s.stand i).claim = false → defectCount s.wmp.marks < 32) :
    m ∈ (s.paperMarked i a b).wmp.marks := by
  refine ite_keeps (P := fun t => m ∈ t.wmp.marks) (fun opens => ?_) fun _ =>
    ite_keeps (P := fun t => m ∈ t.wmp.marks) (fun _ => closeClaim_closed _ _ _ claims h) fun _ => h
  obtain ⟨wrong, shut⟩ : (s.stand i).wrongPaper = true ∧ (s.stand i).claim = false := by simpa using opens
  rcases insertDefect_marks s (s.paperMark i a) with ⟨-, e⟩ | e | ⟨full, -⟩
  · rwa [e]
  · rw [e]
    exact (place_perm _ _).mem_iff.2 (List.mem_cons_of_mem _ h)
  · exact absurd (room wrong shut) (Nat.not_lt.2 full)

theorem Stand.wrongPaper_iff (st : Stand) : st.wrongPaper = true ↔ st.need ≠ 0 ∧ st.paper ≠ some st.need := by
  simp [Stand.wrongPaper]

/-! ### The splice point (R94, R102) -/

/-- What a BOUNDARY that crosses the splice point leaves. -/
theorem crossSplicePoint_leaves {s : State} {i : Nat} {c : StandCfg} (order : Nat) (start : Int) (hi : i < 7)
    (hc : (s.stand i).cfg = some c) :
    let need := s.paperFor (some order) i
    let wrong : Prop := need ≠ 0 ∧ (s.stand i).paper ≠ some need
    let t := s.crossSplicePoint i (some order) start
    (t.stand i).need = need ∧ ((t.stand i).claim = true ↔ wrong) ∧ (t.holds .gradeNotReady (i + 1) = true ↔ wrong)
      ∧ (wrong → (s.stand i).claim = false → defectCount s.wmp.marks < 32 →
          (∀ m ∈ s.wmp.marks, m.holdsClaim .wrongPaper (i + 1) = false) →
          ∃ m ∈ t.wmp.marks, m.kind = .wrongPaper ∧ m.seq = s.wmp.nextSeq ∧ m.start = start
            ∧ m.claims = [{ kind := .wrongPaper, owner := i + 1, pinned := c.dist }])
      ∧ (¬wrong → (s.stand i).claim = true → ∀ m ∈ t.wmp.marks, m.holdsClaim .wrongPaper (i + 1) = false) := by
  intro need wrong t
  let v := s.onStand i fun st => { st with need := need }
  have crossed : t = (((v.judgePaper i start start).examine i).syncReasons [i]) := rfl
  have record : v.stand i = { s.stand i with need := need } := stand_onStand_self hi _
  have wrong_iff : (v.stand i).wrongPaper = true ↔ wrong := by rw [Stand.wrongPaper_iff, record]; rfl
  have judged := judgePaper_stand (s := v) hi start start
  have besides : (t.stand i).besides = (v.stand i).judged.besides := by
    rw [crossed, stand_congr (syncReasons_spl _ _), examine_besides hi, judged]
  have wmp : t.wmp = (v.paperMarked i start start).wmp := by
    rw [crossed, (syncReasons_wmp_knp _ _).1, ← judgePaper_wmp]
    exact ((Examines.records i _ _).examine ⟨rfl, rfl⟩).1
  have claim : (t.stand i).claim = (v.stand i).wrongPaper := congrArg Stand.claim besides
  have grade : t.holds .gradeNotReady (i + 1) = (t.stand i).claim := by
    rw [crossed, syncReasons_grade, stand_congr (syncReasons_spl _ _)]
  refine ⟨(congrArg Stand.need besides).trans (congrArg Stand.need record), by rw [claim, wrong_iff],
    by rw [grade, claim, wrong_iff], fun h shut room unclaimed => ?_, fun h claimed => ?_⟩
  · rw [wmp]
    exact paperMarked_opens (s := v) start start (by rw [record]; exact hc) (wrong_iff.2 h) (by rw [record]; exact shut) room
      unclaimed
  · rw [wmp]
    exact paperMarked_closes (s := v) start start (by simpa using fun e => h (wrong_iff.1 e)) (by rw [record]; exact claimed)

end Sys2Proof.Machine
end

section
namespace Sys2Proof.Machine

variable {P : State → Prop}

/-! ### A splice that is done (R99 to R103) -/

/-- Where the joint stands, for the counts fed since the splice. -/
def State.jointAt (s : State) (c : StandCfg) (counts : Nat) : Int :=
  (c.dist : Int) - ((counts * s.line.nums.feedScale / 65536 : Nat) : Int)

/-- The paper that the spare of a stand gives. -/
def Stand.sparePaper (st : Stand) : Option Nat := st.spare.map fun x => x.reel.paper

/-- The state in which the paper of a completed splice is judged: its mark placed, the stand on its spare, and the board of an
early splice marked. -/
def State.joined (s : State) (i : Nat) (c : StandCfg) (r : SpliceReason) (counts : Nat) : State :=
  ((s.insertSplice (i + 1) r (s.stand i).sparePaper (s.jointAt c counts) c.joint).onStand i (Stand.spliced r)).earlySplice i r
    (s.stand i).demand (s.stand i).sparePaper (s.jointAt c counts + c.joint)

/-- The state in which the SPLICE record is logged. -/
def State.paperJudged (s : State) (i : Nat) (c : StandCfg) (r : SpliceReason) (counts : Nat) : State :=
  (s.joined i c r counts).judgePaper i (s.jointAt c counts + c.joint) (s.jointAt c counts)

theorem completeSplice_eq (s : State) (i : Nat) (c : StandCfg) (r : SpliceReason) (counts : Nat) (planned : Bool) :
    s.completeSplice i c r counts planned =
      (((((s.paperJudged i c r counts).log (.splice (i + 1) (some r) .done)).noticeSplice i r (s.stand i).sparePaper
        (s.jointAt c counts) planned).examine i).judgeRunout i).syncReasons [i] := rfl

/-- The reason under which a SPLICE_DONE is taken (R99, R100). -/
def Stand.doneReason (st : Stand) : SpliceReason :=
  if st.splice = .splicing ∨ st.splice = .fault ∧ st.timedOut = true then st.reason.getD .manual else .manual

theorem spliceDone_eq {s : State} {i : Nat} {c : StandCfg} (counts : Nat) (hc : (s.stand i).cfg = some c) :
    ∃ planned, s.spliceDone i counts = s.completeSplice i c (s.stand i).doneReason counts planned := by
  unfold State.spliceDone Stand.doneReason
  dsimp only
  rw [hc]
  dsimp only
  cases h : (s.stand i).splice
  · exact ⟨false, by simp⟩
  · exact ⟨false, by simp⟩
  · exact ⟨true, by simp⟩
  · exact ⟨false, by cases (s.stand i).timedOut <;> simp⟩

/-! #### The record of the stand -/

theorem joined_stand {s : State} {i : Nat} (hi : i < 7) (c : StandCfg) (r : SpliceReason) (counts : Nat) :
    (s.joined i c r counts).stand i = (s.stand i).spliced r := by
  have early : ∀ t : State, ∀ d p x, (t.earlySplice i r d p x).spl = t.spl := by
    intro t d p x
    rcases earlySplice_cases t i r d p x with e | ⟨y, e⟩
    · rw [e]
    · rw [e]
      exact (Acts.stands _).toMarked.insertDefect _ rfl
  rw [State.joined, stand_congr (early _ _ _ _), stand_onStand_self hi,
    stand_congr ((Acts.stands s.spl).insertSplice (i + 1) r _ _ _ rfl)]

/-- The record when a splice is done and the stand has been examined. -/
def Stand.afterSplice (st : Stand) (r : SpliceReason) (x : SpliceState) : Stand := { (st.spliced r).judged with splice := x }

theorem completeSplice_stand {s : State} {i : Nat} (hi : i < 7) (c : StandCfg) (r : SpliceReason) (counts : Nat) (planned : Bool) :
    ∃ x, (x = .running ∨ x = .due)
      ∧ (s.completeSplice i c r counts planned).stand i = (s.stand i).afterSplice r x := by
  let v := ((s.paperJudged i c r counts).log (.splice (i + 1) (some r) .done)).noticeSplice i r (s.stand i).sparePaper
    (s.jointAt c counts) planned
  have noticed (t : State) : (t.noticeSplice i r (s.stand i).sparePaper (s.jointAt c counts) planned).spl = t.spl := by
    unfold State.noticeSplice
    rw [notify_spl]
    split
    · rfl
    · exact notify_spl ..
  have record : v.stand i = ((s.stand i).spliced r).judged := by
    rw [stand_congr (noticed _), stand_congr (State.log_spl _ _), State.paperJudged, judgePaper_stand hi, joined_stand hi]
  obtain ⟨x, hx, examined⟩ := examine_spareless (s := v) hi (by rw [record]; rfl) (by rw [record]; rfl)
  refine ⟨x, hx, ?_⟩
  rw [completeSplice_eq, stand_congr (syncReasons_spl _ _), stand_congr (judgeRunout_spl _ _), examined, record]
  rfl

/-! #### The log and the map -/

theorem completeSplice_records (s : State) (i : Nat) (c : StandCfg) (r : SpliceReason) (counts : Nat) (planned : Bool) :
    (s.completeSplice i c r counts planned).wmp = (s.paperJudged i c r counts).wmp
      ∧ (s.completeSplice i c r counts planned).plg
        = ((s.paperJudged i c r counts).log (.splice (i + 1) (some r) .done)).plg := by
  have K := Examines.records i (s.paperJudged i c r counts).wmp ((s.paperJudged i c r counts).log (.splice (i + 1) (some r) .done)).plg
  rw [completeSplice_eq]
  exact K.alter _ _ (K.judgeRunout (K.examine (K.noticeSplice _ _ _ _ ⟨State.log_wmp _ _, rfl⟩)))

theorem log_mode (s : State) (b : LogBody) : (s.log b).plg.mode = s.plg.mode := by
  unfold State.log
  dsimp only
  split
  · rfl
  · split <;> rfl

/-- The log's mode is no block's business. -/
theorem Joins.logMode (i : Nat) (x : LogMode) : Joins i fun s => s.plg.mode = x where
  log b h := (log_mode _ b).trans h
  urgent _ h := by simpa using h
  routine _ h := by simpa using h
  hand _ _ h := h
  alter _ _ h := by simpa using h
  map _ h := h
  plan _ _ h := h
  stand _ h := h

/-- A full log that halts takes no record. -/
theorem log_full {s : State} {b : LogBody} (h : ¬s.LogTakes 1) : (s.log b).plg.records = s.plg.records := by
  obtain ⟨halt, full⟩ := not_or.1 h
  unfold State.log
  dsimp only
  rw [if_neg (by omega)]
  cases mode : s.plg.mode with
  | wrap => exact absurd mode halt
  | halt => rfl

theorem log_last {s : State} (b : LogBody) (h : s.plg.mode = .wrap ∨ (s.log b).plg.records.length < 512) :
    ((s.log b).plg.records.getLast?.map fun x => x.body) = some b := by
  by_cases takes : s.LogTakes 1
  · obtain ⟨-, r, body, records⟩ := log_stored (n := 0) b takes
    rw [records, List.getLast?_concat, Option.map_some, body]
  · obtain ⟨halt, full⟩ := not_or.1 takes
    have short := h.resolve_left halt
    rw [log_full takes] at short
    omega

/-! #### The marks of a splice that is done -/

section
variable (s : State) (i : Nat) (c : StandCfg) (r : SpliceReason) (counts : Nat)

/-- The state with the splice on the map and the stand on its spare. -/
def State.onSpare : State :=
  (s.insertSplice (i + 1) r (s.stand i).sparePaper (s.jointAt c counts) c.joint).onStand i (Stand.spliced r)

theorem joined_eq : s.joined i c r counts = (s.onSpare i c r counts).earlySplice i r (s.stand i).demand (s.stand i).sparePaper
    (s.jointAt c counts + c.joint) := rfl

theorem paperJudged_wmp : (s.paperJudged i c r counts).wmp
    = ((s.joined i c r counts).paperMarked i (s.jointAt c counts + c.joint) (s.jointAt c counts)).wmp := judgePaper_wmp ..

/-- A structural mark without claims that the splice leaves on the map stands. -/
theorem paperJudged_structural {m : Mark} (hm : m.kind.isStructural = true) (claims : m.claims = [])
    (h : m ∈ (s.onSpare i c r counts).wmp.marks) : m ∈ (s.paperJudged i c r counts).wmp.marks := by
  rw [paperJudged_wmp]
  refine paperMarked_structural i _ _ hm claims ?_
  rw [joined_eq]
  rcases earlySplice_cases (s.onSpare i c r counts) i r (s.stand i).demand (s.stand i).sparePaper
    (s.jointAt c counts + c.joint) with e | ⟨y, e⟩
  · rwa [e]
  · rw [e]
    exact insertDefect_structural hm h

theorem onSpare_defectCount : defectCount (s.onSpare i c r counts).wmp.marks = defectCount s.wmp.marks :=
  insertSplice_defectCount ..

theorem joined_defectCount (room : defectCount s.wmp.marks < 32) :
    defectCount (s.joined i c r counts).wmp.marks ≤ defectCount s.wmp.marks + 1 := by
  have count := onSpare_defectCount s i c r counts
  rw [joined_eq, ← count]
  rcases earlySplice_cases (s.onSpare i c r counts) i r (s.stand i).demand (s.stand i).sparePaper
    (s.jointAt c counts + c.joint) with e | ⟨y, e⟩
  · rw [e]
    exact Nat.le_succ _
  · rw [e]
    exact insertDefect_defectCount _ (by omega)

/-- While there is room the splice and an early splice's board bring no claim. -/
theorem joined_unclaimed (room : defectCount s.wmp.marks < 32) {k : ClaimKind} {o : Nat}
    (h : ∀ m ∈ s.wmp.marks, m.holdsClaim k o = false) : ∀ m ∈ (s.joined i c r counts).wmp.marks, m.holdsClaim k o = false := by
  have count := onSpare_defectCount s i c r counts
  have spare : ∀ m ∈ (s.onSpare i c r counts).wmp.marks, m.holdsClaim k o = false := insertSplice_unclaimed r _ _ _ h
  rw [joined_eq]
  rcases earlySplice_cases (s.onSpare i c r counts) i r (s.stand i).demand (s.stand i).sparePaper
    (s.jointAt c counts + c.joint) with e | ⟨y, e⟩
  · rwa [e]
  · rw [e, insertDefect_placed _ _ rfl (by omega)]
    intro m hm
    rcases List.mem_cons.1 ((place_perm _ _).mem_iff.1 hm) with rfl | hm
    · rfl
    · exact spare m hm

end

/-- What is asked of a stand's record after a SPLICE_DONE. -/
theorem spliced_judged (st : Stand) (r : SpliceReason) (x : SpliceState) :
    let wrong : Prop := st.need ≠ 0 ∧ st.sparePaper ≠ some st.need
    let u : Stand := st.afterSplice r x
    ((st.spliced r).wrongPaper = true ↔ wrong)
      ∧ (u.cfg = st.cfg ∧ u.running = st.spare.map (fun x => x.reel) ∧ u.remain = (st.spare.map fun x => x.remain).getD 0
        ∧ u.spare = none ∧ u.manual = false ∧ u.timer = 0 ∧ u.reason = some r ∧ u.need = st.need)
      ∧ (u.claim = true ↔ wrong)
      ∧ (¬wrong → u.demand = if (st.demand.map fun d => d.paper) = st.sparePaper then none else st.demand) := by
  intro wrong u
  have paper : (st.spliced r).paper = st.sparePaper := by
    rw [Stand.paper, Stand.spliced, Option.map_map]
    rfl
  have wrong_iff : (st.spliced r).wrongPaper = true ↔ wrong := by
    rw [Stand.wrongPaper_iff, paper]
    rfl
  refine ⟨wrong_iff, ⟨rfl, rfl, rfl, rfl, rfl, rfl, rfl, rfl⟩, wrong_iff, fun right => ?_⟩
  have clear : (st.spliced r).wrongPaper = false := by simpa using fun e => right (wrong_iff.1 e)
  change (if (st.spliced r).wrongPaper && (st.spliced r).demand.isNone then _ else (st.spliced r).demand) = _
  rw [clear]
  rfl

section
variable {s : State} {i : Nat} (c : StandCfg) (r : SpliceReason) (counts : Nat) (planned : Bool)

theorem completeSplice_grade : (s.completeSplice i c r counts planned).holds .gradeNotReady (i + 1)
    = ((s.completeSplice i c r counts planned).stand i).claim := by
  rw [completeSplice_eq, syncReasons_grade]
  exact congrArg Stand.claim (stand_congr (syncReasons_spl _ _) i).symm

/-- The joint is on the map: on a mark of its own, or on the stand's mark. -/
theorem completeSplice_joint :
    (s.jointOnMap (i + 1) = false → s.spliceMark (i + 1) r (s.stand i).sparePaper (s.jointAt c counts) c.joint
        ∈ (s.completeSplice i c r counts planned).wmp.marks)
      ∧ ∀ a m b, s.wmp.marks = a ++ m :: b → (∀ x ∈ a, x.isJointOf (i + 1) = false) → m.isJointOf (i + 1) = true →
          m.claims = [] → m.widened (s.jointAt c counts) (s.jointAt c counts + c.joint)
            ∈ (s.completeSplice i c r counts planned).wmp.marks := by
  obtain ⟨fresh, widened⟩ := insertSplice_joint s (i + 1) r (s.stand i).sparePaper (s.jointAt c counts) c.joint
  rw [(completeSplice_records s i c r counts planned).1]
  refine ⟨fun h => paperJudged_structural s i c r counts rfl rfl (fresh h), fun a m b split before joint closed => ?_⟩
  have structural : (m.widened (s.jointAt c counts) (s.jointAt c counts + c.joint)).kind.isStructural = true := by
    rw [Mark.widened, structural_of_joint joint]
    rfl
  exact paperJudged_structural s i c r counts structural closed (widened a m b split before joint)

/-- Where the new paper is wrong, a claim opens at the joint's end. -/
theorem completeSplice_opens (hi : i < 7) (hc : (s.stand i).cfg = some c) (wrong : ((s.stand i).spliced r).wrongPaper = true)
    (shut : (s.stand i).claim = false) (room : defectCount s.wmp.marks < 31)
    (unclaimed : ∀ m ∈ s.wmp.marks, m.holdsClaim .wrongPaper (i + 1) = false) :
    ∃ m ∈ (s.completeSplice i c r counts planned).wmp.marks, m.kind = .wrongPaper ∧ m.start = s.jointAt c counts + c.joint
      ∧ m.claims = [{ kind := .wrongPaper, owner := i + 1, pinned := c.dist }] := by
  have record := joined_stand (s := s) hi c r counts
  have count := joined_defectCount s i c r counts (by omega)
  obtain ⟨m, hm, kind, -, start, claims⟩ := paperMarked_opens (s := s.joined i c r counts) (c := c)
    (s.jointAt c counts + c.joint) (s.jointAt c counts) (by rw [record]; exact hc) (by rw [record]; exact wrong)
    (by rw [record]; exact shut) (by omega) (joined_unclaimed s i c r counts (by omega) unclaimed)
  rw [(completeSplice_records s i c r counts planned).1, paperJudged_wmp]
  exact ⟨m, hm, kind, start, claims⟩

/-- Where it is right, a claim that was open has left the map. -/
theorem completeSplice_closes (hi : i < 7) (right : ((s.stand i).spliced r).wrongPaper = false)
    (claimed : (s.stand i).claim = true) :
    ∀ m ∈ (s.completeSplice i c r counts planned).wmp.marks, m.holdsClaim .wrongPaper (i + 1) = false := by
  have record := joined_stand (s := s) hi c r counts
  rw [(completeSplice_records s i c r counts planned).1, paperJudged_wmp]
  exact paperMarked_closes _ _ (by rw [record]; exact right) (by rw [record]; exact claimed)

/-- The board between an early grade splice and its boundary is marked. -/
theorem completeSplice_early {d : Demand} {n : Nat} {m : Mark} {outgoing : Nat} {incoming : Option Nat} {flying : Bool}
    {preset : Nat} (hi : i < 7) (hd : (s.stand i).demand = some d) (hn : d.boundary = some n) (hm : s.findBoundary n = some m)
    (hp : m.payload = .boundary outgoing incoming flying preset) (early : s.jointAt c counts + c.joint < m.start)
    (needs : s.paperFor ((s.osq.segments.find? fun g => g.num == outgoing).bind fun g => g.order) i ≠ 0)
    (other : (s.stand i).sparePaper
      ≠ some (s.paperFor ((s.osq.segments.find? fun g => g.num == outgoing).bind fun g => g.order) i))
    (room : defectCount s.wmp.marks < 32)
    (more : ((s.stand i).spliced .grade).wrongPaper = true → (s.stand i).claim = false → defectCount s.wmp.marks < 31) :
    ∃ x ∈ (s.completeSplice i c .grade counts planned).wmp.marks, x.kind = .wrongPaper
      ∧ x.start = s.jointAt c counts + c.joint ∧ x.closedEnd = m.start ∧ x.claims = [] := by
  have record := joined_stand (s := s) hi c .grade counts
  obtain ⟨⟨osq, hgr, -, -, -, -⟩, -⟩ := (Joins.aside i s).stand (Stand.spliced .grade)
    ((Joins.aside i s).insertSplice (i + 1) .grade (s.stand i).sparePaper (s.jointAt c counts) c.joint ⟨.refl s, rfl⟩)
  have paperFor (o : Option Nat) : (s.onSpare i c .grade counts).paperFor o i = s.paperFor o i := by
    have osq : (s.onSpare i c .grade counts).osq = s.osq := osq
    have hgr : (s.onSpare i c .grade counts).hgr = s.hgr := hgr
    simp only [State.paperFor, State.slot, State.grade, osq, hgr]
  have segments : (s.onSpare i c .grade counts).osq.segments = s.osq.segments := congrArg Osq.segments osq
  have marked : s.joined i c .grade counts
      = ((s.onSpare i c .grade counts).insertDefect (earlyMark i (s.jointAt c counts + c.joint) m.start)).1 := by
    rw [joined_eq, hd]
    refine earlySplice_marked hn ((insertSplice_findBoundary ..).trans hm) hp early ?_ ?_
    · rw [paperFor, segments]
      exact needs
    · rw [paperFor, segments]
      exact other
  have count := onSpare_defectCount s i c .grade counts
  have placed := insertDefect_placed (s.onSpare i c .grade counts) (earlyMark i (s.jointAt c counts + c.joint) m.start) rfl
    (by omega)
  rw [← marked] at placed
  rw [(completeSplice_records s i c .grade counts planned).1, paperJudged_wmp]
  refine ⟨_, paperMarked_keeps _ _ rfl (by rw [placed]; exact (place_perm _ _).mem_iff.2 List.mem_cons_self) ?_, rfl, rfl, ?_, rfl⟩
  · rw [record]
    intro wrong shut
    have := joined_defectCount s i c .grade counts room
    have := more wrong shut
    omega
  · simp only [earlyMark, closedMark]
    omega

theorem completeSplice_logs
    (h : s.plg.mode = .wrap ∨ (s.completeSplice i c r counts planned).plg.records.length < 512) :
    ((s.completeSplice i c r counts planned).plg.records.getLast?.map fun x => x.body) = some (.splice (i + 1) (some r) .done) := by
  have mode : (s.paperJudged i c r counts).plg.mode = s.plg.mode := by
    have K := Joins.logMode i s.plg.mode
    exact K.judgePaper _ _ (K.earlySplice _ _ _ _ (K.stand _ (K.insertSplice _ _ _ _ _ rfl)))
  rw [(completeSplice_records s i c r counts planned).2] at h ⊢
  exact log_last _ (h.imp mode.trans id)

end

/-- Settles O42: a failed splice by its record; a SPLICE_DONE by the stages of its completion; the splice point by the judgement
of the paper; the timers by the fold over the stands. -/
theorem spliceTimeoutFailsTheSplice : Obligations.SpliceTimeoutFailsTheSplice := by
  refine ⟨spliceTimeout_fails, fun s i code h => spliceFault_spl code h, fun s i c counts hi hc => ?_,
    fun s i c order start hi hc => crossSplicePoint_leaves order start hi hc, cycleEvents_timers, tickTimers_stand,
    timersDue_stand⟩
  obtain ⟨planned, done⟩ := spliceDone_eq counts hc
  obtain ⟨x, hx, record⟩ := completeSplice_stand (s := s) hi c (s.stand i).doneReason counts planned
  obtain ⟨wrong_iff, ⟨cfg, running, remain, spare, manual, timer, cause, need⟩, claim, demand⟩ :=
    spliced_judged (s.stand i) (s.stand i).doneReason x
  have grade := completeSplice_grade (s := s) (i := i) c (s.stand i).doneReason counts planned
  obtain ⟨fresh, widened⟩ := completeSplice_joint (s := s) (i := i) c (s.stand i).doneReason counts planned
  have opens := completeSplice_opens c (s.stand i).doneReason counts planned hi hc
  have closes := completeSplice_closes (s := s) c (s.stand i).doneReason counts planned hi
  have logs := completeSplice_logs (s := s) (i := i) c (s.stand i).doneReason counts planned
  obtain ⟨⟨osq, hgr, stk, lsc, irt, line⟩, chg⟩ :=
    (Joins.aside i s).completeSplice c (s.stand i).doneReason counts planned ⟨.refl s, rfl⟩
  have others (j : Nat) (hj : j ≠ i) : (s.completeSplice i c (s.stand i).doneReason counts planned).stand j = s.stand j :=
    (Joins.otherStand hj _).completeSplice c (s.stand i).doneReason counts planned rfl
  rw [record, Bool.eq_iff_iff, claim] at grade
  intro st reason joint jointEnd paper wrong t u
  have whole : t = s.completeSplice i c reason counts planned := done
  have same : u = st.afterSplice reason x := (congrArg (fun t => State.stand t i) done).trans record
  have right (h : ¬wrong) : (st.spliced reason).wrongPaper = false :=
    Bool.eq_false_iff.2 fun e => h (wrong_iff.1 e)
  rw [same, whole]
  refine ⟨⟨cfg.trans hc, running, remain, spare, manual, timer, cause, need, hx⟩, claim, grade, demand,
    fun h => ⟨_, fresh h, rfl, rfl, rfl, rfl, rfl, rfl⟩, widened, fun h shut room => opens (wrong_iff.2 h) shut room,
    fun h => closes (right h), ?_, logs, others, osq, chg, hgr, stk, lsc, irt, line⟩
  intro d n m outgoing incoming flying preset byGrade hd hn hm hp early order needs other room more
  have byGrade : (s.stand i).doneReason = .grade := byGrade
  have early := completeSplice_early (s := s) c counts planned hi hd hn hm hp early needs other room fun e =>
    more (wrong_iff.1 (byGrade ▸ e))
  rw [← byGrade] at early
  exact early

end Sys2Proof.Machine
end

section
namespace Sys2Proof.Machine

variable {P : State → Prop}

/-! ### The claims on the map (R24, R28) -/

/-- Whether a claim of an identity stands on a map. -/
def Wmp.Claims (w : Wmp) (k : ClaimKind) (o : Nat) : Prop := ∃ m ∈ w.marks, m.holdsClaim k o = true

theorem claims_false {w : Wmp} {k : ClaimKind} {o : Nat} (h : ∀ m ∈ w.marks, m.holdsClaim k o = false) : ¬w.Claims k o := by
  rintro ⟨m, hm, held⟩
  rw [h m hm] at held
  cases held

theorem holdsClaim_merge (old m : Mark) (k : ClaimKind) (o : Nat) :
    (mergeMarks old m).holdsClaim k o = (old.holdsClaim k o || m.holdsClaim k o) := by
  simp [Mark.holdsClaim, mergeMarks]

/-- An insertion drops no claim, and brings none but the mark's. -/
theorem insertDefect_claims (s : State) (m : Mark) (k : ClaimKind) (o : Nat) :
    (s.wmp.Claims k o → (s.insertDefect m).1.wmp.Claims k o)
      ∧ ((s.insertDefect m).1.wmp.Claims k o → s.wmp.Claims k o ∨ m.holdsClaim k o = true) := by
  unfold Wmp.Claims
  rcases insertDefect_marks s m with ⟨-, e⟩ | e | ⟨-, i, old, hi, -, e⟩
  · rw [e]
    exact ⟨id, .inl⟩
  · rw [e]
    simp only [(place_perm _ _).mem_iff, List.mem_cons, exists_eq_or_imp]
    exact ⟨.inr, Or.symm⟩
  · rw [e]
    have perm := putBack_perm (new := mergeMarks old { m with seq := s.wmp.nextSeq }) hi
    constructor
    · rintro ⟨y, hy, held⟩
      rcases List.mem_cons.1 (perm.mem_iff.2 (List.mem_cons_of_mem _ hy)) with rfl | h
      · exact ⟨_, mem_putBack hi, by rw [holdsClaim_merge, held]; rfl⟩
      · exact ⟨y, h, held⟩
    · rintro ⟨y, hy, held⟩
      rcases List.mem_cons.1 (perm.mem_iff.1 (List.mem_cons_of_mem _ hy)) with rfl | h
      · rw [holdsClaim_merge, Bool.or_eq_true] at held
        exact held.imp (fun h => ⟨old, List.mem_of_getElem? hi, h⟩) id
      · exact .inl ⟨y, h, held⟩

/-- A mark whose one claim the map does not hold brings it, on a mark that starts no later. -/
theorem insertDefect_claim (s : State) {m : Mark} {c : Claim} (hc : m.claims = [c]) (fresh : ¬s.wmp.Claims c.kind c.owner) :
    ∃ y ∈ (s.insertDefect m).1.wmp.marks, c ∈ y.claims ∧ y.start ≤ m.start := by
  rcases insertDefect_marks s m with ⟨held, -⟩ | e | ⟨-, i, old, hi, -, e⟩
  · rw [State.holdsNew, hc, List.any_cons, List.any_nil, Bool.or_false] at held
    exact absurd (List.any_eq_true.1 held) fresh
  · rw [e]
    exact ⟨_, (place_perm _ _).mem_iff.2 List.mem_cons_self, by simp [hc], Int.le_refl _⟩
  · rw [e]
    exact ⟨_, mem_putBack hi, by simp [mergeMarks, hc], min_le_right _ _⟩

theorem holdsClaim_of_mem {m : Mark} {c : Claim} (h : c ∈ m.claims) : m.holdsClaim c.kind c.owner = true :=
  List.any_eq_true.2 ⟨c, h, by simp⟩

/-- A mark with one claim leaves it on the map. -/
theorem insertDefect_claimed (s : State) {m : Mark} {c : Claim} (hc : m.claims = [c]) :
    (s.insertDefect m).1.wmp.Claims c.kind c.owner := by
  by_cases held : s.wmp.Claims c.kind c.owner
  · exact (insertDefect_claims s m _ _).1 held
  · obtain ⟨y, hy, mem, -⟩ := insertDefect_claim s hc held
    exact ⟨y, hy, holdsClaim_of_mem mem⟩

/-! #### The WRONG_SLIT claims (R80, R84) -/

/-- Whether a station's WRONG_SLIT claim stands. -/
def State.Slit (s : State) (st : Slitter) : Prop := s.wmp.Claims .wrongSlit (slitterCode st)

theorem openSlit_claimed {s : State} (st : Slitter) (x : Int) (hd : s.line.nums.dSs ≠ 0) : (s.openSlit st x).Slit st := by
  rw [openSlit_eq st x hd]
  exact insertDefect_claimed s (m := s.slitMark st x) rfl

theorem openSlit_keeps {s : State} (st : Slitter) (x : Int) {k : ClaimKind} {o : Nat} (h : s.wmp.Claims k o) :
    (s.openSlit st x).wmp.Claims k o :=
  ite_keeps (P := fun t => t.wmp.Claims k o) (fun _ => h) fun _ => (insertDefect_claims _ _ _ _).1 h

theorem slitterCode_inj {x y : Slitter} (h : slitterCode x = slitterCode y) : x = y := by
  cases x <;> cases y <;> simp_all [slitterCode]

theorem openSlit_other {s : State} {st x : Slitter} (a : Int) (hx : x ≠ st) (h : ¬s.Slit st) : ¬(s.openSlit x a).Slit st := by
  refine ite_keeps (P := fun t => ¬t.Slit st) (fun _ => h) fun _ claims => ?_
  rcases (insertDefect_claims _ _ _ _).2 claims with held | own
  · exact h held
  · simp [Mark.holdsClaim, openMark] at own
    exact hx (slitterCode_inj own)

/-! ### A swap that times out (R80, R81) -/

/-- The zone opens for a record, with the claim of its target, or of the idle station where it has none. -/
theorem openZone_opens {s : State} (r : ChangeRec) (hd : s.line.nums.dSs ≠ 0) (shut : s.chg.changeover = none) :
    s.openZone r = ((s.openSlit (r.target.getD s.chg.idle) (min r.zoneEnd s.line.nums.dSs)).onChg fun c =>
      { c with changeover := some (r.target.getD s.chg.idle) }).raise .slitterNotReady 0 .limitCrawl := by
  refine if_neg ?_
  rw [shut]
  exact fun h => h.elim hd (by simp)

theorem openZone_stays {s : State} (r : ChangeRec) (h : s.line.nums.dSs = 0 ∨ s.chg.changeover.isSome = true) :
    s.openZone r = s := if_pos h

/-- A fault handed waits until Line State Control takes it. -/
theorem Slits.waits (f : FaultReport) : Slits fun s => f ∈ s.handed where
  log _ h := by simpa using h
  urgent _ h := ite_keeps (P := fun t => f ∈ t.handed) (fun _ => h) fun _ => List.mem_append_left _ h
  routine _ h := by
    unfold State.queueRoutine
    iterate 6 refine ite_keeps (P := fun t => f ∈ t.handed) (fun _ => h) fun _ => ?_
    exact List.mem_append_left _ h
  hand _ _ h := List.mem_append_left _ h
  alter d r h := by
    unfold State.alter State.setReasons
    dsimp only
    refine ite_keeps (P := fun t => f ∈ t.handed) (fun _ => by simpa using h) fun _ => ?_
    refine ite_keeps (P := fun t => f ∈ t.handed) (fun _ => by simpa using h) fun _ => ?_
    refine ite_keeps (P := fun t => f ∈ t.handed) (fun _ => by simpa using h) fun _ => ?_
    exact List.mem_append_left _ (by simpa using h)
  map _ h := h
  plan _ _ h := h
  chg _ h _ := h

/-- The head record is CROSSED, swaps are blocked, and the fault is handed. -/
def State.swapFailed (s : State) (r : ChangeRec) (rest : List ChangeRec) : State :=
  (s.hand .swapTimeout (.one r.boundary)).onChg fun c =>
    { c with records := { r with status := .crossed } :: rest, timer := 0, blocked := true }

theorem swapExpired_swapping {s : State} {r : ChangeRec} {rest : List ChangeRec} (records : s.chg.records = r :: rest)
    (swapping : r.status = .swapping) : s.swapExpired = (s.swapFailed r rest).openZone r := by
  unfold State.swapExpired
  rw [records]
  exact if_pos swapping

/-- What a zone that opens leaves. -/
theorem openZone_leaves {s : State} (r : ChangeRec) (hd : s.line.nums.dSs ≠ 0) (shut : s.chg.changeover = none) :
    let owner := r.target.getD s.chg.idle
    let claim : Claim := { kind := .wrongSlit, owner := slitterCode owner, pinned := s.line.nums.dSs }
    (s.openZone r).chg = { s.chg with changeover := some owner } ∧ (s.openZone r).Slit owner
      ∧ (¬s.Slit owner → ∃ m ∈ (s.openZone r).wmp.marks, claim ∈ m.claims ∧ m.start ≤ min r.zoneEnd s.line.nums.dSs)
      ∧ (s.openZone r).holds .slitterNotReady 0 = true := by
  intro owner claim
  have wmp : (s.openZone r).wmp = (s.openSlit owner (min r.zoneEnd s.line.nums.dSs)).wmp := by
    rw [openZone_opens r hd shut]
    simp [State.raise, owner]
  refine ⟨?_, ?_, fun fresh => ?_, ?_⟩
  · rw [openZone_opens r hd shut]
    simp [State.raise, owner]
  · rw [State.Slit, wmp]
    exact openSlit_claimed owner _ hd
  · rw [wmp, openSlit_eq owner _ hd]
    exact insertDefect_claim s (m := s.slitMark owner (min r.zoneEnd s.line.nums.dSs)) rfl fresh
  · rw [openZone_opens r hd shut]
    exact raise_holds ..

/-- Of the Changeover Unit's own state an opening changes the changeover zone alone. -/
theorem openZone_chg (s : State) (r : ChangeRec) : ∃ x, (s.openZone r).chg = { s.chg with changeover := x }
    ∧ (s.line.nums.dSs ≠ 0 → x.isSome = true) := by
  by_cases stays : s.line.nums.dSs = 0 ∨ s.chg.changeover.isSome = true
  · rw [openZone_stays r stays]
    exact ⟨_, rfl, stays.resolve_left⟩
  · obtain ⟨hd, shut⟩ := not_or.1 stays
    exact ⟨_, (openZone_leaves r hd (by simpa using shut)).1, fun _ => rfl⟩

/-- SWAP_TIMEOUT of a SWAPPING head. -/
theorem swapTimeout_blocks {s : State} {r : ChangeRec} {rest : List ChangeRec} (running : s.chg.timer ≠ 0)
    (records : s.chg.records = r :: rest) (swapping : r.status = .swapping) :
    ∃ u : State, exec .swapTimeout s = .next u.takeFaults
      ∧ u.chg.records = { r with status := .crossed } :: rest ∧ u.chg.timer = 0 ∧ u.chg.blocked = true
      ∧ (s.line.nums.dSs ≠ 0 → u.chg.changeover.isSome = true)
      ∧ (s.line.nums.dSs ≠ 0 → s.chg.changeover = none →
          let owner := r.target.getD s.chg.idle
          let claim : Claim := { kind := .wrongSlit, owner := slitterCode owner, pinned := s.line.nums.dSs }
          u.chg.changeover = some owner ∧ (∃ m ∈ u.wmp.marks, m.holdsClaim .wrongSlit (slitterCode owner) = true)
          ∧ ((∀ m ∈ s.wmp.marks, m.holdsClaim .wrongSlit (slitterCode owner) = false) →
              ∃ m ∈ u.wmp.marks, claim ∈ m.claims ∧ m.start ≤ min r.zoneEnd s.line.nums.dSs)
          ∧ u.holds .slitterNotReady 0 = true)
      ∧ (s.line.nums.dSs = 0 ∨ s.chg.changeover.isSome = true → u.wmp = s.wmp)
      ∧ { code := .swapTimeout, detail := .one r.boundary : FaultReport } ∈ u.handed
      ∧ u.takeFaults.lsc.latch.isSome = true
      ∧ u.osq = s.osq ∧ u.spl = s.spl ∧ u.hgr = s.hgr ∧ u.stk = s.stk ∧ u.lsc = s.lsc ∧ u.irt = s.irt
      ∧ u.line = s.line := by
  have run : exec .swapTimeout s = .next s.swapExpired.takeFaults := congrArg Host.Outcome.next (if_neg running)
  have failed := swapExpired_swapping records swapping
  obtain ⟨x, chg, open_⟩ := openZone_chg (s.swapFailed r rest) r
  have handed : { code := .swapTimeout, detail := .one r.boundary : FaultReport } ∈ s.swapExpired.handed := by
    rw [failed]
    exact (Slits.waits _).openZone r (List.mem_append_right _ (List.mem_singleton.2 rfl))
  obtain ⟨⟨osq, hgr, stk, lsc, irt, line⟩, spl⟩ := (Slits.aside s).swapExpired ⟨.refl s, rfl⟩
  rw [← failed] at chg
  refine ⟨_, run, by rw [chg]; rfl, by rw [chg]; rfl, by rw [chg]; rfl, fun hd => by rw [chg]; exact open_ hd, fun hd shut => ?_,
    fun stays => ?_, handed, takeFaults_latched (List.ne_nil_of_mem handed), osq, spl, hgr, stk, lsc, irt, line⟩
  · obtain ⟨opened, claimed, fresh, raised⟩ := openZone_leaves (s := s.swapFailed r rest) r hd shut
    rw [← failed] at opened claimed fresh raised
    exact ⟨congrArg Chg.changeover opened, claimed, fun h => fresh (claims_false h), raised⟩
  · rw [failed, openZone_stays (s := s.swapFailed r rest) r stays]
    rfl

end Sys2Proof.Machine
end

section
namespace Sys2Proof.Machine

variable {P : State → Prop}

/-! ### The reports of the slitter-scorers (R76 to R78) -/

theorem Slits.keepStations (x : SlitterState × SlitterState × Option Preset × Option Preset) :
    Slits fun s => s.chg.stations = x where
  log _ h := by simpa using h
  urgent _ h := by simpa using h
  routine _ h := by simpa using h
  hand _ _ h := h
  alter _ _ h := by simpa using h
  map _ h := h
  plan _ _ h := h
  chg _ h hf := (hf _).trans h

theorem stations_of {c d : Chg} (h : d.stations = c.stations) (st : Slitter) :
    d.stateOf st = c.stateOf st ∧ d.heldOf st = c.heldOf st := by
  obtain ⟨stateA, stateB, heldA, heldB⟩ : _ ∧ _ ∧ _ ∧ _ := by simpa only [Chg.stations, Prod.mk.injEq] using h
  cases st
  · exact ⟨stateA, heldA⟩
  · exact ⟨stateB, heldB⟩

/-- The preset that a station holds after a report (R77). -/
def Chg.heldAfter (c : Chg) (st : Slitter) : Option SlitterState → Option Preset
  | some .parked => none
  | some (.ready id) =>
    match c.sent.find? fun y => y.1 == st && y.2.id == id with
    | some y => some y.2
    | none => c.heldOf st
  | _ => c.heldOf st

/-- A report sets its station's state and held preset. -/
theorem track_eq (c : Chg) (st : Slitter) (r : SlitterState) :
    c.track st r = (c.setState st r).setHeld st (c.heldAfter st (some r)) := by
  have same (r : SlitterState) : c.setState st r = (c.setState st r).setHeld st (c.heldOf st) := by cases st <;> rfl
  have sent (r : SlitterState) : (c.setState st r).sent = c.sent := by cases st <;> rfl
  unfold Chg.track Chg.heldAfter
  cases r with
  | ready id =>
    dsimp only
    rw [sent]
    cases c.sent.find? fun y => y.1 == st && y.2.id == id with
    | some y => rfl
    | none => exact same _
  | parked => rfl
  | presetting => exact same _
  | working => exact same _
  | fault => exact same _
  | unknown => exact same _

/-- What the Changeover Unit holds beside the stations' states and held presets. -/
def Chg.beside (c : Chg) : Chg := { c with stateA := .unknown, stateB := .unknown, heldA := none, heldB := none }

theorem trackReport_eq (s : State) (st : Slitter) (r : Option SlitterState) :
    s.trackReport st r = s.onChg fun c => (c.setState st (r.getD (c.stateOf st))).setHeld st (c.heldAfter st r) := by
  cases r with
  | none =>
    have same (c : Chg) : (c.setState st (c.stateOf st)).setHeld st (c.heldOf st) = c := by cases st <;> rfl
    exact congrArg (fun c => ({ s with chg := c } : State)) (same s.chg).symm
  | some r => exact congrArg (fun c => ({ s with chg := c } : State)) (track_eq s.chg st r)

/-- The state once both reports are taken. -/
def State.reported (s : State) (a b : Option SlitterState) : State := (s.trackReport .a a).trackReport .b b

/-- The report of a station. -/
def reportOf (a b : Option SlitterState) : Slitter → Option SlitterState
  | .a => a
  | .b => b

theorem reported_chg (s : State) (a b : Option SlitterState) :
    (s.reported a b).chg.beside = s.chg.beside
      ∧ ∀ st, (s.reported a b).chg.stateOf st = (reportOf a b st).getD (s.chg.stateOf st)
        ∧ (s.reported a b).chg.heldOf st = s.chg.heldAfter st (reportOf a b st) := by
  rw [State.reported, trackReport_eq, trackReport_eq]
  refine ⟨rfl, fun st => ?_⟩
  cases st with
  | a => exact ⟨rfl, rfl⟩
  | b => exact ⟨rfl, rfl⟩

/-- The reports change nothing but the Changeover Unit's state. -/
theorem reported_only (s : State) (a b : Option SlitterState) : ∃ c, s.reported a b = { s with chg := c } := by
  rw [State.reported, trackReport_eq, trackReport_eq]
  exact ⟨_, rfl⟩

/-- A PARKED target whose preset is awaited is sent it again. -/
theorem represet_cases (s : State) (st : Slitter) (x : Option SlitterState) :
    s.represet st x = s ∨ x = some .parked ∧ (∃ r rest, s.chg.records = r :: rest ∧ r.target = some st
      ∧ s.represet st x = s.sendPreset st r.preset) := by
  unfold State.represet
  cases records : s.chg.records with
  | nil => exact .inl rfl
  | cons r rest =>
    dsimp only
    split
    · rename_i h
      exact .inr ⟨h.1, r, rest, rfl, h.2.1, rfl⟩
    · exact .inl rfl

/-- The state once the reports are taken and a head's preset is sent again. -/
def State.heard (s : State) (a b : Option SlitterState) : State := ((s.reported a b).represet .a a).represet .b b

theorem slitterEvent_eq (s : State) (a b : Option SlitterState) : s.slitterEvent a b =
    (let confirmed := (Chg.confirming s.chg (s.heard a b).chg).map fun x => x.2.1
     ((((((s.heard a b).takeConfirmation s.chg).stationEvent s.chg confirmed .a).stationEvent s.chg confirmed
       .b).examineCrossed).reforecast s.chg).judgeConflict) := rfl

/-- At most one preset is sent again. -/
theorem heard_cases (s : State) (a b : Option SlitterState) :
    s.heard a b = s.reported a b ∨ ∃ st p, s.heard a b = (s.reported a b).sendPreset st p := by
  unfold State.heard
  rcases represet_cases (s.reported a b) .a a with e | ⟨-, r, rest, records, target, e⟩
  · rw [e]
    rcases represet_cases (s.reported a b) .b b with e | ⟨-, r, rest, -, -, e⟩
    · exact .inl e
    · exact .inr ⟨_, _, e⟩
  · rw [e]
    refine .inr ⟨.a, r.preset, ?_⟩
    rcases represet_cases ((s.reported a b).sendPreset .a r.preset) .b b with e | ⟨-, r', rest', records', target', -⟩
    · exact e
    · have same : ((s.reported a b).sendPreset .a r.preset).chg.records = (s.reported a b).chg.records := by
        simp [State.sendPreset]
      rw [same, records] at records'
      obtain rfl := (List.cons.inj records').1
      rw [target] at target'
      cases target'

/-- What the Changeover Unit holds beside the stations and the presets sent. -/
def Chg.own (c : Chg) : Chg := { c.beside with sent := [] }

/-- A waiting notice and how many items wait at most. -/
def State.Waiting (s : State) (k : Nat) (l : List Notice) : Prop :=
  s.rif.routine.length ≤ k ∧ ∀ n ∈ l, .notice n ∈ s.rif.routine

/-- While there is room an item queued puts no notice out, and lengthens the queue by at most one. -/
theorem State.Waiting.queueRoutine {s : State} {k : Nat} {l : List Notice} (o : OutItem) (room : k < 48) (h : s.Waiting k l) :
    (s.queueRoutine o).Waiting (k + 1) l := by
  obtain ⟨length, waits⟩ := h
  unfold State.queueRoutine
  refine ite_keeps (P := fun t => t.Waiting (k + 1) l) (fun _ => ?_) fun _ => ?_
  · refine ⟨(List.length_map _).trans_le (length.trans (Nat.le_succ k)), fun n hn => List.mem_map.2 ⟨_, waits n hn, if_neg ?_⟩⟩
    cases o <;> exact Bool.false_ne_true
  · refine ite_keeps (P := fun t => t.Waiting (k + 1) l) (fun _ => ⟨length.trans (Nat.le_succ k), waits⟩) fun _ => ?_
    rw [if_pos (by omega)]
    refine ⟨?_, fun n hn => List.mem_append_left _ (waits n hn)⟩
    simp only [State.onRif_rif, List.length_append, List.length_singleton]
    omega

/-- A notice joins them. -/
theorem State.Waiting.notify {s : State} {k : Nat} {l : List Notice} (n : Notice) (room : k < 48) (h : s.Waiting k l) :
    (s.notify n).Waiting (k + 1) (n :: l) := by
  obtain ⟨length, waits⟩ := h
  rw [notify_eq, if_pos (by omega)]
  refine ⟨?_, fun x hx => ?_⟩
  · simp only [State.onRif_rif, List.length_append, List.length_singleton]
    omega
  · rcases List.mem_cons.1 hx with rfl | hx
    · exact List.mem_append_right _ (List.mem_singleton.2 rfl)
    · exact List.mem_append_left _ (waits x hx)

/-- What the reports leave: the stations' states and held presets are the reports', and of the rest a preset was sent. -/
structure State.Heard (s : State) (a b : Option SlitterState) (w : State) : Prop where
  own : w.chg.own = s.chg.own
  state : ∀ st, w.chg.stateOf st = (reportOf a b st).getD (s.chg.stateOf st)
  held : ∀ st, w.chg.heldOf st = s.chg.heldAfter st (reportOf a b st)
  wmp : w.wmp = s.wmp
  plg : w.plg = s.plg
  stamp : w.stamp = s.stamp
  wtr : w.wtr = s.wtr
  line : w.line = s.line
  routine : s.rif.routine.length ≤ 40 → w.Waiting 41 []

theorem queueRoutine_stamp (s : State) (o : OutItem) : (s.queueRoutine o).stamp = s.stamp := by
  unfold State.queueRoutine
  iterate 6 refine ite_keeps (P := fun t => t.stamp = s.stamp) (fun _ => rfl) fun _ => ?_
  rfl

theorem heard_leaves (s : State) (a b : Option SlitterState) : s.Heard a b (s.heard a b) := by
  obtain ⟨beside, stations⟩ := reported_chg s a b
  obtain ⟨c, only⟩ := reported_only s a b
  have reported : s.Heard a b (s.reported a b) := by
    refine ⟨congrArg (fun c => { c with sent := [] }) beside, fun st => (stations st).1, fun st => (stations st).2, ?_, ?_, ?_, ?_,
      ?_, ?_⟩
    all_goals rw [only]
    · rfl
    · exact fun h => ⟨Nat.le_succ_of_le h, nofun⟩
  rcases heard_cases s a b with e | ⟨st, p, e⟩
  · rw [e]
    exact reported
  · rw [e]
    obtain ⟨own, state, held, wmp, plg, stamp, wtr, line, -⟩ := reported
    have same : ((s.reported a b).sendPreset st p).chg.stations = (s.reported a b).chg.stations :=
      (Slits.keepStations _).sendPreset st p rfl
    refine ⟨Eq.trans (by simp [State.sendPreset, Chg.own, Chg.beside]) own, fun x => (stations_of same x).1.trans (state x),
      fun x => (stations_of same x).2.trans (held x), by simpa [State.sendPreset] using wmp, by simpa [State.sendPreset] using plg,
      (queueRoutine_stamp _ _).trans stamp, by simpa [State.sendPreset] using wtr, by simpa [State.sendPreset] using line,
      fun h => State.Waiting.queueRoutine _ (by omega) ⟨?_, nofun⟩⟩
    rw [only]
    exact h

end Sys2Proof.Machine
end

section
namespace Sys2Proof.Machine

variable {P : State → Prop}

/-! ### The end of the reports' event (R77 to R80) -/

/-- The records, the head's with no word of its status. -/
def unstatused : List ChangeRec → List ChangeRec
  | [] => []
  | r :: rest => { r with status := .waiting } :: rest

/-- What the Changeover Unit holds beside a swap under way and the presets sent. -/
def Chg.core (c : Chg) : Chg :=
  { c with records := unstatused c.records, timer := 0, changeover := none, sent := [], forecast := none, idCounter := 0 }

/-- The owner of a zone that opens for the head record (R80). -/
def Chg.owner (c : Chg) : Slitter := (c.records.head?.bind fun r => r.target).getD c.idle

theorem core_owner (c : Chg) : c.core.owner = c.owner := by
  unfold Chg.owner Chg.core
  cases c.records <;> rfl

/-- P is kept by an attempt at the head's swap: urgent items, reasons, the claim of the head's owner, and changes of the swap under
way. -/
structure Swaps (P : State → Prop) : Prop where
  urgent : ∀ {s : State} (o), P s → P (s.queueUrgent o)
  alter : ∀ {s : State} (d r), P s → P (s.alter d r)
  openSlit : ∀ {s : State} (x), P s → P (s.openSlit s.chg.owner x)
  chg : ∀ {s : State} (f : Chg → Chg), (f s.chg).core = s.chg.core → P s → P (s.onChg f)

namespace Swaps

theorem openZone (K : Swaps P) {s : State} {r : ChangeRec} (owner : r.target.getD s.chg.idle = s.chg.owner) (h : P s) :
    P (s.openZone r) := by
  unfold State.openZone
  rw [owner]
  exact ite_keeps (fun _ => h) fun _ => K.alter _ _ (K.chg _ rfl (K.openSlit _ h))

/-- The head takes another status, and its zone opens. -/
theorem crossed (K : Swaps P) {s : State} {r : ChangeRec} {rest : List ChangeRec} (records : s.chg.records = r :: rest)
    (x : ChangeStatus) (n : Nat) (h : P s) :
    P (s.onChg fun c => { c with records := { r with status := x } :: rest, timer := n })
      ∧ P ((s.onChg fun c => { c with records := { r with status := x } :: rest, timer := n }).openZone r) := by
  have changed := K.chg (fun c => { c with records := { r with status := x } :: rest, timer := n })
    (by simp [Chg.core, unstatused, records]) h
  exact ⟨changed, K.openZone rfl changed⟩

theorem trySwap (K : Swaps P) {s : State} (h : P s) : P s.trySwap := by
  have crosses {r : ChangeRec} {rest : List ChangeRec} (records : s.chg.records = r :: rest) :=
    (K.crossed records .crossed s.chg.timer h).2
  unfold State.trySwap
  split
  · exact h
  · rename_i r rest records
    split
    · rename_i st target
      have sent := K.crossed (s := s.queueUrgent (.slitterSwap (slitterCode st) (stationNumber s.chg.engaged) r.preset.id r.boundary))
        (by rw [State.queueUrgent_chg, records]) .swapping s.line.nums.swapTimeout (K.urgent _ h)
      exact ite_keeps (fun _ => ite_keeps (fun _ => sent.2) fun _ => sent.1) fun _ => crosses records
    · exact crosses records

theorem examineCrossed (K : Swaps P) {s : State} (h : P s) : P s.examineCrossed := by
  unfold State.examineCrossed
  split
  · exact h
  · exact ite_keeps (fun _ => K.trySwap h) fun _ => h

end Swaps

/-- P is also kept by presets sent and by faults handed. -/
structure Later (P : State → Prop) : Prop extends Swaps P where
  routine : ∀ {s : State} (o), P s → P (s.queueRoutine o)
  hand : ∀ {s : State} (c d), P s → P (s.hand c d)

/-- The rest of the event once R84 has judged the stations. -/
def State.concluded (s : State) (old : Chg) : State := (s.examineCrossed.reforecast old).judgeConflict

namespace Later

theorem sendPreset (K : Later P) {s : State} (st : Slitter) (p : Preset) (h : P s) : P (s.sendPreset st p) :=
  K.chg _ rfl (K.routine _ h)

theorem forecastFor (K : Later P) {s : State} (c : Option Nat) (h : P s) : P (s.forecastFor c) := by
  have none_ : P (s.onChg fun c => { c with forecast := none }) := K.chg _ rfl h
  unfold State.forecastFor
  refine ite_keeps (fun _ => none_) fun _ => ?_
  split
  · exact none_
  · exact ite_keeps (fun _ => none_) fun _ => ite_keeps (fun _ => h) fun _ => K.chg _ rfl (K.sendPreset _ _ h)

theorem reforecast (K : Later P) {s : State} (old : Chg) (h : P s) : P (s.reforecast old) :=
  ite_keeps (fun _ => h) fun _ => K.forecastFor _ h

theorem judgeConflict (K : Later P) {s : State} (h : P s) : P s.judgeConflict := ite_keeps (fun _ => K.hand _ _ h) fun _ => h

theorem concluded (K : Later P) {s : State} (old : Chg) (h : P s) : P (s.concluded old) :=
  K.judgeConflict (K.reforecast old (K.toSwaps.examineCrossed h))

theorem core (x : Chg) : Later fun s => s.chg.core = x where
  urgent _ h := by simpa using h
  alter _ _ h := by simpa using h
  openSlit _ h := by simpa using h
  chg _ hf h := hf.trans h
  routine _ h := by simpa using h
  hand _ _ h := h

/-- A claim stays. -/
theorem slit (st : Slitter) : Later fun s => s.Slit st where
  urgent _ h := by simpa [State.Slit] using h
  alter _ _ h := by simpa [State.Slit] using h
  openSlit _ h := openSlit_keeps _ _ h
  chg _ _ h := h
  routine _ h := by simpa [State.Slit] using h
  hand _ _ h := h

/-- A station that the head record's zone would not belong to gets no claim. -/
theorem unclaimed {x : Chg} {st : Slitter} (hx : x.owner ≠ st) : Later fun s => s.chg.core = x ∧ ¬s.Slit st where
  urgent _ h := by simpa [State.Slit] using h
  alter _ _ h := by simpa [State.Slit] using h
  openSlit _ h := ⟨(core x).openSlit _ h.1, openSlit_other _ (by rw [← core_owner, h.1]; exact hx) h.2⟩
  chg _ hf h := ⟨hf.trans h.1, h.2⟩
  routine _ h := by simpa [State.Slit] using h
  hand _ _ h := h

end Later

/-! #### The routine queue -/

theorem queueUrgent_routine (s : State) (o : OutItem) : (s.queueUrgent o).rif.routine = s.rif.routine :=
  ite_keeps (P := fun t => t.rif.routine = s.rif.routine) (fun _ => rfl) fun _ => rfl

theorem alter_routine (s : State) (d : List (Reason × Nat)) (r : List Raised) : (s.alter d r).rif.routine = s.rif.routine := by
  unfold State.alter State.setReasons
  exact ite_keeps (P := fun t => t.rif.routine = s.rif.routine) (fun _ => rfl) fun _ =>
    ite_keeps (P := fun t => t.rif.routine = s.rif.routine) (fun _ => rfl) fun _ => queueUrgent_routine _ _

theorem Marked.routine (x : List OutItem) : Marked fun s => s.rif.routine = x where
  log _ h := by simpa using h
  map _ _ h := h
  plan _ _ _ h := h
  cut _ _ h := (queueUrgent_routine _ _).trans h

theorem openSlit_routine (s : State) (st : Slitter) (x : Int) : (s.openSlit st x).rif.routine = s.rif.routine :=
  ite_keeps (P := fun t => t.rif.routine = s.rif.routine) (fun _ => rfl) fun _ => (Marked.routine _).insertDefect _ rfl

theorem Swaps.routine (x : List OutItem) : Swaps fun s => s.rif.routine = x where
  urgent _ h := (queueUrgent_routine _ _).trans h
  alter d r h := (alter_routine _ d r).trans h
  openSlit _ h := (openSlit_routine _ _ _).trans h
  chg _ _ h := h

theorem State.Waiting.of_eq {s t : State} {k : Nat} {l : List Notice} (e : t.rif.routine = s.rif.routine) (h : s.Waiting k l) :
    t.Waiting k l := by
  unfold State.Waiting
  rw [e]
  exact h

theorem State.Waiting.more {s : State} {k : Nat} {l : List Notice} (h : s.Waiting k l) : s.Waiting (k + 1) l :=
  ⟨Nat.le_succ_of_le h.1, h.2⟩

theorem State.Waiting.presetHead {s : State} {k : Nat} {l : List Notice} (room : k < 48) (h : s.Waiting k l) :
    s.presetHead.Waiting (k + 1) l := by
  unfold State.presetHead
  split
  · exact h.more
  · exact ite_keeps (P := fun t => t.Waiting (k + 1) l) (fun _ => h.more) fun _ => h.queueRoutine _ room

theorem State.Waiting.forecastFor {s : State} {k : Nat} {l : List Notice} (c : Option Nat) (room : k < 48) (h : s.Waiting k l) :
    (s.forecastFor c).Waiting (k + 1) l := by
  unfold State.forecastFor
  refine ite_keeps (P := fun t => t.Waiting (k + 1) l) (fun _ => h.more) fun _ => ?_
  split
  · exact h.more
  · exact ite_keeps (P := fun t => t.Waiting (k + 1) l) (fun _ => h.more) fun _ =>
      ite_keeps (P := fun t => t.Waiting (k + 1) l) (fun _ => h.more) fun _ => h.queueRoutine _ room

theorem State.Waiting.examineCrossed {s : State} {k : Nat} {l : List Notice} (h : s.Waiting k l) :
    s.examineCrossed.Waiting k l := h.of_eq ((Swaps.routine _).examineCrossed rfl)

theorem State.Waiting.concluded {s : State} {k : Nat} {l : List Notice} (old : Chg) (room : k < 48) (h : s.Waiting k l) :
    (s.concluded old).Waiting (k + 1) l :=
  ite_keeps (P := fun t => t.Waiting (k + 1) l) (fun _ => ite_keeps (P := fun t => t.Waiting (k + 1) l)
    (fun _ => h.examineCrossed.more) fun _ => h.examineCrossed.forecastFor _ room) fun _ =>
      ite_keeps (P := fun t => t.Waiting (k + 1) l) (fun _ => h.examineCrossed.more) fun _ => h.examineCrossed.forecastFor _ room

end Sys2Proof.Machine
end

section
namespace Sys2Proof.Machine

/-! ### The stations' causes and the records (R78, R84) -/

@[simp] theorem setCause_engaged (c : Chg) (st : Slitter) (x : SlitCause) : (c.setCause st x).engaged = c.engaged := by
  cases st <;> rfl

@[simp] theorem setCause_expected (c : Chg) (st : Slitter) (x : SlitCause) : (c.setCause st x).expected = c.expected := by
  cases st <;> rfl

@[simp] theorem setCause_records (c : Chg) (st : Slitter) (x : SlitCause) : (c.setCause st x).records = c.records := by
  cases st <;> rfl

@[simp] theorem setCause_changeover (c : Chg) (st : Slitter) (x : SlitCause) : (c.setCause st x).changeover = c.changeover := by
  cases st <;> rfl

@[simp] theorem setCause_timer (c : Chg) (st : Slitter) (x : SlitCause) : (c.setCause st x).timer = c.timer := by
  cases st <;> rfl

@[simp] theorem setCause_causeOf (c : Chg) (st : Slitter) (x : SlitCause) : (c.setCause st x).causeOf st = x := by
  cases st <;> rfl

theorem setCause_heldOf (c : Chg) (st y : Slitter) (x : SlitCause) : (c.setCause st x).heldOf y = c.heldOf y := by
  cases st <;> rfl

theorem setCause_self (c : Chg) (st : Slitter) : c.setCause st (c.causeOf st) = c := by cases st <;> rfl

theorem core_causeOf (c : Chg) (st : Slitter) : c.core.causeOf st = c.causeOf st := by cases st <;> rfl

theorem own_causeOf (c : Chg) (st : Slitter) : c.own.causeOf st = c.causeOf st := by cases st <;> rfl

theorem otherStation_ne (st : Slitter) : otherStation st ≠ st := by cases st <;> decide

theorem station_cases {x st : Slitter} (h : x ≠ otherStation st) : x = st := by cases x <;> cases st <;> simp_all [otherStation]

theorem endCause_chg (s : State) (st : Slitter) : (s.endCause st).chg = s.chg.setCause st .none := by
  unfold State.endCause
  split
  · rename_i none
    rw [← none, setCause_self]
  · exact closeSlit_chg _ _

theorem engage_chg (s : State) (st : Slitter) :
    ∃ x, (s.engage st).chg = ({ s.chg with engaged := some st } : Chg).setCause (otherStation st) x := by
  unfold State.engage
  dsimp only
  split
  · exact ⟨_, endCause_chg _ _⟩
  · exact ⟨_, (setCause_self _ _).symm⟩

theorem slitterLeft_chg (s : State) (st : Slitter) : ∃ x, (s.slitterLeft st).chg = s.chg.setCause st x := by
  unfold State.slitterLeft
  rw [State.notify_chg]
  split
  · exact ⟨.untilWorking, by rw [State.onChg_chg, openSlit_chg]⟩
  · exact ⟨_, (setCause_self _ _).symm⟩

/-- With a station engaged, the zone of a head record that is not its own is the other's. -/
theorem owner_ne {c : Chg} {st : Slitter} (engaged : c.engaged = some st)
    (head : ∀ r rest, c.records = r :: rest → r.target ≠ some st) : c.owner ≠ st := by
  have idle : c.idle ≠ st := by
    rw [Chg.idle, engaged]
    exact otherStation_ne st
  unfold Chg.owner
  cases records : c.records with
  | nil => exact idle
  | cons r rest =>
    cases target : r.target with
    | none => simpa [target] using idle
    | some x => simpa [target] using head r rest records

/-- Records that are, but for the head's status, a list with a head. -/
theorem unstatused_cons {l rest : List ChangeRec} {x : ChangeRec} (h : unstatused l = x :: rest) :
    ∃ r, l = r :: rest ∧ r.boundary = x.boundary ∧ r.target = x.target := by
  cases l with
  | nil => cases h
  | cons r tail =>
    obtain ⟨rfl, rfl⟩ := List.cons.inj h
    exact ⟨r, rfl, rfl, rfl⟩

theorem unstatused_boundaries (l : List ChangeRec) :
    (unstatused l).map (fun r => r.boundary) = l.map fun r => r.boundary := by
  cases l <;> rfl

/-! ### Which station acts (R82, R84) -/

/-- Both stations are judged, A first (R84). -/
def State.stationEvents (s : State) (old : Chg) (confirmed : Option Slitter) : State :=
  (s.stationEvent old confirmed .a).stationEvent old confirmed .b

/-- An event with no confirmation: the stations are judged, and the rest follows. -/
theorem slitterEvent_unconfirmed {s : State} {a b : Option SlitterState} (h : Chg.confirming s.chg (s.heard a b).chg = none) :
    s.slitterEvent a b = ((s.heard a b).stationEvents s.chg none).concluded s.chg := by
  rw [slitterEvent_eq]
  unfold State.takeConfirmation
  rw [h]
  rfl

theorem slitterEvent_confirmed {s : State} {a b : Option SlitterState} {r : ChangeRec} {st : Slitter} {rest : List ChangeRec}
    (h : Chg.confirming s.chg (s.heard a b).chg = some (r, st, rest)) :
    s.slitterEvent a b = (((s.heard a b).confirmSwap r st rest).stationEvents s.chg (some st)).concluded s.chg := by
  rw [slitterEvent_eq]
  unfold State.takeConfirmation
  rw [h]
  rfl

/-- Where the other station does not work, a head record is confirmed by this one or by none. -/
theorem confirming_none {old new : Chg} {st : Slitter} (other : new.stateOf (otherStation st) ≠ .working)
    (h : ∀ r rest, new.records = r :: rest → r.target = some st → ¬(new.stateOf st = .working ∧ (r.status = .swapping ∨
      r.status = .crossed ∧ old.stateOf st ≠ .working ∧ (new.heldOf st).map (fun p => p.id) = some r.preset.id))) :
    Chg.confirming old new = none := by
  unfold Chg.confirming
  split
  · rfl
  · rename_i r rest records
    split
    · rfl
    · rename_i x target
      by_cases hx : x = otherStation st
      · rw [hx]
        exact if_neg fun h => other h.1
      · obtain rfl := station_cases hx
        exact if_neg (h r rest records target)

/-- A station that does not work makes an event only by having left it. -/
theorem stationEvent_idle {s : State} {old : Chg} {c : Option Slitter} {st : Slitter} (h : s.chg.stateOf st ≠ .working) :
    s.stationEvent old c st = s ∨ s.chg.engaged = some st ∧ s.stationEvent old c st = s.slitterLeft st := by
  unfold State.stationEvent
  dsimp only
  split
  · exact .inl rfl
  · split
    · rename_i engaged
      split
      · exact absurd (by assumption) h
      · exact .inr ⟨engaged, rfl⟩
      · split
        · exact .inl rfl
        · exact .inr ⟨engaged, rfl⟩
    · rw [if_neg fun works => h works.1]
      exact .inl rfl

theorem stationEvent_still {s : State} {old : Chg} {c : Option Slitter} {st x : Slitter} (h : s.chg.stateOf x ≠ .working)
    (engaged : s.chg.engaged = some st) (hx : x ≠ st) : s.stationEvent old c x = s :=
  (stationEvent_idle h).resolve_right fun e => hx (Option.some.inj (e.1.symm.trans engaged))

/-- While one station is engaged and the other does not work, the one alone makes an event. -/
theorem stationEvents_one {s : State} {old : Chg} {c : Option Slitter} {st : Slitter} (other : s.chg.stateOf (otherStation st) ≠ .working)
    (engaged : s.chg.engaged = some st) (after : (s.stationEvent old c st).chg.engaged = some st) :
    s.stationEvents old c = s.stationEvent old c st := by
  unfold State.stationEvents
  cases st with
  | a =>
    refine stationEvent_still (fun works => other ?_) after (by decide)
    rwa [stateOf_tracked (stationEvent_tracked s old c .a) .b] at works
  | b => rw [stationEvent_still (x := .a) other engaged (by decide)]

theorem sameState_working (x : SlitterState) : (sameState x .working = true ↔ x = .working)
    ∧ (sameState .working x = true ↔ x = .working) := by
  cases x <;> simp [sameState]

/-- The engaged station works again. -/
theorem stationEvent_back {s : State} {old : Chg} {c : Option Slitter} {st : Slitter} (was : old.stateOf st ≠ .working)
    (works : s.chg.stateOf st = .working) (engaged : s.chg.engaged = some st) :
    s.stationEvent old c st = if old.engaged = some st then s.slitterBack st else s := by
  unfold State.stationEvent
  dsimp only
  rw [works, if_neg fun same => was ((sameState_working _).1.1 same), if_pos engaged]

/-- A station that works on makes no event. -/
theorem stationEvent_on {s : State} {old : Chg} {c : Option Slitter} {st : Slitter} (was : old.stateOf st = .working)
    (works : s.chg.stateOf st = .working) : s.stationEvent old c st = s := by
  unfold State.stationEvent
  dsimp only
  rw [works, was]
  exact if_pos rfl

/-- A station that is not engaged works without a plan. -/
theorem stationEvent_unplanned {s : State} {old : Chg} {st : Slitter} (was : old.stateOf st ≠ .working)
    (works : s.chg.stateOf st = .working) (engaged : s.chg.engaged ≠ some st) :
    s.stationEvent old none st = s.slitterUnplanned st := by
  unfold State.stationEvent
  dsimp only
  rw [works, if_neg fun same => was ((sameState_working _).1.1 same), if_neg engaged]
  exact if_pos ⟨rfl, nofun⟩

/-- The engaged station leaves WORKING. -/
theorem stationEvent_left {s : State} {old : Chg} {c : Option Slitter} {st : Slitter} (was : old.stateOf st = .working)
    (leaves : s.chg.stateOf st ≠ .working) (engaged : s.chg.engaged = some st)
    (h : s.chg.stateOf st = .fault ∨ ∀ r ∈ s.chg.records, r.status ≠ .swapping) :
    s.stationEvent old c st = s.slitterLeft st := by
  unfold State.stationEvent
  dsimp only
  rw [was, if_neg fun same => leaves ((sameState_working _).2.1 same), if_pos engaged]
  split
  · exact absurd (by assumption) leaves
  · rfl
  · rename_i fault
    refine if_neg fun any => ?_
    obtain ⟨r, hr, swapping⟩ := List.any_eq_true.1 any
    exact (h.resolve_left fault) r hr (eq_of_beq swapping)

end Sys2Proof.Machine
end

section
namespace Sys2Proof.Machine

/-! ### What the reports and the end of the event leave -/

theorem own_eq {c d : Chg} (h : d.own = c.own) : d.engaged = c.engaged ∧ d.expected = c.expected ∧ d.records = c.records
    ∧ d.changeover = c.changeover := by
  simp only [Chg.own, Chg.beside, Chg.mk.injEq] at h
  simp [h]

theorem core_eq {c d : Chg} (h : d.core = c.core) :
    d.engaged = c.engaged ∧ d.expected = c.expected ∧ unstatused d.records = unstatused c.records := by
  simp only [Chg.core, Chg.mk.injEq] at h
  simp [h]

namespace State.Heard

variable {s w : State} {a b : Option SlitterState}

theorem engaged (h : s.Heard a b w) : w.chg.engaged = s.chg.engaged := (own_eq h.own).1

theorem expected (h : s.Heard a b w) : w.chg.expected = s.chg.expected := (own_eq h.own).2.1

theorem records (h : s.Heard a b w) : w.chg.records = s.chg.records := (own_eq h.own).2.2.1

theorem changeover (h : s.Heard a b w) : w.chg.changeover = s.chg.changeover := (own_eq h.own).2.2.2

theorem causeOf (h : s.Heard a b w) (st : Slitter) : w.chg.causeOf st = s.chg.causeOf st := by
  rw [← own_causeOf, h.own, own_causeOf]

end State.Heard

/-- What the end of the event leaves of the Changeover Unit's state. -/
structure State.Concluded (y t : State) : Prop where
  engaged : t.chg.engaged = y.chg.engaged
  expected : t.chg.expected = y.chg.expected
  causeOf : ∀ st, t.chg.causeOf st = y.chg.causeOf st
  records : unstatused t.chg.records = unstatused y.chg.records

theorem concluded_leaves (y : State) (old : Chg) : y.Concluded (y.concluded old) := by
  have core := (Later.core y.chg.core).concluded old rfl
  obtain ⟨engaged, expected, records⟩ := core_eq core
  exact ⟨engaged, expected, fun st => by rw [← core_causeOf, core, core_causeOf], records⟩

/-! ### The engaged station leaves WORKING and works again (R84) -/

section

variable {s : State} {a b : Option SlitterState} {st : Slitter}

/-- What a station's report makes of its state, or what it was. -/
def State.nowOf (s : State) (a b : Option SlitterState) (x : Slitter) : SlitterState := (reportOf a b x).getD (s.chg.stateOf x)

theorem nowOf_report {x : SlitterState} (h : reportOf a b st = some x) : s.nowOf a b st = x := by rw [State.nowOf, h]; rfl

/-- A report of WORKING leaves the held preset (R77). -/
theorem heard_held (h : reportOf a b st = some .working) : (s.heard a b).chg.heldOf st = s.chg.heldOf st := by
  rw [(heard_leaves s a b).held, h]
  rfl

/-- An event with no confirmation at which one engaged station alone is judged. -/
theorem slitterEvent_one {y : State} (other : s.nowOf a b (otherStation st) ≠ .working) (engaged : s.chg.engaged = some st)
    (unconfirmed : Chg.confirming s.chg (s.heard a b).chg = none) (judged : (s.heard a b).stationEvent s.chg none st = y)
    (after : y.chg.engaged = some st) : s.slitterEvent a b = y.concluded s.chg := by
  have heard := heard_leaves s a b
  rw [slitterEvent_unconfirmed unconfirmed, stationEvents_one (by rw [heard.state]; exact other)
    (heard.engaged.trans engaged) (by rw [judged]; exact after), judged]

theorem engaged_leaves {x : SlitterState} (other : s.nowOf a b (otherStation st) ≠ .working)
    (engaged : s.chg.engaged = some st) (was : s.chg.stateOf st = .working) (report : reportOf a b st = some x)
    (leaves : x ≠ .working) (h : x = .fault ∨ ∀ r ∈ s.chg.records, r.status ≠ .swapping) (hd : s.line.nums.dSs ≠ 0)
    (cause : s.chg.causeOf st = .none) (room : s.rif.routine.length ≤ 40) :
    let t := s.slitterEvent a b
    t.chg.engaged = some st ∧ t.chg.causeOf st = .untilWorking ∧ t.Slit st ∧ t.chg.expected = s.chg.expected
      ∧ .notice (.slitterFault x) ∈ t.rif.routine := by
  have heard := heard_leaves s a b
  have now : (s.heard a b).chg.stateOf st = x := (heard.state st).trans (nowOf_report report)
  have leaves' : (s.heard a b).chg.stateOf st ≠ .working := by rwa [now]
  have engaged' : (s.heard a b).chg.engaged = some st := heard.engaged.trans engaged
  have cause' : (s.heard a b).chg.causeOf st = .none := by rw [heard.causeOf, cause]
  have hd' : (s.heard a b).line.nums.dSs ≠ 0 := by rwa [heard.line]
  have left : (s.heard a b).slitterLeft st
      = (((s.heard a b).openSlit st (s.heard a b).line.nums.dSs).onChg fun c => c.setCause st .untilWorking).notify
          (.slitterFault x) := by
    unfold State.slitterLeft
    rw [if_pos ⟨cause', hd'⟩]
    dsimp only
    rw [State.onChg_chg, openSlit_chg, stateOf_tracked (setCause_tracked _ _ _), now]
  have chg : ((s.heard a b).slitterLeft st).chg = (s.heard a b).chg.setCause st .untilWorking := by simp [left]
  have event := slitterEvent_one other engaged (confirming_none (by rw [heard.state]; exact other) fun _ _ _ _ c => leaves' c.1)
    (stationEvent_left was leaves' engaged' (by rw [now, heard.records]; exact h))
    (by rw [chg, setCause_engaged, engaged'])
  have final := concluded_leaves ((s.heard a b).slitterLeft st) s.chg
  have slit : ((s.heard a b).slitterLeft st).Slit st := by
    rw [left, State.Slit, State.notify_wmp]
    exact openSlit_claimed st _ hd'
  have waits : ((s.heard a b).slitterLeft st).Waiting 42 [.slitterFault x] := by
    rw [left]
    exact ((heard.routine room).of_eq (openSlit_routine _ st _)).notify _ (by decide)
  rw [event]
  refine ⟨?_, ?_, (Later.slit st).concluded _ slit, ?_, (waits.concluded s.chg (by decide)).2 _ List.mem_cons_self⟩
  · rw [final.engaged, chg, setCause_engaged, engaged']
  · rw [final.causeOf, chg, setCause_causeOf]
  · rw [final.expected, chg, setCause_expected, heard.expected]

/-- A cause that ends closes its claim, where the changeover zone is not the station's. -/
theorem endCause_closes {s : State} {st : Slitter} (cause : s.chg.causeOf st ≠ .none) (zone : s.chg.changeover ≠ some st) :
    ¬(s.endCause st).Slit st := by
  unfold State.endCause State.closeSlit
  rw [if_neg cause, if_neg]
  · exact claims_false (closeClaim_gone _ _ _ _)
  · rw [State.onChg_chg, setCause_changeover, setCause_causeOf]
    exact not_or.2 ⟨zone, fun h => h rfl⟩

/-- With a preset held the station's claim that waited for its work ends, and E stands. -/
theorem slitterBack_held {s : State} {st : Slitter} {p : Preset} (held : s.chg.heldOf st = some p) :
    (∃ x, (s.slitterBack st).chg = s.chg.setCause st x) ∧ (s.chg.causeOf st = .untilWorking → s.chg.changeover ≠ some st →
      (s.slitterBack st).chg.causeOf st = .none ∧ ¬(s.slitterBack st).Slit st) := by
  unfold State.slitterBack
  rw [held]
  dsimp only
  rw [if_pos (by rfl)]
  by_cases waited : s.chg.causeOf st = .untilWorking
  · rw [if_pos waited, endCause_chg]
    exact ⟨⟨_, rfl⟩, fun _ zone => ⟨setCause_causeOf _ _ _, endCause_closes (by rw [waited]; exact nofun) zone⟩⟩
  · rw [if_neg waited]
    exact ⟨⟨_, (setCause_self _ _).symm⟩, fun h => absurd h waited⟩

/-- With none held E is unknown. -/
theorem slitterBack_bare {s : State} {st : Slitter} (held : s.chg.heldOf st = none) :
    ∃ x, (s.slitterBack st).chg = { s.chg.setCause st x with expected := none } := by
  unfold State.slitterBack
  rw [held]
  dsimp only
  rw [if_neg (by exact nofun), State.onChg_chg]
  split
  · exact ⟨_, rfl⟩
  · exact ⟨_, by rw [setCause_self]⟩

theorem slitterBack_chg (s : State) (st : Slitter) :
    ∃ x e, (s.slitterBack st).chg = { s.chg.setCause st x with expected := e } := by
  cases held : s.chg.heldOf st with
  | none =>
    obtain ⟨x, e⟩ := slitterBack_bare held
    exact ⟨x, _, e⟩
  | some p =>
    obtain ⟨x, e⟩ := (slitterBack_held held).1
    exact ⟨x, (s.chg.setCause st x).expected, e⟩

theorem engaged_back (other : s.nowOf a b (otherStation st) ≠ .working) (engaged : s.chg.engaged = some st)
    (was : s.chg.stateOf st ≠ .working) (report : reportOf a b st = some .working)
    (head : ∀ r rest, s.chg.records = r :: rest → r.target ≠ some st) :
    let t := s.slitterEvent a b
    t.chg.engaged = some st
      ∧ (∀ p, s.chg.heldOf st = some p → t.chg.expected = s.chg.expected
          ∧ (s.chg.causeOf st = .untilWorking → s.chg.changeover ≠ some st → t.chg.causeOf st = .none ∧ ¬t.Slit st))
      ∧ (s.chg.heldOf st = none → t.chg.expected = none) := by
  have heard := heard_leaves s a b
  have engaged' : (s.heard a b).chg.engaged = some st := heard.engaged.trans engaged
  have records : (s.heard a b).chg.records = s.chg.records := heard.records
  obtain ⟨x, e, chg⟩ := slitterBack_chg (s.heard a b) st
  have after : ((s.heard a b).slitterBack st).chg.engaged = some st := by
    rw [chg]
    exact (setCause_engaged _ _ _).trans engaged'
  have event := slitterEvent_one other engaged
    (confirming_none (by rw [heard.state]; exact other) fun r rest h target _ => head r rest (records ▸ h) target)
    ((stationEvent_back was ((heard.state st).trans (nowOf_report report)) engaged').trans (if_pos engaged)) after
  have final := concluded_leaves ((s.heard a b).slitterBack st) s.chg
  rw [event]
  refine ⟨(final.engaged).trans after, fun p held => ?_, fun held => ?_⟩
  · obtain ⟨⟨x, kept⟩, closes⟩ := slitterBack_held ((heard_held report).trans held)
    refine ⟨?_, fun waited zone => ?_⟩
    · rw [final.expected, kept, setCause_expected, heard.expected]
    · obtain ⟨ended, unclaimed⟩ := closes (by rw [heard.causeOf, waited])
        (by rw [heard.changeover]; exact zone)
      have owner : ((s.heard a b).slitterBack st).chg.core.owner ≠ st := by
        rw [core_owner]
        refine owner_ne after fun r rest h => head r rest ?_
        rw [← records, ← h, kept, setCause_records]
      exact ⟨by rw [final.causeOf, ended], ((Later.unclaimed owner).concluded s.chg ⟨rfl, unclaimed⟩).2⟩
  · obtain ⟨x, bare⟩ := slitterBack_bare ((heard_held report).trans held)
    exact (final.expected).trans (congrArg Chg.expected bare)

end

end Sys2Proof.Machine
end

section
namespace Sys2Proof.Machine

/-! ### A station engaged without a plan (R84) -/

theorem closeSlit_only (s : State) (st : Slitter) : ∃ w, s.closeSlit st = { s with wmp := w } := by
  unfold State.closeSlit
  split
  · exact ⟨_, rfl⟩
  · exact ⟨_, rfl⟩

theorem endCause_only (s : State) (st : Slitter) : ∃ c w, s.endCause st = { s with chg := c, wmp := w } := by
  unfold State.endCause
  split
  · exact ⟨_, _, rfl⟩
  · obtain ⟨w, e⟩ := closeSlit_only (s.onChg fun c => c.setCause st .none) st
    exact ⟨_, w, e⟩

theorem engage_only (s : State) (st : Slitter) : ∃ c w, s.engage st = { s with chg := c, wmp := w } := by
  unfold State.engage
  dsimp only
  split
  · exact endCause_only _ _
  · exact ⟨_, _, rfl⟩

/-- An engagement makes no item, and leaves the line constants. -/
theorem engage_aside (s : State) (st : Slitter) : (s.engage st).rif = s.rif ∧ (s.engage st).line = s.line := by
  obtain ⟨c, w, e⟩ := engage_only s st
  rw [e]
  exact ⟨rfl, rfl⟩

theorem learnSetting_held {s : State} {st : Slitter} {p : Preset} (held : s.chg.heldOf st = some p) :
    s.learnSetting st = s.onChg fun c => { c with expected := if s.chg.records = [] then some p.setting else c.expected } := by
  unfold State.learnSetting
  rw [held]
  dsimp only
  cases s.chg.records <;> rfl

theorem learnSetting_bare {s : State} {st : Slitter} (held : s.chg.heldOf st = none) :
    s.learnSetting st = (s.openSlit st s.line.nums.dSs).onChg fun c =>
      { c.setCause st (if s.line.nums.dSs = 0 then c.causeOf st else .untilSwap) with expected := none } := by
  unfold State.learnSetting
  rw [held]
  dsimp only
  by_cases hd : s.line.nums.dSs = 0
  · simp only [if_pos hd, setCause_self]
  · simp only [if_neg hd]

/-- What is learned of a station's setting leaves the rest of the Changeover Unit's state, and makes no item. -/
theorem learnSetting_leaves (s : State) (st : Slitter) : (∃ x e, (s.learnSetting st).chg = { s.chg.setCause st x with expected := e })
    ∧ (s.learnSetting st).rif.routine = s.rif.routine := by
  cases held : s.chg.heldOf st with
  | none =>
    rw [learnSetting_bare held]
    exact ⟨⟨_, _, by rw [State.onChg_chg, openSlit_chg]⟩, openSlit_routine _ _ _⟩
  | some p =>
    rw [learnSetting_held held]
    exact ⟨⟨s.chg.causeOf st, _, by rw [setCause_self]; rfl⟩, rfl⟩

/-- A head record without a target is given the idle station. -/
theorem presetHead_leaves {s : State} {r : ChangeRec} {rest : List ChangeRec} (records : s.chg.records = r :: rest)
    (target : r.target = none) :
    ∃ x sent, s.presetHead.chg = { s.chg with records := { r with target := some s.chg.idle, status := x } :: rest, sent := sent }
      ∧ s.presetHead.wmp = s.wmp := by
  unfold State.presetHead
  rw [records]
  dsimp only
  rw [target, if_neg (by exact nofun)]
  simp [State.sendPreset, Chg.idle]

/-- What a new target of the head record leaves. -/
structure State.Retargeted (s t : State) (st : Slitter) : Prop where
  engaged : t.chg.engaged = s.chg.engaged
  expected : t.chg.expected = s.chg.expected
  causeOf : ∀ x, t.chg.causeOf x = s.chg.causeOf x
  slit : ∀ x, s.Slit x → t.Slit x
  waits : ∀ k l, k < 48 → s.Waiting k l → t.Waiting (k + 1) l
  target : s.chg.engaged = some st → ∀ r rest, s.chg.records = r :: rest → r.target = some st →
    ∃ r', t.chg.records = r' :: rest ∧ r'.boundary = r.boundary ∧ r'.target = some (otherStation st)

theorem retarget_leaves (s : State) (st : Slitter) : s.Retargeted (s.retarget st) st := by
  have still (h : ∀ r rest, s.chg.records = r :: rest → r.target ≠ some st) : s.Retargeted s st :=
    ⟨rfl, rfl, fun _ => rfl, fun _ => id, fun _ _ _ => State.Waiting.more, fun _ r rest e t => absurd t (h r rest e)⟩
  unfold State.retarget
  split
  · rename_i records
    exact still fun r rest e => by rw [records] at e; cases e
  · rename_i r rest records
    split
    · rename_i target
      obtain ⟨x, sent, chg, wmp⟩ := presetHead_leaves (s := s.onChg fun c => { c with records := { r with target := none } :: rest })
        rfl rfl
      have core := (Later.core _).examineCrossed
        (s := (s.onChg fun c => { c with records := { r with target := none } :: rest }).presetHead) rfl
      rw [chg] at core
      obtain ⟨engaged, expected, heads⟩ := core_eq core
      refine ⟨engaged, expected, fun x => ?_, fun x h => ?_, fun k l room h => ?_, fun engaged r' rest' e _ => ?_⟩
      · rw [← core_causeOf, core, core_causeOf]
        cases x <;> rfl
      · refine (Later.slit x).examineCrossed ?_
        rw [State.Slit, wmp]
        exact h
      · refine State.Waiting.examineCrossed (State.Waiting.presetHead room ?_)
        exact h
      · obtain ⟨rfl, rfl⟩ := List.cons.inj (records.symm.trans e)
        obtain ⟨r', e, boundary, target⟩ := unstatused_cons heads
        exact ⟨r', e, boundary, target.trans (by simp [Chg.idle, engaged])⟩
    · rename_i target
      refine still fun r' rest' e => ?_
      obtain ⟨rfl, -⟩ := List.cons.inj (records.symm.trans e)
      exact target

/-- What an engagement without a plan leaves. -/
structure State.Unplanned (s t : State) (st : Slitter) : Prop where
  engaged : t.chg.engaged = some st
  waits : s.Waiting 42 [] → t.Waiting 44 [.slitterUnplanned]
  held : ∀ p, s.chg.heldOf st = some p → t.chg.expected = if s.chg.records = [] then some p.setting else s.chg.expected
  bare : s.chg.heldOf st = none → t.chg.expected = none
    ∧ (s.line.nums.dSs ≠ 0 → t.chg.causeOf st = .untilSwap ∧ t.Slit st)
  target : ∀ r rest, s.chg.records = r :: rest → r.target = some st →
    ∃ r', t.chg.records = r' :: rest ∧ r'.boundary = r.boundary ∧ r'.target = some (otherStation st)

theorem slitterUnplanned_leaves (s : State) (st : Slitter) : s.Unplanned (s.slitterUnplanned st) st := by
  obtain ⟨x, engaged⟩ := engage_chg s st
  obtain ⟨rif, line⟩ := engage_aside s st
  have noticed : ((s.engage st).notify .slitterUnplanned).chg = ({ s.chg with engaged := some st } : Chg).setCause (otherStation st) x := by
    rw [State.notify_chg, engaged]
  have heldOf : ((s.engage st).notify .slitterUnplanned).chg.heldOf st = s.chg.heldOf st := by
    rw [noticed, setCause_heldOf]
    cases st <;> rfl
  have records : ((s.engage st).notify .slitterUnplanned).chg.records = s.chg.records := by rw [noticed, setCause_records]
  obtain ⟨⟨y, e, learned⟩, quiet⟩ := learnSetting_leaves ((s.engage st).notify .slitterUnplanned) st
  have kept : (((s.engage st).notify .slitterUnplanned).learnSetting st).chg.engaged = some st
      ∧ (((s.engage st).notify .slitterUnplanned).learnSetting st).chg.records = s.chg.records := by
    rw [learned, noticed]
    exact ⟨by simp, by simp⟩
  have moved := retarget_leaves (((s.engage st).notify .slitterUnplanned).learnSetting st) st
  refine ⟨moved.engaged.trans kept.1, fun h => ?_, fun p held => ?_, fun held => ?_, fun r rest e =>
    moved.target kept.1 r rest (kept.2.trans e)⟩
  · exact moved.waits 43 _ (by decide) (((h.of_eq (congrArg Rif.routine rif)).notify .slitterUnplanned (by decide)).of_eq quiet)
  · refine moved.expected.trans ?_
    rw [learnSetting_held (heldOf.trans held), records, State.onChg_chg, noticed, setCause_expected]
  · have bare := learnSetting_bare (heldOf.trans held)
    refine ⟨moved.expected.trans (by rw [bare]; rfl), fun hd => ?_⟩
    have hd' : ((s.engage st).notify .slitterUnplanned).line.nums.dSs ≠ 0 := by rwa [State.notify_line, line]
    refine ⟨(moved.causeOf st).trans ?_, moved.slit st ?_⟩
    · rw [bare]
      simp only [if_neg hd', State.onChg_chg]
      cases st <;> rfl
    · rw [bare]
      exact openSlit_claimed st _ hd'

/-! #### Its event -/

/-- A station that leaves WORKING leaves its record of the Changeover Unit's state, and makes one item. -/
theorem slitterLeft_leaves (s : State) (st : Slitter) :
    (s.slitterLeft st).line = s.line ∧ ∀ k l, k < 48 → s.Waiting k l → (s.slitterLeft st).Waiting (k + 1) l := by
  obtain ⟨⟨-, -, -, -, -, line⟩, -⟩ := (Slits.aside s).slitterLeft st ⟨.refl s, rfl⟩
  refine ⟨line, fun k l room h => State.Waiting.queueRoutine _ room ?_⟩
  exact ite_keeps (P := fun t => t.Waiting k l) (fun _ => h.of_eq (openSlit_routine _ _ _)) fun _ => h

/-- The stations' events where one that is not engaged works without a plan: the other may leave WORKING before. -/
theorem stationEvents_unplanned {s : State} {old : Chg} {st : Slitter} (was : old.stateOf st ≠ .working)
    (works : s.chg.stateOf st = .working) (engaged : s.chg.engaged ≠ some st) (other : s.chg.stateOf (otherStation st) ≠ .working) :
    ∃ z, (z = s ∨ z = s.slitterLeft (otherStation st)) ∧ s.stationEvents old none = z.slitterUnplanned st := by
  unfold State.stationEvents
  cases st with
  | a =>
    have first := stationEvent_unplanned was works engaged
    refine ⟨s, .inl rfl, ?_⟩
    rw [first]
    refine stationEvent_still (fun works => other ?_) (slitterUnplanned_leaves s .a).engaged (by decide)
    rw [← first] at works
    rwa [stateOf_tracked (stationEvent_tracked s old none .a) .b] at works
  | b =>
    have idle := stationEvent_idle (old := old) (c := none) (st := .a) other
    refine ⟨s.stationEvent old none .a, idle.imp id And.right, stationEvent_unplanned was ?_ ?_⟩
    · rw [stateOf_tracked (stationEvent_tracked s old none .a), works]
    · rcases idle with e | ⟨-, e⟩
      · rwa [e]
      · obtain ⟨x, chg⟩ := slitterLeft_chg s .a
        rw [e, chg, setCause_engaged]
        exact engaged

theorem unplanned_engages {s : State} {a b : Option SlitterState} {st : Slitter} (other : s.nowOf a b (otherStation st) ≠ .working)
    (engaged : s.chg.engaged ≠ some st) (was : s.chg.stateOf st ≠ .working) (report : reportOf a b st = some .working)
    (unconfirmed : ∀ r rest, s.chg.records = r :: rest → ¬(r.target = some st ∧ (r.status = .swapping ∨ r.status = .crossed
      ∧ s.chg.stateOf st ≠ .working ∧ (s.chg.heldOf st).map (fun p => p.id) = some r.preset.id)))
    (room : s.rif.routine.length ≤ 40) :
    let t := s.slitterEvent a b
    t.chg.engaged = some st ∧ .notice .slitterUnplanned ∈ t.rif.routine
      ∧ (∀ p, s.chg.heldOf st = some p → t.chg.expected = if s.chg.records = [] then some p.setting else s.chg.expected)
      ∧ (s.chg.heldOf st = none → t.chg.expected = none
          ∧ (s.line.nums.dSs ≠ 0 → t.chg.causeOf st = .untilSwap ∧ t.Slit st))
      ∧ (∀ r rest, s.chg.records = r :: rest → r.target = some st →
          ∃ r', t.chg.records = r' :: rest ∧ r'.boundary = r.boundary ∧ r'.target = some (otherStation st)) := by
  have heard := heard_leaves s a b
  have held := heard_held (s := s) report
  have none_ : Chg.confirming s.chg (s.heard a b).chg = none :=
    confirming_none (by rw [heard.state]; exact other) fun r rest e target c =>
      unconfirmed r rest (heard.records ▸ e) ⟨target, by rw [← held]; exact c.2⟩
  obtain ⟨z, hz, event⟩ := stationEvents_unplanned was ((heard.state st).trans (nowOf_report report))
    (by rw [heard.engaged]; exact engaged) (by rw [heard.state]; exact other)
  have before : z.chg.heldOf st = s.chg.heldOf st ∧ z.chg.records = s.chg.records ∧ z.chg.expected = s.chg.expected
      ∧ z.line = s.line ∧ z.Waiting 42 [] := by
    rcases hz with rfl | rfl
    · exact ⟨held, heard.records, heard.expected, heard.line, (heard.routine room).more⟩
    · obtain ⟨x, chg⟩ := slitterLeft_chg (s.heard a b) (otherStation st)
      obtain ⟨line, waits⟩ := slitterLeft_leaves (s.heard a b) (otherStation st)
      rw [chg, setCause_heldOf, setCause_records, setCause_expected]
      exact ⟨held, heard.records, heard.expected, line.trans heard.line, waits _ _ (by decide) (heard.routine room)⟩
  obtain ⟨heldOf, records, expected, line, waits⟩ := before
  have left := slitterUnplanned_leaves z st
  have final := concluded_leaves (z.slitterUnplanned st) s.chg
  rw [slitterEvent_unconfirmed none_, event]
  refine ⟨final.engaged.trans left.engaged, ((left.waits waits).concluded s.chg (by decide)).2 _ List.mem_cons_self, fun p h => ?_,
    fun h => ?_, fun r rest e target => ?_⟩
  · rw [final.expected, left.held p (heldOf.trans h), records, expected]
  · obtain ⟨unknown, claim⟩ := left.bare (heldOf.trans h)
    refine ⟨final.expected.trans unknown, fun hd => ?_⟩
    obtain ⟨cause, slit⟩ := claim (by rwa [line])
    exact ⟨(final.causeOf st).trans cause, (Later.slit st).concluded s.chg slit⟩
  · obtain ⟨r', e', boundary, moved⟩ := left.target r rest (records.trans e) target
    have heads := final.records
    rw [e'] at heads
    obtain ⟨x, e, boundary', moved'⟩ := unstatused_cons heads
    exact ⟨x, e, boundary'.trans boundary, moved'.trans moved⟩

end Sys2Proof.Machine
end

section
namespace Sys2Proof.Machine

variable {P : State → Prop}

/-! ### A confirmed swap (R82) -/

theorem endUntilSwap_only (s : State) (st : Slitter) : ∃ c w, s.endUntilSwap st = { s with chg := c, wmp := w } := by
  unfold State.endUntilSwap
  split
  · exact endCause_only _ _
  · exact ⟨_, _, rfl⟩

/-- A cause that lasts until a swap ends, and any other stands. -/
theorem endUntilSwap_chg (s : State) (st : Slitter) :
    (s.endUntilSwap st).chg = s.chg.setCause st (if s.chg.causeOf st = .untilSwap then .none else s.chg.causeOf st) := by
  unfold State.endUntilSwap
  split
  · exact endCause_chg _ _
  · exact (setCause_self _ _).symm

/-- No cause of the other station waits for it to work, and the engaged station's cause is what it was. -/
theorem engage_causeOf {s : State} {st o : Slitter} (h : o ≠ st ∨ s.chg.causeOf o ≠ .untilWorking) :
    (s.engage st).chg.causeOf o ≠ .untilWorking := by
  unfold State.engage
  dsimp only
  rw [State.onChg_chg]
  by_cases same : o = st
  · subst same
    have stands := h.resolve_left fun n => n rfl
    split
    · rw [endCause_chg]
      cases o <;> exact stands
    · cases o <;> exact stands
  · obtain rfl : o = otherStation st := by cases o <;> cases st <;> simp_all [otherStation]
    split
    · rw [endCause_chg, setCause_causeOf]
      exact nofun
    · assumption

/-- What the Changeover Unit holds beside the causes of R84. -/
def Chg.sansCauses (c : Chg) : Chg := { c with causeA := .none, causeB := .none }

theorem setCause_sansCauses (c : Chg) (st : Slitter) (x : SlitCause) : (c.setCause st x).sansCauses = c.sansCauses := by
  cases st <;> rfl

/-- The causes that last until a swap end. -/
def State.untilSwapsEnded (s : State) : State := (s.endUntilSwap .a).endUntilSwap .b

theorem untilSwapsEnded_chg (s : State) : s.untilSwapsEnded.chg.sansCauses = s.chg.sansCauses
    ∧ ∀ o, s.chg.causeOf o ≠ .untilWorking → s.untilSwapsEnded.chg.causeOf o = .none := by
  have ended (x : SlitCause) (h : x ≠ .untilWorking) : (if x = .untilSwap then .none else x) = SlitCause.none := by
    cases x <;> simp_all
  unfold State.untilSwapsEnded
  rw [endUntilSwap_chg, endUntilSwap_chg]
  refine ⟨by simp only [setCause_sansCauses], fun o h => ?_⟩
  cases o with
  | a => exact ended _ h
  | b => exact ended _ h

/-- The target is engaged, the head record leaves, and the swap is logged. -/
def State.swapLogged (s : State) (r : ChangeRec) (st : Slitter) (rest : List ChangeRec) : State :=
  (((s.onChg fun c => { c with timer := 0 }).engage st).onChg fun c => { c with records := rest }).log
    (.swap r.boundary st r.preset.id)

/-- The swap is taken. -/
def State.swapTaken (s : State) (r : ChangeRec) (st : Slitter) (rest : List ChangeRec) : State :=
  (s.swapLogged r st rest).untilSwapsEnded

theorem confirmSwap_eq (s : State) (r : ChangeRec) (st : Slitter) (rest : List ChangeRec) : s.confirmSwap r st rest =
    if rest.isEmpty then
      (s.swapTaken r st rest).presetHead.examineCrossed.settleZone.forecastFor
        (s.swapTaken r st rest).presetHead.examineCrossed.settleZone.osq.candidate
    else (s.swapTaken r st rest).presetHead.examineCrossed.settleZone := rfl

/-- What the taking of a swap leaves. -/
structure State.Taken (s t : State) (st : Slitter) (rest : List ChangeRec) (b : LogBody) : Prop where
  chg : t.chg.sansCauses = ({ s.chg with timer := 0, engaged := some st, records := rest } : Chg).sansCauses
  causeOf : ∀ o, o ≠ st ∨ s.chg.causeOf o ≠ .untilWorking → t.chg.causeOf o = .none
  plg : t.plg = (s.log b).plg

theorem swapTaken_leaves (s : State) (r : ChangeRec) (st : Slitter) (rest : List ChangeRec) :
    s.Taken (s.swapTaken r st rest) st rest (.swap r.boundary st r.preset.id) := by
  obtain ⟨x, engaged⟩ := engage_chg (s.onChg fun c => { c with timer := 0 }) st
  obtain ⟨c, w, only⟩ := engage_only (s.onChg fun c => { c with timer := 0 }) st
  have logged : (s.swapLogged r st rest).chg
      = { ((s.onChg fun c => { c with timer := 0 }).engage st).chg with records := rest } := State.log_chg _ _
  obtain ⟨beside, causes⟩ := untilSwapsEnded_chg (s.swapLogged r st rest)
  refine ⟨beside.trans ?_, fun o h => causes o ?_, ?_⟩
  · rw [logged, engaged]
    cases st <;> rfl
  · rw [logged]
    exact engage_causeOf (s := s.onChg fun c => { c with timer := 0 }) h
  · obtain ⟨_, _, first⟩ := endUntilSwap_only (s.swapLogged r st rest) .a
    obtain ⟨_, _, second⟩ := endUntilSwap_only ((s.swapLogged r st rest).endUntilSwap .a) .b
    have ended : (s.swapTaken r st rest).plg = (s.swapLogged r st rest).plg := by
      rw [State.swapTaken, State.untilSwapsEnded, second, first]
    refine ended.trans (log_plg_congr _ ?_ ?_)
    · rw [only]
      rfl
    · rw [only]
      rfl

theorem sansCauses_eq {c d : Chg} (h : d.sansCauses = c.sansCauses) :
    d.engaged = c.engaged ∧ d.expected = c.expected ∧ d.records = c.records ∧ d.timer = c.timer ∧ d.changeover = c.changeover := by
  simp only [Chg.sansCauses, Chg.mk.injEq] at h
  simp [h]

/-! #### With records behind -/

theorem presetHead_kept (s : State) : s.presetHead.chg.engaged = s.chg.engaged ∧ s.presetHead.chg.expected = s.chg.expected
    ∧ s.presetHead.chg.records.map (fun x => x.boundary) = s.chg.records.map fun x => x.boundary := by
  cases records : s.chg.records with
  | nil =>
    unfold State.presetHead
    rw [records]
    exact ⟨rfl, rfl, by rw [records]⟩
  | cons r rest =>
    cases target : r.target with
    | none =>
      obtain ⟨x, sent, chg, -⟩ := presetHead_leaves records target
      rw [chg]
      exact ⟨rfl, rfl, rfl⟩
    | some st =>
      unfold State.presetHead
      rw [records]
      dsimp only
      rw [target, if_pos (by rfl)]
      exact ⟨rfl, rfl, by rw [records]⟩

theorem settleZone_chg (s : State) : ∃ x, s.settleZone.chg = { s.chg with changeover := x } := by
  unfold State.settleZone
  split
  · exact ⟨_, rfl⟩
  · split
    · exact ⟨_, rfl⟩
    · exact ⟨none, by simp⟩

/-- What a confirmed swap leaves. -/
theorem confirmSwap_leaves (s : State) (r : ChangeRec) (st : Slitter) (rest : List ChangeRec) :
    (s.confirmSwap r st rest).chg.engaged = some st ∧ (s.confirmSwap r st rest).chg.expected = s.chg.expected
      ∧ (s.confirmSwap r st rest).chg.records.map (fun x => x.boundary) = rest.map fun x => x.boundary := by
  obtain ⟨engaged, expected, records, -⟩ := sansCauses_eq (swapTaken_leaves s r st rest).chg
  obtain ⟨engaged', expected', records'⟩ := presetHead_kept (s.swapTaken r st rest)
  obtain ⟨x, zone⟩ := settleZone_chg (s.swapTaken r st rest).presetHead.examineCrossed
  have examined := (Later.core _).examineCrossed (s := (s.swapTaken r st rest).presetHead) rfl
  have settled : (s.swapTaken r st rest).presetHead.examineCrossed.settleZone.chg.core
      = (s.swapTaken r st rest).presetHead.chg.core := by
    rw [zone]
    exact examined
  have core : (s.confirmSwap r st rest).chg.core = (s.swapTaken r st rest).presetHead.chg.core := by
    rw [confirmSwap_eq]
    exact ite_keeps (P := fun t => t.chg.core = (s.swapTaken r st rest).presetHead.chg.core)
      (fun _ => (Later.core _).forecastFor _ settled) fun _ => settled
  obtain ⟨engaged'', expected'', records''⟩ := core_eq core
  refine ⟨engaged''.trans (engaged'.trans engaged), expected''.trans (expected'.trans expected), ?_⟩
  rw [← unstatused_boundaries, records'', unstatused_boundaries, records', records]

/-! #### With none behind -/

/-- A close leaves a mark no claim that it had not. -/
theorem close_claims {ended : Claim → Bool} {x : Int} {m y : Mark} (h : m.close ended x = some y) {c : Claim} (hc : c ∈ y.claims) :
    c ∈ m.claims := by
  unfold Mark.close at h
  split at h
  · split at h
    · cases h
    · obtain rfl := Option.some.inj h
      exact (List.mem_filter.1 hc).1
  · obtain rfl := Option.some.inj h
    exact hc

/-- The swap under way. -/
def Chg.swap (c : Chg) : List ChangeRec × Nat × Option Slitter := (c.records, c.timer, c.changeover)

/-- P is kept where no record is held: by presets, by faults handed, by claims closed, and by changes beside the swap under way. -/
structure Calm (P : State → Prop) : Prop where
  routine : ∀ {s : State} (o), P s → P (s.queueRoutine o)
  hand : ∀ {s : State} (c d), P s → P (s.hand c d)
  close : ∀ {s : State} (k o x), P s → P (s.closeClaim k o x)
  chg : ∀ {s : State} (f : Chg → Chg), (f s.chg).swap = s.chg.swap → P s → P (s.onChg f)

namespace Calm

theorem forecastFor (K : Calm P) {s : State} (c : Option Nat) (h : P s) : P (s.forecastFor c) := by
  have none_ : P (s.onChg fun c => { c with forecast := none }) := K.chg _ rfl h
  unfold State.forecastFor
  refine ite_keeps (fun _ => none_) fun _ => ?_
  split
  · exact none_
  · exact ite_keeps (fun _ => none_) fun _ => ite_keeps (fun _ => h) fun _ => K.chg _ rfl (K.chg _ rfl (K.routine _ h))

theorem endCause (K : Calm P) {s : State} (st : Slitter) (h : P s) : P (s.endCause st) :=
  ite_keeps (fun _ => h) fun _ => ite_keeps (fun _ => K.chg _ (by simp [Chg.swap]) h) fun _ =>
    K.close _ _ _ (K.chg _ (by simp [Chg.swap]) h)

theorem slitterBack (K : Calm P) {s : State} (st : Slitter) (h : P s) : P (s.slitterBack st) := by
  refine ite_keeps (fun _ => ite_keeps (fun _ => K.endCause _ h) fun _ => h) fun _ => K.chg _ ?_ h
  split
  · simp [Chg.swap]
  · rfl

theorem concluded (K : Calm P) {s : State} (old : Chg) (none_ : s.chg.records = []) (h : P s) : P (s.concluded old) := by
  have idle : s.examineCrossed = s := by
    unfold State.examineCrossed
    rw [none_]
  unfold State.concluded
  rw [idle]
  have forecast : P (s.reforecast old) := ite_keeps (fun _ => h) fun _ => K.forecastFor _ h
  exact ite_keeps (fun _ => K.hand _ _ forecast) fun _ => forecast

/-- The swap under way, the log and the reasons. -/
theorem records (x : List ChangeRec × Nat × Option Slitter) (p : Plg) (v : Wtr) :
    Calm fun s => s.chg.swap = x ∧ s.plg = p ∧ s.wtr = v where
  routine _ h := by simpa using h
  hand _ _ h := h
  close _ _ _ h := h
  chg _ hf h := ⟨hf.trans h.1, h.2⟩

/-- A claim that is not held comes not by a closing. -/
theorem unclaimed (st : Slitter) : Calm fun s => ¬s.Slit st where
  routine _ h := by simpa [State.Slit] using h
  hand _ _ h := h
  close k o x h := by
    rintro ⟨m, hm, held⟩
    rw [closeClaim_wmp] at hm
    obtain ⟨y, hy, closed⟩ := List.mem_filterMap.1 hm
    obtain ⟨c, hc, same⟩ := List.any_eq_true.1 held
    exact h ⟨y, hy, List.any_eq_true.2 ⟨c, close_claims closed hc, same⟩⟩
  chg _ _ h := h

end Calm

theorem settleZone_empty {s : State} (none_ : s.chg.records = []) : s.settleZone.chg = { s.chg with changeover := none }
    ∧ s.settleZone.plg = s.plg ∧ ∀ owner, s.chg.changeover = some owner →
      s.settleZone.holds .slitterNotReady 0 = false ∧ (s.chg.causeOf owner = .none → ¬s.settleZone.Slit owner) := by
  unfold State.settleZone
  have needless : s.zoneNeeded = false := by
    unfold State.zoneNeeded
    rw [none_]
    rfl
  split
  · rename_i shut
    exact ⟨by rw [← shut], rfl, fun owner e => by rw [shut] at e; cases e⟩
  · rename_i st zone
    rw [needless, if_neg (by exact nofun)]
    obtain ⟨w, only⟩ := closeSlit_only (s.onChg fun c => { c with changeover := none }) st
    refine ⟨by simp, by rw [State.drop_plg, only]; rfl, fun owner e => ⟨drop_holds _ _ _, fun cause => ?_⟩⟩
    obtain rfl := Option.some.inj (zone.symm.trans e)
    have closed : ¬((s.onChg fun c => { c with changeover := none }).closeSlit st).Slit st := by
      unfold State.closeSlit
      rw [if_neg (not_or.2 ⟨nofun, fun h => h cause⟩)]
      exact claims_false (closeClaim_gone _ _ _ _)
    rwa [State.Slit, State.drop_wmp]

/-- What a confirmed swap leaves where no record stands behind. -/
theorem confirmSwap_last (s : State) (r : ChangeRec) (st : Slitter) :
    let t := s.confirmSwap r st []
    t.chg.swap = ([], 0, none) ∧ t.plg = (s.log (.swap r.boundary st r.preset.id)).plg
      ∧ ∀ owner, s.chg.changeover = some owner → t.holds .slitterNotReady 0 = false
        ∧ (owner ≠ st ∨ s.chg.causeOf owner ≠ .untilWorking → ¬t.Slit owner) := by
  have taken := swapTaken_leaves s r st []
  obtain ⟨-, -, records, timer, changeover⟩ := sansCauses_eq taken.chg
  have idle : (s.swapTaken r st []).presetHead.examineCrossed = s.swapTaken r st [] := by
    have first : (s.swapTaken r st []).presetHead = s.swapTaken r st [] := by
      unfold State.presetHead
      rw [records]
    rw [first]
    unfold State.examineCrossed
    rw [records]
  obtain ⟨chg, plg, closed⟩ := settleZone_empty records
  have forecast : s.confirmSwap r st [] = (s.swapTaken r st []).settleZone.forecastFor
      (s.swapTaken r st []).settleZone.osq.candidate := by
    rw [confirmSwap_eq, idle]
    rfl
  have swap : (s.swapTaken r st []).settleZone.chg.swap = ([], 0, none) := by
    rw [chg, Chg.swap, records, timer]
  obtain ⟨swap', plg', wtr⟩ := (Calm.records _ _ _).forecastFor (s.swapTaken r st []).settleZone.osq.candidate
    (s := (s.swapTaken r st []).settleZone) ⟨swap, plg.trans taken.plg, rfl⟩
  rw [← forecast] at swap' plg' wtr
  refine ⟨swap', plg', fun owner zone => ?_⟩
  obtain ⟨ready, gone⟩ := closed owner (changeover.trans zone)
  refine ⟨by rwa [holds_eq, wtr], fun h => ?_⟩
  rw [forecast]
  exact (Calm.unclaimed owner).forecastFor _ (gone (taken.causeOf owner h))

/-! #### Its event -/

section

variable {s : State} {a b : Option SlitterState} {st : Slitter} {r : ChangeRec} {rest : List ChangeRec}

/-- The confirmed station may work again besides, where it was the engaged one. -/
theorem slitterEvent_confirms (other : s.nowOf a b (otherStation st) ≠ .working) (records : s.chg.records = r :: rest)
    (report : reportOf a b st = some .working) (target : r.target = some st)
    (confirms : r.status = .swapping ∨ r.status = .crossed ∧ s.chg.stateOf st ≠ .working
      ∧ (s.chg.heldOf st).map (fun p => p.id) = some r.preset.id) :
    ∃ z, (z = (s.heard a b).confirmSwap r st rest
        ∨ s.chg.engaged = some st ∧ z = ((s.heard a b).confirmSwap r st rest).slitterBack st)
      ∧ s.slitterEvent a b = z.concluded s.chg := by
  have heard := heard_leaves s a b
  have works : (s.heard a b).chg.stateOf st = .working := (heard.state st).trans (nowOf_report report)
  have confirmed : Chg.confirming s.chg (s.heard a b).chg = some (r, st, rest) := by
    unfold Chg.confirming
    rw [heard.records, records]
    dsimp only
    rw [target]
    exact if_pos ⟨works, by rwa [heard_held report]⟩
  have engaged := (confirmSwap_leaves (s.heard a b) r st rest).1
  have works' : ((s.heard a b).confirmSwap r st rest).chg.stateOf st = .working := by
    rw [stateOf_tracked (confirmSwap_tracked _ _ _ _), works]
  have other' : ((s.heard a b).confirmSwap r st rest).chg.stateOf (otherStation st) ≠ .working := by
    rw [stateOf_tracked (confirmSwap_tracked _ _ _ _), heard.state]
    exact other
  have judged : ∃ z, (z = (s.heard a b).confirmSwap r st rest
        ∨ s.chg.engaged = some st ∧ z = ((s.heard a b).confirmSwap r st rest).slitterBack st)
      ∧ ((s.heard a b).confirmSwap r st rest).stationEvent s.chg (some st) st = z := by
    refine ⟨_, ?_, rfl⟩
    by_cases was : s.chg.stateOf st = .working
    · exact .inl (stationEvent_on was works')
    · rw [stationEvent_back was works' engaged]
      split
      · exact .inr ⟨by assumption, rfl⟩
      · exact .inl rfl
  obtain ⟨z, hz, event⟩ := judged
  have after : z.chg.engaged = some st := by
    rcases hz with rfl | ⟨-, rfl⟩
    · exact engaged
    · obtain ⟨x, e, chg⟩ := slitterBack_chg ((s.heard a b).confirmSwap r st rest) st
      rw [chg]
      exact (setCause_engaged _ _ _).trans engaged
  refine ⟨z, hz, ?_⟩
  rw [slitterEvent_confirmed confirmed, stationEvents_one other' engaged (by rwa [event]), event]

theorem swap_confirmed (other : s.nowOf a b (otherStation st) ≠ .working) (records : s.chg.records = r :: rest)
    (report : reportOf a b st = some .working) (target : r.target = some st)
    (confirms : r.status = .swapping ∨ r.status = .crossed ∧ s.chg.stateOf st ≠ .working
      ∧ (s.chg.heldOf st).map (fun p => p.id) = some r.preset.id) :
    let t := s.slitterEvent a b
    t.chg.engaged = some st ∧ t.chg.records.map (fun x => x.boundary) = rest.map (fun x => x.boundary)
      ∧ (s.chg.engaged ≠ some st → t.chg.expected = s.chg.expected)
      ∧ (rest = [] → t.chg.timer = 0 ∧ t.chg.changeover = none ∧ t.plg = (s.log (.swap r.boundary st r.preset.id)).plg
        ∧ ∀ owner, s.chg.changeover = some owner → t.holds .slitterNotReady 0 = false
          ∧ (owner ≠ st ∨ s.chg.causeOf owner ≠ .untilWorking → ¬t.Slit owner)) := by
  have heard := heard_leaves s a b
  obtain ⟨z, hz, event⟩ := slitterEvent_confirms other records report target confirms
  obtain ⟨engaged, expected, boundaries⟩ := confirmSwap_leaves (s.heard a b) r st rest
  obtain ⟨x, e, back⟩ := slitterBack_chg ((s.heard a b).confirmSwap r st rest) st
  have final := concluded_leaves z s.chg
  rw [event]
  refine ⟨final.engaged.trans ?_, ?_, fun h => final.expected.trans ?_, fun none_ => ?_⟩
  · rcases hz with rfl | ⟨-, rfl⟩
    · exact engaged
    · rw [back]
      exact (setCause_engaged _ _ _).trans engaged
  · rw [← unstatused_boundaries, final.records, unstatused_boundaries]
    rcases hz with rfl | ⟨-, rfl⟩
    · exact boundaries
    · rw [back]
      exact (congrArg _ (setCause_records _ _ _)).trans boundaries
  · obtain rfl := hz.resolve_right fun back => h back.1
    exact expected.trans heard.expected
  · subst none_
    obtain ⟨swap, plg, zone⟩ := confirmSwap_last (s.heard a b) r st
    have keeps {P : State → Prop} (K : Calm P) (h : P ((s.heard a b).confirmSwap r st [])) : P z ∧ P (z.concluded s.chg) := by
      have judged : P z ∧ z.chg.records = [] := by
        rcases hz with rfl | ⟨-, rfl⟩
        · exact ⟨h, congrArg Prod.fst swap⟩
        · refine ⟨K.slitterBack st h, ?_⟩
          rw [back]
          exact (setCause_records _ _ _).trans (congrArg Prod.fst swap)
      exact ⟨judged.1, K.concluded _ judged.2 judged.1⟩
    obtain ⟨swap', plg', wtr⟩ := (keeps (Calm.records _ _ _) ⟨swap, plg, rfl⟩).2
    refine ⟨congrArg (fun x => x.2.1) swap', congrArg (fun x => x.2.2) swap', plg'.trans (log_plg_congr _ heard.plg heard.stamp),
      fun owner open_ => ?_⟩
    obtain ⟨ready, gone⟩ := zone owner (heard.changeover.trans open_)
    exact ⟨by rwa [holds_eq, wtr], fun h => (keeps (Calm.unclaimed owner) (gone (by rwa [heard.causeOf]))).2⟩

end

/-! ### O41 -/

theorem slitterEvent_stations (s : State) (a b : Option SlitterState) :
    (s.slitterEvent a b).chg.stations = (s.heard a b).chg.stations := by
  have K := Slits.keepStations (s.heard a b).chg.stations
  rw [slitterEvent_eq]
  exact K.judgeConflict (K.reforecast _ (K.examineCrossed (K.stationEvent _ _ _ (K.stationEvent _ _ _ (K.takeConfirmation _ rfl)))))

theorem judgeConflict_hands {s : State} (ha : s.judgeConflict.chg.stateOf .a = .working)
    (hb : s.judgeConflict.chg.stateOf .b = .working) :
    { code := .slitterConflict, detail := .one 0 : FaultReport } ∈ s.judgeConflict.handed := by
  unfold State.judgeConflict at ha hb ⊢
  split
  · exact List.mem_append_right _ (List.mem_singleton.2 rfl)
  · rename_i apart
    rw [if_neg apart] at ha hb
    exact absurd ⟨ha, hb⟩ apart

/-- Both stations WORKING are a conflict (R76). -/
theorem slitterEvent_conflict {s : State} {a b : Option SlitterState} (ha : s.nowOf a b .a = .working)
    (hb : s.nowOf a b .b = .working) :
    { code := .slitterConflict, detail := .one 0 : FaultReport } ∈ (s.slitterEvent a b).handed := by
  have heard := heard_leaves s a b
  have stations := stations_of (slitterEvent_stations s a b)
  have works := And.intro ((stations .a).1.trans ((heard.state .a).trans ha)) ((stations .b).1.trans ((heard.state .b).trans hb))
  rw [slitterEvent_eq] at works ⊢
  exact judgeConflict_hands works.1 works.2

/-- Settles O41: SWAP_TIMEOUT crosses the head and opens its zone; after the reports one station makes an event while the other does
not work, and the examination of a CROSSED head that follows keeps what it left. -/
theorem swapTimeoutBlocksSwaps : Obligations.SwapTimeoutBlocksSwaps := by
  refine ⟨fun s => ⟨fun stopped => congrArg Host.Outcome.next (if_pos stopped), fun r rest running records swapping =>
    swapTimeout_blocks running records swapping⟩, fun s a b st => ?_⟩
  have heard := heard_leaves s a b
  have stations := stations_of (slitterEvent_stations s a b) st
  refine ⟨stations.1.trans (heard.state st), stations.2.trans ((heard.held st).trans ?_), slitterEvent_conflict, fun other =>
    ⟨fun r rest records report confirms => swap_confirmed other records report confirms.1 confirms.2,
      fun x engaged was report leaves h hd cause room => engaged_leaves other engaged was report leaves h hd cause room,
      fun engaged was report head => engaged_back other engaged was report head,
      fun engaged was report unconfirmed room => unplanned_engages other engaged was report unconfirmed room⟩⟩
  cases st <;> rfl

end Sys2Proof.Machine
end

section
namespace Sys2Proof.Machine

/-! ### What RST_N keeps (R64, R85, R87, R106, R109, R125, R187) -/

/-- A table whose entries are all changed alike reads as the changed entry, inside it and, where the default stands for the
default, outside it. -/
theorem map_getD {α : Type} {n : Nat} (v : Vector α n) (f : α → α) (d : α) (hd : f d = d) (i : Nat) :
    ((v.map f)[i]?).getD d = f ((v[i]?).getD d) := by
  rw [Vector.getElem?_map]
  cases v[i]? with
  | none => exact hd.symm
  | some x => rfl

/-- Clearing the runtime records of a table leaves its configuration. -/
theorem map_cfg {α β : Type} {n : Nat} (v : Vector α n) (f : α → α) (cfg : α → β) (h : ∀ x, cfg (f x) = cfg x) :
    (v.map f).toList.map cfg = v.toList.map cfg := by
  rw [Vector.toList_map, List.map_map]
  exact List.map_congr_left fun x _ => h x

theorem pinReset_configuration (s : State) : s.pinReset.configuration = s.configuration := by
  have stands := map_cfg s.spl.stands (fun x => Stand.cleared x.cfg) (fun x => x.cfg) fun _ => rfl
  have points := map_cfg s.hgr.points (fun x => Point.cleared x.cfg) (fun x => x.cfg) fun _ => rfl
  have channels := map_cfg s.hgr.channels (fun x => Channel.cleared x.cfg) (fun x => x.cfg) fun _ => rfl
  have subs := map_cfg s.irt.subs (fun x => SubEntry.cleared x.cfg) (fun x => x.cfg) fun _ => rfl
  simp only [State.configuration, State.pinReset, stands, points, channels, subs]

/-- Settles O3: the reset is outright but for the tables, whose entries keep their configuration and are cleared alike. -/
theorem rstNKeepsTheConfiguration : Obligations.RstNKeepsTheConfiguration := by
  intro s
  refine ⟨s.pinReset, rfl, pinReset_configuration s, rfl, rfl, rfl, rfl, rfl, rfl, rfl, rfl, rfl, rfl, rfl,
    map_getD _ _ _ rfl, map_getD _ _ _ rfl, map_getD _ _ _ rfl, fun e he => ?_, rfl, rfl⟩
  have cleared : e ∈ (s.irt.subs.map fun x => SubEntry.cleared x.cfg).toList := he
  rw [Vector.toList_map] at cleared
  obtain ⟨x, -, rfl⟩ := List.mem_map.1 cleared
  exact ⟨rfl, rfl⟩

/-! ### The validity checks (R45, R46) -/

/-- A width inside 500..25,000 (R45 check 5). -/
def WidthOk (t : Track) : Prop := 500 ≤ t.width ∧ t.width ≤ 25000

/-- A score list strictly ascending inside its track (R45 check 6). -/
def Scored (t : Track) : Prop := t.scores.Pairwise (· < ·) ∧ ∀ x ∈ t.scores, 0 < x ∧ x < t.width

theorem scoresOk_iff (width below : Nat) (l : List Nat) :
    scoresOk width below l = true ↔ l.Pairwise (· < ·) ∧ ∀ x ∈ l, below < x ∧ x < width := by
  induction l generalizing below with
  | nil => simp [scoresOk]
  | cons x l ih =>
    simp only [scoresOk, Bool.and_eq_true, decide_eq_true_eq, ih, List.pairwise_cons, List.forall_mem_cons]
    refine ⟨fun ⟨⟨above, inside⟩, ascending, bounds⟩ => ?_, fun ⟨⟨least, ascending⟩, ⟨above, inside⟩, bounds⟩ => ?_⟩
    · exact ⟨⟨fun y hy => (bounds y hy).1, ascending⟩, ⟨above, inside⟩,
        fun y hy => ⟨above.trans (bounds y hy).1, (bounds y hy).2⟩⟩
    · exact ⟨⟨above, inside⟩, ascending, fun y hy => ⟨least y hy, (bounds y hy).2⟩⟩

/-- A search of the track list for the first that fails a test, counting from n. -/
structure FindsFirst (f : List Track → Nat → Option Nat) (test : Track → Prop) : Prop where
  nil  : ∀ n, f [] n = none
  pass : ∀ t l n, test t → f (t :: l) n = f l (n + 1)
  fail : ∀ t l n, ¬test t → f (t :: l) n = some n

namespace FindsFirst

variable {f : List Track → Nat → Option Nat} {test : Track → Prop}

theorem none_of_all (F : FindsFirst f test) {l : List Track} (n : Nat) (h : ∀ x ∈ l, test x) : f l n = none := by
  induction l generalizing n with
  | nil => exact F.nil n
  | cons t l ih =>
    obtain ⟨ok, rest⟩ := List.forall_mem_cons.1 h
    rw [F.pass t l n ok, ih _ rest]

theorem some_of_fail (F : FindsFirst f test) {a b : List Track} {t : Track} (n : Nat) (ha : ∀ x ∈ a, test x) (ht : ¬test t) :
    f (a ++ t :: b) n = some (a.length + n) := by
  induction a generalizing n with
  | nil => rw [List.nil_append, F.fail t b n ht, List.length_nil, Nat.zero_add]
  | cons x a ih =>
    obtain ⟨ok, rest⟩ := List.forall_mem_cons.1 ha
    rw [List.cons_append, F.pass _ _ n ok, ih _ rest, List.length_cons, Nat.add_right_comm, Nat.add_assoc]

end FindsFirst

theorem findsWidth : FindsFirst firstBadWidth WidthOk where
  nil _ := rfl
  pass _ _ _ h := if_pos (by simpa [WidthOk] using h)
  fail _ _ _ h := if_neg (by simpa [WidthOk] using h)

theorem findsScores : FindsFirst firstBadScores Scored where
  nil _ := rfl
  pass _ _ _ h := if_pos ((scoresOk_iff ..).2 h)
  fail _ _ _ h := if_neg fun ok => h ((scoresOk_iff ..).1 ok)

/-! #### Check 5, of the widths -/

theorem trackFailure_width {a b : List Track} {t : Track} (web : Nat) (ha : ∀ x ∈ a, WidthOk x) (ht : ¬WidthOk t) :
    trackFailure web (a ++ t :: b) = some (a.length + 1) := by
  unfold trackFailure
  rw [if_neg (by simp), findsWidth.some_of_fail 1 ha ht]

theorem trackFailure_sum {web : Nat} {l : List Track}
    (h : l = [] ∨ (∀ x ∈ l, WidthOk x) ∧ web < (l.map fun x => x.width).sum) : trackFailure web l = some 0 := by
  unfold trackFailure
  rcases h with rfl | ⟨widths, wide⟩
  · rfl
  · rw [findsWidth.none_of_all 1 widths]
    simp [Nat.not_le.2 wide]

theorem trackFailure_many {web : Nat} {l : List Track} (h : 6 < l.length) : ∃ d, trackFailure web l = some d := by
  unfold trackFailure
  split
  · exact ⟨0, rfl⟩
  · split
    · exact ⟨_, rfl⟩
    · rw [if_neg (by simp; omega)]
      exact ⟨0, rfl⟩

theorem trackFailure_none {web : Nat} {l : List Track} (h₁ : 1 ≤ l.length) (h₆ : l.length ≤ 6) (widths : ∀ x ∈ l, WidthOk x)
    (sum : (l.map fun x => x.width).sum ≤ web) : trackFailure web l = none := by
  have some_ : l ≠ [] := List.length_pos_iff.1 h₁
  unfold trackFailure
  rw [if_neg (by simpa using some_), findsWidth.none_of_all 1 widths]
  simp [sum, h₆]

/-! #### The seven checks in order -/

theorem checkOrder_empty {s : State} {i : Nat} (h : (s.slot i).state = .empty) :
    s.checkOrder i = some { check := 1, code := .badSlot, index := 0, detail := 0 } := by
  unfold State.checkOrder Slot.record
  rw [if_pos h]

section
variable {s : State} {i : Nat} {r : OrderRec}

/-- The slot is not EMPTY and holds the record (R45 check 1). -/
def State.Holds (s : State) (i : Nat) (r : OrderRec) : Prop := (s.slot i).state ≠ .empty ∧ (s.slot i).order = some r

/-- The checks of the tracks and of the cuts per stack (R45 checks 5 to 7). -/
def State.trackChecks (s : State) (r : OrderRec) : Option CheckFailure :=
  match trackFailure s.line.nums.webWidth r.tracks with
  | some d => some { check := 5, code := .badField, index := 6, detail := d }
  | none => match firstBadScores r.tracks 1 with
    | some d => some { check := 6, code := .badField, index := 7, detail := d }
    | none => if 1 ≤ r.perStack && r.perStack ≤ 2000 then none
      else some { check := 7, code := .badField, index := 8, detail := 0 }

/-- The checks behind the first, of the record that the slot holds. -/
theorem checkOrder_record (h : s.Holds i r) :
    s.checkOrder i =
      if r.number = 0 then some { check := 2, code := .badField, index := 1, detail := 0 }
      else if (s.grade r.grade).isNone then some { check := 3, code := .badField, index := 2, detail := 0 }
      else if !(5000 ≤ r.length && r.length ≤ 65000 && s.line.nums.wMin ≤ r.length) then
        some { check := 4, code := .badField, index := 3, detail := 0 }
      else s.trackChecks r := by
  obtain ⟨held, order⟩ := h
  unfold State.checkOrder Slot.record
  rw [if_neg held, order]
  rfl

theorem checkOrder_number (h : s.Holds i r) (number : r.number = 0) :
    s.checkOrder i = some { check := 2, code := .badField, index := 1, detail := 0 } := by
  rw [checkOrder_record h, if_pos number]

theorem checkOrder_grade (h : s.Holds i r) (number : r.number ≠ 0) (grade : s.grade r.grade = none) :
    s.checkOrder i = some { check := 3, code := .badField, index := 2, detail := 0 } := by
  rw [checkOrder_record h, if_neg number, if_pos (by rw [grade]; rfl)]

theorem checkOrder_length (h : s.Holds i r) (number : r.number ≠ 0) (grade : (s.grade r.grade).isSome = true)
    (length : r.length < 5000 ∨ 65000 < r.length ∨ r.length < s.line.nums.wMin) :
    s.checkOrder i = some { check := 4, code := .badField, index := 3, detail := 0 } := by
  rw [checkOrder_record h, if_neg number, if_neg (by rw [Option.isNone_iff_eq_none]; exact Option.isSome_iff_ne_none.1 grade),
    if_pos (by simp only [Bool.not_eq_true', Bool.and_eq_false_iff, decide_eq_false_iff_not]; omega)]

/-- A record that passes the checks up to the sheet length (R45 checks 1 to 4). -/
structure State.Sized (s : State) (i : Nat) (r : OrderRec) : Prop where
  held   : s.Holds i r
  number : r.number ≠ 0
  grade  : (s.grade r.grade).isSome = true
  length : 5000 ≤ r.length ∧ r.length ≤ 65000 ∧ s.line.nums.wMin ≤ r.length

theorem checkOrder_sized (h : s.Sized i r) : s.checkOrder i = s.trackChecks r := by
  rw [checkOrder_record h.held, if_neg h.number, if_neg, if_neg (by simpa [and_assoc] using h.length)]
  rw [Option.isNone_iff_eq_none]
  exact Option.isSome_iff_ne_none.1 h.grade

theorem checkOrder_tracks (h : s.Sized i r) {d : Nat} (failed : trackFailure s.line.nums.webWidth r.tracks = some d) :
    s.checkOrder i = some { check := 5, code := .badField, index := 6, detail := d } := by
  rw [checkOrder_sized h, State.trackChecks, failed]

theorem checkOrder_scores (h : s.Sized i r) (tracks : trackFailure s.line.nums.webWidth r.tracks = none) {d : Nat}
    (failed : firstBadScores r.tracks 1 = some d) :
    s.checkOrder i = some { check := 6, code := .badField, index := 7, detail := d } := by
  rw [checkOrder_sized h, State.trackChecks, tracks, failed]

theorem checkOrder_perStack (h : s.Sized i r) (tracks : trackFailure s.line.nums.webWidth r.tracks = none)
    (scores : firstBadScores r.tracks 1 = none) :
    s.checkOrder i = if 1 ≤ r.perStack ∧ r.perStack ≤ 2000 then none
      else some { check := 7, code := .badField, index := 8, detail := 0 } := by
  rw [checkOrder_sized h, State.trackChecks, tracks, scores]
  simp

end

/-! #### VERIFY_ORDER (R46) -/

section
variable {s : State} {q : Asker} {i : Nat}

theorem verifyOrder_answers (handed : s.handed = []) (grants : s.Grants q (.verifyOrder i)) {x : Reply}
    (reply : s.verifyOrder i = x) (data : x.data = []) : exec (.verifyOrder q i) s = .next (s.replied q x) := by
  have run := exec_read (r := .verifyOrder i) (x := x) grants handed (congrArg (Prod.mk _) reply)
  rwa [cut_bare x _ data] at run

theorem verifyOrder_checks (handed : s.handed = []) (grants : s.Grants q (.verifyOrder i)) (hi : i ≤ 63) {f : CheckFailure}
    (check : s.checkOrder i = some f) : exec (.verifyOrder q i) s = .next (s.replied q f.reply) := by
  refine verifyOrder_answers handed grants ?_ rfl
  unfold State.verifyOrder
  rw [if_neg (Nat.not_lt.2 hi), check]

theorem verifyOrder_passes (handed : s.handed = []) (grants : s.Grants q (.verifyOrder i)) (hi : i ≤ 63)
    (check : s.checkOrder i = none) : exec (.verifyOrder q i) s = .next (s.replied q (bare .ok)) := by
  refine verifyOrder_answers handed grants ?_ rfl
  unfold State.verifyOrder
  rw [if_neg (Nat.not_lt.2 hi), check]

end

/-- Settles O10: the checks in their order, each under what the ones before it leave. -/
theorem verifyOrderReportsTheChecks : Obligations.VerifyOrderReportsTheChecks := by
  intro s q i handed grants answers n widthOk scored
  refine ⟨fun outside => verifyOrder_answers handed grants (if_pos outside) rfl,
    fun hi empty => verifyOrder_checks handed grants hi (checkOrder_empty empty), fun r hi held order => ?_⟩
  have failed {f : CheckFailure} (check : s.checkOrder i = some f) := verifyOrder_checks handed grants hi check
  have holds : s.Holds i r := ⟨held, order⟩
  refine ⟨fun number => failed (checkOrder_number holds number), fun number =>
    ⟨fun grade => failed (checkOrder_grade holds number grade), fun grade =>
      ⟨fun length => failed (checkOrder_length holds number grade length), fun least most wMin => ?_⟩⟩⟩
  have sized : s.Sized i r := ⟨holds, number, grade, least, most, wMin⟩
  refine ⟨fun a t b split before bad => failed (checkOrder_tracks sized (by rw [split]; exact trackFailure_width _ before bad)),
    fun sum => failed (checkOrder_tracks sized (trackFailure_sum sum)), fun many => ?_, fun some_ few widths sum => ?_⟩
  · obtain ⟨d, many⟩ := trackFailure_many (web := n.webWidth) many
    exact ⟨d, failed (checkOrder_tracks sized many)⟩
  · have tracks := trackFailure_none some_ few widths sum
    refine ⟨fun a t b split before bad =>
      failed (checkOrder_scores sized tracks (by rw [split]; exact findsScores.some_of_fail 1 before bad)), fun scores => ?_⟩
    have last := checkOrder_perStack sized tracks (findsScores.none_of_all 1 scores)
    refine ⟨fun outside => failed (last.trans (if_neg (by omega))), fun least most => ?_⟩
    exact verifyOrder_passes handed grants hi (last.trans (if_pos ⟨least, most⟩))

end Sys2Proof.Machine
end

section
namespace Sys2Proof.Machine

/-! ### A good sheet (R59, R130 to R134) -/

/-- A choice between a sheet that is not good and another, which comes out good. -/
theorem ite_good {c : Prop} [Decidable c] {x y : Sheet} (hx : x.disp = .waste) (h : (if c then x else y).disp = .good) :
    ¬c ∧ (if c then x else y) = y := by
  by_cases hc : c
  · rw [if_pos hc, hx] at h
    cases h
  · exact ⟨hc, if_neg hc⟩

/-- A sheet that R134 leaves good is the one it found, and ends at least W_min above the knife. -/
theorem shortSheet_good {wMin : Nat} {b : Int} {x : Sheet} (h : (shortSheet wMin b x).disp = .good) :
    shortSheet wMin b x = x ∧ (wMin : Int) ≤ b + x.length := by
  obtain ⟨long, kept⟩ := ite_good rfl h
  exact ⟨kept, Int.not_lt.1 long⟩

/-- A good sheet is one of case 4 of R130, of a segment with room. -/
theorem caseSheet_good {s : State} {g : Segment} {b : Int} (h : (s.caseSheet g b).disp = .good) :
    s.lsc.state ≠ .threading ∧ 1 ≤ s.room g
      ∧ ∃ i r, g.order = some i ∧ (s.slot i).order = some r ∧ s.caseSheet g b = s.bracket g r b := by
  obtain ⟨threading, kept⟩ := ite_good rfl h
  have cased : s.caseSheet g b = _ := kept
  rw [cased] at h ⊢
  cases order : g.order.bind fun i => (s.slot i).order with
  | none =>
    rw [order] at h
    cases h
  | some r =>
    obtain ⟨i, hi, hr⟩ := Option.bind_eq_some_iff.1 order
    rw [order] at h
    obtain ⟨full, bracketed⟩ := ite_good rfl h
    have good : (s.bracket g r b).disp = .good := (congrArg Sheet.disp bracketed).symm.trans h
    have room : s.room g ≠ 0 := fun none_ => full (by simp [none_, good])
    exact ⟨threading, Nat.one_le_iff_ne_zero.2 room, i, r, hi, hr, bracketed⟩

theorem firstZone_none {l : List Zone} (h : firstZone l = none) : l = [] := by
  cases l with
  | nil => rfl
  | cons z l =>
    unfold firstZone at h
    split at h
    · cases h
    · split at h <;> cases h

/-- A sheet of case 4 is good where no blocking zone hits its stretch, and has its order's length (R132). -/
theorem bracket_good {s : State} {g : Segment} {r : OrderRec} {b : Int} (h : (s.bracket g r b).disp = .good) :
    (s.bracket g r b).length = r.length
      ∧ ∀ z ∈ s.zonesFor r.quality g.closing, z.hits b (b + r.length) = false := by
  unfold State.bracket at h ⊢
  dsimp only at h ⊢
  cases first : firstZone ((s.zonesFor r.quality g.closing).filter (Zone.hits b (b + r.length))) with
  | some z =>
    rw [first] at h
    cases h
  | none => exact ⟨rfl, fun z hz => Bool.eq_false_iff.2 fun hits => by
      have none_ := List.filter_eq_nil_iff.1 (firstZone_none first) z hz
      exact none_ hits⟩

/-- A mark that blocks, and is not the closing boundary, is a blocking zone. -/
theorem mem_zonesFor {s : State} {q : Quality} {closing : Option Nat} {m : Mark} (hm : m ∈ s.wmp.marks)
    (other : ¬(m.kind = .boundary ∧ some m.seq = closing)) (blocking : blocks m.kind m.lenient q = true) :
    { start := m.start, stop := m.zoneEnd, kind := m.kind, seq := m.seq, closing := false } ∈ s.zonesFor q closing :=
  List.mem_filterMap.2 ⟨m, hm, by rw [if_neg (by simpa using other), if_pos blocking]⟩

/-- The closing boundary blocks what lies above its start. -/
theorem mem_zonesFor_closing {s : State} {q : Quality} {closing : Option Nat} {m : Mark} (hm : m ∈ s.wmp.marks)
    (kind : m.kind = .boundary) (seq : some m.seq = closing) :
    { start := m.start, stop := m.zoneEnd, kind := m.kind, seq := m.seq, closing := true } ∈ s.zonesFor q closing :=
  List.mem_filterMap.2 ⟨m, hm, if_pos (by simp [kind, seq])⟩

/-- Settles O56: a good sheet is one of case 4 that R134 leaves, so it hits none of the blocking zones, and each mark that blocks
is one of them. -/
theorem goodSheetsAvoidBlockingZones : Obligations.GoodSheetsAvoidBlockingZones := by
  rintro s g x rfl good
  obtain ⟨kept, least⟩ := shortSheet_good good
  have decided : s.decideSheet g = s.caseSheet g s.knp.front := kept
  rw [decided] at good ⊢
  obtain ⟨threading, room, i, r, hi, hr, cased⟩ := caseSheet_good good
  rw [cased] at good least ⊢
  obtain ⟨length, clear⟩ := bracket_good good
  rw [length] at least ⊢
  refine ⟨threading, room, i, r, hi, hr, rfl, least, fun m hm blocking => ?_, fun m hm kind seq => ?_⟩
  · by_cases closing : m.kind = .boundary ∧ some m.seq = g.closing
    · exact .inl closing
    · exact .inr (clear _ (mem_zonesFor hm closing blocking))
  · exact Int.not_lt.1 (of_decide_eq_false (clear _ (mem_zonesFor_closing hm kind seq)))

/-! ### LOAD_ORDER (R44) -/

/-- An order number that no other slot holds. -/
theorem numberHeld_false {s : State} {i n : Nat}
    (h : ∀ j x, j ≠ i → (s.slot j).state ≠ .empty → (s.slot j).order = some x → x.number ≠ n) : s.numberHeld i n = false := by
  refine List.any_eq_false.2 fun ⟨o, j⟩ ho held => ?_
  simp only [Bool.and_eq_true, bne_iff_ne, Option.any_eq_true, beq_iff_eq] at held
  obtain ⟨other, loaded, x, order, number⟩ := held
  have entry : s.slot j = o := by
    have hj := List.mem_zipIdx_iff_getElem?.1 ho
    simp only [Vector.getElem?_toList] at hj
    rw [State.slot, hj]
    rfl
  rw [← entry] at loaded order
  exact h j x other loaded order number

theorem slotRefusal_passes {s : State} {i : Nat} (hi : i ≤ 63) (h : (s.slot i).state = .empty ∨ (s.slot i).state = .loaded) :
    s.slotRefusal i = none := by
  unfold State.slotRefusal
  rw [if_neg (Nat.not_lt.2 hi), if_pos h]

/-- A whole record in range is loaded into an EMPTY or LOADED slot. -/
theorem loadOrder_whole {s : State} {i quality : Nat} {r : OrderRec} (free : s.slotRefusal i = none) (least : 1 ≤ r.cuts)
    (most : r.cuts ≤ 65535) (overmake : r.overmake ≤ 500) (hq : quality ≤ 1)
    (unheld : r.number ≠ 0 → s.numberHeld i r.number = false) :
    s.loadOrder (.whole i quality r) =
      ((s.onSlot i fun _ => { Slot.blank with state := .loaded, order := some r }).onPile i
        fun _ => { count := 0, next := 1 }, bare .ok) := by
  have passed : firstBad (orderFieldTests r ++ [(9, decide (quality ≤ 1))]) = none :=
    firstBad_none (by simp [orderFieldTests, within, least, most, overmake, hq])
  unfold State.loadOrder
  simp only [free, passed]
  exact if_neg fun held => absurd (unheld held.1) (by rw [held.2]; nofun)

/-- Settles O22. -/
theorem loadOrderFillsItsSlot : Obligations.LoadOrderFillsItsSlot := by
  intro s q bytes i quality r handed grants whole hi state least most overmake hq number
  have loaded := loadOrder_whole (s := s.asked q) (slotRefusal_passes hi state) least most overmake hq
    fun named => numberHeld_false (number named)
  rw [← whole] at loaded
  exact exec_granted_plain grants loaded handed rfl

/-! ### Reads in whole entries (R48, R51, R105, R191) -/

/-- A granted read of a list changes nothing, and returns as many entries from its front as the reply space holds. -/
theorem exec_readReply {s : State} {q : Asker} {r : Request} {l : List Datum} (grants : s.Grants q r) (handed : s.handed = [])
    (ho : owned q r (s.asked q) = (s.asked q, readReply q.space l)) :
    ∃ k, k ≤ l.length ∧ ((l.take k).map datumLength).sum ≤ dataRoom q.space
      ∧ (k < l.length → dataRoom q.space < ((l.take (k + 1)).map datumLength).sum)
      ∧ exec (carrying q r) s = .next (s.replied q
          { code := if k < l.length then .truncated else .ok, index := 0, detail := 0, data := l.take k }) := by
  obtain ⟨k, le, taken, fits, next⟩ := fitData_take (dataRoom q.space) l
  have reply : readReply q.space l
      = { code := if k < l.length then .truncated else .ok, index := 0, detail := 0, data := l.take k } := by
    unfold readReply
    simp only [taken, take_length le]
  refine ⟨k, le, fits, next, (exec_read grants handed ho).trans ?_⟩
  rw [reply, cut_fitting fits]

/-! #### Positions in a list -/

section
variable {α : Type} (test : α → Bool)

theorem mem_positionsOf (l : List α) (n : Nat) : n ∈ positionsOf test l ↔ ∃ x, l[n]? = some x ∧ test x = true := by
  simp only [positionsOf, List.mem_filterMap, Prod.exists, List.mem_zipIdx_iff_getElem?, Option.ite_none_right_eq_some,
    Option.some.injEq]
  constructor
  · rintro ⟨x, m, hx, passes, rfl⟩
    exact ⟨x, hx, passes⟩
  · rintro ⟨x, hx, passes⟩
    exact ⟨x, n, hx, passes, rfl⟩

theorem positionsOf_ascending (l : List α) : (positionsOf test l).Pairwise fun x y => x < y := by
  have taken : positionsOf test l = (l.zipIdx.filter fun x => test x.1).map Prod.snd := by
    rw [← List.filterMap_eq_map, List.filterMap_filter]
    rfl
  have ascending : (l.zipIdx.map Prod.snd).Pairwise fun x y => x < y := by
    rw [List.zipIdx_map_snd]
    exact List.pairwise_lt_range'
  rw [taken]
  exact ascending.sublist (List.filter_sublist.map _)

variable {test}

theorem positionsOf_none {l : List α} (h : ∀ x ∈ l, test x = false) : positionsOf test l = [] :=
  List.filterMap_eq_nil_iff.2 fun x hx => by rw [h x.1 (List.fst_mem_of_mem_zipIdx hx)]; rfl

/-- The first place at which a test holds. -/
theorem positionsOf_first {a b : List α} {x : α} (ha : ∀ y ∈ a, test y = false) (hx : test x = true) :
    ∃ l, positionsOf test (a ++ x :: b) = a.length :: l := by
  have before : (a.zipIdx.filterMap fun y => if test y.1 then some y.2 else none) = [] := positionsOf_none ha
  rw [positionsOf, List.zipIdx_append, List.filterMap_append, before, List.nil_append, List.zipIdx_cons,
    List.filterMap_cons, if_pos hx, Nat.zero_add]
  exact ⟨_, rfl⟩

end

/-! #### Where a slot stands (R48) -/

section
variable {s : State} {i : Nat}

theorem placeOf_rush (h : s.osq.rush = some i) : s.placeOf i = .rush := if_pos h

theorem absent {l : List Nat} (h : i ∉ l) : ∀ x ∈ l, (x == i) = false := fun _ hx => beq_false_of_ne fun e => h (e ▸ hx)

theorem placeOf_queue {l m : List Nat} (rush : s.osq.rush ≠ some i) (queue : s.osq.queue = l ++ i :: m) (first : i ∉ l) :
    s.placeOf i = .queue l.length := by
  obtain ⟨rest, positions⟩ := positionsOf_first (test := (· == i)) (b := m) (absent first) (beq_self_eq_true i)
  unfold State.placeOf
  rw [if_neg rush, queue, positions]

theorem placeOf_held {l m : List Nat} (rush : s.osq.rush ≠ some i) (queue : i ∉ s.osq.queue) (held : s.osq.held = l ++ i :: m)
    (first : i ∉ l) : s.placeOf i = .held l.length := by
  obtain ⟨rest, positions⟩ := positionsOf_first (test := (· == i)) (b := m) (absent first) (beq_self_eq_true i)
  unfold State.placeOf
  rw [if_neg rush, positionsOf_none (absent queue), held, positions]

theorem placeOf_none (rush : s.osq.rush ≠ some i) (queue : i ∉ s.osq.queue) (held : i ∉ s.osq.held) : s.placeOf i = .none := by
  unfold State.placeOf
  rw [if_neg rush, positionsOf_none (absent queue), positionsOf_none (absent held)]

end

theorem readOrder_whole {s : State} {q : Asker} {i : Nat} (hi : i ≤ 63) :
    owned q (.readOrder i) (s.asked q) = (s.asked q, readReply q.space (s.orderData i)) := by
  have reply : (s.asked q).readOrderReply q.space i = readReply q.space (s.orderData i) := if_neg (Nat.not_lt.2 hi)
  exact congrArg (Prod.mk _) reply

/-- A stand's source is stale where no FRESH entry brings its REEL_DIAMETER (R105). -/
theorem diameterIsStale_iff (s : State) (k : Nat) :
    s.diameterIsStale k = true ↔
      ∀ e ∈ s.irt.subs.toList, ∀ c, e.fresh = true → e.cfg = some c → c.kind = .reelDiameter → c.index ≠ k := by
  unfold State.diameterIsStale
  rw [Bool.not_eq_true', List.any_eq_false]
  refine forall₂_congr fun e _ => ?_
  cases e.cfg with
  | none => simp
  | some c => simp

/-- Settles O11: each read is the list of its entries, cut to the reply space. -/
theorem readsReturnWholeEntries : Obligations.ReadsReturnWholeEntries := by
  intro s q handed returns number
  refine ⟨fun i grants hi => ?_, fun grants => exec_readReply grants handed rfl, fun grants => ?_⟩
  · have read := exec_readReply grants handed (readOrder_whole hi)
    refine ⟨fun empty => ?_, fun held => ⟨s.placeOf i, positionsOf (fun g => g.order == some i) s.osq.segments,
      placeOf_rush, fun l m => placeOf_queue, fun l m => placeOf_held, placeOf_none, positionsOf_ascending _ _, fun n => ?_, ?_⟩⟩
    · rwa [State.orderData, if_pos empty] at read
    · simp [mem_positionsOf]
    · rwa [State.orderData, if_neg held] at read
  · refine ⟨s.diameterIsStale, diameterIsStale_iff s, ?_⟩
    have data := zipIdx_eq_finRange s.spl.stands fun x => Datum.stand (x.2 + 1) x.1.returned (s.diameterIsStale (x.2 + 1))
    have read := exec_readReply (l := s.standData) grants handed rfl
    rw [State.standData, data] at read
    exact read

end Sys2Proof.Machine
end

section
namespace Sys2Proof.Machine

variable {P : State → Prop}

/-! ### What a confirmed cut leaves alone (R59, R60, R127, R137 to R139)

Behind the cut edge's move and the count of the outcome, a confirmed cut stacks, closes, judges and plans. `Cuts` says once what
these do: the confirmed counts of the orders and the cut edge stay, and the other blocks are not touched. -/

/-- What confirmed cuts have counted to an order. -/
def Slot.tally (o : Slot) : Nat × Nat × Nat := (o.goodConfirmed, o.waste, o.noted)

/-- Order tables of the same confirmed counts. -/
def Osq.SameTally (a b : Osq) : Prop := ∀ j, (b.slotAt j).tally = (a.slotAt j).tally

structure Cuts (P : State → Prop) : Prop where
  log : ∀ {s : State} (b), P s → P (s.log b)
  urgent : ∀ {s : State} (o), P s → P (s.queueUrgent o)
  routine : ∀ {s : State} (o), P s → P (s.queueRoutine o)
  hand : ∀ {s : State} (c d), P s → P (s.hand c d)
  alter : ∀ {s : State} (d r), P s → P (s.alter d r)
  osq : ∀ {s : State} (f : Osq → Osq), s.osq.SameTally (f s.osq) → P s → P (s.onOsq f)
  stk : ∀ {s : State} (f : Stk → Stk), P s → P (s.onStk f)
  knp : ∀ {s : State} (f : Knp → Knp), (f s.knp).cutEdge = s.knp.cutEdge → P s → P (s.onKnp f)

namespace Cuts

theorem onSlot (K : Cuts P) {s : State} (i : Nat) {f : Slot → Slot} (hf : ∀ x, (f x).tally = x.tally) (h : P s) :
    P (s.onSlot i f) := by
  refine K.osq _ (fun j => ?_) h
  rw [slotAt_modify]
  split
  · rename_i here
    rw [hf, here.1]
  · rfl

theorem segments (K : Cuts P) {s : State} (f : List Segment → List Segment) (h : P s) :
    P (s.onOsq fun o => { o with segments := f o.segments }) := K.osq _ (fun _ => rfl) h

/-! #### Stacks and closings (R62, R149 to R153) -/

theorem placeSetDown (K : Cuts P) {s : State} (d : SetDown) (h : P s) : P (s.placeSetDown d) := by
  have examined : ∀ {s : State}, P s → P s.examineSetDown := by
    intro s h
    unfold State.examineSetDown
    split
    · exact h
    · exact ite_keeps (fun _ => K.stk _ (K.routine _ h)) fun _ => h
  unfold State.placeSetDown
  split
  · exact examined (K.stk _ h)
  · exact K.stk _ h
  · exact ite_keeps (fun _ => K.alter _ _ (K.stk _ h)) fun _ => K.routine _ (K.hand _ _ h)

theorem countIntoStack (K : Cuts P) {s : State} (i : Nat) (h : P s) : P (s.countIntoStack i) := by
  unfold State.countIntoStack
  split
  · exact h
  · exact ite_keeps (fun _ => K.placeSetDown _ (K.stk _ h)) fun _ => K.stk _ h

theorem testClose (K : Cuts P) {s : State} (i : Nat) (h : P s) : P (s.testClose i) := by
  unfold State.testClose
  split
  · exact h
  · rename_i r _
    refine ite_keeps (fun _ => ?_) fun _ => h
    have closed := K.onSlot i (f := fun o => { o with
      state := if decide (r.cuts ≤ (s.slot i).goodConfirmed) then .complete else .short
      balance := if decide (r.cuts ≤ (s.slot i).goodConfirmed) then (s.slot i).goodConfirmed - r.cuts
        else r.cuts - (s.slot i).goodConfirmed }) (fun _ => rfl) h
    exact ite_keeps (fun _ => K.routine _ (K.log _ closed)) fun _ => K.placeSetDown _ (K.stk _ (K.routine _ (K.log _ closed)))

/-- What follows once the outcome is counted to its order. -/
theorem reportOutcome (K : Cuts P) {s : State} (i : Nat) (x : CutOutcome) (h : P (s.onSlot i fun o => o.count x)) :
    P (s.reportOutcome (some i) x) := by
  refine K.testClose i ?_
  cases x with
  | good => exact K.countIntoStack i h
  | goodNoted => exact K.countIntoStack i h
  | diverted => exact h
  | miscut => exact h
  | waste => exact h

/-! #### The plan queue (R59, R127, R129, R135, R139) -/

theorem reportPlan (K : Cuts P) {s : State} (p : Plan) (h : P s) : P (s.reportPlan p) := by
  unfold State.reportPlan
  split
  · exact h
  · exact ite_keeps (fun _ => K.onSlot _ (fun _ => rfl) (K.segments _ h)) fun _ => K.onSlot _ (fun _ => rfl) h

theorem passPlanning (K : Cuts P) (fuel : Nat) {s : State} (h : P s) : P (State.passPlanning fuel s) := by
  induction fuel generalizing s with
  | zero => exact h
  | succ fuel ih =>
    unfold State.passPlanning
    split
    · exact h
    · exact ite_keeps (fun _ => ih (K.segments _ h)) fun _ => h

theorem planSheets (K : Cuts P) (fuel : Nat) {s : State} (h : P s) : P (State.planSheets fuel s) := by
  induction fuel generalizing s with
  | zero => exact h
  | succ fuel ih =>
    unfold State.planSheets
    refine ite_keeps (fun _ => ?_) fun _ => h
    split
    · exact h
    · exact ih (K.passPlanning _ (K.reportPlan _ (K.knp _ rfl (K.urgent _ h))))

theorem refill (K : Cuts P) {s : State} (h : P s) : P s.refill := by
  have planned := K.planSheets 2 h
  exact ite_keeps (fun _ => planned) fun _ => ite_keeps (fun _ => K.alter _ _ planned) fun _ => K.alter _ _ planned

theorem rejudge (K : Cuts P) {s : State} (h : P s) : P s.rejudge := by
  unfold State.rejudge
  split
  · exact h
  · refine ite_keeps (fun _ => ?_) fun _ => h
    dsimp only
    split
    · exact K.log _ (K.knp _ rfl (K.urgent _ h))
    · exact h

end Cuts

/-- The blocks that a cut does not touch, and the line constants. -/
def State.besideCut (s : State) : Wmp × Chg × Spl × Hgr × Lsc × Irt × LineConsts :=
  (s.wmp, s.chg, s.spl, s.hgr, s.lsc, s.irt, s.line)

/-- What stands since a state u while a cut is settled. -/
structure State.CutSince (u t : State) : Prop where
  cutEdge : t.knp.cutEdge = u.knp.cutEdge
  tally   : u.osq.SameTally t.osq
  beside  : t.besideCut = u.besideCut

theorem Cuts.since (u : State) : Cuts u.CutSince where
  log _ h := ⟨by simpa using h.cutEdge, by simpa using h.tally, by simpa [State.besideCut] using h.beside⟩
  urgent _ h := ⟨by simpa using h.cutEdge, by simpa using h.tally, by simpa [State.besideCut] using h.beside⟩
  routine _ h := ⟨by simpa using h.cutEdge, by simpa using h.tally, by simpa [State.besideCut] using h.beside⟩
  hand _ _ h := ⟨h.cutEdge, h.tally, h.beside⟩
  alter _ _ h := ⟨by simpa using h.cutEdge, by simpa using h.tally, by simpa [State.besideCut] using h.beside⟩
  osq _ hf h := ⟨h.cutEdge, fun j => (hf j).trans (h.tally j), h.beside⟩
  stk _ h := ⟨h.cutEdge, h.tally, h.beside⟩
  knp _ hf h := ⟨hf.trans h.cutEdge, h.tally, h.beside⟩

/-! ### The oldest plan confirmed (R137, R138) -/

/-- The knife's state as a confirmed cut that is d too long leaves it before anything is planned anew. -/
def Knp.confirmed (k : Knp) (p : Plan) (rest : List Plan) (d : Int) : Knp :=
  { k with plans := rest.map fun q => { q with stop := q.stop + d }, cutEdge := p.stop + d, front := k.front + d }

/-- KNP's own records of a settled plan, before its outcome is counted. -/
def State.cutRecorded (s : State) (p : Plan) (actual : Nat) : State :=
  let d : Int := actual - p.length
  let x := p.outcome s.line.nums.miscut d
  let s := if x = .miscut then (s.queueUrgent (.divert p.seq .miscut)).log (.divert p.seq .miscut d) else s
  match p.wasteReason x with
  | some w => s.log (.wasteCut (s.numberOf p.order) w actual)
  | none => s

theorem Cuts.cutRecorded (K : Cuts P) {s : State} (p : Plan) (actual : Nat) (h : P s) : P (s.cutRecorded p actual) := by
  unfold State.cutRecorded
  have diverted : P (if p.outcome s.line.nums.miscut (actual - p.length) = .miscut
      then (s.queueUrgent (.divert p.seq .miscut)).log (.divert p.seq .miscut (actual - p.length)) else s) :=
    ite_keeps (fun _ => K.log _ (K.urgent _ h)) fun _ => h
  dsimp only
  split
  · exact K.log _ diverted
  · exact diverted

theorem confirmCut_eq (s : State) (p : Plan) (rest : List Plan) (actual : Nat) :
    s.confirmCut p rest actual =
      (State.passPlanning 4 (((s.onKnp fun k => k.confirmed p rest (actual - p.length)).cutRecorded p actual).reportOutcome
        p.order (p.outcome s.line.nums.miscut (actual - p.length))).rejudge).refill := rfl

theorem State.CutSince.refl (u : State) : u.CutSince u := ⟨rfl, fun _ => rfl, rfl⟩

/-- What an outcome makes of the confirmed counts depends on them alone. -/
theorem count_tally {o o' : Slot} (x : CutOutcome) (h : o'.tally = o.tally) : (o'.count x).tally = (o.count x).tally := by
  simp only [Slot.tally, Prod.mk.injEq] at h
  obtain ⟨good, waste, noted⟩ := h
  cases x <;> simp [Slot.count, Slot.tally, good, waste, noted]

section
variable (s : State) (p : Plan) (rest : List Plan) (actual : Nat)

/-- The state of a confirmed cut with KNP's records made. -/
def State.cutTaken : State := (s.onKnp fun k => k.confirmed p rest (actual - p.length)).cutRecorded p actual

/-- The same with the outcome counted to the plan's order. -/
def State.cutCounted : State :=
  match p.order with
  | none => s.cutTaken p rest actual
  | some i => (s.cutTaken p rest actual).onSlot i fun o => o.count (p.outcome s.line.nums.miscut (actual - p.length))

theorem cutTaken_since : (s.onKnp fun k => k.confirmed p rest (actual - p.length)).CutSince (s.cutTaken p rest actual) :=
  (Cuts.since _).cutRecorded p actual (State.CutSince.refl _)

/-- What is kept from the counting on is kept by the confirmed cut. -/
theorem Cuts.confirmCut (K : Cuts P) (h : P (s.cutCounted p rest actual)) : P (s.confirmCut p rest actual) := by
  rw [confirmCut_eq]
  refine K.refill (K.passPlanning 4 (K.rejudge ?_))
  unfold State.cutCounted at h
  cases order : p.order with
  | none =>
    rw [order] at h
    exact h
  | some i =>
    rw [order] at h
    exact K.reportOutcome i _ h

/-- The cut edge stands at the plan's end corrected, and the other blocks as they were. -/
theorem confirmCut_blocks : (s.confirmCut p rest actual).knp.cutEdge = p.stop + (actual - p.length)
    ∧ (s.confirmCut p rest actual).besideCut = s.besideCut := by
  have taken := cutTaken_since s p rest actual
  have after := (Cuts.since _).confirmCut s p rest actual (State.CutSince.refl _)
  refine ⟨after.cutEdge.trans ?_, after.beside.trans ?_⟩
  · unfold State.cutCounted
    split
    · exact taken.cutEdge
    · exact taken.cutEdge
  · unfold State.cutCounted
    split
    · exact taken.beside
    · exact taken.beside

/-- The outcome is counted to the plan's order. -/
theorem confirmCut_counts {i : Nat} (hi : i ≤ 63) (order : p.order = some i) :
    ((s.confirmCut p rest actual).slot i).tally
      = ((s.slot i).count (p.outcome s.line.nums.miscut (actual - p.length))).tally := by
  have after := (Cuts.since _).confirmCut s p rest actual (State.CutSince.refl _)
  have counted : (s.cutCounted p rest actual).slot i
      = ((s.cutTaken p rest actual).slot i).count (p.outcome s.line.nums.miscut (actual - p.length)) := by
    unfold State.cutCounted
    rw [order]
    exact slotAt_self _ _ (Nat.lt_succ_of_le hi)
  calc ((s.confirmCut p rest actual).slot i).tally
      = ((s.cutCounted p rest actual).slot i).tally := after.tally i
    _ = (((s.cutTaken p rest actual).slot i).count (p.outcome s.line.nums.miscut (actual - p.length))).tally := by rw [counted]
    _ = _ := count_tally _ ((cutTaken_since s p rest actual).tally i)

end

/-! ### A CUT_DONE (R137, R140) -/

theorem confirmWithdrawn_leaves (s : State) (w : Withdrawn) (actual : Nat) :
    let t := s.confirmWithdrawn w actual
    t.knp = { s.knp with cutEdge := w.stop + (actual - w.length), front := w.stop + (actual - w.length) }
      ∧ t.osq = s.osq ∧ t.stk = s.stk ∧ t.wmp = s.wmp
      ∧ t = (({ s with knp := t.knp } : State).queueUrgent (.divert w.seq .withdrawn)).log (.divert w.seq .withdrawn 0) := by
  have knp : (s.confirmWithdrawn w actual).knp
      = { s.knp with cutEdge := w.stop + (actual - w.length), front := w.stop + (actual - w.length) } := by
    simp [State.confirmWithdrawn]
  refine ⟨knp, ?_, ?_, ?_, ?_⟩
  · simp [State.confirmWithdrawn]
  · simp [State.confirmWithdrawn]
  · simp [State.confirmWithdrawn]
  · rw [knp]
    rfl

section
variable {s : State} {seq actual : Nat}

theorem cutDone_oldest {p : Plan} {rest : List Plan} (plans : s.knp.plans = p :: rest) :
    s.cutDone seq actual
      = if p.seq = seq then s.confirmCut p rest actual else s.hand .knifeSequence (.two seq (some p.seq)) := by
  unfold State.cutDone
  rw [plans]

theorem cutDone_withdrawn {w : Withdrawn} (plans : s.knp.plans = [])
    (found : s.knp.withdrawn.find? (fun x => x.seq == seq) = some w) : s.cutDone seq actual = s.confirmWithdrawn w actual := by
  unfold State.cutDone
  rw [plans, found]

theorem cutDone_unknown (plans : s.knp.plans = []) (unknown : ∀ w ∈ s.knp.withdrawn, w.seq ≠ seq) :
    s.cutDone seq actual = if s.knp.planSent then s.hand .knifeSequence (.two seq none) else s := by
  have none_ : s.knp.withdrawn.find? (fun x => x.seq == seq) = none :=
    List.find?_eq_none.2 fun w hw => by simpa using unknown w hw
  unfold State.cutDone
  rw [plans, none_]

end

/-- Settles O57: the oldest plan by `confirmCut_blocks` and `confirmCut_counts`, and the other cuts by the branches of R137 and
R140. -/
theorem cutDoneConfirmsTheOldestPlan : Obligations.CutDoneConfirmsTheOldestPlan := by
  intro s seq actual t
  refine ⟨fun p rest plans named => ?_, fun p rest plans other => (cutDone_oldest plans).trans (if_neg other),
    fun plans => ⟨fun w found => ?_, cutDone_unknown plans⟩⟩
  · have confirmed : t = s.confirmCut p rest actual := (cutDone_oldest plans).trans (if_pos named)
    obtain ⟨edge, blocks⟩ := confirmCut_blocks s p rest actual
    rw [confirmed]
    refine ⟨edge, fun i order hi => ?_, by simpa only [State.besideCut, Prod.mk.injEq] using blocks⟩
    have counts := confirmCut_counts s p rest actual hi order
    simpa only [Slot.tally, Prod.mk.injEq] using counts
  · have confirmed : t = s.confirmWithdrawn w actual := cutDone_withdrawn plans found
    rw [confirmed]
    exact confirmWithdrawn_leaves s w actual

end Sys2Proof.Machine
end

section
namespace Sys2Proof.Machine

/-! ### The next-order candidate reported (R54, R77) -/

/-- What the routine queue and the faults handed become depends on the queues and the faults alone. -/
theorem queueRoutine_congr {s t : State} (o : OutItem) (rif : t.rif = s.rif) (handed : t.handed = s.handed) :
    (t.queueRoutine o).rif = (s.queueRoutine o).rif ∧ (t.queueRoutine o).handed = (s.queueRoutine o).handed := by
  unfold State.queueRoutine
  rw [rif]
  repeat' split
  all_goals simp [State.hand, rif, handed]

/-- The preset of a setting under the next id (R75). -/
def Chg.nextPreset (c : Chg) (x : Setting) : Preset := { id := nextId c.idCounter, setting := x }

/-- The Changeover Unit once a setting has been preset at the idle station as its forecast (R77). -/
def Chg.forecasting (c : Chg) (x : Setting) : Chg :=
  { c with
    sent := (c.idle, c.nextPreset x) :: c.sent.filter fun y => !(y.1 == c.idle && y.2.id == (c.nextPreset x).id)
    idCounter := (c.nextPreset x).id
    forecast := some (c.idle, c.nextPreset x) }

section
variable {s : State} {c : Option Nat}

/-- What a candidate that asks for no preset makes of the forecast. -/
theorem forecastFor_drops (h : s.line.nums.dSs = 0 ∨ s.chg.records ≠ [] ∨ c.bind s.settingOf = none
    ∨ s.chg.expected = c.bind s.settingOf) : s.forecastFor c = s.onChg fun x => { x with forecast := none } := by
  unfold State.forecastFor
  dsimp only
  by_cases held : s.line.nums.dSs = 0 ∨ s.chg.records ≠ []
  · rw [if_pos held]
  · rw [if_neg held]
    cases setting : c.bind s.settingOf with
    | none => rfl
    | some x =>
      rw [setting] at h
      exact if_pos (by tauto)

section
variable (slit : s.line.nums.dSs ≠ 0) (records : s.chg.records = []) {x : Setting} (setting : c.bind s.settingOf = some x)
  (unexpected : s.chg.expected ≠ some x)
include slit records setting unexpected

/-- A candidate whose setting the forecast holds. -/
theorem forecastFor_stands (forecast : (s.chg.forecast.map fun f => f.2.setting) = some x) : s.forecastFor c = s := by
  unfold State.forecastFor
  rw [if_neg (by simp [slit, records]), setting]
  exact (if_neg unexpected).trans (if_pos forecast)

/-- A candidate with another setting is preset at the idle station. -/
theorem forecastFor_presets (forecast : (s.chg.forecast.map fun f => f.2.setting) ≠ some x) :
    s.forecastFor c = (s.queueRoutine (.slitterPreset s.chg.idle (s.chg.nextPreset x) s.line.side)).onChg fun _ =>
      s.chg.forecasting x := by
  have sent : s.forecastFor c = (s.sendPreset s.chg.idle (s.chg.nextPreset x)).onChg fun c =>
      { c with idCounter := (s.chg.nextPreset x).id, forecast := some (c.idle, s.chg.nextPreset x) } := by
    unfold State.forecastFor
    rw [if_neg (by simp [slit, records]), setting]
    exact (if_neg unexpected).trans (if_neg forecast)
  obtain ⟨k, h, only⟩ := s.queueRoutine_only (.slitterPreset s.chg.idle (s.chg.nextPreset x) s.line.side)
  rw [sent, State.sendPreset, only]
  rfl

end

/-- What the Changeover Unit makes of a candidate touches its own state and the routine queue, and leaves the setting expected. -/
theorem forecastFor_only (s : State) (c : Option Nat) :
    ∃ (x : Chg) (k : Rif) (h : List FaultReport), s.forecastFor c = { s with chg := x, rif := k, handed := h }
      ∧ x.expected = s.chg.expected := by
  have core : (s.forecastFor c).chg.core = s.chg.core := (Later.core _).forecastFor c rfl
  have only : ∃ (x : Chg) (k : Rif) (h : List FaultReport), s.forecastFor c = { s with chg := x, rif := k, handed := h } := by
    by_cases drops : s.line.nums.dSs = 0 ∨ s.chg.records ≠ [] ∨ c.bind s.settingOf = none ∨ s.chg.expected = c.bind s.settingOf
    · exact ⟨_, s.rif, s.handed, forecastFor_drops drops⟩
    · push Not at drops
      obtain ⟨slit, records, setting, unexpected⟩ := drops
      obtain ⟨x, setting⟩ := Option.ne_none_iff_exists'.1 setting
      rw [setting] at unexpected
      by_cases forecast : (s.chg.forecast.map fun f => f.2.setting) = some x
      · exact ⟨s.chg, s.rif, s.handed, forecastFor_stands slit records setting unexpected forecast⟩
      · rw [forecastFor_presets slit records setting unexpected forecast]
        obtain ⟨k, h, sent⟩ := s.queueRoutine_only (.slitterPreset s.chg.idle (s.chg.nextPreset x) s.line.side)
        rw [sent]
        exact ⟨_, _, _, rfl⟩
  obtain ⟨x, k, h, only⟩ := only
  exact ⟨x, k, h, only, by rw [only] at core; exact (core_eq core).2.1⟩

end

/-- A candidate that stands is not reported. -/
theorem reportCandidate_stands {s : State} (h : s.osq.nextCandidate = s.osq.candidate) : s.reportCandidate = s := if_pos h

/-- The report of the candidate touches the candidate, the Changeover Unit and the routine queue. -/
theorem reportCandidate_only (s : State) :
    ∃ (x : Chg) (k : Rif) (h : List FaultReport),
      s.reportCandidate = { s with osq := { s.osq with candidate := s.osq.nextCandidate }, chg := x, rif := k, handed := h }
        ∧ x.expected = s.chg.expected := by
  by_cases same : s.osq.nextCandidate = s.osq.candidate
  · refine ⟨s.chg, s.rif, s.handed, ?_, rfl⟩
    rw [reportCandidate_stands same, same]
  · obtain ⟨x, k, h, only, expected⟩ :=
      forecastFor_only (s.onOsq fun o => { o with candidate := s.osq.nextCandidate }) s.osq.nextCandidate
    exact ⟨x, k, h, (if_neg same).trans only, expected⟩

/-- The order table of a request in a state: the pins read as the asker gives them, and the table is o. -/
def State.tabled (s : State) (q : Asker) (o : Osq) : State := { s.asked q with osq := o }

/-- The report of a candidate that a request has changed, seen from the state before the request. -/
theorem reportCandidate_forecasts (s : State) (q : Asker) {o : Osq} (candidate : o.candidate = s.osq.candidate) :
    s.Forecasts (s.tabled q o).reportCandidate o.nextCandidate := by
  let t := s.tabled q { o with candidate := o.nextCandidate }
  have tables : (s.tabled q o).reportCandidate.settingOf = t.settingOf := by
    obtain ⟨x, k, h, only, -⟩ := reportCandidate_only (s.tabled q o)
    rw [only]
    rfl
  have stands (same : o.nextCandidate = s.osq.candidate) : (s.tabled q o).reportCandidate = s.tabled q o :=
    reportCandidate_stands (same.trans candidate.symm)
  have changes (other : o.nextCandidate ≠ s.osq.candidate) : (s.tabled q o).reportCandidate = t.forecastFor o.nextCandidate :=
    if_neg (fun same => other (same.trans candidate))
  constructor
  case kept =>
    rw [tables]
    intro h
    by_cases same : o.nextCandidate = s.osq.candidate
    · rw [stands same]
      exact ⟨rfl, rfl, rfl⟩
    · obtain ⟨slit, records, setting, unexpected, forecast⟩ := h.resolve_left same
      obtain ⟨x, setting⟩ := Option.ne_none_iff_exists'.1 setting
      rw [setting] at unexpected forecast
      rw [changes same, forecastFor_stands (s := t) slit records setting unexpected forecast]
      exact ⟨rfl, rfl, rfl⟩
  case dropped =>
    rw [tables]
    intro other h
    rw [changes other, forecastFor_drops (s := t) h]
    exact ⟨rfl, rfl, rfl⟩
  case preset =>
    rw [tables]
    intro x other slit records setting unexpected forecast p sent
    rw [changes other, forecastFor_presets (s := t) slit records setting unexpected forecast]
    obtain ⟨rif, handed⟩ := queueRoutine_congr (s := s) (t := t) (.slitterPreset s.chg.idle p s.line.side) rfl rfl
    exact ⟨rfl, rfl, List.mem_cons_self, records, rfl, rif, handed⟩

/-- What a request that changes the order table leaves when the candidate has been reported: seen from before it, the table with
its candidate, what the Changeover Unit makes of that, and the other blocks as they were. -/
theorem reportCandidate_leaves (s : State) (q : Asker) {o : Osq} (candidate : o.candidate = s.osq.candidate) :
    let v := (s.tabled q o).reportCandidate
    v.osq = { o with candidate := o.nextCandidate } ∧ s.Forecasts v o.nextCandidate
      ∧ v.commStation = q.comm ∧ v.wtr = s.wtr ∧ v.wmp = s.wmp ∧ v.spl = s.spl ∧ v.hgr = s.hgr ∧ v.knp = s.knp
      ∧ v.stk = s.stk ∧ v.plg = s.plg ∧ v.lsc = s.lsc ∧ v.irt = s.irt ∧ v.line = s.line := by
  have forecasts := reportCandidate_forecasts s q candidate
  obtain ⟨x, k, h, only, -⟩ := reportCandidate_only (s.tabled q o)
  intro v
  have v_eq : v = _ := only
  refine ⟨?_, forecasts, ?_⟩
  · rw [v_eq]
    rfl
  · rw [v_eq]
    exact ⟨rfl, rfl, rfl, rfl, rfl, rfl, rfl, rfl, rfl, rfl, rfl⟩

/-! #### The event of a candidate that a request may have changed (R54, R68) -/

/-- An order comes to the front at once behind a NONE lead segment alone (R68). -/
theorem due_available {s : State} (h : s.due = .available) : ∃ g, s.lead = some g ∧ g.order = none := by
  unfold State.due at h
  split at h
  · cases h
  · split at h
    · cases h
    · rename_i g lead
      refine ⟨g, lead, ?_⟩
      split at h
      · split at h
        · rename_i waits
          rw [Bool.and_eq_true, Option.isNone_iff_eq_none] at waits
          exact waits.1
        · cases h
      · split at h
        · cases h
        · split at h <;> cases h

/-- No creation is due for a candidate where one stood before, where the segment list is full, or behind a lead order. -/
theorem candidateEvent_reports {s : State} (h : s.osq.candidate.isSome = true ∨ 4 ≤ s.osq.segments.length
    ∨ ∀ g, s.lead = some g → g.order ≠ none) : s.candidateEvent = s.reportCandidate := by
  refine if_neg fun opens => ?_
  rw [Bool.and_eq_true, beq_iff_eq] at opens
  obtain ⟨fresh, due⟩ := opens
  obtain ⟨x, k, l, only, -⟩ := reportCandidate_only s
  rw [only] at due
  rcases h with stood | full | lead
  · rw [Option.isNone_iff_eq_none] at fresh
    rw [fresh] at stood
    cases stood
  · rw [State.due, if_pos full] at due
    cases due
  · obtain ⟨g, front, order⟩ := due_available due
    exact lead g front order

end Sys2Proof.Machine
end

section
namespace Sys2Proof.Machine

/-! #### Requests that change the order table (R47, R49, R50) -/

section
variable {s : State} {q : Asker} {r : Request} {o : Osq} {x y : Reply} (grants : s.Grants q r)
  (own : owned q r (s.asked q) = ((s.tabled q o).candidateEvent, x)) (cut : x.cut q.space = y)
include grants own cut

/-- A granted request that changes the order table ends with the event of the candidate. -/
theorem exec_tabled : exec (carrying q r) s = .next { (s.tabled q o).candidateEvent.takeFaults with reply := some y } := by
  rw [exec_granted grants, own, cut]
  rfl

/-- One that leaves the candidate as it stands changes the table alone. -/
theorem exec_tabled_stands (handed : s.handed = []) (candidate : o.candidate = s.osq.candidate)
    (some : s.osq.candidate.isSome = true) (stands : o.nextCandidate = s.osq.candidate) :
    exec (carrying q r) s = .next (({ s with osq := o } : State).replied q y) := by
  have still : (s.tabled q o).candidateEvent = s.tabled q o := by
    rw [candidateEvent_reports (.inl (by rw [← candidate] at some; exact some)),
      reportCandidate_stands (stands.trans candidate.symm)]
  rw [exec_tabled grants own cut, still, takeFaults_nothing (s := s.tabled q o) handed]
  rfl

/-- One behind which no creation is due reports the candidate. -/
theorem exec_tabled_reports (candidate : o.candidate = s.osq.candidate) (segments : o.segments = s.osq.segments)
    (undue : s.osq.candidate.isSome = true ∨ 4 ≤ s.osq.segments.length ∨ ∀ g, s.lead = some g → g.order ≠ none) :
    exec (carrying q r) s = .next { (s.tabled q o).reportCandidate.takeFaults with reply := some y } := by
  have reported : (s.tabled q o).candidateEvent = (s.tabled q o).reportCandidate := by
    refine candidateEvent_reports ?_
    change o.candidate.isSome = true ∨ 4 ≤ o.segments.length ∨ ∀ g, o.segments.getLast? = some g → g.order ≠ none
    rw [candidate, segments]
    exact undue
  rw [exec_tabled grants own cut, reported]

end

/-! ### WITHDRAW_ORDER (R47) -/

section
variable {s : State} {i : Nat} (hi : i ≤ 63)
include hi

theorem withdrawOrder_refuses (h : (s.slot i).state = .empty) : s.withdrawOrder i = (s, bare .badSlot) := by
  rw [State.withdrawOrder, if_neg (by omega), h]
  rfl

theorem withdrawOrder_busy (h : (s.slot i).state = .onWeb ∨ (s.slot i).state = .suspended) :
    s.withdrawOrder i = (s, bare .busy) := by
  rw [State.withdrawOrder, if_neg (by omega)]
  rcases h with h | h <;> rw [h] <;> rfl

theorem withdrawOrder_empties (h : (s.slot i).state = .loaded ∨ (s.slot i).state = .complete ∨ (s.slot i).state = .short) :
    s.withdrawOrder i = (s.onSlot i fun _ => Slot.blank, bare .ok) := by
  rw [State.withdrawOrder, if_neg (by omega)]
  rcases h with h | h | h <;> rw [h]

theorem withdrawOrder_queued (h : (s.slot i).state = .queued) :
    s.withdrawOrder i = (({ s with osq := s.osq.withdrawn i } : State).candidateEvent, bare .ok) := by
  rw [State.withdrawOrder, if_neg (by omega), h]
  rfl

end

/-- Settles O23. -/
theorem withdrawOrderBySlotState : Obligations.WithdrawOrderBySlotState := by
  intro s q i handed grants
  have answers {x : Reply} (h : (s.asked q).withdrawOrder i = (s.asked q, x)) (data : x.data = []) :
      exec (.withdrawOrder q i) s = .next (s.replied q x) := exec_granted_plain grants h handed data
  refine ⟨fun out => answers (if_pos out) rfl, fun hi empty => answers (withdrawOrder_refuses hi empty) rfl,
    fun hi busy => answers (withdrawOrder_busy hi busy) rfl,
    fun hi idle => exec_granted_plain grants (withdrawOrder_empties (s := s.asked q) hi idle) handed rfl, fun hi queued => ?_⟩
  have own : owned q (.withdrawOrder i) (s.asked q) = ((s.tabled q (s.osq.withdrawn i)).candidateEvent, bare .ok) :=
    withdrawOrder_queued (s := s.asked q) hi queued
  have cut : (bare .ok).cut q.space = bare .ok := cut_bare _ _ rfl
  obtain ⟨osq, leaves⟩ := reportCandidate_leaves s q (o := s.osq.withdrawn i) rfl
  refine ⟨⟨_, exec_tabled grants own cut, rfl⟩, exec_tabled_stands grants own cut handed rfl,
    fun some => ⟨_, exec_tabled_reports grants own cut rfl rfl (.inl some), osq, ?_, leaves⟩⟩
  change Osq.slotAt _ i = _
  rw [osq]
  exact slotAt_self s.osq _ (Nat.lt_succ_of_le hi)

/-! ### QUEUE_APPEND and QUEUE_REMOVE (R49, R50) -/

theorem queueAppend_joins {s : State} {i : Nat} (hi : i ≤ 63) (loaded : (s.slot i).state = .loaded)
    (room : s.osq.queue.length < 32) (valid : s.checkOrder i = none) :
    s.queueAppend i = (({ s with osq := s.osq.appended i } : State).candidateEvent,
      okWith [.number s.osq.queue.length, .number (s.osq.queue.length + 1)]) := by
  rw [State.queueAppend, if_neg (by omega), if_neg (by simp [loaded]), if_neg (by simp [loaded]), if_neg (by omega), valid]
  rfl

theorem queueRemove_takes {s : State} {position i : Nat} (named : s.osq.queue[position]? = some i) :
    s.queueRemove position i = (({ s with osq := s.osq.removed position i } : State).candidateEvent,
      okWith [.number i, .number (s.osq.queue.length - 1)]) := by
  obtain ⟨within, -⟩ := List.getElem?_eq_some_iff.1 named
  have entries : s.osq.queue.isEmpty = false := by
    cases queue : s.osq.queue with
    | nil => rw [queue] at within; cases within
    | cons => rfl
  rw [State.queueRemove, if_neg (by simp [entries]), named]
  have left : ((s.osq.queue.eraseIdx position).length : Int) = s.osq.queue.length - 1 := by
    rw [List.length_eraseIdx_of_lt within]
    omega
  rw [← left]
  exact if_neg (not_not.2 rfl)

/-- Settles O25. -/
theorem queueRemoveTakesTheNamedEntry : Obligations.QueueRemoveTakesTheNamedEntry := by
  intro s q position i handed grants named
  have own : owned q (.queueRemove position i) (s.asked q) = ((s.tabled q (s.osq.removed position i)).candidateEvent,
      okWith [.number i, .number (s.osq.queue.length - 1)]) := queueRemove_takes (s := s.asked q) named
  exact ⟨⟨_, exec_tabled grants own rfl, rfl⟩, exec_tabled_stands grants own rfl handed rfl,
    fun some => ⟨_, exec_tabled_reports grants own rfl rfl rfl (.inl some), reportCandidate_leaves s q rfl⟩⟩

end Sys2Proof.Machine
end

section
namespace Sys2Proof.Machine

variable {P : State → Prop}

/-! ### What the crossings of a new boundary keep (R33, R72, R79, R94, R102, R112)

A boundary that crosses distances as it is created moves stands, changeover records and points, queues items, and opens and
closes defect marks. The boundary itself need not lie above the knife, so `Moves`, which speaks of the marks above it, says
nothing of it. -/

structure Crosses (P : State → Prop) : Prop where
  urgent : ∀ {s : State} (o), P s → P (s.queueUrgent o)
  routine : ∀ {s : State} (o), P s → P (s.queueRoutine o)
  hand : ∀ {s : State} (c d), P s → P (s.hand c d)
  alter : ∀ {s : State} (d r), P s → P (s.alter d r)
  insertDefect : ∀ {s : State} (m), P s → P (s.insertDefect m).1
  closeClaim : ∀ {s : State} (k o x), P s → P (s.closeClaim k o x)
  stand : ∀ {s : State} (i) (f : Stand → Stand), P s → P (s.onStand i f)
  chg : ∀ {s : State} (f : Chg → Chg), P s → P (s.onChg f)
  hgr : ∀ {s : State} (f : Hgr → Hgr), P s → P (s.onHgr f)

namespace Crosses

/-! #### The Changeover Unit (R75, R78 to R80) -/

theorem openZone (K : Crosses P) {s : State} (r : ChangeRec) (h : P s) : P (s.openZone r) :=
  ite_keeps (fun _ => h) fun _ => K.alter _ _ (K.chg _ (ite_keeps (fun _ => h) fun _ => K.insertDefect _ h))

theorem presetHead (K : Crosses P) {s : State} (h : P s) : P s.presetHead := by
  unfold State.presetHead
  split
  · exact h
  · exact ite_keeps (fun _ => h) fun _ => K.chg _ (K.chg _ (K.routine _ h))

theorem trySwap (K : Crosses P) {s : State} (h : P s) : P s.trySwap := by
  have sent (r : ChangeRec) (rest : List ChangeRec) (st : Slitter) : P (s.sendSwap r st rest) := K.chg _ (K.urgent _ h)
  unfold State.trySwap
  split
  · exact h
  · split
    · exact ite_keeps (fun _ => ite_keeps (fun _ => K.openZone _ (sent ..)) fun _ => sent ..) fun _ => K.openZone _ (K.chg _ h)
    · exact K.openZone _ (K.chg _ h)

theorem crossSlitter (K : Crosses P) {s : State} (m : Mark) (h : P s) : P (s.crossSlitter m) := by
  unfold State.crossSlitter
  split
  · exact h
  · exact ite_keeps (fun _ => h) fun _ => ite_keeps (fun _ => K.trySwap (K.presetHead (K.chg _ h))) fun _ =>
      K.openZone _ (K.chg _ h)

theorem newRecord (K : Crosses P) {s : State} (x : Setting) (seq : Nat) (z : Int) (h : P s) : P (s.newRecord x seq z).1 :=
  ite_fst_keeps (fun _ => K.chg _ h) fun _ => K.presetHead (K.chg _ (K.chg _ h))

theorem decideFlying (K : Crosses P) {s : State} (i : Option Nat) (seq : Nat) (x : Int) (h : P s) :
    P (s.decideFlying i seq x).1 := by
  unfold State.decideFlying
  split
  · exact h
  · refine ite_fst_keeps (fun _ => h) fun _ => ?_
    split
    · exact ite_fst_keeps (fun _ => K.chg _ (K.chg _ h)) fun _ => K.newRecord _ _ _ (K.chg _ h)
    · exact K.newRecord _ _ _ (K.chg _ h)

/-! #### The Splice Planner (R94, R102) -/

theorem toExamines (K : Crosses P) (i : Nat) : Examines i P := ⟨K.urgent, K.routine, K.hand, K.alter, K.stand i⟩

theorem judgePaper (K : Crosses P) {s : State} (i : Nat) (a b : Int) (h : P s) : P (s.judgePaper i a b) :=
  K.stand _ _ (ite_keeps (fun _ => K.stand _ _ (K.insertDefect _ h)) fun _ =>
    ite_keeps (fun _ => K.stand _ _ (K.closeClaim _ _ _ h)) fun _ => h)

theorem crossLead (K : Crosses P) {s : State} (i : Nat) (o : Option Nat) (b : Nat) (h : P s) : P (s.crossLead i o b) := by
  unfold State.crossLead
  split
  · exact h
  · exact K.alter _ _ ((K.toExamines i).examine (K.stand _ _ (K.stand _ _ h)))

theorem crossSplicePoint (K : Crosses P) {s : State} (i : Nat) (o : Option Nat) (x : Int) (h : P s) :
    P (s.crossSplicePoint i o x) := by
  unfold State.crossSplicePoint
  split
  · exact h
  · exact K.alter _ _ ((K.toExamines i).examine (K.judgePaper _ _ _ (K.stand _ _ h)))

/-! #### The Heat and Glue Regulator (R112, R123) -/

theorem sendSetpoint (K : Crosses P) {s : State} (p : Nat) (h : P s) : P (s.sendSetpoint p) := by
  unfold State.sendSetpoint
  dsimp only
  split
  · exact h
  · exact ite_keeps (fun _ => h) fun _ => K.hgr _ (K.hgr _ (K.routine _ h))

theorem closeIfIdle (K : Crosses P) {s : State} (p : Nat) (h : P s) : P (s.closeIfIdle p) := by
  have close (d : Nat) (t : State) (c : Nat) (ht : P t) :
      P (if (t.channel c).tiedTo p && (t.channel c).isOpen then t.closeOffband c p d else t) :=
    ite_keeps (fun _ => K.routine _ (K.hgr _ (K.closeClaim _ _ _ ht))) fun _ => ht
  unfold State.closeIfIdle
  split
  · exact h
  · exact ite_keeps (fun _ => foldl_keeps (close _) _ h) fun _ => h

theorem crossPoint (K : Crosses P) {s : State} (p : Nat) (o : Option Nat) (h : P s) : P (s.crossPoint p o) := by
  unfold State.crossPoint
  split
  · exact h
  · exact ite_keeps (fun _ => h) fun _ => K.closeIfIdle _ (K.sendSetpoint _ (K.hgr _ h))

/-! #### The crossings (R33) -/

theorem crossed (K : Crosses P) {s : State} (m : Mark) (r : StationRole) (h : P s) : P (s.crossed m r) := by
  unfold State.crossed
  split
  · cases r
    · exact K.crossLead _ _ _ h
    · exact K.crossSplicePoint _ _ _ h
    · exact K.crossSlitter _ h
    · exact K.crossPoint _ _ h
  · exact h

/-- The crossings at a creation, once the mark is on the map and reported. -/
theorem placeBoundary (K : Crosses P) {s : State} (m : Mark) (h : P (s.bumpSeq.placeMark m)) : P (s.placeBoundary m) :=
  foldl_keeps (P := P) (fun _ r => K.crossed m r) _ h

end Crosses

/-! #### What they leave alone -/

/-- The order table, the stacker, Line State Control, the router's tables and the line constants stand. -/
def State.Beside (s t : State) : Prop :=
  t.osq = s.osq ∧ t.stk = s.stk ∧ t.lsc = s.lsc ∧ t.irt = s.irt ∧ t.line = s.line

theorem Acts.beside (s : State) : Acts s.Beside where
  log _ h := by simpa [State.Beside] using h
  urgent _ h := by simpa [State.Beside] using h
  routine _ h := by simpa [State.Beside] using h
  hand _ _ h := h
  alter _ _ h := by simpa [State.Beside] using h
  map _ h := h
  plan _ _ h := h

theorem Crosses.beside (s : State) : Crosses s.Beside where
  urgent := (Acts.beside s).urgent
  routine := (Acts.beside s).routine
  hand := (Acts.beside s).hand
  alter := (Acts.beside s).alter
  insertDefect _ h := (Acts.beside s).toMarked.insertDefect _ h
  closeClaim _ _ _ h := (Acts.beside s).map _ h
  stand _ _ h := h
  chg _ h := h
  hgr _ h := h

/-- A structural mark without claims stays on the map. -/
theorem Crosses.lies {m : Mark} (structural : m.kind.isStructural = true) (claims : m.claims = []) :
    Crosses fun t => m ∈ t.wmp.marks where
  urgent _ h := by simpa using h
  routine _ h := by simpa using h
  hand _ _ h := h
  alter _ _ h := by simpa using h
  insertDefect _ h := insertDefect_structural structural h
  closeClaim _ _ _ h := closeClaim_closed _ _ _ claims h
  stand _ _ h := h
  chg _ h := h
  hgr _ h := h

/-- A new boundary is on the map, and what its crossings do not concern stands. -/
theorem placeBoundary_leaves {s : State} {m : Mark} (structural : m.kind.isStructural = true) (claims : m.claims = []) :
    s.Beside (s.placeBoundary m) ∧ m ∈ (s.placeBoundary m).wmp.marks := by
  refine ⟨(Crosses.beside s).placeBoundary m ?_, (Crosses.lies structural claims).placeBoundary m ?_⟩
  · exact (Acts.beside s).toMarked.placeMark m ⟨rfl, rfl, rfl, rfl, rfl⟩
  · rw [State.placeMark, markReport_wmp]
    exact (place_perm _ _).mem_iff.2 List.mem_cons_self

/-! ### The flying decision (R74, R75) -/

theorem newRecord_swaps (s : State) (x : Setting) (seq : Nat) (z : Int) : (s.newRecord x seq z).2.1 = false := by
  rw [State.newRecord, apply_ite Prod.snd, apply_ite Prod.fst]
  exact ite_self _

/-- A boundary flies where the expected setting is its order's. -/
theorem decideFlying_flag {s : State} {i : Nat} {x : Setting} (setting : s.settingOf i = some x) (seq : Nat) (start : Int) :
    (s.decideFlying (some i) seq start).2.1 = decide (s.chg.expected = some x) := by
  unfold State.decideFlying
  rw [Option.bind_some, setting]
  by_cases expected : s.chg.expected = some x
  · simp [expected]
  · simp only [if_neg expected, decide_eq_false expected]
    split
    · rw [apply_ite Prod.snd, apply_ite Prod.fst, newRecord_swaps]
      exact ite_self _
    · exact newRecord_swaps _ _ _ _

/-! ### The end of a creation (R58, R71, R129) -/

theorem passFlag_unflagged : ∀ l, (passFlag l).map Segment.unflagged = l.map Segment.unflagged
  | [] => rfl
  | [_] => rfl
  | g :: h :: rest => by
    unfold passFlag
    split
    · rfl
    · exact congrArg (g.unflagged :: ·) (passFlag_unflagged (h :: rest))

/-- The passing of the planning moves the planning flag alone. -/
theorem passPlanning_only (fuel : Nat) (s : State) : ∃ l, State.passPlanning fuel s = { s with osq := { s.osq with segments := l } }
    ∧ l.map Segment.unflagged = s.osq.segments.map Segment.unflagged := by
  induction fuel generalizing s with
  | zero => exact ⟨s.osq.segments, rfl, rfl⟩
  | succ fuel ih =>
    unfold State.passPlanning
    split
    · exact ⟨s.osq.segments, rfl, rfl⟩
    · split
      · obtain ⟨l, passed, flags⟩ := ih (s.onOsq fun o => { o with segments := passFlag o.segments })
        exact ⟨l, passed, flags.trans (passFlag_unflagged _)⟩
      · exact ⟨s.osq.segments, rfl, rfl⟩

theorem syncNoOrder_leaves (s : State) : s.Beside s.syncNoOrder ∧ s.syncNoOrder.wmp = s.wmp := by
  have still : s.Beside s := ⟨rfl, rfl, rfl, rfl, rfl⟩
  refine ⟨ite_keeps (fun _ => still) fun _ => ite_keeps (fun _ => (Acts.beside s).alter _ _ still)
    fun _ => (Acts.beside s).alter _ _ still, ?_⟩
  unfold State.syncNoOrder
  split
  · rfl
  · split
    · exact State.raise_wmp ..
    · exact State.drop_wmp ..

/-- The target of a new lead segment whose order is not taken off the held-order stack. -/
theorem targetFor_fresh {s : State} {i : Nat} {r : OrderRec} {x : Origin} (order : (s.slot i).order = some r) (fresh : x ≠ .held) :
    s.targetFor i x = r.ceiling - (s.slot i).goodPlanned := by
  unfold State.targetFor
  rw [order]
  cases x with
  | held => exact absurd rfl fresh
  | rush => rfl
  | queue => rfl

/-! ### A creation (R71) -/

/-- The new lead segment of an order: its boundary opens it. -/
def Osq.newLead (o : Osq) (i : Nat) (r : OrderRec) (seq : Nat) : Segment :=
  { num := o.nextNum, order := some i, target := r.ceiling - (o.slotAt i).goodPlanned, goodPlanned := 0, opening := some seq,
    closing := none, planning := false }

/-- The order table that a creation leaves, but for the planning flags: the new lead segment, and the candidate. -/
def Osq.opened (o : Osq) (l : List Segment) : Osq :=
  { o with segments := l, candidate := o.nextCandidate, nextNum := o.nextNum + 1 }

/-- A new lead segment whose order is not taken off the held-order stack. -/
theorem openSegment_fresh {s w : State} {i : Nat} {r : OrderRec} {x : Origin} (table : s.osq = w.osq)
    (order : (w.slot i).order = some r) (fresh : x ≠ .held) (seq : Nat) :
    s.openSegment (some (i, x)) seq = { s with
      osq := { w.osq with segments := w.osq.segments ++ [w.osq.newLead i r seq], nextNum := w.osq.nextNum + 1 } } := by
  have slot : s.slot i = w.slot i := by rw [State.slot, table, State.slot]
  have target := targetFor_fresh (s := s) (slot ▸ order) fresh
  rw [slot] at target
  unfold State.openSegment State.onOsq
  dsimp only
  rw [target, table]
  rfl

/-- The candidate is worked out, the planning may pass on, and NO_ORDER follows. -/
theorem creation_ends (v : State) :
    let u := (State.passPlanning 4 v.reportCandidate).syncNoOrder
    (∃ l, u.osq = { v.osq with segments := l, candidate := v.osq.nextCandidate }
        ∧ l.map Segment.unflagged = v.osq.segments.map Segment.unflagged)
      ∧ u.wmp = v.wmp ∧ u.stk = v.stk ∧ u.lsc = v.lsc ∧ u.irt = v.irt ∧ u.line = v.line := by
  obtain ⟨chg, rif, handed, reported, -⟩ := reportCandidate_only v
  obtain ⟨l, passed, flags⟩ := passPlanning_only 4 v.reportCandidate
  obtain ⟨⟨osq, stk, lsc, irt, line⟩, map⟩ := syncNoOrder_leaves (State.passPlanning 4 v.reportCandidate)
  rw [reported] at passed flags
  rw [reported, passed] at osq stk lsc irt line map
  rw [reported, passed]
  exact ⟨⟨l, osq, flags⟩, map, stk, lsc, irt, line⟩

section
variable {t c w : State} {g : Segment} {i : Nat} {r : OrderRec} {from_ : Origin} {suspend : Bool} (x : Int)
  (lead : t.lead = some g) (closed : t.closeLead g t.wmp.nextSeq suspend = c)
  (taken : State.select c.candidates c = (w, some (i, from_)))
include lead closed taken

/-- A creation as its steps give it, where c is the state with the lead closed and w the one with the order taken. -/
theorem createBoundary_steps : ∃ y flies preset, w.decideFlying (some i) t.wmp.nextSeq (max x (t.base g)) = (y, flies, preset)
    ∧ t.createBoundary x suspend = (State.passPlanning 4 ((y.placeBoundary (boundaryMark t.wmp.nextSeq (max x (t.base g))
        (if flies then 0 else c.line.nums.zSwap) g.num (some i) flies preset)).openSegment (some (i, from_))
          t.wmp.nextSeq).reportCandidate).syncNoOrder := by
  refine ⟨_, _, _, rfl, ?_⟩
  unfold State.createBoundary
  rw [lead]
  dsimp only
  rw [closed, taken]
  rfl

/-- What a creation leaves that takes an order off the run queue or as the pending rush. -/
theorem createBoundary_leaves (fresh : from_ ≠ .held) (order : (w.slot i).order = some r) :
    let u := t.createBoundary x suspend
    let flies : Bool := decide (w.chg.expected = some r.tracks)
    (∃ l, u.osq = w.osq.opened l
        ∧ l.map Segment.unflagged = (w.osq.segments ++ [w.osq.newLead i r t.wmp.nextSeq]).map Segment.unflagged)
      ∧ (∃ preset, boundaryMark t.wmp.nextSeq (max x (t.base g)) (if flies then 0 else c.line.nums.zSwap) g.num (some i) flies preset
          ∈ u.wmp.marks)
      ∧ u.stk = w.stk ∧ u.lsc = w.lsc ∧ u.irt = w.irt ∧ u.line = w.line := by
  obtain ⟨y, flies, preset, decision, created⟩ := createBoundary_steps x lead closed taken
  have setting : w.settingOf i = some r.tracks := by rw [State.settingOf, order]; rfl
  have flag : flies = decide (w.chg.expected = some r.tracks) := by
    rw [← decideFlying_flag setting t.wmp.nextSeq (max x (t.base g)), decision]
  have decided : w.Beside y := by
    have kept := (Crosses.beside w).decideFlying (some i) t.wmp.nextSeq (max x (t.base g)) ⟨rfl, rfl, rfl, rfl, rfl⟩
    rwa [decision] at kept
  obtain ⟨decidedOsq, decidedStk, decidedLsc, decidedIrt, decidedLine⟩ := decided
  obtain ⟨⟨osq, stk, lsc, irt, line⟩, placed⟩ := placeBoundary_leaves (s := y) (m := boundaryMark t.wmp.nextSeq (max x (t.base g))
    (if flies then 0 else c.line.nums.zSwap) g.num (some i) flies preset) rfl rfl
  rw [openSegment_fresh (osq.trans decidedOsq) order fresh] at created
  intro u
  rw [← flag]
  obtain ⟨⟨l, endOsq, flags⟩, endMap, endStk, endLsc, endIrt, endLine⟩ := creation_ends _
  rw [← created] at endOsq endMap endStk endLsc endIrt endLine
  exact ⟨⟨l, endOsq, flags⟩, ⟨preset, endMap ▸ placed⟩, endStk.trans (stk.trans decidedStk), endLsc.trans (lsc.trans decidedLsc),
    endIrt.trans (irt.trans decidedIrt), endLine.trans (line.trans decidedLine)⟩

end

/-! #### The order taken (R55) -/

/-- The validity checks read the slot's record, the grade table and the line constants. -/
theorem checkOrder_congr {s t : State} {i : Nat} (record : (t.slot i).record = (s.slot i).record)
    (grades : t.hgr.grades = s.hgr.grades) (line : t.line = s.line) : t.checkOrder i = s.checkOrder i := by
  unfold State.checkOrder State.grade
  rw [record, grades, line]

theorem candidates_succ (s : State) : s.candidates = s.osq.held.length + s.osq.queue.length + 1 := by
  unfold State.candidates
  omega

/-- A valid pending rush is taken. -/
theorem select_rush {s : State} {i : Nat} (rush : s.osq.rush = some i) (valid : s.checkOrder i = none) :
    State.select s.candidates s = ((s.onOsq fun o => { o with rush := none }).taken i, some (i, .rush)) := by
  rw [candidates_succ, State.select, rush]
  dsimp only
  rw [valid]

/-- With no rush pending and no order held, a valid order at the head of the run queue is taken. -/
theorem select_queue {s : State} {i : Nat} {rest : List Nat} (rush : s.osq.rush = none) (held : s.osq.held = [])
    (queue : s.osq.queue = i :: rest) (valid : s.checkOrder i = none) :
    State.select s.candidates s = ((s.onOsq fun o => { o with queue := rest }).taken i, some (i, .queue)) := by
  rw [candidates_succ, State.select, rush, held, queue]
  dsimp only
  rw [valid]

/-! #### The lead closed (R53, R71) -/

/-- The segments once a boundary closes those of a number. -/
def closedBy (num seq : Nat) (l : List Segment) : List Segment :=
  l.map fun g => if g.num == num then { g with closing := some seq } else g

theorem closedBy_last {num seq : Nat} {l : List Segment} {g : Segment} (last : l.getLast? = some g) :
    (closedBy num seq l).getLast?.bind (fun h => h.order) = g.order := by
  rw [closedBy, List.getLast?_map, last, Option.map_some, Option.bind_some]
  split <;> rfl

/-- A suspension pushes the lead order onto the held-order stack. -/
theorem closeLead_suspends {t : State} {g : Segment} {j : Nat} (lead : t.lead = some g) (order : g.order = some j) (seq : Nat) :
    t.closeLead g seq true = { t with osq := { t.osq with
      segments := closedBy g.num seq t.osq.segments, held := j :: t.osq.held,
      slots := modify t.osq.slots j fun o => { o with state := .suspended } } } := by
  have front : (t.onSegments (fun h => h.num == g.num) fun h => { h with closing := some seq }).lead.bind (fun h => h.order) = some j :=
    (closedBy_last lead).trans order
  rw [State.closeLead, if_pos rfl, State.suspendLead, front]
  rfl

/-! ### A boundary opened by a request (R49, R52, R71) -/

/-- A slot once its order is taken. -/
def Slot.taken (o : Slot) : Slot := { o with state := .onWeb, inFlight := o.inFlight + 1 }

/-- The segments of a map with a new lead behind, but for the planning flags. -/
theorem closedBy_unflagged (num seq : Nat) (l : List Segment) {h : Segment} (unplanned : h.planning = false) :
    (closedBy num seq l ++ [h]).map Segment.unflagged
      = (l.map fun g => { g with closing := if g.num = num then some seq else g.closing, planning := false }) ++ [h] := by
  rw [List.map_append, closedBy, List.map_map]
  congr 1
  · refine List.map_congr_left fun g _ => ?_
    by_cases same : g.num = num <;> simp [same, Segment.unflagged]
  · rw [List.map_singleton, Segment.unflagged, ← unplanned]

/-- An order table with its candidate worked out. -/
def Osq.reported (o : Osq) : Osq := { o with candidate := o.nextCandidate }

/-- What a creation sees in t, the state of a request that has changed the order table of s to o, with the candidate reported. -/
structure State.Reported (s t : State) (o : Osq) : Prop where
  osq      : t.osq = o.reported
  wmp      : t.wmp = s.wmp
  knp      : t.knp = s.knp
  hgr      : t.hgr = s.hgr
  stk      : t.stk = s.stk
  lsc      : t.lsc = s.lsc
  irt      : t.irt = s.irt
  line     : t.line = s.line
  expected : t.chg.expected = s.chg.expected

theorem tabled_reported (s : State) (q : Asker) (o : Osq) : s.Reported (s.tabled q o).reportCandidate o := by
  obtain ⟨chg, rif, handed, reported, expected⟩ := reportCandidate_only (s.tabled q o)
  rw [reported]
  exact ⟨rfl, rfl, rfl, rfl, rfl, rfl, rfl, rfl, expected⟩

namespace State.Reported

variable {s t : State} {o k p : Osq} {g : Segment} {i : Nat} {r : OrderRec} {x : Int} {suspend : Bool} {from_ : Origin}

theorem base (R : s.Reported t o) (g : Segment) : t.base g = s.base g := by
  unfold State.base State.findBoundary
  rw [R.wmp, R.knp]

theorem lead (R : s.Reported t o) (segments : o.segments = s.osq.segments) : t.lead = s.lead := by
  rw [State.lead, R.osq, State.lead, ← segments]
  rfl

/-- The lead closed. -/
theorem closeLead (R : s.Reported t o) (g : Segment) (seq : Nat) :
    t.closeLead g seq false = { t with osq := { o.reported with segments := closedBy g.num seq o.segments } } := by
  rw [State.closeLead, if_neg nofun, State.onSegments, State.onOsq, R.osq]
  rfl

/-- The lead closed, and its order on the held-order stack. -/
theorem suspends (R : s.Reported t o) {j : Nat} (lead : t.lead = some g) (order : g.order = some j) (seq : Nat) :
    t.closeLead g seq true = { t with osq := { o.reported with
      segments := closedBy g.num seq o.segments, held := j :: o.held,
      slots := modify o.slots j fun y => { y with state := .suspended } } } := by
  rw [closeLead_suspends lead order, R.osq]
  rfl

/-- What the creation leaves, where k is the order table with the lead closed and p the one with the order of slot i taken: the
boundary opens, and the lists stand as p has them. -/
theorem opens (R : s.Reported t o) (segments : o.segments = s.osq.segments) (front : s.lead = some g)
    (order : (s.slot i).order = some r) (closed : t.closeLead g s.wmp.nextSeq suspend = { t with osq := k })
    (taken : State.select ({ t with osq := k } : State).candidates { t with osq := k } = ({ t with osq := p }, some (i, from_)))
    (fresh : from_ ≠ .held) (slot : p.slotAt i = (s.slot i).taken)
    (after : p.segments = closedBy g.num s.wmp.nextSeq s.osq.segments) (next : p.nextNum = s.osq.nextNum) :
    let u := t.createBoundary x suspend
    s.Opened u g i r (max x (s.base g)) ∧ u.osq.slots = p.slots ∧ u.osq.queue = p.queue ∧ u.osq.rush = p.rush
      ∧ u.osq.held = p.held ∧ u.osq.candidate = p.nextCandidate
      ∧ u.lsc = s.lsc ∧ u.stk = s.stk ∧ u.irt = s.irt ∧ u.line = s.line := by
  have held : (Osq.slotAt p i).order = some r := slot ▸ order
  have target : (Osq.slotAt p i).goodPlanned = (s.slot i).goodPlanned := slot ▸ rfl
  rw [← R.wmp] at closed
  obtain ⟨⟨l, osq, flags⟩, ⟨preset, placed⟩, stk, lsc, irt, line⟩ :=
    createBoundary_leaves x ((R.lead segments).trans front) closed taken fresh held
  intro u
  have table : u.osq = p.opened l := osq
  dsimp only at placed flags
  rw [R.wmp, R.base, R.line, R.expected] at placed
  rw [R.wmp] at flags
  refine ⟨⟨?_, _, placed, rfl, rfl, rfl, rfl, ?_, preset, rfl⟩, ?_⟩
  · rw [table]
    refine flags.trans ?_
    rw [after, closedBy_unflagged _ _ _ rfl, Osq.newLead, next, target]
    rfl
  · by_cases flies : s.chg.expected = some r.tracks <;> simp [boundaryMark, closedMark, flies]
  · rw [table]
    exact ⟨rfl, rfl, rfl, rfl, rfl, lsc.trans R.lsc, stk.trans R.stk, irt.trans R.irt, line.trans R.line⟩

end State.Reported

end Sys2Proof.Machine
end

section
namespace Sys2Proof.Machine

/-! ### What is due behind a request (R67 to R70) -/

section
variable {t : State} {g : Segment} (room : t.osq.segments.length < 4) (lead : t.lead = some g)
include room lead

theorem due_behindNone (order : g.order = none) (candidate : t.osq.nextCandidate.isSome = true) : t.due = .available := by
  have unprojected : t.projectionOf g = none := by rw [State.projectionOf, order]
  rw [State.due, if_neg (Nat.not_le.2 room), lead]
  dsimp only
  rw [unprojected, order, candidate]
  rfl

variable {p : Int} (projected : t.projectionOf g = some p)
include projected

theorem due_atEnd (near : p ≤ t.line.nums.dCreate) : t.due = .endBoundary p := by
  rw [State.due, if_neg (Nat.not_le.2 room), lead]
  dsimp only
  rw [projected]
  exact if_pos near

theorem due_suspends (far : t.line.nums.dCreate < p) (rush : t.osq.rush.isSome = true) : t.due = .suspension := by
  rw [State.due, if_neg (Nat.not_le.2 room), lead]
  dsimp only
  rw [projected]
  exact (if_neg (Int.not_le.2 far)).trans (if_pos rush)

end

/-- The projection reads the orders of the slots, the front and the map. -/
theorem projectionOf_congr {s t : State} {g : Segment} (orders : ∀ j, (t.slot j).order = (s.slot j).order)
    (base : t.base g = s.base g) : t.projectionOf g = s.projectionOf g := by
  unfold State.projectionOf
  rw [base]
  cases g.order with
  | none => rfl
  | some j =>
    dsimp only
    rw [orders]

/-- A projection lies at or above the base. -/
theorem base_le_projection {s : State} {g : Segment} {p : Int} (h : s.projectionOf g = some p) : s.base g ≤ p := by
  unfold State.projectionOf at h
  split at h
  · cases h
  · split at h
    · cases h
    · obtain rfl := Option.some.inj h
      have := Int.mul_nonneg (Int.natCast_nonneg (g.target - g.goodPlanned)) (Int.natCast_nonneg (OrderRec.length ‹_›))
      omega

/-! ### A slot made QUEUED by a request and taken at once (R49, R52, R55) -/

namespace State.Reported

section
variable {s t : State} {o k : Osq} {i : Nat} (R : s.Reported t o) (slot : k.slotAt i = { s.slot i with state := .queued })
  (loaded : (s.slot i).state = .loaded) (valid : s.checkOrder i = none)
include R slot loaded valid

/-- A LOADED slot made QUEUED is as valid as it was. -/
theorem checkOrder_queued : ({ t with osq := k } : State).checkOrder i = none := by
  refine (checkOrder_congr (s := s) (t := { t with osq := k }) ?_ (congrArg Hgr.grades R.hgr) R.line).trans valid
  change (k.slotAt i).record = _
  rw [slot, Slot.record, Slot.record, loaded, if_neg nofun, if_neg nofun]

theorem takes_rush (rush : k.rush = some i) :
    State.select ({ t with osq := k } : State).candidates { t with osq := k }
      = ({ t with osq := { k with rush := none, slots := modify k.slots i Slot.taken } }, some (i, .rush)) :=
  select_rush (s := { t with osq := k }) rush (R.checkOrder_queued slot loaded valid)

theorem takes_queue (rush : k.rush = none) (held : k.held = []) (queue : k.queue = [i]) :
    State.select ({ t with osq := k } : State).candidates { t with osq := k }
      = ({ t with osq := { k with queue := [], slots := modify k.slots i Slot.taken } }, some (i, .queue)) :=
  select_queue (s := { t with osq := k }) rush held queue (R.checkOrder_queued slot loaded valid)

end

end State.Reported

theorem nextCandidate_queue {o : Osq} (rush : o.rush = none) (held : o.held = []) : o.nextCandidate = o.queue.head? := by
  rw [Osq.nextCandidate, rush, held]

/-- A slot made QUEUED and taken stands as if it had been taken at once. -/
theorem slotAt_taken {k : Osq} {o : Slot} {i : Nat} (hi : i ≤ 63) (slot : k.slotAt i = { o with state := .queued }) :
    Osq.slotAt { k with slots := modify k.slots i Slot.taken } i = o.taken := by
  rw [slotAt_self k _ (Nat.lt_succ_of_le hi), slot]
  rfl

section
variable {s : State} {q : Asker} {i : Nat} {g : Segment} {r : OrderRec} (hi : i ≤ 63) (loaded : (s.slot i).state = .loaded)
  (valid : s.checkOrder i = none) (lead : s.lead = some g) (order : (s.slot i).order = some r)
include hi loaded valid lead order

/-- A boundary that opens for the slot which a QUEUE_APPEND has brought to an empty queue. -/
theorem append_opens (queue : s.osq.queue = []) (rush : s.osq.rush = none) (held : s.osq.held = []) (x : Int) :
    let u := (s.tabled q (s.osq.appended i)).reportCandidate.createBoundary x false
    s.Opened u g i r (max x (s.base g)) ∧ u.slot i = (s.slot i).taken ∧ u.osq.queue = [] ∧ u.osq.rush = none
      ∧ u.osq.held = [] ∧ u.osq.candidate = none
      ∧ u.lsc = s.lsc ∧ u.stk = s.stk ∧ u.irt = s.irt ∧ u.line = s.line := by
  have R := tabled_reported s q (s.osq.appended i)
  let k : Osq := { (s.osq.appended i).reported with segments := closedBy g.num s.wmp.nextSeq s.osq.segments }
  have slot : k.slotAt i = { s.slot i with state := .queued } := slotAt_self s.osq _ (Nat.lt_succ_of_le hi)
  have alone : k.queue = [i] := congrArg (· ++ [i]) queue
  obtain ⟨opened, slots, left, rushed, stack, candidate, rest⟩ := R.opens (x := x) rfl lead order (R.closeLead g s.wmp.nextSeq)
    (R.takes_queue (k := k) slot loaded valid rush held alone) nofun (slotAt_taken hi slot) rfl rfl
  refine ⟨opened, ?_, left, rushed.trans rush, stack.trans held, candidate.trans (nextCandidate_queue rush held), rest⟩
  rw [State.slot, slots]
  exact slotAt_taken hi slot

end

/-- Behind a NONE lead, the first order to come opens a boundary at D_create. -/
theorem candidateEvent_opens {s : State} (fresh : s.osq.candidate = none) (due : s.reportCandidate.due = .available) :
    s.candidateEvent = s.reportCandidate.createBoundary s.reportCandidate.line.nums.dCreate false := by
  refine (if_pos ?_).trans rfl
  rw [fresh, due]
  rfl

/-- Settles O24. -/
theorem queueAppendJoinsTheTail : Obligations.QueueAppendJoinsTheTail := by
  intro s q i handed grants hi loaded room valid
  have own : owned q (.queueAppend i) (s.asked q) = ((s.tabled q (s.osq.appended i)).candidateEvent,
      okWith [.number s.osq.queue.length, .number (s.osq.queue.length + 1)]) :=
    queueAppend_joins (s := s.asked q) hi loaded room ((checkOrder_congr rfl rfl rfl).trans valid)
  refine ⟨⟨_, exec_tabled grants own rfl, rfl⟩, exec_tabled_stands grants own rfl handed rfl,
    fun undue => ⟨_, exec_tabled_reports grants own rfl rfl rfl undue, reportCandidate_leaves s q rfl⟩, ?_⟩
  intro g r candidate queue rush held few lead none_ order
  have R := tabled_reported s q (s.osq.appended i)
  have candidates : (s.osq.appended i).reported.nextCandidate.isSome = true := by
    rw [nextCandidate_queue (o := (s.osq.appended i).reported) rush held]
    exact congrArg (fun l => (l ++ [i]).head?.isSome) queue
  have due : (s.tabled q (s.osq.appended i)).reportCandidate.due = .available :=
    due_behindNone (by rw [R.osq]; exact few) ((R.lead rfl).trans lead) none_ (by rw [R.osq]; exact candidates)
  have event := candidateEvent_opens (s := s.tabled q (s.osq.appended i)) candidate due
  rw [R.line] at event
  obtain ⟨opened, slot, rest⟩ := append_opens (q := q) hi loaded valid lead order queue rush held s.line.nums.dCreate
  refine ⟨_, (exec_tabled grants own rfl).trans (by rw [event]), opened, slot, ?_⟩
  exact rest

end Sys2Proof.Machine
end

section
namespace Sys2Proof.Machine

/-! ### INSERT_RUSH (R52, R69, R195) -/

/-- The reply to an accepted rush: its outcome, and the number of the boundary created for it. -/
def rushReply (x : RushOutcome) (seq : Option Nat) : Reply := okWith (.rushOutcome x :: (seq.map fun n : Nat => Datum.number n).toList)

/-- An accepted rush: the slot is QUEUED as the pending rush, the candidate reported, and the creation evaluated. -/
theorem insertRush_accepts {s u : State} {i : Nat} {x : RushOutcome} {n : Option Nat} (hi : i ≤ 63)
    (loaded : (s.slot i).state = .loaded) (rush : s.osq.rush = none) (room : s.osq.held.length < 3) (valid : s.checkOrder i = none)
    (evaluated : ({ s with osq := s.osq.rushed i } : State).reportCandidate.evaluateRush = (u, x, n)) :
    s.insertRush i = (u, rushReply x n) := by
  rw [State.insertRush, if_neg (by omega), if_neg (by simp [loaded]), if_neg (by simp [loaded]), if_neg (by simp [rush]),
    if_neg (by omega), valid]
  exact congrArg (fun e : State × RushOutcome × Option Nat => (e.1, rushReply e.2.1 e.2.2)) evaluated

/-- What the evaluation of an accepted rush makes of what is due. -/
theorem evaluateRush_waits {t : State} (h : t.due = .nothing) : t.evaluateRush = (t, .waiting, none) := by
  rw [State.evaluateRush, h]

theorem evaluateRush_opens {t : State} (h : t.due = .available) :
    t.evaluateRush = (t.createBoundary t.line.nums.dCreate false, .opened, some t.wmp.nextSeq) := by
  rw [State.evaluateRush, h]
  rfl

theorem evaluateRush_follows {t : State} {p : Int} (h : t.due = .endBoundary p) :
    t.evaluateRush = (t.createBoundary p false, .follows, some t.wmp.nextSeq) := by
  rw [State.evaluateRush, h]
  rfl

theorem evaluateRush_suspends {t : State} (h : t.due = .suspension) :
    t.evaluateRush = (t.createBoundary t.line.nums.dCreate true, .suspended, some t.wmp.nextSeq) := by
  rw [State.evaluateRush, h]
  rfl

theorem due_full {t : State} (full : 4 ≤ t.osq.segments.length) : t.due = .nothing := if_pos full

section
variable {s : State} {q : Asker} {i : Nat} (grants : s.Grants q (.insertRush i)) (hi : i ≤ 63)
  (loaded : (s.slot i).state = .loaded) (rush : s.osq.rush = none) (room : s.osq.held.length < 3) (valid : s.checkOrder i = none)
include grants hi loaded rush room valid

/-- A granted INSERT_RUSH that is accepted, by what its evaluation comes to. -/
theorem exec_insertRush {u : State} {x : RushOutcome} {n : Option Nat}
    (evaluated : (s.tabled q (s.osq.rushed i)).reportCandidate.evaluateRush = (u, x, n)) :
    exec (.insertRush q i) s = .next { u.takeFaults with reply := some ((rushReply x n).cut q.space) } := by
  have own : owned q (.insertRush i) (s.asked q) = (u, rushReply x n) :=
    insertRush_accepts (s := s.asked q) hi loaded rush room ((checkOrder_congr rfl rfl rfl).trans valid) evaluated
  refine (exec_granted grants).trans ?_
  rw [own]
  rfl

end

/-! #### The boundary that an accepted rush opens -/

theorem modify_comm {α : Type} {n : Nat} (v : Vector α n) {i j : Nat} (f g : α → α) (h : i ≠ j) :
    modify (modify v i f) j g = modify (modify v j g) i f := by
  refine table_ext fun l => ?_
  simp only [modify_getElem?]
  by_cases hi : l = i
  · subst hi
    simp [h]
  · simp [hi]

section
variable {s : State} {q : Asker} {i : Nat} {g : Segment} {r : OrderRec} (hi : i ≤ 63) (loaded : (s.slot i).state = .loaded)
  (valid : s.checkOrder i = none) (lead : s.lead = some g) (order : (s.slot i).order = some r) (x : Int)
include hi loaded valid lead order

/-- A boundary that opens for the pending rush, with the lead order left where it is. -/
theorem rush_opens :
    let u := (s.tabled q (s.osq.rushed i)).reportCandidate.createBoundary x false
    s.Opened u g i r (max x (s.base g)) ∧ u.osq.slots = modify s.osq.slots i Slot.taken ∧ u.osq.rush = none
      ∧ u.osq.held = s.osq.held ∧ u.osq.queue = s.osq.queue
      ∧ u.lsc = s.lsc ∧ u.stk = s.stk ∧ u.irt = s.irt ∧ u.line = s.line := by
  have R := tabled_reported s q (s.osq.rushed i)
  let k : Osq := { (s.osq.rushed i).reported with segments := closedBy g.num s.wmp.nextSeq s.osq.segments }
  have slot : k.slotAt i = { s.slot i with state := .queued } := slotAt_self s.osq _ (Nat.lt_succ_of_le hi)
  obtain ⟨opened, slots, queue, rush, held, -, rest⟩ := R.opens (x := x) rfl lead order (R.closeLead g s.wmp.nextSeq)
    (R.takes_rush (k := k) slot loaded valid rfl) nofun
    (slotAt_taken hi slot) rfl rfl
  exact ⟨opened, slots.trans (modify_modify s.osq.slots i _ _), rush, held, queue, rest⟩

/-- A boundary that opens for the pending rush, with the lead order suspended. -/
theorem rush_suspends {j : Nat} (front : g.order = some j) (other : j ≠ i) :
    let u := (s.tabled q (s.osq.rushed i)).reportCandidate.createBoundary x true
    s.Opened u g i r (max x (s.base g))
      ∧ u.osq.slots = modify (modify s.osq.slots j fun o => { o with state := .suspended }) i Slot.taken ∧ u.osq.rush = none
      ∧ u.osq.held = j :: s.osq.held ∧ u.osq.queue = s.osq.queue
      ∧ u.lsc = s.lsc ∧ u.stk = s.stk ∧ u.irt = s.irt ∧ u.line = s.line := by
  have R := tabled_reported s q (s.osq.rushed i)
  let k : Osq := { (s.osq.rushed i).reported with
    segments := closedBy g.num s.wmp.nextSeq s.osq.segments, held := j :: s.osq.held,
    slots := modify (s.osq.rushed i).slots j fun y => { y with state := .suspended } }
  have slot : k.slotAt i = { s.slot i with state := .queued } :=
    (slotAt_other (s.osq.rushed i) _ other.symm).trans (slotAt_self s.osq _ (Nat.lt_succ_of_le hi))
  obtain ⟨opened, slots, queue, rush, held, -, rest⟩ := R.opens (x := x) rfl lead order
    (R.suspends ((R.lead rfl).trans lead) front s.wmp.nextSeq) (R.takes_rush (k := k) slot loaded valid rfl) nofun
    (slotAt_taken hi slot) rfl rfl
  refine ⟨opened, slots.trans ?_, rush, held, queue, rest⟩
  change modify (modify (modify s.osq.slots i _) j _) i _ = _
  rw [modify_comm s.osq.slots _ _ other.symm, modify_modify]
  rfl

end

/-! #### The rush that waits -/

section
variable (s : State) (q : Asker) (i : Nat)

/-- The forecast behind an accepted rush, without a slitter distance. -/
theorem rush_forecast (slitter : s.line.nums.dSs = 0) :
    (s.tabled q (s.osq.rushed i)).reportCandidate.chg
        = { s.chg with forecast := if s.osq.candidate = some i then s.chg.forecast else none }
      ∧ (s.tabled q (s.osq.rushed i)).reportCandidate.rif = s.rif
      ∧ (s.tabled q (s.osq.rushed i)).reportCandidate.handed = s.handed := by
  obtain ⟨kept, dropped, -⟩ := reportCandidate_forecasts s q (o := s.osq.rushed i) rfl
  by_cases same : s.osq.candidate = some i
  · rw [if_pos same]
    exact kept (.inl same.symm)
  · rw [if_neg same]
    exact dropped (fun e => same e.symm) (.inl slitter)

/-- The setting of an accepted rush. -/
theorem rush_setting {r : OrderRec} (hi : i ≤ 63) (order : (s.slot i).order = some r) :
    (s.tabled q (s.osq.rushed i)).reportCandidate.settingOf i = some r.tracks := by
  have slot : (s.tabled q (s.osq.rushed i)).reportCandidate.slot i = { s.slot i with state := .queued } := by
    rw [State.slot, (tabled_reported s q _).osq]
    exact slotAt_self s.osq _ (Nat.lt_succ_of_le hi)
  rw [State.settingOf, slot, order]
  rfl

/-- The projection of a segment is the same behind an accepted rush. -/
theorem rush_projection (g : Segment) : (s.tabled q (s.osq.rushed i)).reportCandidate.projectionOf g = s.projectionOf g := by
  have R := tabled_reported s q (s.osq.rushed i)
  refine projectionOf_congr (fun j => ?_) (R.base g)
  rw [State.slot, R.osq]
  change (Osq.slotAt { s.osq with slots := modify s.osq.slots i _ } j).order = (s.osq.slotAt j).order
  rw [slotAt_modify]
  split
  · rename_i here
    rw [here.1]
  · rfl

end

/-- Settles O26. -/
theorem insertRushWaitsBehindFourSegments : Obligations.InsertRushWaitsBehindFourSegments := by
  intro s q i handed grants hi loaded rush room valid
  have R := tabled_reported s q (s.osq.rushed i)
  obtain ⟨table, forecasts, -, wtr, wmp, spl, hgr, knp, stk, -, lsc, irt, line⟩ :=
    reportCandidate_leaves s q (o := s.osq.rushed i) rfl
  have accepted {u : State} {x : RushOutcome} {n : Option Nat}
      (evaluated : (s.tabled q (s.osq.rushed i)).reportCandidate.evaluateRush = (u, x, n)) :=
    exec_insertRush grants hi loaded rush room valid evaluated
  have waits (full : 4 ≤ s.osq.segments.length) := accepted (evaluateRush_waits (due_full (by rw [R.osq]; exact full)))
  refine ⟨⟨_, accepted rfl, rfl⟩, fun full slitter => ?_, fun full r order => ?_, fun g r few lead order => ?_⟩
  · obtain ⟨chg, rif, untold⟩ := rush_forecast s q i slitter
    have waits := waits full
    rw [takeFaults_nothing (untold.trans handed)] at waits
    refine ⟨_, waits, table, rfl, chg, wmp, wtr, knp, lsc, rif, ?_⟩
    simp only [State.configuration, line, spl, hgr, irt]
  · refine ⟨_, waits full, table, ?_, wtr, wmp, spl, hgr, knp, stk, lsc, irt, line⟩
    intro slit records fresh unexpected other
    obtain ⟨forecast, counter, -, -, -, rif, -⟩ := forecasts.preset r.tracks (fun e => fresh e.symm) slit records
      (rush_setting s q i hi order) unexpected other
    exact ⟨forecast, counter, rif⟩
  · have front := (R.lead rfl).trans lead
    have room : (s.tabled q (s.osq.rushed i)).reportCandidate.osq.segments.length < 4 := by rw [R.osq]; exact few
    have pending : (s.tabled q (s.osq.rushed i)).reportCandidate.osq.rush.isSome = true := by rw [R.osq]; rfl
    refine ⟨fun none_ => ?_, fun p projected near => ?_, fun p j projected far held other => ?_⟩
    · have due := due_behindNone room front none_ (by rw [R.osq]; rfl)
      have opened := accepted (evaluateRush_opens due)
      rw [R.wmp, R.line] at opened
      exact ⟨_, opened, rush_opens hi loaded valid lead order _⟩
    · have due := due_atEnd room front ((rush_projection s q i g).trans projected) (by rw [R.line]; exact near)
      have opened := accepted (evaluateRush_follows due)
      rw [R.wmp] at opened
      have follows := rush_opens (q := q) hi loaded valid lead order p
      rw [max_eq_left (base_le_projection projected)] at follows
      exact ⟨_, opened, follows⟩
    · have due := due_suspends room front ((rush_projection s q i g).trans projected) (by rw [R.line]; exact far) pending
      have opened := accepted (evaluateRush_suspends due)
      rw [R.wmp, R.line] at opened
      exact ⟨_, opened, rush_suspends hi loaded valid lead order _ held other⟩

end Sys2Proof.Machine
end

section
namespace Sys2Proof.Machine

/-! ### What a command that loads no configuration keeps (R65, R87, R109, R176, R178, R192) -/

variable {P Q : State → Prop}

/-- Two properties that everything but a load of the configuration keeps are kept together. -/
theorem Rings.and (K : Rings P) (L : Rings Q) : Rings fun s => P s ∧ Q s where
  toCounts := K.toCounts.and L.toCounts
  created x b room rush h := ⟨K.created x b room rush h.1, L.created x b room rush h.2⟩
  retires h := ⟨K.retires h.1, L.retires h.2⟩
  enqueue f lists h := ⟨K.enqueue f lists h.1, L.enqueue f lists h.2⟩
  feed f step h := ⟨K.feed f step h.1, L.feed f step h.2⟩
  lsc f state latch h seen := ⟨K.lsc f state latch h.1 seen, L.lsc f state latch h.2 seen⟩
  line f further latch seen reasons h :=
    ⟨K.line f further latch seen reasons h.1, L.line f further latch seen reasons h.2⟩
  irt f config h := ⟨K.irt f config h.1, L.irt f config h.2⟩
  clear h := ⟨K.clear h.1, L.clear h.2⟩
  port f bounds ring h := ⟨K.port f bounds ring h.1, L.port f bounds ring h.2⟩
  ring f bounds h := ⟨K.ring f bounds h.1, L.ring f bounds h.2⟩
  choose n h := ⟨K.choose n h.1, L.choose n h.2⟩
  pass x h := ⟨K.pass x h.1, L.pass x h.2⟩
  tell c r h := ⟨K.tell c r h.1, L.tell c r h.2⟩
  plg f log h := ⟨K.plg f log h.1, L.plg f log h.2⟩

/-- A command that is not power-on and brings no load of the configuration, by itself or in a management telegram. -/
structure LoadsNothing (i : Instr) : Prop where
  powered : i ≠ .powerOn
  request : ∀ q r, i = carrying q r → loadsConfiguration r = false
  items   : ∀ p pins x t, i = .managementTelegram p pins x → readTelegram 2 x = some t → ∀ it ∈ t.items, ∀ rq r,
    it.payload = .request rq → rq.asked = .known r → loadsConfiguration r = false

/-- A property that all but the loads keep, and that answers for the latch, is kept by a command that loads nothing, but for
RST_N: the latch is what says that no fault stands where a HALT is granted. -/
theorem Rings.command (K : Rings P) (latch : ∀ s, P s → s.lsc.LatchOk) {i : Instr} {s t : State} (loads : LoadsNothing i)
    (reset : i ≠ .rstN) (run : exec i s = .next t) (h : P s) : P t := by
  rcases event_or_carrying i with event | ⟨q, r, rfl⟩
  · by_cases management : ∀ p c x, i ≠ .managementTelegram p c x
    · exact K.event event loads.powered reset management run h
    · push Not at management
      obtain ⟨p, pins, x, rfl⟩ := management
      cases run
      exact K.managementArrives p pins x (fun _ read it mem u rq r q asks known check hu =>
        K.owned q r (loads.items p pins x _ rfl read it mem rq r asks known) (latch u hu) check hu) h
  · rw [exec_carrying] at run
    cases run
    exact K.answer q r _ (fun u _ check hu => K.owned q r (loads.request q r rfl) (latch u hu) check hu) h

/-- A command that loads nothing leaves the configuration: RST_N clears the records beside it, and any other command is built
of operations that leave it alone. -/
theorem exec_keepsConfiguration {i : Instr} {s t : State} (latch : s.lsc.LatchOk) (loads : LoadsNothing i)
    (run : exec i s = .next t) : t.configuration = s.configuration := by
  by_cases reset : i = .rstN
  · subst reset
    cases run
    exact pinReset_configuration s
  · exact ((Loads.latch.toRings.and (Rings.configuration s.configuration)).command (fun _ h => h.1) loads reset run
      ⟨latch, rfl⟩).2

/-- Settles O7. -/
theorem configurationChangesOnlyByItsLoads : Obligations.ConfigurationChangesOnlyByItsLoads := by
  intro s t inv run front
  unfold step at run
  split at run
  · cases run
    rfl
  · rename_i c rest pending
    obtain ⟨powered, request, items⟩ := front c rest pending
    exact exec_keepsConfiguration (s := { s with pending := rest }) inv.latch ⟨powered, request, items⟩ run

end Sys2Proof.Machine
end

section
namespace Sys2Proof.Machine

/-! ### SET_LINE (R65, R192, R193) -/

/-- Constants in the ranges and orders of R192, with a side that is read, pass every test. -/
theorem lineTests_pass {a : LineArgs} (numbers : LineNumbersOk a.nums) (side : a.side.isSome = true) :
    firstBad (lineTests a) = none := by
  obtain ⟨feed, jump, ⟨uLow, uMid, uHigh, uTop⟩, ⟨dLow, dMid, dHigh⟩, ⟨low, mid, high⟩, create, swap, slitter, timeout, width,
    off, wMin, wMax, miscut, late, dwell, ring⟩ := numbers
  refine firstBad_none ?_
  simp only [lineTests, List.forall_mem_cons, List.not_mem_nil, false_implies, implies_true, and_true, within, Bool.and_eq_true,
    decide_eq_true_eq, side, true_and]
  omega

theorem setLine_applies {s : State} {a : LineArgs} {side : OriginSide} (numbers : LineNumbersOk a.nums)
    (named : a.side = some side) : s.setLine a = (s.applyLine { nums := a.nums, side := side }, bare .ok) := by
  rw [State.setLine, lineTests_pass numbers (by rw [named]; rfl), named]

/-- What a D_ss that becomes 0 ends, and the forecast where it becomes 1 or more, leave the configuration alone. -/
theorem applyLine_configuration (s : State) (c : LineConsts) :
    (s.applyLine c).configuration = { s.configuration with line := c } := by
  have keeps (x : Configuration) := (Rings.configuration x).toRuns
  unfold State.applyLine
  extract_lets was dropped loaded
  have drops : dropped.configuration = s.configuration :=
    ite_keeps (P := fun u => u.configuration = s.configuration) (fun _ => (keeps _).dropSlitter rfl) fun _ => rfl
  have loads : loaded.configuration = { s.configuration with line := c } :=
    congrArg (fun x : Configuration => { x with line := c }) drops
  exact ite_keeps (P := fun u => u.configuration = { s.configuration with line := c })
    (fun _ => (keeps _).forecastFor _ loads) fun _ => loads

/-- A D_ss that stays 0, or stays 1 or more, neither ends the Changeover Unit's dealings nor makes it forecast. -/
theorem applyLine_only {s : State} {c : LineConsts} (same : s.line.nums.dSs = 0 ↔ c.nums.dSs = 0) :
    s.applyLine c = { s with line := c } := by
  have stays : ¬(s.line.nums.dSs ≠ 0 ∧ c.nums.dSs = 0) := fun h => h.1 (same.2 h.2)
  have away : ¬(s.line.nums.dSs = 0 ∧ c.nums.dSs ≠ 0) := fun h => h.2 (same.1 h.1)
  unfold State.applyLine
  dsimp only
  rw [if_neg stays, if_neg away]

/-- Settles O15. -/
theorem setLineReplacesTheConstants : Obligations.SetLineReplacesTheConstants := by
  intro s q a side handed grants numbers named
  have applied : owned q (.setLine a) (s.asked q) = ((s.asked q).applyLine { nums := a.nums, side := side }, bare .ok) :=
    setLine_applies numbers named
  refine ⟨⟨_, exec_granted grants, ?_, ?_⟩, fun same => ?_⟩
  · rw [applied]
    rfl
  · rw [applied]
    exact (Rings.configuration _).takeFaults (applyLine_configuration (s.asked q) _)
  · rw [applyLine_only (s := s.asked q) (c := { nums := a.nums, side := side }) same] at applied
    exact exec_granted_plain grants applied handed rfl

/-! ### Four segments (R67, R69) -/

/-- Settles O27: with nothing due, an advance's evaluation stops before its first creation, and a rush waits. -/
theorem fourSegmentsHoldCreation : Obligations.FourSegmentsHoldCreation := by
  intro s n full
  refine ⟨?_, evaluateRush_waits (due_full full)⟩
  cases n with
  | zero => rfl
  | succ fuel => rw [State.evaluateCreation, due_full full]

end Sys2Proof.Machine
end

section
namespace Sys2Proof.Machine

/-! ### LOAD_STAND (R87, R88, R97, R194) -/

/-- A change of one stand's configuration changes that entry of the configuration. -/
theorem onStand_configuration {s : State} {i : Nat} {f : Stand → Stand} {x : Option StandCfg} (hf : ∀ st, (f st).cfg = x) :
    (s.onStand i f).configuration = { s.configuration with stands := s.configuration.stands.set i x } := by
  have stands : (modify s.spl.stands i f).toList.map (fun st => st.cfg)
      = (s.spl.stands.toList.map fun st => st.cfg).set i x := by
    refine List.ext_getElem? fun j => ?_
    rw [List.getElem?_map, Vector.getElem?_toList, modify_getElem?, List.getElem?_set, List.getElem?_map,
      Vector.getElem?_toList, List.length_map, Vector.length_toList]
    by_cases e : j = i
    · subst e
      by_cases hj : j < 7
      · simp [hj, hf]
      · simp [hj]
    · simp [e, Ne.symm e]
  exact congrArg (fun l : List (Option StandCfg) => { s.configuration with stands := l }) stands

theorem alter_configuration (s : State) (d : List (Reason × Nat)) (r : List Raised) :
    (s.alter d r).configuration = s.configuration := by simp [State.configuration]

theorem takeFaults_configuration (s : State) : s.takeFaults.configuration = s.configuration :=
  (Rings.configuration s.configuration).takeFaults rfl

theorem loadStand_granted {s : State} {q : Asker} {a : StandArgs} (h : s.Grants q (.loadStand a)) : s.lsc.state = .stopped :=
  beq_iff_eq.1 (availableIn_of_check h.2)

/-! #### The reasons and the stands when a line that does not run takes a fault (R168) -/

theorem takeFault_wtr {s : State} (f : FaultReport) (h : runsLine s.lsc.state = false) : (s.takeFault f).wtr = s.wtr := by
  unfold State.takeFault
  split
  · dsimp only
    generalize ht : (if losesWeb f.code = true then _ else _ : State) = t
    have kept : t.wtr = s.wtr ∧ t.lsc = s.lsc := by
      rw [← ht]
      exact ite_keeps (P := fun t => t.wtr = s.wtr ∧ t.lsc = s.lsc) (fun _ => by simp [State.loseMap]) fun _ => by simp
    obtain ⟨wtr, lsc⟩ := kept
    rw [if_neg (by rw [State.onLsc_lsc, lsc, h]; exact Bool.false_ne_true)]
    exact wtr
  · have told : (if s.lsc.seen.contains f.code = true then s
        else (s.onLsc fun l => { l with seen := l.seen ++ [f.code] }).log (.fault f.code true f.detail)).wtr = s.wtr :=
      ite_keeps (P := fun t => t.wtr = s.wtr) (fun _ => rfl) fun _ => by simp
    exact ite_keeps (P := fun t => t.wtr = s.wtr) (fun _ => told) fun _ => told

theorem takeFaults_wtr_spl {s : State} (h : runsLine s.lsc.state = false) :
    s.takeFaults.wtr = s.wtr ∧ s.takeFaults.spl = s.spl := by
  have pass (t : State) (ht : t.wtr = s.wtr ∧ t.resting = s.resting) :
      t.takeHanded.wtr = s.wtr ∧ t.takeHanded.resting = s.resting := by
    refine foldl_keeps (P := fun t => t.wtr = s.wtr ∧ t.resting = s.resting) (fun t f ht => ?_) t.handed ht
    obtain ⟨wtr, resting⟩ := ht
    have state : t.lsc.state = s.lsc.state := congrArg (fun x => x.2.2.2.2.2.1) resting
    have still : runsLine t.lsc.state = false := by rw [state]; exact h
    exact ⟨(takeFault_wtr f still).trans wtr, (takeFault_resting f still).trans resting⟩
  obtain ⟨wtr, resting⟩ := pass _ (pass s ⟨rfl, rfl⟩)
  exact ⟨wtr, congrArg (fun x => x.2.2.1) resting⟩

/-! #### A load that configures -/

/-- The fields of a LOAD_STAND behind its number are in range (R87). -/
structure StandFieldsOk (a : StandArgs) : Prop where
  station : a.station ≤ 62
  dist    : 1 ≤ a.dist ∧ a.dist ≤ 5000000
  lead    : a.lead ≤ 50000
  joint   : 1000 ≤ a.joint ∧ a.joint ≤ 10000
  trig    : 1 ≤ a.trig ∧ a.trig ≤ 100000000
  stop    : a.stop < a.trig
  band    : a.band.isSome = true
  timeout : 10 ≤ a.timeout ∧ a.timeout ≤ 60000

theorem standTests_pass {a : StandArgs} (h : StandFieldsOk a) : firstBad (standTests a) = none := by
  have reserve : a.stop ≤ 100000000 := h.stop.le.trans h.trig.2
  exact firstBad_none (by
    simp [standTests, within, h.station, h.dist, h.lead, h.joint, h.trig, reserve, h.stop, h.band, h.timeout])

/-- No other stand has the station. -/
theorem othersAny_station {s : State} {i n : Nat} (h : ∀ j x, j ≠ i → (s.stand j).cfg = some x → x.station ≠ n) :
    othersAny s.spl.stands.toList i (fun o => o.cfg.any fun x => x.station == n) = false := by
  refine List.any_eq_false.2 fun ⟨o, j⟩ ho taken => ?_
  simp only [Bool.and_eq_true, bne_iff_ne, Option.any_eq_true, beq_iff_eq] at taken
  obtain ⟨other, x, cfg, station⟩ := taken
  have entry : s.stand j = o := by
    have hj := List.mem_zipIdx_iff_getElem?.1 ho
    rw [Vector.getElem?_toList] at hj
    rw [State.stand, hj]
    rfl
  exact h j x other (by rw [entry]; exact cfg) station

theorem busy_false {st : Stand} (splice : st.splice ≠ .splicing) (claim : st.claim = false) : st.busy = false := by
  simp [Stand.busy, splice, claim]

section
variable {s : State} {a : StandArgs}

theorem loadStand_configures (least : 1 ≤ a.stand) (most : a.stand ≤ 7) (station : 1 ≤ a.station) (range : StandFieldsOk a)
    (alone : ∀ j x, j ≠ a.stand - 1 → (s.stand j).cfg = some x → x.station ≠ a.station)
    (free : (s.stand (a.stand - 1)).cfg = none ∨ (s.stand (a.stand - 1)).cfg = some (standCfgOf a)
      ∨ ((s.stand (a.stand - 1)).splice ≠ .splicing ∧ (s.stand (a.stand - 1)).claim = false)) :
    s.loadStand a = (s.configureStand (a.stand - 1) (standCfgOf a), bare .ok) := by
  have open_ : ¬((s.stand (a.stand - 1)).cfg.isSome && (s.stand (a.stand - 1)).busy
      && (s.stand (a.stand - 1)).cfg != some (standCfgOf a)) = true := by
    rcases free with unconfigured | same | ⟨splice, claim⟩
    · simp [unconfigured]
    · simp [same]
    · simp [busy_false splice claim]
  unfold State.loadStand
  rw [if_neg (by simp [within, least, most]), if_neg (by omega), standTests_pass range]
  dsimp only
  rw [othersAny_station alone, if_neg Bool.false_ne_true, if_neg open_]

theorem configureStand_configuration (s : State) (i : Nat) (c : StandCfg) :
    (s.configureStand i c).configuration
      = { s.configuration with stands := s.configuration.stands.set i (some c) } := by
  have configured : (s.onStand i fun st => { st with cfg := some c }).configuration = _ :=
    onStand_configuration fun _ => rfl
  exact ite_keeps (P := fun t => t.configuration = _) (fun _ => (alter_configuration _ _ _).trans configured) fun _ =>
    configured

/-- A maximum splice band that stays, or a stand that is not DUE, brings no alteration of the reasons. -/
theorem configureStand_only {i : Nat} {c : StandCfg}
    (h : (s.stand i).splice ≠ .due ∨ ((s.stand i).cfg.map fun x => x.band) = some c.band) :
    s.configureStand i c = s.onStand i fun st => { st with cfg := some c } :=
  if_neg fun ⟨due, moved⟩ => h.elim (fun h => h due) moved

end

/-- Settles O16: the load passes its tests and writes the record; the reasons change with the band of a DUE stand alone, and no
fault that an alteration hands reaches the configuration. -/
theorem loadStandConfiguresItsStand : Obligations.LoadStandConfiguresItsStand := by
  intro s q a band handed grants least most station station' dist dist' lead joint joint' trig trig' stop named timeout timeout'
    alone free
  have range : StandFieldsOk a :=
    ⟨station', ⟨dist, dist'⟩, lead, ⟨joint, joint'⟩, ⟨trig, trig'⟩, stop, by rw [named]; rfl, ⟨timeout, timeout'⟩⟩
  have bandOf : (standCfgOf a).band = band := by rw [standCfgOf, named]; rfl
  have loaded : owned q (.loadStand a) (s.asked q) = _ :=
    loadStand_configures (s := s.asked q) least most station range alone free
  refine ⟨⟨_, exec_granted grants, ?_, ?_⟩, fun same => ?_⟩
  · rw [loaded]
    rfl
  · rw [loaded]
    exact (takeFaults_configuration _).trans (configureStand_configuration (s.asked q) _ _)
  · rw [← bandOf] at same
    rw [configureStand_only (s := s.asked q) same] at loaded
    exact exec_granted_plain grants loaded handed rfl

/-! #### A load that removes -/

/-- The state with a stand removed: its record cleared, and the two reasons of its number dropped. -/
def State.standRemoved (s : State) (k : Nat) : State :=
  (s.onStand (k - 1) fun _ => Stand.cleared none).alter [(.spliceBand, k), (.gradeNotReady, k)] []

section
variable {s : State} {a : StandArgs}

theorem loadStand_removes (least : 1 ≤ a.stand) (most : a.stand ≤ 7) (station : a.station = 0)
    (free : (s.stand (a.stand - 1)).cfg = none
      ∨ ((s.stand (a.stand - 1)).splice ≠ .splicing ∧ (s.stand (a.stand - 1)).claim = false)) :
    s.loadStand a = (s.standRemoved a.stand, bare .ok) := by
  have open_ : ¬((s.stand (a.stand - 1)).cfg.isSome && (s.stand (a.stand - 1)).busy) = true := by
    rcases free with unconfigured | ⟨splice, claim⟩
    · simp [unconfigured]
    · simp [busy_false splice claim]
  unfold State.loadStand
  rw [if_neg (by simp [within, least, most]), if_pos station, if_neg open_]
  rfl

end

section
variable (s : State) (k : Nat)

theorem standRemoved_configuration : (s.standRemoved k).configuration
    = { s.configuration with stands := s.configuration.stands.set (k - 1) none } :=
  (alter_configuration _ _ _).trans (onStand_configuration fun _ => rfl)

theorem standRemoved_spl : (s.standRemoved k).spl = (s.onStand (k - 1) fun _ => Stand.cleared none).spl := State.alter_spl ..

theorem standRemoved_reasons : (s.standRemoved k).wtr.reasons = s.wtr.reasons.filter fun r =>
    !((r.reason == .spliceBand || r.reason == .gradeNotReady) && r.inst == k) := by
  rw [State.standRemoved, State.alter, setReasons_wtr]
  refine (List.filter_filter ..).trans (List.filter_congr fun r _ => ?_)
  cases r.reason == .spliceBand <;> cases r.reason == .gradeNotReady <;> cases r.inst == k <;> rfl

theorem standRemoved_drops {x : Reason} (h : x = .spliceBand ∨ x = .gradeNotReady) : (s.standRemoved k).holds x k = false := by
  rw [State.standRemoved, alter_holds]
  rcases h with rfl | rfl
  · simp
  · simp

end

/-- Settles O17: the removal, on a line that does not run, whose faults leave the stands and the reasons. -/
theorem loadStandRemovesItsStand : Obligations.LoadStandRemovesItsStand := by
  intro s q a handed grants least most station free
  have loaded : owned q (.loadStand a) (s.asked q) = _ := loadStand_removes (s := s.asked q) least most station free
  have run := exec_granted grants
  rw [loaded] at run
  dsimp only at run
  have stopped : ((s.asked q).standRemoved a.stand).lsc.state = .stopped := by
    rw [State.standRemoved, State.alter_lsc]
    exact loadStand_granted grants
  obtain ⟨wtr, spl⟩ := takeFaults_wtr_spl (s := (s.asked q).standRemoved a.stand) (by rw [stopped]; rfl)
  have stand (j : Nat) : ((s.asked q).standRemoved a.stand).takeFaults.stand j
      = if j = a.stand - 1 ∧ a.stand - 1 < 7 then Stand.cleared none else s.stand j :=
    (stand_congr (spl.trans (standRemoved_spl _ _)) j).trans (stand_onStand ..)
  have reasons := (congrArg Wtr.reasons wtr).trans (standRemoved_reasons _ _)
  have holds (x : Reason) : ((s.asked q).standRemoved a.stand).takeFaults.holds x a.stand
      = ((s.asked q).standRemoved a.stand).holds x a.stand := by rw [State.holds, wtr, State.holds]
  have configuration := (takeFaults_configuration _).trans (standRemoved_configuration (s.asked q) a.stand)
  generalize ((s.asked q).standRemoved a.stand).takeFaults = t at run stand reasons holds configuration
  refine ⟨_, run, rfl, configuration, ?_, fun j hj => ?_, reasons,
    (holds _).trans (standRemoved_drops _ _ (.inl rfl)), (holds _).trans (standRemoved_drops _ _ (.inr rfl))⟩
  · exact (stand _).trans (if_pos ⟨rfl, by omega⟩)
  · exact (stand j).trans (if_neg fun h => hj h.1)

end Sys2Proof.Machine
end

section
namespace Sys2Proof.Machine

variable {P : State → Prop}

/-! ### A stand that is examined (R96, R97) -/

/-- Only a stand that was in FAULT is in FAULT after its examination. -/
theorem examine_fault {s : State} {i : Nat} (hi : i < 7) :
    ((s.examine i).stand i).splice = .fault ↔ (s.stand i).splice = .fault := by
  by_cases fault : (s.stand i).splice = .fault
  · have still : s.examine i = s := by
      unfold State.examine
      dsimp only
      split
      · rfl
      · exact if_neg (by rw [fault]; exact fun h => h.elim nofun nofun)
    rw [still]
  · refine iff_of_false ?_ fault
    rcases examine_cases s i with e | e | ⟨c, r, x, -, e⟩ | e | ⟨n, e⟩
    · rwa [e]
    · rw [e, stand_onStand_self hi]
      exact nofun
    · rw [e, State.sendSplice, stand_onStand_self hi]
      exact nofun
    · rw [e, standDue_stand hi]
      exact nofun
    · rw [e, stand_congr (notify_spl _ n), standDue_stand hi]
      exact nofun

/-- An examination queues at most one item, a notice. -/
theorem State.Waiting.examine {s : State} {k : Nat} {l : List Notice} (i : Nat) (room : k < 48) (h : s.Waiting k l) :
    (s.examine i).Waiting (k + 1) l := by
  rcases examine_cases s i with e | e | ⟨c, r, x, -, e⟩ | e | ⟨n, e⟩
  · rw [e]
    exact h.more
  · rw [e]
    exact h.more
  · rw [e]
    exact h.more.of_eq (queueUrgent_routine _ _)
  · rw [e]
    exact h.more
  · rw [e]
    exact State.Waiting.queueRoutine (s := s.standDue i) _ room h

/-- The fields that an examination leaves. -/
theorem fields_of_besides {a b : Stand} (h : a.besides = b.besides) :
    (a.cfg = b.cfg ∧ a.running = b.running ∧ a.remain = b.remain ∧ a.spare = b.spare) ∧ a.manual = b.manual
      ∧ a.demand = b.demand ∧ a.need = b.need ∧ a.claim = b.claim ∧ a.spareCleared = b.spareCleared := by
  obtain ⟨cfg, running, remain, spare, -, -, -, manual, demand, need, claim, cleared, -, -⟩ := Stand.mk.inj h
  exact ⟨⟨cfg, running, remain, spare⟩, manual, demand, need, claim, cleared⟩

theorem Examines.syncReasons {i : Nat} (K : Examines i P) {s : State} (l : List Nat) (h : P s) : P (s.syncReasons l) :=
  K.alter _ _ h

/-- A change of the stand's record that SPL examines, with the reasons that follow (R96, R97). -/
def State.reexamine (s : State) (i : Nat) (f : Stand → Stand) : State := ((s.onStand i f).examine i).syncReasons [i]

section
variable {s : State} {i : Nat} (f : Stand → Stand)

theorem Examines.reexamine (K : Examines i P) (h : P s) : P (s.reexamine i f) :=
  K.syncReasons _ (K.examine (K.stand f h))

theorem reexamine_besides (hi : i < 7) : ((s.reexamine i f).stand i).besides = (f (s.stand i)).besides := by
  rw [State.reexamine, stand_congr (syncReasons_spl _ _), examine_besides hi, stand_onStand_self hi]

theorem reexamine_fault (hi : i < 7) :
    ((s.reexamine i f).stand i).splice = .fault ↔ (f (s.stand i)).splice = .fault := by
  rw [State.reexamine, stand_congr (syncReasons_spl _ _), examine_fault hi, stand_onStand_self hi]

end

/-! ### MANUAL_SPLICE (R95, R96, R98, R199) -/

theorem onStand_onStand (s : State) (i : Nat) (f g : Stand → Stand) :
    (s.onStand i f).onStand i g = s.onStand i fun x => g (f x) := by
  simp only [State.onStand, State.onSpl, modify_modify]

/-- A stand in RUNNING that has a prepared spare and no cause to splice, with R96's conditions met, no reason held for it and
room for a SPLICE_GO. -/
structure State.ReadyToSplice (s : State) (i : Nat) (c : StandCfg) (spare : Spare) : Prop where
  cfg     : (s.stand i).cfg = some c
  splice  : (s.stand i).splice = .running
  spare   : (s.stand i).spare = some spare
  demand  : (s.stand i).demand = none
  remain  : c.trig < (s.stand i).remain
  claim   : (s.stand i).claim = false
  band    : bandCode s.wtr.band ≤ bandCode c.band
  joint   : s.jointOnMap (i + 1) = false
  line    : runsLine s.lsc.state = true
  reasons : s.holds .spliceBand (i + 1) = false ∧ s.holds .gradeNotReady (i + 1) = false
  room    : s.rif.urgent.length < 16

/-- The state with the splice sent for the reason MANUAL. -/
def State.manuallySpliced (s : State) (i : Nat) (c : StandCfg) (spare : Spare) : State :=
  (s.onRif fun r => { r with urgent := r.urgent ++ [.spliceGo (i + 1) c.station .manual spare.reel.paper] }).onStand i fun st =>
    { st with manual := true, splice := .splicing, reason := some .manual, timer := c.timeout }

section
variable {s : State} {i : Nat} {c : StandCfg} {spare : Spare}

/-- A manual request at such a stand is its one cause, and the splice is sent. -/
theorem State.ReadyToSplice.examine (h : s.ReadyToSplice i c spare) (hi : i < 7) :
    (s.onStand i fun st => { st with manual := true }).examine i = s.manuallySpliced i c spare := by
  let v := s.onStand i fun st => { st with manual := true }
  have record : v.stand i = { s.stand i with manual := true } := stand_onStand_self hi _
  have causes : (v.stand i).causes c = [(.manual, true)] := by
    simp [Stand.causes, record, h.demand, h.spare, Nat.not_le.2 h.remain]
  have met : v.unmet i c = [] := by
    have band : bandCode v.wtr.band ≤ bandCode c.band := h.band
    have joint : v.jointOnMap (i + 1) = false := h.joint
    have line : runsLine v.lsc.state = true := h.line
    simp [State.unmet, causes, band, joint, line]
  have sent : v.examine i = v.sendSplice i c .manual spare := by
    have cfg : (v.stand i).cfg = some c := by rw [record]; exact h.cfg
    have running : (v.stand i).splice = .running := by rw [record]; exact h.splice
    have prepared : (v.stand i).spare = some spare := by rw [record]; exact h.spare
    unfold State.examine
    simp only [cfg, running, prepared, causes, met]
    rfl
  rw [sent, State.sendSplice, queueUrgent_room _ (show v.rif.urgent.length < 16 from h.room)]
  exact onStand_onStand (s.onRif fun r =>
    { r with urgent := r.urgent ++ [.spliceGo (i + 1) c.station .manual spare.reel.paper] }) i _ _

/-- The stand that splices calls for no reason, and none stands for it. -/
theorem State.ReadyToSplice.quiet (h : s.ReadyToSplice i c spare) (hi : i < 7) (request : s.RequestOk) :
    (s.manuallySpliced i c spare).syncReasons [i] = s.manuallySpliced i c spare := by
  have record : (s.manuallySpliced i c spare).stand i
      = { s.stand i with manual := true, splice := .splicing, reason := some .manual, timer := c.timeout } :=
    stand_onStand_self hi _
  refine syncReasons_quiet request fun j hj x hx => ?_
  obtain rfl := List.mem_singleton.1 hj
  obtain ⟨band, grade⟩ := h.reasons
  simp only [State.standReasons, record, List.mem_cons, List.not_mem_nil, or_false] at hx
  rcases hx with rfl | rfl
  · exact ⟨rfl, band⟩
  · exact ⟨h.claim, grade⟩

theorem manualSplice_goes (h : s.ReadyToSplice i c spare) (hi : i < 7) (request : s.RequestOk) :
    s.manualSplice (i + 1) = (s.manuallySpliced i c spare, okWith [.spliceState .splicing]) := by
  have splice : ((s.manuallySpliced i c spare).stand i).splice = .splicing := by
    rw [State.manuallySpliced, stand_onStand_self hi]
  have range : within 1 7 (i + 1) = true := by simp [within]; omega
  unfold State.manualSplice
  simp only [range, Nat.add_sub_cancel, h.cfg, h.splice, h.spare, h.examine hi, h.quiet hi request, splice]
  rfl

end

theorem manualSplice_granted {s : State} {q : Asker} {k : Nat} (h : s.Grants q (.manualSplice k)) :
    runsLine s.lsc.state = true := by
  have available := availableIn_of_check h.2
  cases state : s.lsc.state <;> simp_all [availableIn, runsLine]

/-- The request at such a stand sends the splice, and hands no fault. -/
theorem exec_manualSplice {s : State} {q : Asker} {i : Nat} {c : StandCfg} {spare : Spare} (inv : s.Inv)
    (grants : s.Grants q (.manualSplice (i + 1))) (hi : i < 7) (ready : (s.asked q).ReadyToSplice i c spare) :
    exec (.manualSplice q (i + 1)) s = .next (((s.asked q).manuallySpliced i c spare).withReply
      ((okWith [.spliceState .splicing]).cut q.space)) := by
  have goes : owned q (.manualSplice (i + 1)) (s.asked q) = _ := manualSplice_goes ready hi inv.request
  have run := exec_granted grants
  rwa [goes, takeFaults_nothing (s := (s.asked q).manuallySpliced i c spare) inv.handed] at run

/-! ### REEL_DIAMETER (R89, R90, R93, R102, R104) -/

theorem reelOk_iff (r : Reel) :
    reelOk r = true ↔ 80 ≤ r.caliper ∧ r.caliper ≤ 900 ∧ r.diameter ≤ 30000 ∧ r.tube ≤ 30000 := by
  simp [reelOk, and_assoc]

theorem reelLength_eq (r : Reel) : reelLength r = (r.diameter ^ 2 - r.tube ^ 2) * 7854 / (100 * r.caliper) := by
  unfold reelLength
  rw [← Nat.pow_two, ← Nat.pow_two]
  split
  · rename_i bare
    rw [Nat.sub_eq_zero_of_le (Nat.pow_le_pow_left bare 2), Nat.zero_mul, Nat.zero_div]
  · rfl

/-- Whether a reading is of the reel that is known to run (R90). -/
def Stand.sameReel (st : Stand) (r : Reel) : Bool :=
  st.running.any fun old => old.paper == r.paper && old.caliper == r.caliper && old.tube == r.tube

theorem sameReel_iff (st : Stand) (r : Reel) : st.sameReel r = true ↔
    ∃ old, st.running = some old ∧ old.paper = r.paper ∧ old.caliper = r.caliper ∧ old.tube = r.tube := by
  simp [Stand.sameReel, Option.any_eq_true, and_assoc]

/-- The record with a reel that was not known, or is another one, before the judgement of its paper (R90, R94). -/
def Stand.onReel (st : Stand) (r : Reel) : Stand := ({ st with running := some r, remain := reelLength r } : Stand).meetDemand

theorem onReel_eq (st : Stand) (r : Reel) : st.onReel r =
    { st with
      running := some r, remain := reelLength r
      demand := if (st.demand.map fun d => d.paper) = some r.paper then none else st.demand } := by
  have meets : st.onReel r = if (st.demand.map fun d => d.paper) = some r.paper
      then { st with running := some r, remain := reelLength r, demand := none }
      else { st with running := some r, remain := reelLength r } := rfl
  rw [meets]
  split
  · rfl
  · rfl

/-- The record after another reading of the same reel (R90). -/
def Stand.onSameReel (st : Stand) (r : Reel) : Stand :=
  { st with running := some r, remain := creep st.remain (reelLength r) }

/-- The state with a reel that was not known, or with another one, which is noticed (R90). -/
def State.reelTaken (s : State) (i : Nat) (r : Reel) : State :=
  match (s.stand i).running with
  | none => s.onStand i fun st => st.onReel r
  | some old => (s.onStand i fun st => st.onReel r).notify (.reelChanged (i + 1) old.paper r.paper)

section
variable {s : State} {i : Nat} (c : StandCfg) {r : Reel}

theorem reelTaken_stand (hi : i < 7) : (s.reelTaken i r).stand i = (s.stand i).onReel r := by
  unfold State.reelTaken
  split
  · exact stand_onStand_self hi _
  · rw [stand_congr (notify_spl _ _), stand_onStand_self hi]

theorem reelTaken_waits {old : Reel} (known : (s.stand i).running = some old) (room : s.rif.routine.length ≤ 40) :
    (s.reelTaken i r).Waiting 41 [.reelChanged (i + 1) old.paper r.paper] := by
  unfold State.reelTaken
  rw [known]
  exact State.Waiting.notify _ (by omega) ⟨room, nofun⟩

theorem storeReel_same (same : (s.stand i).sameReel r = true) :
    s.storeReel i c r = s.onStand i fun st => st.onSameReel r := by
  obtain ⟨old, known, paper, caliper, tube⟩ := (sameReel_iff _ r).1 same
  unfold State.storeReel
  rw [known]
  exact if_neg (by simp [paper, caliper, tube])

theorem storeReel_other (other : (s.stand i).sameReel r = false) :
    s.storeReel i c r = (s.reelTaken i r).judgePaper i c.dist c.dist := by
  unfold State.storeReel State.reelTaken
  cases known : (s.stand i).running with
  | none => rfl
  | some old =>
    refine if_pos ?_
    simpa [Stand.sameReel, known, imp_iff_not_or, or_assoc] using other

theorem storeReel_same_stand (hi : i < 7) (same : (s.stand i).sameReel r = true) :
    (s.storeReel i c r).stand i = (s.stand i).onSameReel r := by
  rw [storeReel_same c same, stand_onStand_self hi]

theorem storeReel_other_stand (hi : i < 7) (other : (s.stand i).sameReel r = false) :
    (s.storeReel i c r).stand i = ((s.stand i).onReel r).judged := by
  rw [storeReel_other c other, judgePaper_stand hi, reelTaken_stand hi]

theorem Joins.reelTaken (K : Joins i P) (h : P s) : P (s.reelTaken i r) := by
  unfold State.reelTaken
  split
  · exact K.stand _ h
  · exact K.toExamines.notify _ (K.stand _ h)

theorem Joins.storeReel (K : Joins i P) (h : P s) : P (s.storeReel i c r) := by
  cases same : (s.stand i).sameReel r with
  | true =>
    rw [storeReel_same c same]
    exact K.stand _ h
  | false =>
    rw [storeReel_other c same]
    exact K.judgePaper _ _ (K.reelTaken h)

end

/-- A judgement of the paper queues no routine item. -/
theorem judgePaper_routine (s : State) (i : Nat) (a b : Int) : (s.judgePaper i a b).rif.routine = s.rif.routine := by
  have marked : (s.paperMarked i a b).rif.routine = s.rif.routine :=
    ite_keeps (P := fun t => t.rif.routine = s.rif.routine) (fun _ => (Marked.routine _).insertDefect _ rfl) fun _ =>
      ite_keeps (P := fun t => t.rif.routine = s.rif.routine) (fun _ => rfl) fun _ => rfl
  rw [judgePaper_eq]
  exact ite_keeps (P := fun t => t.rif.routine = s.rif.routine) (fun _ => marked) fun _ => marked

/-- What follows a reading that is stored (R93, R96, R104): the examination where R changed or became known, or the reel is
another one, and the run-out stop where R did. -/
def State.afterReel (s : State) (i : Nat) (changed other : Bool) : State :=
  let t := if changed || other then s.examine i else s
  (if changed then t.judgeRunout i else t).syncReasons [i]

/-- Whether R changed from the record of a stand, or became known (assumption 45). -/
def Stand.changesTo (st : Stand) (remain : Nat) : Bool := st.running.isNone || remain != st.remain

theorem reelDiameter_eq {s : State} {i : Nat} {c : StandCfg} {r : Reel} (hc : (s.stand i).cfg = some c) (ok : reelOk r = true) :
    s.reelDiameter i r = (s.storeReel i c r).afterReel i ((s.stand i).changesTo ((s.storeReel i c r).stand i).remain)
      (!(s.stand i).sameReel r) := by
  unfold State.reelDiameter
  simp only [hc, ok]
  rfl

theorem reelDiameter_refused {s : State} {i : Nat} {c : StandCfg} {r : Reel} (hc : (s.stand i).cfg = some c)
    (bad : reelOk r = false) : s.reelDiameter i r = s.notify (.badReelData (i + 1)) := by
  unfold State.reelDiameter
  simp only [hc, bad]
  rfl

section
variable {s : State} {i : Nat} (changed other : Bool)

theorem Examines.afterReel (K : Examines i P) (h : P s) : P (s.afterReel i changed other) := by
  have examined : P (if (changed || other) = true then s.examine i else s) := ite_keeps (fun _ => K.examine h) fun _ => h
  exact K.syncReasons _ (ite_keeps (fun _ => K.judgeRunout examined) fun _ => examined)

theorem afterReel_besides (hi : i < 7) : ((s.afterReel i changed other).stand i).besides = (s.stand i).besides := by
  unfold State.afterReel
  dsimp only
  rw [stand_congr (syncReasons_spl _ _)]
  have examined : ((if (changed || other) = true then s.examine i else s).stand i).besides = (s.stand i).besides :=
    ite_keeps (P := fun t => (t.stand i).besides = (s.stand i).besides) (fun _ => examine_besides hi) fun _ => rfl
  exact ite_keeps (P := fun t => (t.stand i).besides = (s.stand i).besides)
    (fun _ => by rw [stand_congr (judgeRunout_spl _ _)]; exact examined) fun _ => examined

theorem afterReel_wmp : (s.afterReel i changed other).wmp = s.wmp :=
  ((Examines.records i s.wmp s.plg).afterReel changed other ⟨rfl, rfl⟩).1

theorem afterReel_waits {k : Nat} {l : List Notice} (room : k < 48) (h : s.Waiting k l) :
    (s.afterReel i changed other).Waiting (k + 1) l := by
  have examined : (if (changed || other) = true then s.examine i else s).Waiting (k + 1) l :=
    ite_keeps (P := fun t => t.Waiting (k + 1) l) (fun _ => h.examine i room) fun _ => h.more
  refine State.Waiting.of_eq (alter_routine _ _ _) ?_
  refine ite_keeps (P := fun t => t.Waiting (k + 1) l) (fun _ => ?_) fun _ => examined
  obtain ⟨handed, e⟩ := judgeRunout_only (if (changed || other) = true then s.examine i else s) i
  rw [e]
  exact examined

/-- The run-out stop of a known reel at or below the stop reserve (R104). -/
theorem judgeRunout_hands {c : StandCfg} (hc : (s.stand i).cfg = some c) (known : (s.stand i).running.isSome = true)
    (low : (s.stand i).remain ≤ c.stop) (still : (s.stand i).splice ≠ .splicing) :
    ({ code := .runout, detail := .one (i + 1) } : FaultReport) ∈ (s.judgeRunout i).handed := by
  unfold State.judgeRunout
  simp only [hc]
  rw [if_pos ⟨known, low, still⟩]
  exact List.mem_append_right _ List.mem_cons_self

theorem afterReel_hands {c : StandCfg} (hi : i < 7) (hc : (s.stand i).cfg = some c)
    (known : (s.stand i).running.isSome = true) (low : (s.stand i).remain ≤ c.stop)
    (still : ((s.afterReel i true other).stand i).splice ≠ .splicing) :
    ({ code := .runout, detail := .one (i + 1) } : FaultReport) ∈ (s.afterReel i true other).handed := by
  obtain ⟨⟨cfg, running, remain, -⟩, -⟩ := fields_of_besides (examine_besides (s := s) hi)
  have whole : s.afterReel i true other = ((s.examine i).judgeRunout i).syncReasons [i] := rfl
  rw [whole, stand_congr (syncReasons_spl _ _), stand_congr (judgeRunout_spl _ _)] at still
  rw [whole]
  exact (Slits.waits _).alter _ _
    (judgeRunout_hands (cfg.trans hc) (by rw [running]; exact known) (by rw [remain]; exact low) still)

end

section
variable {s : State} {i : Nat} {c : StandCfg} {r : Reel}

theorem Joins.reelDiameter (K : Joins i P) (h : P s) : P (s.reelDiameter i r) := by
  cases hc : (s.stand i).cfg with
  | none =>
    unfold State.reelDiameter
    simpa only [hc] using h
  | some c =>
    cases ok : reelOk r with
    | false =>
      rw [reelDiameter_refused hc ok]
      exact K.toExamines.notify _ h
    | true =>
      rw [reelDiameter_eq hc ok]
      exact K.toExamines.afterReel _ _ (K.storeReel c h)

theorem reelDiameter_besides (hi : i < 7) (hc : (s.stand i).cfg = some c) (ok : reelOk r = true) :
    ((s.reelDiameter i r).stand i).besides = ((s.storeReel i c r).stand i).besides := by
  rw [reelDiameter_eq hc ok, afterReel_besides _ _ hi]

/-- The same reel: R creeps, and the map stands. -/
theorem reelDiameter_same (hi : i < 7) (hc : (s.stand i).cfg = some c) (ok : reelOk r = true)
    (same : (s.stand i).sameReel r = true) :
    ((s.reelDiameter i r).stand i).besides = ((s.stand i).onSameReel r).besides ∧ (s.reelDiameter i r).wmp = s.wmp := by
  refine ⟨by rw [reelDiameter_besides hi hc ok, storeReel_same_stand c hi same], ?_⟩
  rw [reelDiameter_eq hc ok, afterReel_wmp, storeReel_same c same]
  rfl

/-- Another reel, or one that was not known: R is taken whole, and the paper judged. -/
theorem reelDiameter_other (hi : i < 7) (hc : (s.stand i).cfg = some c) (ok : reelOk r = true)
    (other : (s.stand i).sameReel r = false) :
    ((s.reelDiameter i r).stand i).besides = ((s.stand i).onReel r).judged.besides := by
  rw [reelDiameter_besides hi hc ok, storeReel_other_stand c hi other]

theorem reelDiameter_notices {old : Reel} (hc : (s.stand i).cfg = some c) (ok : reelOk r = true)
    (known : (s.stand i).running = some old) (other : (s.stand i).sameReel r = false) (room : s.rif.routine.length ≤ 40) :
    .notice (.reelChanged (i + 1) old.paper r.paper) ∈ (s.reelDiameter i r).rif.routine := by
  have judged := (reelTaken_waits (r := r) known room).of_eq (judgePaper_routine (s.reelTaken i r) i c.dist c.dist)
  rw [reelDiameter_eq hc ok, storeReel_other c other]
  obtain ⟨-, waits⟩ := afterReel_waits _ _ (by omega) judged
  exact waits _ List.mem_cons_self

/-- What both readings store. -/
theorem storeReel_known (hi : i < 7) (hc : (s.stand i).cfg = some c) :
    ((s.storeReel i c r).stand i).cfg = some c ∧ ((s.storeReel i c r).stand i).running = some r := by
  cases same : (s.stand i).sameReel r with
  | true =>
    rw [storeReel_same_stand c hi same]
    exact ⟨hc, rfl⟩
  | false =>
    rw [storeReel_other_stand c hi same, onReel_eq]
    exact ⟨hc, rfl⟩

theorem reelDiameter_hands (hi : i < 7) (hc : (s.stand i).cfg = some c) (ok : reelOk r = true)
    (changed : (s.stand i).running = none ∨ ((s.reelDiameter i r).stand i).remain ≠ (s.stand i).remain)
    (low : ((s.reelDiameter i r).stand i).remain ≤ c.stop)
    (still : ((s.reelDiameter i r).stand i).splice ≠ .splicing) :
    ({ code := .runout, detail := .one (i + 1) } : FaultReport) ∈ (s.reelDiameter i r).handed := by
  obtain ⟨⟨-, -, remain, -⟩, -⟩ := fields_of_besides (reelDiameter_besides hi hc ok)
  have changes : (s.stand i).changesTo ((s.storeReel i c r).stand i).remain = true := by
    rw [← remain]
    simpa [Stand.changesTo] using changed
  obtain ⟨cfg, running⟩ := storeReel_known (r := r) hi hc
  rw [remain] at low
  rw [reelDiameter_eq hc ok, changes] at still ⊢
  exact afterReel_hands _ hi cfg (by rw [running]; rfl) low still

end

/-- What is asked of the record that a judgement of a new reel leaves. -/
theorem onReel_judged (st : Stand) (r : Reel) :
    let wrong : Prop := st.need ≠ 0 ∧ r.paper ≠ st.need
    ((st.onReel r).judged.claim = true ↔ wrong)
      ∧ (¬wrong → (st.onReel r).judged.demand
          = if (st.demand.map fun d => d.paper) = some r.paper then none else st.demand) := by
  intro wrong
  have wrong_iff : (st.onReel r).wrongPaper = true ↔ wrong := by
    rw [Stand.wrongPaper_iff, onReel_eq]
    exact and_congr_right fun _ => not_congr Option.some_inj
  refine ⟨wrong_iff, fun right => ?_⟩
  have clear : (st.onReel r).wrongPaper = false := Bool.eq_false_iff.2 fun e => right (wrong_iff.1 e)
  rw [Stand.judged, clear, onReel_eq]
  rfl

/-- The record after a valid reading (R90, R94, R102). -/
theorem reelDiameter_record {s : State} {i : Nat} {c : StandCfg} {r : Reel} (hi : i < 7) (hc : (s.stand i).cfg = some c)
    (ok : reelOk r = true) :
    let st := s.stand i
    let u := (s.reelDiameter i r).stand i
    let wrong : Prop := st.need ≠ 0 ∧ r.paper ≠ st.need
    (u.cfg = some c ∧ u.running = some r ∧ u.spare = st.spare ∧ u.manual = st.manual ∧ u.need = st.need)
      ∧ (st.sameReel r = false → u.remain = reelLength r ∧ (u.claim = true ↔ wrong)
        ∧ (¬wrong → u.demand = if (st.demand.map fun d => d.paper) = some r.paper then none else st.demand))
      ∧ (st.sameReel r = true → u.remain = min (reelLength r) (st.remain + st.remain / 200) ∧ u.claim = st.claim
        ∧ u.demand = st.demand ∧ (s.reelDiameter i r).wmp = s.wmp) := by
  cases same : (s.stand i).sameReel r with
  | true =>
    obtain ⟨besides, wmp⟩ := reelDiameter_same hi hc ok same
    obtain ⟨⟨cfg, running, remain, spare⟩, manual, demand, need, claim, -⟩ := fields_of_besides besides
    exact ⟨⟨cfg.trans hc, running, spare, manual, need⟩, fun h => absurd (same.symm.trans h) nofun,
      fun _ => ⟨remain, claim, demand, wmp⟩⟩
  | false =>
    obtain ⟨⟨cfg, running, remain, spare⟩, manual, demand, need, claim, -⟩ :=
      fields_of_besides (reelDiameter_other hi hc ok same)
    obtain ⟨judged, freed⟩ := onReel_judged (s.stand i) r
    rw [← claim] at judged
    rw [← demand] at freed
    rw [Stand.judged, onReel_eq] at cfg running remain spare manual need
    exact ⟨⟨cfg.trans hc, running, spare, manual, need⟩, fun _ => ⟨remain, judged, freed⟩,
      fun h => absurd (same.symm.trans h) nofun⟩

/-! ### SPARE_STATE (R92, R101) -/

/-- The record with a prepared spare (R92, R101). -/
def Stand.prepared (r : Reel) (st : Stand) : Stand :=
  { st with
    spare := some { reel := r, remain := reelLength r }
    splice := if st.splice == .fault && st.spareCleared then .running else st.splice }

/-- The record without a spare (R92). -/
def Stand.spareless (st : Stand) : Stand :=
  { st with spare := none, spareCleared := st.spareCleared || st.splice == .fault }

/-- What a SPARE_STATE leaves of the state, by its report (R92). -/
def State.sparedBy (s : State) (i : Nat) : SpareReport → State
  | .prepared r => if reelOk r then s.reexamine i (Stand.prepared r) else s.notify (.badReelData (i + 1))
  | .preparing => s.reexamine i Stand.spareless
  | .absent => s.reexamine i Stand.spareless

section
variable {s : State} {i : Nat} {c : StandCfg}

theorem spareReport_splicing (x : SpareReport) (splicing : (s.stand i).splice = .splicing) : s.spareReport i x = s := by
  unfold State.spareReport
  dsimp only
  split
  · rfl
  · exact if_pos splicing

theorem spareReport_taken (x : SpareReport) (hc : (s.stand i).cfg = some c) (still : (s.stand i).splice ≠ .splicing) :
    s.spareReport i x = s.sparedBy i x := by
  unfold State.spareReport
  simp only [hc, if_neg still]
  cases x with
  | prepared r => cases ok : reelOk r <;> simp only [State.sparedBy, ok] <;> rfl
  | preparing => rfl
  | absent => rfl

theorem Examines.spareReport (K : Examines i P) (x : SpareReport) (hc : (s.stand i).cfg = some c) (h : P s) :
    P (s.spareReport i x) := by
  by_cases splicing : (s.stand i).splice = .splicing
  · rwa [spareReport_splicing x splicing]
  · rw [spareReport_taken x hc splicing]
    cases x with
    | prepared r => exact ite_keeps (fun _ => K.reexamine _ h) fun _ => K.notify _ h
    | preparing => exact K.reexamine _ h
    | absent => exact K.reexamine _ h

/-- A record but for the spare, the splice and what FAULT holds of the spare. -/
def Stand.besidesSpare (st : Stand) : Stand := { st.besides with spare := none, spareCleared := false }

theorem spareReport_besides (x : SpareReport) (hi : i < 7) (hc : (s.stand i).cfg = some c) :
    ((s.spareReport i x).stand i).besidesSpare = (s.stand i).besidesSpare := by
  have kept (f : Stand → Stand) (hf : (f (s.stand i)).besidesSpare = (s.stand i).besidesSpare) :
      ((s.reexamine i f).stand i).besidesSpare = (s.stand i).besidesSpare :=
    (congrArg (fun st : Stand => { st with spare := none, spareCleared := false }) (reexamine_besides f hi)).trans hf
  by_cases splicing : (s.stand i).splice = .splicing
  · rw [spareReport_splicing x splicing]
  · rw [spareReport_taken x hc splicing]
    cases x with
    | prepared r =>
      exact ite_keeps (P := fun t => (t.stand i).besidesSpare = (s.stand i).besidesSpare) (fun _ => kept _ rfl) fun _ => by
        rw [stand_congr (notify_spl _ _)]
    | preparing => exact kept _ rfl
    | absent => exact kept _ rfl

theorem spareReport_fields (x : SpareReport) (hi : i < 7) (hc : (s.stand i).cfg = some c) :
    let u := (s.spareReport i x).stand i
    u.cfg = some c ∧ u.running = (s.stand i).running ∧ u.remain = (s.stand i).remain ∧ u.manual = (s.stand i).manual
      ∧ u.need = (s.stand i).need ∧ u.claim = (s.stand i).claim ∧ u.demand = (s.stand i).demand := by
  obtain ⟨cfg, running, remain, -, -, -, -, manual, demand, need, claim, -⟩ := Stand.mk.inj (spareReport_besides x hi hc)
  exact ⟨cfg.trans hc, running, remain, manual, need, claim, demand⟩

theorem sparedBy_prepared {r : Reel} (hi : i < 7) (ok : reelOk r = true) :
    let u := (s.sparedBy i (.prepared r)).stand i
    u.spare = some { reel := r, remain := reelLength r } ∧ u.spareCleared = (s.stand i).spareCleared
      ∧ (u.splice = .fault ↔ (s.stand i).splice = .fault ∧ (s.stand i).spareCleared = false) := by
  have whole : s.sparedBy i (.prepared r) = s.reexamine i (Stand.prepared r) := if_pos ok
  obtain ⟨⟨-, -, -, spare⟩, -, -, -, -, cleared⟩ := fields_of_besides (reexamine_besides (s := s) (Stand.prepared r) hi)
  have fault := reexamine_fault (s := s) (Stand.prepared r) hi
  rw [whole]
  refine ⟨spare, cleared, fault.trans ?_⟩
  cases cleared : (s.stand i).spareCleared <;> cases splice : (s.stand i).splice <;> simp [Stand.prepared, cleared, splice]

theorem reexamine_spareless (hi : i < 7) :
    let u := (s.reexamine i Stand.spareless).stand i
    u.spare = none ∧ (u.spareCleared = true ↔ (s.stand i).spareCleared = true ∨ (s.stand i).splice = .fault)
      ∧ (u.splice = .fault ↔ (s.stand i).splice = .fault) := by
  obtain ⟨⟨-, -, -, spare⟩, -, -, -, -, cleared⟩ := fields_of_besides (reexamine_besides (s := s) Stand.spareless hi)
  refine ⟨spare, ?_, reexamine_fault _ hi⟩
  rw [cleared]
  simp [Stand.spareless]

end

/-- Settles O33: the request by the one cause it brings; a reading of the reel by what it stores, and what follows; a report
of the spare by the record that is examined. -/
theorem manualSpliceGoesAtOnce : Obligations.ManualSpliceGoesAtOnce := by
  refine ⟨fun s q k c spare inv grants least most hc running prepared demand long claim band joint noBand noGrade room => ?_,
    fun s i c r hi hc => ?_⟩
  · obtain ⟨i, rfl⟩ : ∃ i, k = i + 1 := ⟨k - 1, by omega⟩
    exact exec_manualSplice inv grants (by omega) ⟨hc, running, prepared, demand, long, claim, band, joint,
      manualSplice_granted grants, ⟨noBand, noGrade⟩, room⟩
  · intro st ok length same wrong others
    have ok_iff : reelOk r = true ↔ ok := reelOk_iff r
    have same_iff : st.sameReel r = true ↔ same := sameReel_iff st r
    have bad (h : ¬ok) : reelOk r = false := Bool.eq_false_iff.2 fun e => h (ok_iff.1 e)
    have long : length = reelLength r := (reelLength_eq r).symm
    have other (h : ¬same) : st.sameReel r = false := Bool.eq_false_iff.2 fun e => h (same_iff.1 e)
    have aside {t : State} (stands : ∀ j, j ≠ i → t.stand j = s.stand j) (h : s.OthersStand t ∧ t.chg = s.chg) :
        others t := by
      obtain ⟨⟨osq, hgr, stk, lsc, irt, line⟩, chg⟩ := h
      exact ⟨stands, osq, chg, hgr, stk, lsc, irt, line⟩
    refine ⟨?_, fun report => ?_⟩
    · have record := reelDiameter_record (r := r) hi hc
      intro t u
      refine ⟨fun h => reelDiameter_refused hc (bad h), fun good => ?_⟩
      have taken := ok_iff.2 good
      obtain ⟨⟨cfg, running, spare, manual, need⟩, unlike, like⟩ := record taken
      refine ⟨running, cfg, spare, manual, need, fun h => ?_, fun h => ?_, fun old known h => ?_,
        reelDiameter_hands hi hc taken, aside (fun j hj => ?_) ?_⟩
      · rw [long]
        exact unlike (other h)
      · rw [long]
        exact like (same_iff.2 h)
      · exact reelDiameter_notices hc taken known (other h)
      · exact (Joins.otherStand hj _).reelDiameter rfl
      · exact (Joins.aside i s).reelDiameter ⟨.refl s, rfl⟩
    · have fields := spareReport_fields report hi hc
      have stands (j : Nat) (hj : j ≠ i) : (s.spareReport i report).stand j = s.stand j :=
        (Joins.otherStand hj _).toExamines.spareReport report hc rfl
      have wmp := ((Examines.records i s.wmp s.plg).spareReport report hc ⟨rfl, rfl⟩).1
      intro t u
      refine ⟨spareReport_splicing report, ?_, ?_, ?_, ?_⟩
      · rintro rfl still h
        exact (spareReport_taken _ hc still).trans (if_neg (by rw [bad h]; exact nofun))
      · rintro rfl still good
        have taken : t = s.sparedBy i (.prepared r) := spareReport_taken _ hc still
        rw [long, show u = _ from congrArg (fun t : State => t.stand i) taken]
        exact sparedBy_prepared hi (ok_iff.2 good)
      · intro none still
        have taken : t = s.reexamine i Stand.spareless := by
          rcases none with rfl | rfl <;> exact spareReport_taken _ hc still
        rw [show u = _ from congrArg (fun t : State => t.stand i) taken]
        exact reexamine_spareless hi
      · obtain ⟨cfg, running, remain, manual, need, claim, demand⟩ := fields
        have apart : others t := aside stands ((Joins.aside i s).toExamines.spareReport report hc ⟨.refl s, rfl⟩)
        exact ⟨cfg, running, remain, manual, need, claim, demand, apart, wmp⟩

end Sys2Proof.Machine
end

section
namespace Sys2Proof.Machine

/-! ### LOAD_SCAN (R119) -/

/-- A requester of sufficient level in a line state that serves the request is left to the test of the fields (R189). -/
theorem checkRequest_reached {s : State} {q : Asker} {r : Request} {n : Nat} (authority : s.authority q.comm q.requester = .level n)
    (level : n ≤ minimumLevel r) (available : availableIn r s.lsc.state = true) :
    s.checkRequest q r = missingField r q.present := by
  simp [State.checkRequest, authority, Authority.reaches, level, available]

/-- An empty LOAD_SCAN needs the list's length alone (R119, R189). -/
theorem grants_emptyScan {s : State} {q : Asker} (space : 4 ≤ q.space) (authority : s.authority q.comm q.requester = .level 0)
    (stopped : s.lsc.state = .stopped) (length : 1 ≤ q.present) : s.Grants q (.loadScan []) := by
  refine ⟨space, (checkRequest_reached authority (Nat.zero_le _) (by rw [stopped]; rfl)).trans ?_⟩
  exact if_pos length

theorem loadScan_stores (s : State) {l : List Nat} (length : l.length ≤ 10) (channels : ∀ c ∈ l, c ≤ 15) :
    s.loadScan l = (s.onHgr fun h => { h with scan := l, position := 0 }, bare .ok) := by
  have passed : positionsOf (fun c => decide (15 < c)) l = [] :=
    positionsOf_none fun c hc => decide_eq_false (Nat.not_lt.2 (channels c hc))
  unfold State.loadScan
  rw [if_neg (Nat.not_lt.2 length), passed]

theorem exec_loadScan {s : State} {q : Asker} {l : List Nat} (handed : s.handed = []) (grants : s.Grants q (.loadScan l))
    (length : l.length ≤ 10) (channels : ∀ c ∈ l, c ≤ 15) :
    exec (.loadScan q l) s
      = .next (({ s with hgr := { s.hgr with scan := l, position := 0 } } : State).replied q (bare .ok)) :=
  exec_granted_plain grants (loadScan_stores (s.asked q) length channels) handed rfl

/-! ### LOAD_GRADE (R108) -/

/-- A column each of whose tolerances lies in 0..32,767. -/
theorem columnOk_of {c : Column} (h : ∀ e ∈ [c.crawl, c.low, c.mid, c.high], 0 ≤ e.tolerance ∧ e.tolerance ≤ 32767) :
    columnOk c = true := by
  simpa [columnOk, toleranceOk, and_assoc] using h

/-- A grade that no point and no waiting or running order holds. -/
theorem gradeInUse_false {s : State} {code : Nat} (points : ∀ p ∈ s.hgr.points.toList, p.grade ≠ code)
    (orders : ∀ o ∈ s.osq.slots.toList, ∀ r, o.order = some r → r.grade = code →
      o.state ≠ .queued ∧ o.state ≠ .onWeb ∧ o.state ≠ .suspended) : s.gradeInUse code = false := by
  refine Bool.or_eq_false_iff.2 ⟨List.any_eq_false.2 fun p hp => by simpa using points p hp, List.any_eq_false.2 fun o ho => ?_⟩
  intro held
  obtain ⟨state, r, hr, grade⟩ : (_ ∨ _) ∧ ∃ r, o.order = some r ∧ r.grade = code := by
    simpa [Slot.holdsGrade, Option.any_eq_true] using held
  obtain ⟨queued, onWeb, suspended⟩ := orders o ho r hr grade
  simp [queued, onWeb, suspended] at state

theorem loadGrade_stores {s : State} {a : GradeArgs} (least : 1 ≤ a.code) (most : a.code ≤ 24)
    (columns : ∀ c, some c ∈ a.grade.columns.toList → columnOk c = true) (free : s.gradeInUse a.code = false) :
    s.loadGrade a = (s.onHgr fun h => { h with grades := put h.grades (a.code - 1) (some a.grade) }, bare .ok) := by
  have passed : positionsOf (fun (c : Option Column) => c.any fun x => !columnOk x) a.grade.columns.toList = [] :=
    positionsOf_none fun c hc => by
      cases c with
      | none => rfl
      | some c => simp [columns c hc]
  unfold State.loadGrade
  rw [if_neg (by simp [within, least, most]), passed]
  simp only [free]
  rfl

/-- Settles O20. -/
theorem scanAndGradeLoads : Obligations.ScanAndGradeLoads := by
  intro s q handed
  refine ⟨fun l grants => exec_loadScan handed grants, fun space authority stopped length => ?_,
    fun a grants least most columns points orders => ?_⟩
  · exact exec_loadScan handed (grants_emptyScan space authority stopped length) (Nat.zero_le _) nofun
  · have free : (s.asked q).gradeInUse a.code = false := gradeInUse_false (s := s) points orders
    exact exec_granted_plain grants (loadGrade_stores least most (fun c hc => columnOk_of (columns c hc)) free) handed rfl

/-! ### The grade table over resets (R109) -/

theorem pinReset_points (s : State) : ∀ p ∈ s.pinReset.hgr.points.toList, p.grade = 0 := by
  intro p hp
  have cleared : p ∈ (s.hgr.points.map fun pt => Point.cleared pt.cfg).toList := hp
  rw [Vector.toList_map] at cleared
  obtain ⟨pt, -, rfl⟩ := List.mem_map.1 cleared
  rfl

/-- After RST_N every point stands at grade 0 and every slot is EMPTY, so no grade is in use. -/
theorem pinReset_gradeInUse (s : State) {code : Nat} (h : 1 ≤ code) : s.pinReset.gradeInUse code = false := by
  refine gradeInUse_false (fun p hp e => ?_) fun o ho r hr => ?_
  · rw [pinReset_points s p hp] at e
    omega
  · have blank : o ∈ (Vector.replicate 64 Slot.blank).toList := ho
    rw [Vector.toList_replicate] at blank
    rw [List.eq_of_mem_replicate blank] at hr
    cases hr

theorem withReply_hgr (s : State) (r : Reply) : (s.withReply r).hgr = s.hgr := rfl

theorem grades_of_configuration {s t : State} (h : t.configuration = s.configuration) : t.hgr.grades = s.hgr.grades := by
  have grades := congrArg Configuration.grades h
  exact Vector.toList_inj.1 grades

/-- Settles O21. -/
theorem gradeTableIsKept : Obligations.GradeTableIsKept := by
  intro s
  obtain ⟨on, powered, -, -, -, -, -, -, ⟨-, -, -, unloaded, -⟩, -⟩ := powerOnResetsEveryBlock s
  refine ⟨⟨on, powered, unloaded⟩, ⟨s.pinReset, rfl, rfl, fun i => ?_, pinReset_points s, fun code => pinReset_gradeInUse s⟩,
    fun q inv grants => ⟨_, exec_lineReset grants, ?_⟩⟩
  · exact congrArg Slot.state (replicate_getD 64 i Slot.blank)
  · by_cases busy : s.lsc.state = .faulted ∧ s.lsc.status ≠ .stopped
    · have handed : (s.asked q).handed = [] := (inv_iff.1 inv).2
      rw [lineResetRequest_busy (s := s.asked q) busy, takeFaults_nothing handed]
      rfl
    · rw [lineResetRequest_taken (s := s.asked q) busy]
      rw [withReply_hgr]
      exact grades_of_configuration (lineReset_kept (s.asked q)).1

end Sys2Proof.Machine
end

section
namespace Sys2Proof.Machine

/-! ### The settle timers (R115, R117) -/

/-- A change of an entry of the table is a write of that entry. -/
theorem modify_eq_set {α : Type} {n : Nat} (v : Vector α n) (i : Fin n) (f : α → α) : modify v i f = v.set i (f v[i]) := by
  refine table_ext fun j => ?_
  rw [modify_getElem?, Vector.getElem?_set]
  by_cases e : j = i
  · subst e
    simp
  · rw [if_neg e, if_neg (Ne.symm e)]

/-! ### SETPOINT (R113) -/

theorem point_lt {s : State} {p : Nat} {c : PointCfg} (h : (s.point p).cfg = some c) : p < 12 := by
  by_contra hp
  simp [State.point, Nat.le_of_not_lt hp, Point.cleared] at h

theorem channel_lt {s : State} {c : Nat} {k : ChannelCfg} (h : (s.channel c).cfg = some k) : c < 16 := by
  by_contra hc
  simp [State.channel, Nat.le_of_not_lt hc, Channel.cleared] at h

/-- The band entry that a point's column gives. -/
def State.entryOf (s : State) (pt : Point) : Option BandEntry := (s.columnOf pt).map fun col => columnEntry col s.wtr.band

/-- The mode of a point's SETPOINT: RUN, or IDLE where the column is absent. -/
def State.modeOf (s : State) (pt : Point) : SetpointMode := if (s.entryOf pt).isSome then .run else .idle

/-- The SETPOINT of a point with a record c. -/
def State.setpointOf (s : State) (p : Nat) (c : PointCfg) : OutItem :=
  .setpoint p c.station c.kind (s.point p).grade s.wtr.band (s.modeOf (s.point p)) (s.entryOf (s.point p))

/-- A channel at the SETPOINT of a point: its settle timer is loaded if it is tied to the point. -/
def Channel.settledAt (p : Nat) (ch : Channel) : Channel :=
  { ch with settle := match ch.cfg with
      | some k => if k.point = p then k.settle else ch.settle
      | none => ch.settle }

/-- What the Heat and Glue Regulator keeps of a SETPOINT sent. -/
def State.setpointKept (s : State) (p : Nat) (h : Hgr) : Hgr :=
  { h with
    points := modify h.points p fun pt =>
      { pt with last := some { grade := pt.grade, band := s.wtr.band, mode := s.modeOf (s.point p) } }
    channels := h.channels.map (Channel.settledAt p) }

theorem sendSetpoint_none {s : State} {p : Nat} (h : (s.point p).cfg = none ∨ (s.point p).grade = 0) :
    s.sendSetpoint p = s := by
  unfold State.sendSetpoint
  dsimp only
  split
  · rfl
  · rename_i c hc
    exact if_pos (h.resolve_left (by simp [hc]))

theorem sendSetpoint_sends {s : State} {p : Nat} {c : PointCfg} (hc : (s.point p).cfg = some c)
    (graded : (s.point p).grade ≠ 0) :
    s.sendSetpoint p = (s.queueRoutine (s.setpointOf p c)).onHgr (s.setpointKept p) := by
  have settled (v : Vector Channel 16) (f : Channel → Channel) (hf : ∀ ch, f ch = ch.settledAt p) :
      v.map f = v.map (Channel.settledAt p) := congrArg v.map (funext hf)
  unfold State.sendSetpoint
  simp only [hc, if_neg graded, State.onPoint, State.onHgr, State.setpointKept, State.queueRoutine_wtr]
  rw [settled]
  · rfl
  · rintro ⟨cfg, reading, stale, run, settle⟩
    cases cfg with
    | none => rfl
    | some k => by_cases tied : k.point = p <;> simp [Channel.settledAt, tied]


/-- What a SETPOINT sent leaves of the points and channels. -/
theorem sendSetpoint_tables {s : State} {p : Nat} {c : PointCfg} (hc : (s.point p).cfg = some c)
    (graded : (s.point p).grade ≠ 0) :
    (s.sendSetpoint p).point p
        = { s.point p with
            last := some { grade := (s.point p).grade, band := s.wtr.band, mode := s.modeOf (s.point p) } }
      ∧ (∀ j, j ≠ p → (s.sendSetpoint p).point j = s.point j)
      ∧ ∀ j, (s.sendSetpoint p).channel j = (s.channel j).settledAt p := by
  have hgr : (s.sendSetpoint p).hgr = s.setpointKept p s.hgr := by
    rw [sendSetpoint_sends hc graded, State.onHgr_hgr, State.queueRoutine_hgr]
  have point (j : Nat) : (s.sendSetpoint p).point j = (s.onHgr (s.setpointKept p)).point j := by
    rw [State.point, hgr]
    rfl
  have written (j : Nat) := (point j).trans (point_onPoint s p j _)
  refine ⟨(written p).trans (if_pos ⟨rfl, point_lt hc⟩), fun j other => (written j).trans (if_neg fun h => other h.1), fun j => ?_⟩
  rw [State.channel, hgr]
  exact map_getD _ _ _ rfl j

/-- A point's SETPOINT leaves the grade of the point, the records of points and channels, and the grade table. -/
structure State.SetpointSent (s t : State) (p : Nat) : Prop where
  cfg     : (t.point p).cfg = (s.point p).cfg
  grade   : (t.point p).grade = (s.point p).grade
  channel : ∀ j, (t.channel j).cfg = (s.channel j).cfg
  grades  : t.hgr.grades = s.hgr.grades

theorem sendSetpoint_sent (s : State) (p : Nat) : s.SetpointSent (s.sendSetpoint p) p := by
  by_cases quiet : (s.point p).cfg = none ∨ (s.point p).grade = 0
  · rw [sendSetpoint_none quiet]
    exact ⟨rfl, rfl, fun _ => rfl, rfl⟩
  · obtain ⟨configured, graded⟩ := not_or.1 quiet
    obtain ⟨c, hc⟩ := Option.ne_none_iff_exists'.1 configured
    obtain ⟨point, -, channel⟩ := sendSetpoint_tables hc graded
    refine ⟨by rw [point], by rw [point], fun j => by rw [channel]; rfl, ?_⟩
    rw [sendSetpoint_sends hc graded, State.onHgr_hgr, State.queueRoutine_hgr]
    rfl

/-! ### A boundary at a point (R112, R123) -/

theorem columnOf_of {s t : State} {pt pt' : Point} (cfg : pt'.cfg = pt.cfg) (grade : pt'.grade = pt.grade)
    (grades : t.hgr.grades = s.hgr.grades) : t.columnOf pt' = s.columnOf pt := by
  rw [columnOf_congr grades]
  simp only [State.columnOf, cfg, grade]

theorem crossPoint_same {s : State} {p o : Nat} (h : (s.point p).grade = s.gradeCode o) : s.crossPoint p (some o) = s :=
  if_pos h

/-- The state in which a point has taken an order's grade. -/
def State.regraded (s : State) (p o : Nat) : State := s.onPoint p fun pt => { pt with grade := s.gradeCode o }

section
variable {s : State} {p o : Nat} {c : PointCfg}

theorem regraded_point (hc : (s.point p).cfg = some c) :
    (s.regraded p o).point p = { s.point p with grade := s.gradeCode o } :=
  (point_onPoint s p p _).trans (if_pos ⟨rfl, point_lt hc⟩)

/-- Another grade is taken and sent; where its column is absent the point's OPEN channels are closed. -/
theorem crossPoint_regrades (hc : (s.point p).cfg = some c) (other : (s.point p).grade ≠ s.gradeCode o) :
    s.crossPoint p (some o) =
      if (s.regraded p o).columnOf ((s.regraded p o).point p) = none then ((s.regraded p o).sendSetpoint p).closeTied p c.dist
      else (s.regraded p o).sendSetpoint p := by
  have sent := sendSetpoint_sent (s.regraded p o) p
  have cfg : ((s.regraded p o).point p).cfg = some c := by rw [regraded_point hc]; exact hc
  refine (if_neg other).trans ?_
  rw [← columnOf_of sent.cfg sent.grade sent.grades]
  exact closeIfIdle_eq (sent.cfg.trans cfg)

/-- The point holds the new grade, and keeps its record. -/
theorem crossPoint_point (hc : (s.point p).cfg = some c) (other : (s.point p).grade ≠ s.gradeCode o) :
    ((s.crossPoint p (some o)).point p).grade = s.gradeCode o ∧ ((s.crossPoint p (some o)).point p).cfg = some c := by
  obtain ⟨cfg, grade, -, -⟩ := sendSetpoint_sent (s.regraded p o) p
  rw [regraded_point hc] at cfg grade
  have sent := And.intro grade (cfg.trans hc)
  rw [crossPoint_regrades hc other]
  split
  · have closed := closeTied_closed ((s.regraded p o).sendSetpoint p) p c.dist
    rw [State.point, closed.points]
    exact sent
  · exact sent

/-- A channel that has been closed with its point's others is OPEN no more. -/
theorem State.TiedClosed.shut {t : State} {d : Nat} (h : s.TiedClosed t p d) {j : Nat} (tied : (s.channel j).tiedTo p = true) :
    (t.channel j).isOpen = false := by
  rw [h.channel j]
  cases open_ : s.openAt p j with
  | true => rfl
  | false => simpa [State.openAt, tied] using open_

theorem crossPoint_shuts (hc : (s.point p).cfg = some c) (other : (s.point p).grade ≠ s.gradeCode o)
    (idle : (s.regraded p o).columnOf ((s.regraded p o).point p) = none) {j : Nat} (tied : (s.channel j).tiedTo p = true) :
    ((s.crossPoint p (some o)).channel j).isOpen = false := by
  have kept := (sendSetpoint_sent (s.regraded p o) p).channel j
  rw [crossPoint_regrades hc other, if_pos idle]
  refine (closeTied_closed _ p c.dist).shut ?_
  rw [Channel.tiedTo, kept]
  exact tied

end

end Sys2Proof.Machine
end

section
namespace Sys2Proof.Machine

/-! ### The judgement of a channel (R117, R120, R121) -/

/-- The tolerance that a channel is judged by: doubled while its settle timer runs. -/
def Channel.toleranceIn (ch : Channel) (e : BandEntry) : Int := if ch.settle > 0 then 2 * e.tolerance else e.tolerance

/-- The value of a raw reading lies within the tolerance of the setpoint. -/
abbrev Channel.InBand (ch : Channel) (k : ChannelCfg) (e : BandEntry) (raw : Nat) : Prop :=
  e.setpoint - ch.toleranceIn e ≤ k.value raw ∧ k.value raw ≤ e.setpoint + ch.toleranceIn e

theorem inBand_iff (ch : Channel) (k : ChannelCfg) (e : BandEntry) (raw : Nat) :
    ch.InBand k e raw ↔ ¬(k.value raw - e.setpoint).natAbs > ch.toleranceIn e := by
  unfold Channel.InBand
  omega

/-- A channel that is not stale and hears its source is judged by the value of a valid reading. -/
theorem judge_valid {ch : Channel} {hears : Bool} {k : ChannelCfg} {raw : Nat} (e : BandEntry)
    (live : ch.stale = false ∧ hears = true) (cfg : ch.cfg = some k) (reading : ch.reading = .valid raw) :
    ch.judge hears e = if ch.InBand k e raw then .pass else .fail .deviation := by
  obtain ⟨fresh, heard⟩ := live
  have value : ch.value = some (k.value raw) := by rw [Channel.value, cfg, reading]
  unfold Channel.judge
  rw [fresh, heard, value]
  simp only [inBand_iff, ite_not]
  rfl

theorem value_unread {ch : Channel} (h : ∀ raw, ch.reading ≠ .valid raw) : ch.value = none := by
  unfold Channel.value
  split
  · rename_i raw _ reading
    exact absurd reading (h raw)
  · rfl

/-- Any other channel fails as STALE. -/
theorem judge_stale {ch : Channel} {hears : Bool} (e : BandEntry)
    (h : ¬((ch.stale = false ∧ hears = true) ∧ ∃ raw, ch.reading = .valid raw)) : ch.judge hears e = .fail .stale := by
  unfold Channel.judge
  by_cases live : ch.stale = false ∧ hears = true
  · have unread : ∀ raw, ch.reading ≠ .valid raw := fun raw reading => h ⟨live, raw, reading⟩
    rw [live.1, live.2, value_unread unread]
    rfl
  · refine if_pos ?_
    rw [not_and_or] at live
    simpa using live

/-! ### What an evaluation does (R119 to R122) -/

/-- A channel is evaluated by its record k, its point's record pc, and the band's entry e of the point's column. -/
structure State.Evaluates (s : State) (c : Nat) (k : ChannelCfg) (pc : PointCfg) (e : BandEntry) : Prop where
  channel : (s.channel c).cfg = some k
  point   : (s.point k.point).cfg = some pc
  entry   : s.entryOf (s.point k.point) = some e

/-- What follows a verdict on a channel. -/
def State.afterVerdict (s : State) (c : Nat) (k : ChannelCfg) (pc : PointCfg) (e : BandEntry) : Verdict → State
  | .pass => s.passChannel c k pc
  | .fail cause => s.failChannel c k pc cause e

theorem evaluate_unconfigured {s : State} {c : Nat} (h : (s.channel c).cfg = none) : s.evaluate c = s := by
  unfold State.evaluate
  rw [h]

theorem evaluate_passedOver {s : State} {c : Nat} {k : ChannelCfg} (hk : (s.channel c).cfg = some k)
    (h : (s.point k.point).cfg = none ∨ s.columnOf (s.point k.point) = none) : s.evaluate c = s := by
  unfold State.evaluate
  rw [hk]
  dsimp only
  split
  · rename_i hp hcol
    simp [hp, hcol] at h
  · rfl

section
variable {s : State} {c : Nat} {k : ChannelCfg} {pc : PointCfg} {e : BandEntry}

theorem evaluate_judges (h : s.Evaluates c k pc e) :
    s.evaluate c = s.afterVerdict c k pc e ((s.channel c).judge (s.channelHears c) e) := by
  obtain ⟨hk, hp, entry⟩ := h
  obtain ⟨col, hcol, rfl⟩ := Option.map_eq_some_iff.1 entry
  unfold State.evaluate
  rw [hk]
  dsimp only
  rw [hp, hcol]
  rfl

theorem evaluate_passes (h : s.Evaluates c k pc e) (pass : (s.channel c).judge (s.channelHears c) e = .pass) :
    s.evaluate c = s.passChannel c k pc := by
  rw [evaluate_judges h, pass, State.afterVerdict]

theorem evaluate_fails (h : s.Evaluates c k pc e) {cause : OffbandCause}
    (fail : (s.channel c).judge (s.channelHears c) e = .fail cause) : s.evaluate c = s.failChannel c k pc cause e := by
  rw [evaluate_judges h, fail, State.afterVerdict]

end

/-! #### By the run state (R120) -/

section
variable {s : State} {c : Nat} {k : ChannelCfg} {pc : PointCfg}

theorem passChannel_clear (h : (s.channel c).run = .clear) : s.passChannel c k pc = s := by
  unfold State.passChannel
  rw [h]

theorem passChannel_suspect {n m : Nat} (h : (s.channel c).run = .suspect n m) :
    s.passChannel c k pc = s.onChannel c fun ch => { ch with run := .clear } := by
  unfold State.passChannel
  rw [h]

theorem passChannel_opened {n : Nat} (h : (s.channel c).run = .opened n) :
    s.passChannel c k pc = if k.confirm ≤ n + 1 then s.closeOffband c k.point pc.dist
      else s.onChannel c fun ch => { ch with run := .opened (n + 1) } := by
  unfold State.passChannel
  rw [h]

variable {cause : OffbandCause} {e : BandEntry}

theorem failChannel_clear (h : (s.channel c).run = .clear) :
    s.failChannel c k pc cause e = if k.confirm ≤ 1 then s.openOffband c k pc cause 0 e
      else s.onChannel c fun ch => { ch with run := .suspect 1 0 } := by
  unfold State.failChannel
  rw [h]

theorem failChannel_suspect {n m : Nat} (h : (s.channel c).run = .suspect n m) :
    s.failChannel c k pc cause e = if k.confirm ≤ n + 1 then s.openOffband c k pc cause m e
      else s.onChannel c fun ch => { ch with run := .suspect (n + 1) m } := by
  unfold State.failChannel
  rw [h]

theorem failChannel_opened {n : Nat} (h : (s.channel c).run = .opened n) :
    s.failChannel c k pc cause e = s.onChannel c fun ch => { ch with run := .opened 0 } := by
  unfold State.failChannel
  rw [h]

end

/-! #### Opening and closing the off-band zone (R121, R122) -/

/-- The Heat and Glue Regulator is kept by what a block does outside its own records. -/
theorem Acts.heat (x : Hgr) : Acts fun s => s.hgr = x where
  log _ h := by simpa using h
  urgent _ h := by simpa using h
  routine _ h := by simpa using h
  hand _ _ h := h
  alter _ _ h := by simpa using h
  map _ h := h
  plan _ _ h := h

theorem insertDefect_hgr (s : State) (m : Mark) : (s.insertDefect m).1.hgr = s.hgr := (Acts.heat _).toMarked.insertDefect m rfl

/-- The OFFBAND mark that a channel asks for. -/
def State.offbandMark (s : State) (c : Nat) (pc : PointCfg) (cause : OffbandCause) (moved : Nat) : Mark :=
  openMark .offband .hgr (.offband c cause) ((pc.dist : Int) - moved - s.line.nums.gOff)
    { kind := .offband, owner := c, pinned := (pc.dist : Int) + s.line.nums.gOff }

/-- A NOTICE joins a routine queue with room. -/
theorem notify_joins {s : State} (n : Notice) (room : s.rif.routine.length < 48) : .notice n ∈ (s.notify n).rif.routine := by
  rw [notify_eq, if_pos room]
  exact List.mem_append_right _ List.mem_cons_self

section
variable (s : State) (c : Nat) (k : ChannelCfg) (pc : PointCfg) (cause : OffbandCause) (moved : Nat) (e : BandEntry)

theorem openOffband_hgr :
    (s.openOffband c k pc cause moved e).hgr = (s.onChannel c fun ch => { ch with run := .opened 0 }).hgr := by
  simp only [State.openOffband, State.notify_hgr, State.onChannel, State.onHgr_hgr, insertDefect_hgr]

theorem openOffband_wmp :
    (s.openOffband c k pc cause moved e).wmp = (s.insertDefect (s.offbandMark c pc cause moved)).1.wmp := by
  simp only [State.openOffband, State.notify_wmp]
  rfl

variable {s}

/-- With room on the map and no claim of the channel there, the mark is placed under the next number. -/
theorem openOffband_marks (room : defectCount s.wmp.marks < 32) (fresh : ∀ m ∈ s.wmp.marks, m.holdsClaim .offband c = false) :
    { s.offbandMark c pc cause moved with seq := s.wmp.nextSeq } ∈ (s.openOffband c k pc cause moved e).wmp.marks := by
  have unheld : s.holdsNew (s.offbandMark c pc cause moved) = false := by
    refine holdsNew_false fun x hx => ?_
    rw [List.mem_singleton.1 hx]
    exact fresh
  rw [openOffband_wmp, insertDefect_placed _ _ unheld room]
  exact (place_perm _ _).mem_iff.2 List.mem_cons_self

theorem openOffband_notices (room : s.rif.routine.length < 48) :
    .notice (.offbandOpened c k.point cause (s.channel c).value e.setpoint e.tolerance)
      ∈ (s.openOffband c k pc cause moved e).rif.routine := by
  have routine : (s.insertDefect (s.offbandMark c pc cause moved)).1.rif.routine = s.rif.routine :=
    (Marked.routine _).insertDefect _ rfl
  exact notify_joins _ (by rw [← routine] at room; exact room)

/-- The zone opens: the run state, the mark and the notice. -/
theorem openOffband_opens {k : ChannelCfg} (hk : (s.channel c).cfg = some k) :
    let t := s.openOffband c k pc cause moved e
    (t.channel c).run = .opened 0
      ∧ (defectCount s.wmp.marks < 32 → (∀ m ∈ s.wmp.marks, m.holdsClaim .offband c = false) →
          ∃ m ∈ t.wmp.marks, m.kind = .offband ∧ m.seq = s.wmp.nextSeq ∧ m.start = (pc.dist : Int) - moved - s.line.nums.gOff
            ∧ m.claims = [{ kind := .offband, owner := c, pinned := (pc.dist : Int) + s.line.nums.gOff }] ∧ m.lenient = true
            ∧ m.payload = .offband c cause)
      ∧ (s.rif.routine.length < 48 →
          .notice (.offbandOpened c k.point cause (s.channel c).value e.setpoint e.tolerance) ∈ t.rif.routine) := by
  refine ⟨?_, fun room fresh => ⟨_, openOffband_marks c k pc cause moved e room fresh, rfl, rfl, rfl, rfl, rfl, rfl⟩,
    openOffband_notices c k pc cause moved e⟩
  have channel := channel_onChannel s c c fun ch => { ch with run := .opened 0 }
  rw [if_pos ⟨rfl, channel_lt hk⟩] at channel
  rw [State.channel, openOffband_hgr]
  exact congrArg Channel.run channel

/-- The zone closes: the run state, the claim and the notice. -/
theorem closeOffband_closes {p : Nat} {k : ChannelCfg} (hk : (s.channel c).cfg = some k) (d : Nat) :
    ((s.closeOffband c p d).channel c).run = .clear
      ∧ (∀ m ∈ (s.closeOffband c p d).wmp.marks, m.holdsClaim .offband c = false)
      ∧ (s.rif.routine.length < 48 → .notice (.offbandClosed c p) ∈ (s.closeOffband c p d).rif.routine) := by
  refine ⟨?_, fun m hm => ?_, fun room => ?_⟩
  · rw [closeOffband_channel, if_pos ⟨rfl, channel_lt hk⟩]
  · rw [State.closeOffband, State.notify_wmp] at hm
    exact closeClaim_gone s .offband c _ m hm
  · rw [closeOffband_rif c p d room]
    exact List.mem_append_right _ List.mem_cons_self

end

/-! #### The scan (R119) -/

theorem closeOffband_hgr (s : State) (c p d : Nat) :
    (s.closeOffband c p d).hgr = (s.onChannel c fun ch => { ch with run := .clear }).hgr := by
  simp only [State.closeOffband, State.notify_hgr]
  rfl

/-- In the Heat and Glue Regulator nothing, or the run state of a channel alone, has changed. -/
def State.RunMoved (s t : State) (c : Nat) : Prop :=
  t.hgr = s.hgr ∨ ∃ r, t.hgr = (s.onChannel c fun ch => { ch with run := r }).hgr

theorem passChannel_moves (s : State) (c : Nat) (k : ChannelCfg) (pc : PointCfg) : s.RunMoved (s.passChannel c k pc) c := by
  cases run : (s.channel c).run with
  | clear => exact .inl (by rw [passChannel_clear run])
  | suspect n m => exact .inr ⟨_, by rw [passChannel_suspect run]⟩
  | opened n =>
    rw [passChannel_opened run]
    split
    · exact .inr ⟨_, closeOffband_hgr ..⟩
    · exact .inr ⟨_, rfl⟩

theorem failChannel_moves (s : State) (c : Nat) (k : ChannelCfg) (pc : PointCfg) (cause : OffbandCause) (e : BandEntry) :
    s.RunMoved (s.failChannel c k pc cause e) c := by
  cases run : (s.channel c).run with
  | clear =>
    rw [failChannel_clear run]
    split
    · exact .inr ⟨_, openOffband_hgr ..⟩
    · exact .inr ⟨_, rfl⟩
  | suspect n m =>
    rw [failChannel_suspect run]
    split
    · exact .inr ⟨_, openOffband_hgr ..⟩
    · exact .inr ⟨_, rfl⟩
  | opened n => exact .inr ⟨_, by rw [failChannel_opened run]⟩

theorem evaluate_moves (s : State) (c : Nat) : s.RunMoved (s.evaluate c) c := by
  cases hk : (s.channel c).cfg with
  | none => exact .inl (by rw [evaluate_unconfigured hk])
  | some k =>
    by_cases idle : (s.point k.point).cfg = none ∨ s.columnOf (s.point k.point) = none
    · exact .inl (by rw [evaluate_passedOver hk idle])
    · obtain ⟨configured, column⟩ := not_or.1 idle
      obtain ⟨pc, hp⟩ := Option.ne_none_iff_exists'.1 configured
      obtain ⟨col, hcol⟩ := Option.ne_none_iff_exists'.1 column
      have evaluates : s.Evaluates c k pc (columnEntry col s.wtr.band) := ⟨hk, hp, by rw [State.entryOf, hcol]; rfl⟩
      cases judged : (s.channel c).judge (s.channelHears c) (columnEntry col s.wtr.band) with
      | pass => rw [evaluate_passes evaluates judged]; exact passChannel_moves ..
      | fail cause => rw [evaluate_fails evaluates judged]; exact failChannel_moves ..

theorem scan_moves {s : State} {c : Nat} (h : s.hgr.scan[s.hgr.position]? = some c) :
    s.scan = (s.evaluate c).onHgr fun h =>
      { h with position := if s.hgr.position + 1 < s.hgr.scan.length then s.hgr.position + 1 else 0 } := by
  have kept : (s.evaluate c).hgr.scan = s.hgr.scan ∧ (s.evaluate c).hgr.position = s.hgr.position := by
    rcases evaluate_moves s c with e | ⟨r, e⟩ <;> rw [e] <;> exact ⟨rfl, rfl⟩
  unfold State.scan
  rw [h]
  simp only [State.onHgr, kept]

/-- A change that comes at a threshold, and another below it. -/
theorem ite_of_eq {t a b : State} {p q : Prop} [Decidable p] (h : t = if p then a else b) (reached : t = a → q) :
    if p then q else t = b := by
  split
  · rename_i hp
    exact reached (h.trans (if_pos hp))
  · rename_i hp
    exact h.trans (if_neg hp)

/-- Settles O46: the timers and readings as they are written, a SETPOINT and a boundary by what they send and close, and the
evaluation by its judgement and the channel's run state. -/
theorem settleEndClearsTheTimer : Obligations.SettleEndClearsTheTimer := by
  refine ⟨fun s c => ?_, fun s p => ⟨sendSetpoint_none, fun c hc graded => ?_⟩, fun s p c hc => ⟨rfl, fun o => ?_⟩,
    fun s c raw l => ⟨rfl, rfl⟩, fun s n l => rfl, fun s c => scan_moves, fun s c => ⟨evaluate_unconfigured, fun k hk => ?_⟩⟩
  · have set := modify_eq_set s.hgr.channels c fun ch => { ch with settle := 0 }
    exact congrArg (fun v => Host.Outcome.next { s with hgr := { s.hgr with channels := v } }) set
  · obtain ⟨point, others, channel⟩ := sendSetpoint_tables hc graded
    have sends := sendSetpoint_sends hc graded
    refine ⟨point, others, channel, ?_, (sendSetpoint_sent s p).grades, ?_, ?_⟩
    · rw [sends]
      rfl
    · rw [sends, State.onHgr_hgr, State.queueRoutine_hgr]
      rfl
    · rw [sends, State.onHgr_hgr, State.queueRoutine_hgr]
      rfl
  · refine ⟨crossPoint_same, fun other => ?_⟩
    obtain ⟨grade, cfg⟩ := crossPoint_point hc other
    refine ⟨grade, cfg, fun present => ?_, fun idle j => crossPoint_shuts hc other idle⟩
    have column := Option.isSome_iff_ne_none.1 present
    exact (crossPoint_regrades hc other).trans (if_neg column)
  · refine ⟨evaluate_passedOver hk, fun pc col hp hcol => ?_⟩
    have evaluates : s.Evaluates c k pc (columnEntry col s.wtr.band) := ⟨hk, hp, by rw [State.entryOf, hcol]; rfl⟩
    refine ⟨fun ⟨live, raw, reading, within⟩ => ?_, fun cause failed => ?_⟩
    · have judged := (judge_valid (columnEntry col s.wtr.band) live hk reading).trans (if_pos within)
      have passes := evaluate_passes evaluates judged
      refine ⟨fun run => passes.trans (passChannel_clear run), fun n m run => passes.trans (passChannel_suspect run),
        fun n run => ite_of_eq (passes.trans (passChannel_opened run)) fun closed => ?_⟩
      rw [closed]
      exact closeOffband_closes c hk pc.dist
    · have judged : (s.channel c).judge (s.channelHears c) (columnEntry col s.wtr.band) = .fail cause := by
        cases cause with
        | stale => exact judge_stale _ failed
        | deviation =>
          obtain ⟨live, raw, reading, outside⟩ := failed
          exact (judge_valid _ live hk reading).trans (if_neg outside)
      have fails := evaluate_fails evaluates judged
      refine ⟨fun run => ite_of_eq (fails.trans (failChannel_clear run)) fun opened => ?_,
        fun n m run => ite_of_eq (fails.trans (failChannel_suspect run)) fun opened => ?_,
        fun n run => fails.trans (failChannel_opened run)⟩
      · rw [opened]
        exact openOffband_opens c pc cause 0 _ hk
      · rw [opened]
        exact openOffband_opens c pc cause m _ hk

end Sys2Proof.Machine
end

section
namespace Sys2Proof.Machine

/-! ### The Production Log (R156, R157) -/

section
variable {s : State} (b : LogBody)

/-- The record that is made of a body now. -/
def State.recordOf (s : State) (b : LogBody) : LogRecord := { number := s.plg.counter, stamp := s.stamp, body := b }

theorem log_room (room : s.plg.records.length < 512) :
    s.log b = { s with plg := { s.plg with
      records := s.plg.records ++ [s.recordOf b], counter := (s.plg.counter + 1) % 65536 } } := if_pos room

theorem log_wraps (full : 512 ≤ s.plg.records.length) (wrap : s.plg.mode = .wrap) :
    s.log b = { s with plg := { s.plg with
      records := s.plg.records.drop 1 ++ [s.recordOf b], counter := (s.plg.counter + 1) % 65536 } } := by
  rw [State.log, if_neg (Nat.not_lt.2 full), wrap]
  rfl

theorem log_halts (full : 512 ≤ s.plg.records.length) (halt : s.plg.mode = .halt) :
    s.log b = { s with plg := { s.plg with full := true } } := by
  rw [State.log, if_neg (Nat.not_lt.2 full), halt]
  rfl

end

/-- Settles O59: a record finds room, or the mode says what becomes of it. -/
theorem logKeepsTheNewestOrTheOldest : Obligations.LogKeepsTheNewestOrTheOldest :=
  fun _ b => ⟨log_room b, log_wraps b, log_halts b, log_ok b⟩

/-! ### LOG_MODE (R159) -/

/-- A granted request whose owner hands no fault is its owner's part and the reply cut to its space. -/
theorem exec_granted_calm {s : State} {q : Asker} {r : Request} {t : State} {x : Reply} (h : s.Grants q r)
    (ho : owned q r (s.asked q) = (t, x)) (handed : t.handed = []) :
    exec (carrying q r) s = .next (t.withReply (x.cut q.space)) := by
  rw [exec_granted h, ho, takeFaults_nothing handed]

/-- Settles O29: a mode outside the two is refused by the owner, and one of the two is set. -/
theorem logModeSetsModeAndEmpties : Obligations.LogModeSetsModeAndEmpties := by
  intro s q mode empty handed grants
  refine ⟨?_, ?_⟩
  · rintro rfl
    exact exec_granted_plain grants rfl handed rfl
  · rintro m rfl
    have removed : (if empty then (s.plg.records.length : Int) else 0)
        = ((if empty then s.plg.records.length else 0 : Nat) : Int) := by cases empty <;> rfl
    rw [removed]
    exact exec_granted_calm grants rfl handed

/-! ### READ_LOG (R158) -/

/-- The oldest k records as reply data. -/
def Plg.oldest (p : Plg) (k : Nat) : List Datum := (p.records.take k).map Datum.record

/-- The log once a read has taken its k oldest records. -/
def Plg.taken (p : Plg) (k : Nat) : Plg :=
  { p with records := p.records.drop k, full := if k = 0 then p.full else false }

/-- The fields that a read's reply gives behind the records. -/
def Plg.head (p : Plg) : Datum := .logHead p.mode p.full p.records.length

/-- The reply to a read of a log that was to return m records and has returned k. -/
def Plg.readReply (p : Plg) (space k m : Nat) : Reply where
  code := if k < m then .truncated else .ok
  index := 0
  detail := 0
  data := p.oldest k ++ fitData (dataRoom space - ((p.oldest k).map datumLength).sum) [(p.taken k).head]

section
variable {p : Plg} {k m : Nat}

theorem oldest_length (h : k ≤ p.records.length) : (p.oldest k).length = k := by simp [Plg.oldest, h]

theorem oldest_take (h : k ≤ m) : (p.oldest m).take k = p.oldest k := by
  rw [Plg.oldest, ← List.map_take, List.take_take, Nat.min_eq_left h]
  rfl

theorem oldest_min : p.oldest (min m p.records.length) = p.oldest m := by
  rw [Plg.oldest, Plg.oldest, ← List.take_take, List.take_length]

/-- A reply whose records leave the room is not cut. -/
theorem readReply_cut {space : Nat} (h : ((p.oldest k).map datumLength).sum ≤ dataRoom space) :
    (p.readReply space k m).cut space = p.readReply space k m := by
  refine cut_fitting ?_
  simp only [Plg.readReply, fitData_one, List.map_append, List.sum_append]
  split
  · simp only [List.map_cons, List.map_nil, List.sum_cons, List.sum_nil]
    omega
  · simpa using h

end

section
variable {s : State} {space n : Nat}

theorem readLog_badCount (h : n = 0 ∨ 8 < n) : s.readLog space n = (s, badField 1 0) :=
  if_pos (by simp only [Bool.not_eq_true', Bool.and_eq_false_iff, decide_eq_false_iff_not]; omega)

theorem countInRange (low : 1 ≤ n) (high : n ≤ 8) : ¬(!(decide (1 ≤ n) && decide (n ≤ 8))) = true := by simp [low, high]

theorem readLog_empty (low : 1 ≤ n) (high : n ≤ 8) (empty : s.plg.records = []) :
    s.readLog space n = (s, bare .empty) := by
  rw [State.readLog, if_neg (countInRange low high), empty]
  rfl

/-- A read takes the k oldest records, those of the ones asked for that fit. -/
theorem readLog_takes {k : Nat} (low : 1 ≤ n) (high : n ≤ 8) (nonempty : s.plg.records ≠ [])
    (le : k ≤ min n s.plg.records.length)
    (fits : fitData (dataRoom space - datumLength (.logHead s.plg.mode false 0)) (s.plg.oldest n) = s.plg.oldest k) :
    s.readLog space n = (s.onPlg fun p => p.taken k, s.plg.readReply space k (min n s.plg.records.length)) := by
  have length : (s.plg.oldest k).length = k := oldest_length (le.trans (Nat.min_le_right _ _))
  have nothing : (s.plg.oldest k).isEmpty = true ↔ k = 0 := by
    rw [List.isEmpty_iff, ← List.length_eq_zero_iff, length]
  unfold Plg.oldest at fits length nothing
  rw [State.readLog, if_neg (countInRange low high), if_neg (by simpa using nonempty)]
  simp only [fits, length, nothing, List.length_take]
  rfl

end

theorem oldest_size (p : Plg) (k : Nat) :
    ((p.oldest k).map datumLength).sum = ((p.records.take k).map fun r => datumLength (.record r)).sum := by
  rw [Plg.oldest, List.map_map]
  rfl

/-- Settles O28: of the records asked for a front fits into the reply space, and that front leaves the log. -/
theorem readLogRemovesWhatItReturns : Obligations.ReadLogRemovesWhatItReturns := by
  intro s q n handed grants
  refine ⟨fun bad => ?_, fun low high empty => ?_, fun low high nonempty => ?_⟩
  · exact exec_granted_plain (r := .readLog n) grants (readLog_badCount bad) handed rfl
  · exact exec_granted_plain (r := .readLog n) grants (readLog_empty low high empty) handed rfl
  · intro held size room
    obtain ⟨k, le, front, fits, next⟩ := fitData_take room (s.plg.oldest n)
    rw [← oldest_min, oldest_length (Nat.min_le_right _ _)] at le next
    rw [oldest_min] at next
    have shown := oldest_take (p := s.plg) (le.trans (Nat.min_le_left _ _))
    rw [shown] at front fits
    have reply := readLog_takes (s := s.asked q) (space := q.space) low high nonempty le front
    have uncut := readReply_cut (p := s.plg) (m := min n held.length) (fits.trans (Nat.sub_le _ _))
    rw [oldest_size] at fits
    refine ⟨k, s.plg.readReply q.space k (min n held.length), le, fits, fun more => ?_, ?_, rfl, rfl, rfl, ?_⟩
    · have := next more
      rwa [oldest_take (Nat.lt_of_lt_of_le more (Nat.min_le_left _ _)), oldest_size] at this
    · refine (exec_granted_calm (r := .readLog n) grants reply handed).trans ?_
      rw [show (s.asked q).plg = s.plg from rfl, uncut]
      rfl
    · simp only [Plg.readReply, fitData_one, oldest_size, Plg.head, Plg.taken, List.length_drop]
      rfl

end Sys2Proof.Machine
end

section
namespace Sys2Proof.Machine

/-! ### What set-downs leave alone (R148 to R154) -/

/-- The blocks that the Stacker Link's work on its set-downs does not touch, with the piles. -/
def State.besideSetDowns (s : State) : Osq × Knp × Wmp × Chg × Spl × Hgr × Lsc × Irt × LineConsts × Vector Pile 64 :=
  (s.osq, s.knp, s.wmp, s.chg, s.spl, s.hgr, s.lsc, s.irt, s.line, s.stk.piles)

theorem besideSetDowns_same {s t : State} (h : t.besideSetDowns = s.besideSetDowns) :
    t.osq = s.osq ∧ t.knp = s.knp ∧ t.wmp = s.wmp ∧ t.chg = s.chg ∧ t.spl = s.spl ∧ t.hgr = s.hgr ∧ t.lsc = s.lsc
      ∧ t.irt = s.irt ∧ t.line = s.line ∧ t.stk.piles = s.stk.piles := by simpa [State.besideSetDowns] using h

@[simp] theorem queueRoutine_besideSetDowns (s : State) (o : OutItem) :
    (s.queueRoutine o).besideSetDowns = s.besideSetDowns := by simp [State.besideSetDowns]

@[simp] theorem notify_besideSetDowns (s : State) (n : Notice) : (s.notify n).besideSetDowns = s.besideSetDowns :=
  queueRoutine_besideSetDowns _ _

@[simp] theorem alter_besideSetDowns (s : State) (d : List (Reason × Nat)) (r : List Raised) :
    (s.alter d r).besideSetDowns = s.besideSetDowns := by simp [State.besideSetDowns]

theorem onStk_besideSetDowns (s : State) {f : Stk → Stk} (h : (f s.stk).piles = s.stk.piles) :
    (s.onStk f).besideSetDowns = s.besideSetDowns := by simp [State.besideSetDowns, h]

theorem examineSetDown_besideSetDowns (s : State) : s.examineSetDown.besideSetDowns = s.besideSetDowns := by
  unfold State.examineSetDown
  split
  · rfl
  · refine ite_keeps (P := fun t => t.besideSetDowns = s.besideSetDowns) (fun _ => ?_) fun _ => rfl
    exact (onStk_besideSetDowns _ rfl).trans (queueRoutine_besideSetDowns _ _)

theorem placeSetDown_besideSetDowns (s : State) (d : SetDown) : (s.placeSetDown d).besideSetDowns = s.besideSetDowns := by
  unfold State.placeSetDown
  split
  · exact (examineSetDown_besideSetDowns _).trans (onStk_besideSetDowns s rfl)
  · exact onStk_besideSetDowns s rfl
  · refine ite_keeps (P := fun t => t.besideSetDowns = s.besideSetDowns) (fun _ => ?_) fun _ => ?_
    · exact (alter_besideSetDowns _ _ _).trans (onStk_besideSetDowns s rfl)
    · exact notify_besideSetDowns _ _

/-! ### A STACK_COMMAND (R153) -/

/-- An item that replaces none joins the routine queue while there is room. -/
theorem queueRoutine_joins {s : State} {o : OutItem} (new : ∀ x, replaces o x = false) (room : s.rif.routine.length < 48) :
    s.queueRoutine o = s.onRif fun r => { r with routine := r.routine ++ [o] } := by
  rw [State.queueRoutine, if_neg (by simp [new]), if_neg (by cases s.rif.overflow <;> simp [new]), if_pos room]

/-- The number that follows a command number. -/
def nextCommand (n : Nat) : Nat := if n = 255 then 1 else n + 1

/-- The Stacker Link with its head sent under the next number. -/
def Stk.sentNext (k : Stk) : Stk := { k with counter := nextCommand k.counter, head := .sent (nextCommand k.counter) 64 }

/-- The Stacker Link with its head sent again under a number. -/
def Stk.sentAgain (k : Stk) (command : Nat) : Stk := { k with head := .sent command 64 }

/-- A state with a new stacker record and items queued behind the others. -/
def State.stacked (s : State) (k : Stk) (l : List OutItem) : State :=
  { s with stk := k, rif := { s.rif with routine := s.rif.routine ++ l } }

theorem stacked_nil (s : State) (k : Stk) : s.stacked k [] = { s with stk := k } := by
  rw [State.stacked, List.append_nil]

section
variable {s : State} {d : SetDown} {rest : List SetDown}

theorem sendCommand_joins (n : Nat) (room : s.rif.routine.length < 48) :
    s.queueRoutine (s.stackCommand d n) = s.stacked s.stk [s.stackCommand d n] :=
  queueRoutine_joins (fun x => by cases x <;> rfl) room

theorem examineSetDown_sends (queue : s.stk.queue = d :: rest) (head : s.stk.head = .waiting) (ready : s.stk.state = .ready)
    (room : s.rif.routine.length < 48) :
    s.examineSetDown = s.stacked s.stk.sentNext [s.stackCommand d (nextCommand s.stk.counter)] := by
  have joined := sendCommand_joins (d := d) (nextCommand s.stk.counter) room
  unfold nextCommand at joined
  simp only [State.examineSetDown, queue, if_pos (And.intro head ready), joined]
  rfl

theorem examineSetDown_none (queue : s.stk.queue = []) : s.examineSetDown = s := by
  simp only [State.examineSetDown, queue]

theorem examineSetDown_waits (state : s.stk.state ≠ .ready) : s.examineSetDown = s := by
  unfold State.examineSetDown
  split
  · rfl
  · exact if_neg fun h => state h.2

theorem resendSetDown_again {command resend : Nat} (queue : s.stk.queue = d :: rest) (head : s.stk.head = .sent command resend)
    (room : s.rif.routine.length < 48) :
    s.resendSetDown = s.stacked (s.stk.sentAgain command) [s.stackCommand d command] := by
  simp only [State.resendSetDown, queue, head, sendCommand_joins _ room]
  rfl

theorem examineSetDown_queues (s : State) :
    s.examineSetDown.stk.queue = s.stk.queue ∧ s.examineSetDown.stk.overflow = s.stk.overflow := by
  unfold State.examineSetDown
  split
  · exact ⟨rfl, rfl⟩
  · exact ite_keeps (P := fun t => t.stk.queue = s.stk.queue ∧ t.stk.overflow = s.stk.overflow) (fun _ => by simp)
      fun _ => ⟨rfl, rfl⟩

theorem examineSetDown_wtr (s : State) : s.examineSetDown.wtr = s.wtr := by
  unfold State.examineSetDown
  split
  · rfl
  · exact ite_keeps (P := fun t => t.wtr = s.wtr) (fun _ => by simp) fun _ => rfl

/-! ### A set-down joins (R151) -/

theorem placeSetDown_joins (d : SetDown) (room : s.stk.queue.length ≤ 1) :
    (s.placeSetDown d).stk.queue = s.stk.queue ++ [d] ∧ (s.placeSetDown d).stk.overflow = s.stk.overflow := by
  unfold State.placeSetDown
  split
  · rename_i queue
    rw [queue]
    exact examineSetDown_queues _
  · rename_i queue
    rw [queue]
    exact ⟨rfl, rfl⟩
  · rename_i queue
    simp [queue] at room

theorem placeSetDown_full (d : SetDown) (full : 2 ≤ s.stk.queue.length) :
    s.placeSetDown d = if s.stk.overflow.isNone
      then (s.onStk fun k => { k with overflow := some d }).raise .stackerBehind 0 .limitLow
      else (s.hand .stackerOverrun (.two d.number (some d.ordinal))).notify (.stackLost d.number d.ordinal d.cuts) := by
  unfold State.placeSetDown
  split
  · rename_i queue
    simp [queue] at full
  · rename_i queue
    simp [queue] at full
  · rfl

theorem placeSetDown_overflows (d : SetDown) (full : 2 ≤ s.stk.queue.length) (free : s.stk.overflow = none) :
    (s.placeSetDown d).stk = { s.stk with overflow := some d } ∧ (s.placeSetDown d).holds .stackerBehind 0 = true := by
  rw [placeSetDown_full d full, if_pos (Option.isNone_iff_eq_none.2 free)]
  exact ⟨State.alter_stk .., raise_holds ..⟩

theorem placeSetDown_lost (d : SetDown) (full : 2 ≤ s.stk.queue.length) (taken : s.stk.overflow.isSome = true) :
    (s.placeSetDown d).stk = s.stk
      ∧ { code := .stackerOverrun, detail := .two d.number (some d.ordinal) : FaultReport } ∈ (s.placeSetDown d).handed := by
  rw [placeSetDown_full d full, if_neg (by simpa using Option.isSome_iff_ne_none.1 taken)]
  refine ⟨State.queueRoutine_stk .., ?_⟩
  rw [notify_handed]
  exact List.mem_append_right _ (List.mem_singleton_self _)

end

/-! ### A good cut counted (R149) -/

theorem pile_onPile (s : State) (i j : Nat) (f : Pile → Pile) :
    (s.onPile i f).pile j = if j = i ∧ i < 64 then f (s.pile i) else s.pile j := by
  simp only [State.pile, State.onPile, State.onStk, modify_getElem?]
  by_cases e : j = i
  · subst e
    by_cases hj : j < 64
    · simp [hj]
    · simp [hj]
  · simp [e]

theorem onPile_congr {s : State} {i : Nat} {f g : Pile → Pile} (h : f (s.pile i) = g (s.pile i)) :
    s.onPile i f = s.onPile i g := by
  have piles : modify s.stk.piles i f = modify s.stk.piles i g :=
    modify_congr _ _ fun x hx => by simpa [State.pile, hx] using h
  simp only [State.onPile, State.onStk, piles]

section
variable {s : State} {i : Nat} {r : OrderRec}

theorem countIntoStack_counts (order : (s.slot i).order = some r) (more : (s.pile i).count + 1 ≠ r.perStack) :
    s.countIntoStack i = s.onPile i fun _ => { count := (s.pile i).count + 1, next := (s.pile i).next } := by
  simp only [State.countIntoStack, order, if_neg more]
  exact onPile_congr rfl

/-- The state once a pile has gone. -/
def State.pileGone (s : State) (i : Nat) : State := s.onPile i fun p => { count := 0, next := p.next + 1 }

theorem countIntoStack_full (order : (s.slot i).order = some r) (full : (s.pile i).count + 1 = r.perStack) :
    s.countIntoStack i = (s.pileGone i).placeSetDown
      { slot := i, number := r.number, ordinal := (s.pile i).next, cuts := r.perStack, final := false } := by
  simp only [State.countIntoStack, order, if_pos full]
  rfl

end

/-- Settles O58: a full stack's pile goes, and its set-down finds a place in the queue, in the overflow, or none. -/
theorem fullStackMakesASetDown : Obligations.FullStackMakesASetDown := by
  intro s i r hi order p t d
  refine ⟨countIntoStack_counts order, fun full => ?_⟩
  have placed : t = (s.pileGone i).placeSetDown d := countIntoStack_full order full
  have beside : t.besideSetDowns = (s.pileGone i).besideSetDowns := placed ▸ placeSetDown_besideSetDowns _ _
  obtain ⟨osq, knp, wmp, chg, spl, hgr, lsc, irt, line, piles⟩ := besideSetDowns_same beside
  have pile (j : Nat) : t.pile j = (s.pileGone i).pile j := by rw [State.pile, piles]; rfl
  refine ⟨?_, fun j other => ?_, fun room => ?_, fun taken free => ?_, fun taken occupied => ?_,
    osq, knp, wmp, chg, spl, hgr, lsc, irt, line⟩
  · rw [pile, State.pileGone, pile_onPile, if_pos ⟨rfl, Nat.lt_succ_of_le hi⟩]
  · rw [pile, State.pileGone, pile_onPile, if_neg fun h => other h.1]
  · rw [placed]
    exact placeSetDown_joins (s := s.pileGone i) d room
  · obtain ⟨stk, behind⟩ := placeSetDown_overflows (s := s.pileGone i) d taken free
    rw [← placed] at stk behind
    rw [stk]
    exact ⟨rfl, rfl, behind⟩
  · obtain ⟨stk, overrun⟩ := placeSetDown_lost (s := s.pileGone i) d taken occupied
    rw [← placed] at stk overrun
    rw [stk]
    exact ⟨rfl, rfl, overrun⟩

end Sys2Proof.Machine
end

section
namespace Sys2Proof.Machine

/-! ### STACK_COMMAND_RESEND (R154) -/

section
variable {s : State} {d : SetDown} {rest : List SetDown}

theorem resendDue_again {command resend : Nat} (queue : s.stk.queue = d :: rest) (head : s.stk.head = .sent command resend)
    (ready : s.stk.state = .ready) (other : s.stk.tracked ≠ command) : s.resendDue = s.resendSetDown := by
  simp only [State.resendDue, queue, head, if_pos (And.intro ready other)]

theorem resendDue_none (h : s.stk.queue = [] ∨ (∀ command resend, s.stk.head ≠ .sent command resend)
    ∨ s.stk.state ≠ .ready ∨ ∃ resend, s.stk.head = .sent s.stk.tracked resend) : s.resendDue = s := by
  unfold State.resendDue
  split
  · rename_i command resend queue head
    refine if_neg fun ⟨ready, other⟩ => ?_
    rcases h with empty | notSent | notReady | ⟨resend', same⟩
    · exact List.cons_ne_nil _ _ (queue.symm.trans empty)
    · exact notSent _ _ head
    · exact notReady ready
    · rw [head, HeadState.sent.injEq] at same
      exact other same.1.symm
  · rfl

end

/-- With no fault handed, the resend count's end is over with what is due. -/
theorem exec_stackCommandResend {s t : State} (due : s.resendDue = t) (handed : t.handed = []) :
    exec .stackCommandResend s = .next t := by
  rw [← due] at handed ⊢
  exact congrArg _ (takeFaults_nothing handed)

/-! ### A STACK_STATE (R152, R154) -/

/-- An entry of the stacker into FAULT is noticed. -/
def State.faultNotice (s : State) (report : StackReport) (number : Nat) : List OutItem :=
  if report = .fault ∧ s.stk.state ≠ .fault then [.notice (.stackerFault number)] else []

/-- The Stacker Link with the stacker tracked as reported. -/
def Stk.heard (k : Stk) (report : StackReport) (number : Nat) : Stk :=
  { k with state := trackedStacker report, tracked := number }

/-- The state in which the head moves on. -/
def State.stackHeard (s : State) (report : StackReport) (number : Nat) : State :=
  s.stacked (s.stk.heard report number) (s.faultNotice report number)

theorem notify_joined {s : State} (m : Notice) (room : s.rif.routine.length < 48) :
    s.notify m = s.stacked s.stk [.notice m] := by
  rw [notify_eq, if_pos room]
  rfl

theorem stackEvent_eq {s : State} (n : Nat) (report : StackReport) (number : Nat) (room : s.rif.routine.length < 48) :
    s.stackEvent n report number = (s.stackHeard report number).moveHead n := by
  have entering : (report == .fault && s.stk.state != .fault) = true ↔ report = .fault ∧ s.stk.state ≠ .fault := by simp
  unfold State.stackEvent State.stackHeard State.faultNotice
  simp only [entering]
  split
  · rw [notify_joined (s := s.onStk _) _ room]
    rfl
  · rw [stacked_nil]
    rfl

theorem stackHeard_room {s : State} (report : StackReport) (number : Nat) :
    (s.stackHeard report number).rif.routine.length ≤ s.rif.routine.length + 1 := by
  have notices : (s.faultNotice report number).length ≤ 1 := by unfold State.faultNotice; split <;> simp
  simpa [State.stackHeard, State.stacked] using notices

/-! #### How the head moves (R153, R154) -/

section
variable {s : State} {d : SetDown} {rest : List SetDown} {n k count : Nat}

theorem moveHead_empty (queue : s.stk.queue = []) : s.moveHead n = s := by
  simp only [State.moveHead, queue]

theorem moveHead_waiting (queue : s.stk.queue = d :: rest) (head : s.stk.head = .waiting) :
    s.moveHead n = s.examineSetDown := by
  simp only [State.moveHead, queue, head]

theorem moveHead_setsDown (queue : s.stk.queue = d :: rest) (head : s.stk.head = .sent k count)
    (state : s.stk.state = .settingDown) :
    s.moveHead n = if s.stk.tracked = k then s.onStk fun x => { x with head := .setting k count } else s := by
  simp only [State.moveHead, queue, head, state]

theorem moveHead_behind (queue : s.stk.queue = d :: rest) (head : s.stk.head = .sent k count) (ready : s.stk.state = .ready)
    (other : s.stk.tracked ≠ k) :
    s.moveHead n = if count ≤ n + 1 then s.resendSetDown
      else s.onStk fun x => { x with head := .sent k (count - (n + 1)) } := by
  simp only [State.moveHead, queue, head, ready, if_neg other]

theorem moveHead_completes (queue : s.stk.queue = d :: rest) (head : s.stk.head = .sent k count ∨ s.stk.head = .setting k count)
    (ready : s.stk.state = .ready) (same : s.stk.tracked = k) : s.moveHead n = s.completeSetDown := by
  rcases head with head | head
  · simp only [State.moveHead, queue, head, ready, if_pos same]
  · simp only [State.moveHead, queue, head, ready, if_pos same]

theorem moveHead_sentStands (queue : s.stk.queue = d :: rest) (head : s.stk.head = .sent k count)
    (state : s.stk.state = .busy ∨ s.stk.state = .fault) : s.moveHead n = s := by
  rcases state with state | state
  · simp only [State.moveHead, queue, head, state]
  · simp only [State.moveHead, queue, head, state]

theorem moveHead_settingStands (queue : s.stk.queue = d :: rest) (head : s.stk.head = .setting k count)
    (unfinished : ¬(s.stk.state = .ready ∧ s.stk.tracked = k)) : s.moveHead n = s := by
  simp only [State.moveHead, queue, head]
  split
  · rename_i ready
    exact if_neg fun same => unfinished ⟨ready, same⟩
  all_goals rfl

/-! #### A complete set-down (R154) -/

/-- The Stacker Link with its head gone from before the rest. -/
def Stk.moved (k : Stk) (rest : List SetDown) : Stk :=
  { k with queue := rest ++ k.overflow.toList, overflow := none, head := .waiting }

/-- The state with the head gone from before the rest, and STACKER_BEHIND dropped where the overflow has moved up. -/
def State.setDownGone (s : State) (rest : List SetDown) : State :=
  if s.stk.overflow.isSome then (s.onStk fun k => k.moved rest).drop .stackerBehind 0 else s.onStk fun k => k.moved rest

/-- The notice of a final set-down. -/
def SetDown.finalNotice (d : SetDown) : List OutItem :=
  if d.final then [.notice (.stackFinal d.number d.ordinal d.cuts)] else []

theorem setDownGone_stk : (s.setDownGone rest).stk = s.stk.moved rest :=
  ite_keeps (P := fun t => t.stk = s.stk.moved rest) (fun _ => State.alter_stk ..) fun _ => rfl

theorem setDownGone_routine : (s.setDownGone rest).rif.routine = s.rif.routine :=
  ite_keeps (P := fun t => t.rif.routine = s.rif.routine) (fun _ => alter_routine ..) fun _ => rfl

theorem setDownGone_drops (moved : s.stk.overflow.isSome = true) : (s.setDownGone rest).holds .stackerBehind 0 = false := by
  rw [State.setDownGone, if_pos moved]
  exact drop_holds ..

theorem setDownGone_besideSetDowns : (s.setDownGone rest).besideSetDowns = s.besideSetDowns :=
  ite_keeps (P := fun t => t.besideSetDowns = s.besideSetDowns)
    (fun _ => (alter_besideSetDowns ..).trans (onStk_besideSetDowns s rfl)) fun _ => onStk_besideSetDowns s rfl

/-- The overflow as the model tests it: none is there, or it moves up behind the rest. -/
theorem completeSetDown_gone (queue : s.stk.queue = d :: rest) :
    s.completeSetDown = (if d.final then (s.setDownGone rest).notify (.stackFinal d.number d.ordinal d.cuts)
      else s.setDownGone rest).examineSetDown := by
  unfold State.completeSetDown
  rw [queue]
  cases overflow : s.stk.overflow with
  | none =>
    have gone : s.setDownGone rest = s.onStk fun k => { k with queue := rest, head := .waiting } := by
      simp [State.setDownGone, State.onStk, Stk.moved, overflow]
    rw [gone]
  | some x =>
    have gone : s.setDownGone rest
        = (s.onStk fun k => { k with queue := rest ++ [x], overflow := none, head := .waiting }).drop .stackerBehind 0 := by
      simp [State.setDownGone, State.onStk, Stk.moved, overflow]
    rw [gone]

/-- The state in which the next head is examined. -/
def State.setDownNoted (s : State) (d : SetDown) (rest : List SetDown) : State :=
  (s.setDownGone rest).stacked (s.stk.moved rest) d.finalNotice

theorem completeSetDown_eq (queue : s.stk.queue = d :: rest) (room : s.rif.routine.length < 48) :
    s.completeSetDown = (s.setDownNoted d rest).examineSetDown := by
  have joined := notify_joined (s := s.setDownGone rest) (.stackFinal d.number d.ordinal d.cuts)
    (setDownGone_routine.symm ▸ room)
  rw [completeSetDown_gone queue, joined, State.setDownNoted, SetDown.finalNotice, setDownGone_stk]
  split
  · rfl
  · rw [stacked_nil, ← setDownGone_stk]

theorem setDownNoted_routine : (s.setDownNoted d rest).rif.routine = s.rif.routine ++ d.finalNotice :=
  congrArg (· ++ d.finalNotice) setDownGone_routine

theorem setDownNoted_besideSetDowns : (s.setDownNoted d rest).besideSetDowns = s.besideSetDowns := by
  have gone := setDownGone_besideSetDowns (s := s) (rest := rest)
  simp only [State.besideSetDowns, setDownGone_stk] at gone ⊢
  exact gone

theorem finalNotice_length : d.finalNotice.length ≤ 1 := by unfold SetDown.finalNotice; split <;> simp

/-- What a complete set-down leaves: the next head is sent at once, behind the notice of a final one. -/
structure State.Completed (s : State) (d : SetDown) (rest : List SetDown) (t : State) : Prop where
  queue : t.stk.queue = rest ++ s.stk.overflow.toList
  overflow : t.stk.overflow = none
  sent : ∀ x l, rest ++ s.stk.overflow.toList = x :: l → t.stk.head = .sent (nextCommand s.stk.counter) 64
    ∧ t.stk.counter = nextCommand s.stk.counter
    ∧ t.rif.routine = s.rif.routine ++ d.finalNotice ++ [s.stackCommand x (nextCommand s.stk.counter)]
  emptied : rest ++ s.stk.overflow.toList = [] → t.stk.head = .waiting ∧ t.stk.counter = s.stk.counter
    ∧ t.rif.routine = s.rif.routine ++ d.finalNotice
  behind : s.stk.overflow.isSome = true → t.holds .stackerBehind 0 = false
  beside : t.besideSetDowns = s.besideSetDowns

theorem completeSetDown_completes (queue : s.stk.queue = d :: rest) (ready : s.stk.state = .ready)
    (room : s.rif.routine.length < 47) : s.Completed d rest s.completeSetDown := by
  have noted := setDownNoted_routine (s := s) (d := d) (rest := rest)
  have space : (s.setDownNoted d rest).rif.routine.length < 48 := by
    have := finalNotice_length (d := d)
    rw [noted, List.length_append]
    omega
  have irt : (s.setDownNoted d rest).irt = s.irt := by
    obtain ⟨-, -, -, -, -, -, -, irt, -, -⟩ := besideSetDowns_same (setDownNoted_besideSetDowns (s := s) (d := d) (rest := rest))
    exact irt
  rw [completeSetDown_eq queue (by omega)]
  have queues := examineSetDown_queues (s.setDownNoted d rest)
  refine ⟨queues.1, queues.2, fun x l next => ?_, fun nothing => ?_, fun moved => ?_, ?_⟩
  · rw [examineSetDown_sends (s := s.setDownNoted d rest) (d := x) (rest := l) next rfl ready space, ← noted]
    refine ⟨rfl, rfl, ?_⟩
    rw [State.stackCommand, State.stackCommand, State.stackerStation, State.stackerStation, ← irt]
    rfl
  · rw [examineSetDown_none nothing]
    exact ⟨rfl, rfl, noted⟩
  · rw [holds_eq, examineSetDown_wtr]
    exact setDownGone_drops moved
  · exact (examineSetDown_besideSetDowns _).trans setDownNoted_besideSetDowns

end

/-! #### The event -/

theorem stacked_self (s : State) : s.stacked s.stk [] = s := stacked_nil s s.stk

theorem stackHeard_ready (s : State) (number : Nat) :
    s.stackHeard .ready number = { s with stk := s.stk.heard .ready number } := stacked_nil s _

theorem trackedStacker_ready {report : StackReport} (h : trackedStacker report = .ready) : report = .ready := by
  cases report with
  | ready => rfl
  | settingDown => cases h
  | busy => cases h
  | fault => cases h

section
variable {s : State} {n number : Nat} {report : StackReport} {d : SetDown} {rest : List SetDown} {k count : Nat}

theorem stackEvent_stands (room : s.rif.routine.length < 48)
    (stands : (s.stackHeard report number).moveHead n = s.stackHeard report number) :
    s.stackEvent n report number = (s.stackHeard report number).stacked (s.stk.heard report number) [] := by
  rw [stackEvent_eq n report number room, stands]
  exact (stacked_self _).symm

theorem stackEvent_sends (room : s.rif.routine.length < 47) (queue : s.stk.queue = d :: rest) (head : s.stk.head = .waiting) :
    s.stackEvent n .ready number = (s.stackHeard .ready number).stacked (s.stk.heard .ready number).sentNext
      [s.stackCommand d (nextCommand s.stk.counter)] := by
  have few := stackHeard_room (s := s) .ready number
  rw [stackEvent_eq n .ready number (by omega), moveHead_waiting (s := s.stackHeard .ready number) queue head]
  exact examineSetDown_sends (s := s.stackHeard .ready number) queue head rfl (by omega)

theorem stackEvent_setsDown (room : s.rif.routine.length < 48) (queue : s.stk.queue = d :: rest)
    (head : s.stk.head = .sent k count) :
    s.stackEvent n .settingDown number = (s.stackHeard .settingDown number).stacked
      (if number = k then { s.stk.heard .settingDown number with head := .setting k count } else s.stk.heard .settingDown number)
      [] := by
  rw [stackEvent_eq n .settingDown number room, moveHead_setsDown (s := s.stackHeard .settingDown number) queue head rfl,
    stacked_nil]
  by_cases same : number = k
  · rw [if_pos same]
    exact if_pos same
  · rw [if_neg same]
    exact if_neg same

theorem stackEvent_behind (room : s.rif.routine.length < 47) (queue : s.stk.queue = d :: rest)
    (head : s.stk.head = .sent k count) (other : number ≠ k) :
    s.stackEvent n .ready number = if count ≤ n + 1
      then (s.stackHeard .ready number).stacked ((s.stk.heard .ready number).sentAgain k) [s.stackCommand d k]
      else (s.stackHeard .ready number).stacked { s.stk.heard .ready number with head := .sent k (count - (n + 1)) } [] := by
  have few := stackHeard_room (s := s) .ready number
  rw [stackEvent_eq n .ready number (by omega), moveHead_behind (s := s.stackHeard .ready number) queue head rfl other,
    resendSetDown_again (s := s.stackHeard .ready number) queue head (by omega), stacked_nil]
  rfl

theorem stackEvent_completes (room : s.rif.routine.length < 46) (queue : s.stk.queue = d :: rest)
    (head : s.stk.head = .sent k count ∨ s.stk.head = .setting k count) :
    ({ s with stk := s.stk.heard .ready k } : State).Completed d rest (s.stackEvent n .ready k) := by
  have few := stackHeard_room (s := s) .ready k
  rw [stackEvent_eq n .ready k (by omega), moveHead_completes (s := s.stackHeard .ready k) queue head rfl rfl,
    ← stackHeard_ready]
  exact completeSetDown_completes (s := s.stackHeard .ready k) queue rfl (by omega)

end

/-- Settles O45: the head moves as the table of R154 says, from the state in which the report is heard. -/
theorem stackCommandGoesAgain : Obligations.StackCommandGoesAgain := by
  refine ⟨fun s handed => ⟨fun d rest command resend queue head ready other room => ?_, fun h => ?_⟩,
    fun s n report number room => ?_⟩
  · have again := (resendDue_again queue head ready other).trans (resendSetDown_again queue head room)
    exact exec_stackCommandResend again handed
  · exact exec_stackCommandResend (resendDue_none h) handed
  intro command next heard faults left
  have stands (h : (s.stackHeard report number).moveHead n = s.stackHeard report number) : left heard [] :=
    stackEvent_stands (by omega) h
  refine ⟨fun queue => stands (moveHead_empty queue), fun d rest queue head => ⟨fun ready => ?_, fun notReady => ?_⟩,
    fun d rest k count queue head => ⟨fun setsDown => ?_, fun ready other => ?_, fun state => ?_⟩,
    fun d rest k count queue head unfinished => ?_, fun d rest k count queue head ready same => ?_⟩
  · subst ready
    exact stackEvent_sends (by omega) queue head
  · have waits := examineSetDown_waits (s := s.stackHeard report number) fun h => notReady (trackedStacker_ready h)
    exact stands ((moveHead_waiting (s := s.stackHeard report number) queue head).trans waits)
  · subst setsDown
    exact stackEvent_setsDown (by omega) queue head
  · subst ready
    exact ite_of_eq (stackEvent_behind (by omega) queue head other) id
  · refine stands (moveHead_sentStands (s := s.stackHeard report number) queue head ?_)
    exact state.imp (congrArg trackedStacker) (congrArg trackedStacker)
  · refine stands (moveHead_settingStands (s := s.stackHeard report number) queue head fun h => unfinished ?_)
    exact ⟨trackedStacker_ready h.1, h.2⟩
  · subst ready same
    intro t final
    have completed := stackEvent_completes (n := n) room queue head
    obtain ⟨osq, knp, wmp, chg, spl, hgr, lsc, irt, line, piles⟩ := besideSetDowns_same completed.beside
    exact ⟨completed.queue, completed.overflow, piles, completed.sent, completed.emptied, completed.behind,
      osq, knp, wmp, chg, spl, hgr, lsc, irt, line⟩

end Sys2Proof.Machine
end

section
namespace Sys2Proof.Machine

/-! ### The authority of a requester (R177) -/

theorem commissioning_eq (pins : BitVec 6) (n : Nat) :
    commissioning pins = some n ↔ pins ≠ 0 ∧ pins ≠ 63 ∧ pins.toNat = n := by
  have zero : pins = 0 ↔ pins.toNat = 0 := (BitVec.toNat_inj (y := 0)).symm
  have top : pins = 63 ↔ pins.toNat = 63 := (BitVec.toNat_inj (y := 63)).symm
  rw [Ne, Ne, zero, top]
  unfold commissioning
  split
  · exact iff_of_false nofun (by omega)
  · rw [Option.some.injEq]
    omega

section
variable {s : State} {pins : BitVec 6} {n : Nat}

theorem authority_commissioned (h : commissioning pins = some n) : s.authority pins n = .level 0 := if_pos h

/-- A station that neither the pins nor the table names. -/
theorem authority_unknown : s.authority pins n = .unknown ↔
    commissioning pins ≠ some n ∧ ∀ e, some e ∈ s.irt.stations.toList → e.code ≠ n := by
  unfold State.authority
  by_cases named : commissioning pins = some n
  · simp [named]
  · rw [if_neg named]
    cases found : (s.irt.stations.toList.filterMap id).find? fun e => e.code == n with
    | none =>
      have absent := List.find?_eq_none.1 found
      simp only [List.mem_filterMap, id_eq, exists_eq_right, beq_iff_eq] at absent
      exact iff_of_true rfl ⟨named, absent⟩
    | some e =>
      have entry : some e ∈ s.irt.stations.toList := by simpa using List.mem_of_find?_eq_some found
      have code : e.code = n := by simpa using List.find?_some found
      refine iff_of_false ?_ fun h => h.2 e entry code
      dsimp only
      split <;> nofun

/-- The first entry of the table with the station's code gives its authority. -/
theorem authority_listed {front back : List (Option StationEntry)} {e : StationEntry} (unnamed : commissioning pins ≠ some n)
    (table : s.irt.stations.toList = front ++ some e :: back) (first : ∀ x, some x ∈ front → x.code ≠ n)
    (code : e.code = n) :
    s.authority pins n = if e.role = .processStation then .noAuthority else .level e.level := by
  have passed : (front.filterMap id).find? (fun e => e.code == n) = none := by
    refine List.find?_eq_none.2 fun x hx => ?_
    simpa using first x (by simpa using hx)
  have found : (s.irt.stations.toList.filterMap id).find? (fun e => e.code == n) = some e := by
    rw [table, List.filterMap_append, List.find?_append, passed]
    simp [code]
  unfold State.authority
  rw [if_neg unnamed, found]

end

/-! ### The checks on a request in their order (R189) -/

section
variable {s : State} {q : Asker} {r : Request}

theorem checkRequest_unknown (h : s.authority q.comm q.requester = .unknown) :
    s.checkRequest q r = some (bare .unknownStation) := by
  rw [State.checkRequest, h]

theorem checkRequest_unauthorised (h : s.authority q.comm q.requester = .noAuthority
      ∨ ∃ n, s.authority q.comm q.requester = .level n ∧ minimumLevel r < n) :
    s.checkRequest q r = some (bare .notAuthorised) := by
  rcases h with h | ⟨n, h, low⟩
  · rw [State.checkRequest, h]
    rfl
  · simp [State.checkRequest, h, Authority.reaches, low]

theorem checkRequest_unavailable {n : Nat} (h : s.authority q.comm q.requester = .level n) (level : n ≤ minimumLevel r)
    (state : availableIn r s.lsc.state = false) :
    s.checkRequest q r
      = some { code := .badState, index := 0, detail := lineStateCode s.lsc.state, data := [] } := by
  simp [State.checkRequest, h, Authority.reaches, level, state]

end

/-- Settles O9: the authority by the pins and the table, and each check under what the ones before it leave. -/
theorem authorityComesBeforeState : Obligations.AuthorityComesBeforeState := by
  intro s q r
  have named := commissioning_eq q.comm q.requester
  refine ⟨?_, fun zero top code => authority_commissioned (named.2 ⟨zero, top, code⟩),
    fun front e back unnamed table first code => authority_listed (mt named.1 unnamed) table first code,
    checkRequest_unknown, fun h => checkRequest_unauthorised (.inl h),
    fun n h low => checkRequest_unauthorised (.inr ⟨n, h, low⟩), fun n => checkRequest_unavailable,
    fun n => checkRequest_reached⟩
  rw [authority_unknown, Ne, named]

/-! ### Ports and notices (R173, R186) -/

/-- A NOTICE joins the routine queue or is discarded, and nothing else changes. -/
theorem notify_appends (s : State) (n : Notice) : s.notify n = { s with rif := { s.rif with
    routine := s.rif.routine ++ (if s.rif.routine.length < 48 then [.notice n] else []) } } := by
  rw [notify_eq]
  split
  · rfl
  · rw [List.append_nil]

theorem linkChange_same {s : State} {p : RingPort} {up : Bool} (h : s.portUp p = up) : s.linkChange p up = s := if_pos h

/-- Settles O35: a state that stands changes nothing, and each port's new state is written and noticed. -/
theorem portLinkChangeIsNoticed : Obligations.PortLinkChangeIsNoticed := by
  refine fun s up => ⟨fun p same => congrArg _ (linkChange_same same), fun change => ?_, fun change => ?_⟩
  · have noticed : s.linkChange .a up = (s.onRif fun r => { r with portA := up }).notify _ := if_neg change
    exact congrArg _ (noticed.trans (notify_appends _ _))
  · have noticed : s.linkChange .b up = (s.onRif fun r => { r with portB := up }).notify _ := if_neg change
    exact congrArg _ (noticed.trans (notify_appends _ _))

/-! ### A repeated cycle telegram (R174) -/

/-- The ring UP is not lost, so LINE_STOP follows the request alone (R20). -/
theorem ringHeard_eq (s : State) : s.ringHeard = { s with
    rif := { s.rif with ring := .up, timer := some s.line.nums.ringTimeout },
    lineStop := decide (s.wtr.request = .stop) } := by
  have stop : (s.wtr.request == .stop || RingState.up == .lost) = decide (s.wtr.request = .stop) := Bool.or_false _
  rw [← stop]
  rfl

/-- Settles O37: the telegram is read, and its cycle number makes it a repeat. -/
theorem repeatPassesThrough : Obligations.RepeatPassesThrough := by
  intro s p x t c read cycle same
  obtain ⟨-, -, bytes, -⟩ := readTelegram_some read
  have arrives : s.cycleArrives p x = s.repeatCycle p t := by
    simp only [State.cycleArrives, State.takeCycle, read, cycle, same, if_true]
  refine ⟨congrArg _ (arrives.trans ?_), rfl⟩
  rw [State.repeatCycle, ringHeard_eq, bytes]
  rfl

end Sys2Proof.Machine
end

section
namespace Sys2Proof.Machine

/-! ### Items that replace one another (R186) -/

/-- The point or the station that an item is the newest of, for the items of which one waits. -/
def OutItem.place : OutItem → Option (Nat ⊕ Slitter)
  | .setpoint p .. => some (.inl p)
  | .slitterPreset st .. => some (.inr st)
  | _ => none

theorem replaces_iff (x y : OutItem) : replaces x y = true ↔ x.place ≠ none ∧ x.place = y.place := by
  cases x
  case setpoint => cases y <;> simp [replaces, OutItem.place]
  case slitterPreset => cases y <;> simp [replaces, OutItem.place]
  all_goals exact iff_of_false (by simp [replaces]) fun h => h.1 rfl

theorem replaces_comm (x y : OutItem) : replaces x y = replaces y x := by
  rw [Bool.eq_iff_iff, replaces_iff, replaces_iff]
  exact ⟨fun h => ⟨h.2 ▸ h.1, h.2.symm⟩, fun h => ⟨h.2 ▸ h.1, h.2.symm⟩⟩

/-- Of two items of one point or station each replaces what the other does. -/
theorem replaces_congr {o x : OutItem} (h : replaces o x = true) (y : OutItem) : replaces x y = replaces o y := by
  rw [Bool.eq_iff_iff, replaces_iff, replaces_iff, ((replaces_iff o x).1 h).2]

/-- A waiting item once a new one has been queued. -/
def OutItem.newest (o x : OutItem) : OutItem := if replaces o x then o else x

theorem newest_kept {o x : OutItem} (h : replaces o x = false) : o.newest x = x := if_neg (by simp [h])

theorem newest_oneEach {o x y : OutItem} (h : replaces x y = false) : replaces (o.newest x) (o.newest y) = false := by
  cases hx : replaces o x with
  | true =>
    have other : replaces o y = false := (replaces_congr hx y).symm.trans h
    rw [newest_kept other, OutItem.newest, if_pos hx, other]
  | false =>
    rw [newest_kept hx]
    unfold OutItem.newest
    split
    · rw [replaces_comm, hx]
    · exact h

/-- The queues once a newer item has taken the waiting one's place. -/
def Rif.renewed (r : Rif) (o : OutItem) : Rif :=
  { r with routine := r.routine.map o.newest, overflow := r.overflow.map o.newest }

theorem renewed_items (r : Rif) (o : OutItem) : (r.renewed o).routineItems = r.routineItems.map o.newest := by
  simp [Rif.renewed, Rif.routineItems, Option.toList_map]

section
variable {s : State} {o : OutItem}

/-- A newer item takes the waiting one's place, in the queue or in the overflow. -/
theorem queueRoutine_replaces (one : s.rif.OneEach) (waits : ∃ x ∈ s.rif.routineItems, replaces o x = true) :
    s.queueRoutine o = s.onRif fun r => r.renewed o := by
  obtain ⟨-, -, apart⟩ := List.pairwise_append.1 one
  unfold State.queueRoutine
  by_cases queued : s.rif.routine.any (replaces o) = true
  · obtain ⟨x, hx, replaced⟩ := List.any_eq_true.1 queued
    have overflow : s.rif.overflow.map o.newest = s.rif.overflow := by
      cases waiting : s.rif.overflow with
      | none => rfl
      | some w =>
        have other : replaces o w = false := (replaces_congr replaced w).symm.trans (apart x hx w (by simp [waiting]))
        rw [Option.map_some, newest_kept other]
    have renewed : s.rif.renewed o = { s.rif with routine := s.rif.routine.map o.newest } := by rw [Rif.renewed, overflow]
    rw [if_pos queued]
    exact congrArg (fun r => ({ s with rif := r } : State)) renewed.symm
  · have new : ∀ x ∈ s.rif.routine, replaces o x = false := by simpa using queued
    have routine : s.rif.routine.map o.newest = s.rif.routine :=
      (List.map_congr_left fun x hx => newest_kept (new x hx)).trans (List.map_id _)
    obtain ⟨w, hw, replaced⟩ := waits
    rcases List.mem_append.1 hw with hw | hw
    · simp [new w hw] at replaced
    have waiting : s.rif.overflow = some w := Option.mem_toList.1 hw
    have newest : o.newest w = o := if_pos replaced
    have renewed : s.rif.renewed o = { s.rif with overflow := some o } := by
      rw [Rif.renewed, routine, waiting, Option.map_some, newest]
    rw [if_neg queued, if_pos (by simp [waiting, replaced])]
    exact congrArg (fun r => ({ s with rif := r } : State)) renewed.symm

/-- An item that replaces none goes where there is a place for it. -/
theorem queueRoutine_new (new : ∀ x ∈ s.rif.routineItems, replaces o x = false) : s.queueRoutine o =
    if s.rif.routine.length < 48 then s.onRif fun r => { r with routine := r.routine ++ [o] }
    else if isNotice o then s
    else if s.rif.routine.any isNotice then s.onRif fun r => { r with routine := r.routine.eraseP isNotice ++ [o] }
    else if s.rif.overflow.isNone then s.onRif fun r => { r with overflow := some o }
    else s.hand .outboundJam (.one 1) := by
  have routine : ¬s.rif.routine.any (replaces o) = true := by
    simpa using fun x hx => new x (List.mem_append_left _ hx)
  have overflow : ¬s.rif.overflow.any (replaces o) = true := by
    rintro h
    obtain ⟨w, waiting, replaced⟩ := (Option.any_eq_true ..).1 h
    rw [new w (List.mem_append_right _ (Option.mem_toList.2 waiting))] at replaced
    cases replaced
  rw [State.queueRoutine, if_neg routine, if_neg overflow]

end

/-- An item that replaces none joins others that wait. -/
theorem Rif.OneEach.joined {r t : Rif} {o : OutItem} {l : List OutItem} (one : r.OneEach)
    (new : ∀ x ∈ r.routineItems, replaces o x = false) (kept : l.Sublist r.routineItems)
    (items : t.routineItems.Perm (o :: l)) : t.OneEach := by
  have pairwise : (o :: l).Pairwise fun x y => replaces x y = false :=
    List.pairwise_cons.2 ⟨fun x hx => new x (kept.subset hx), one.sublist kept⟩
  exact (items.pairwise_iff fun h => (replaces_comm _ _).trans h).2 pairwise

theorem queueRoutine_oneEach {s : State} (o : OutItem) (one : s.rif.OneEach) : (s.queueRoutine o).rif.OneEach := by
  by_cases waits : ∃ x ∈ s.rif.routineItems, replaces o x = true
  · rw [queueRoutine_replaces one waits]
    unfold Rif.OneEach
    rw [State.onRif_rif, renewed_items]
    exact List.Pairwise.map _ (fun _ _ => newest_oneEach) one
  have new : ∀ x ∈ s.rif.routineItems, replaces o x = false := by simpa using waits
  have joins (l : List OutItem) : (l ++ [o] ++ s.rif.overflow.toList).Perm (o :: (l ++ s.rif.overflow.toList)) := by
    simp [List.perm_middle]
  rw [queueRoutine_new new]
  split
  · exact one.joined new (List.Sublist.refl _) (joins _)
  split
  · exact one
  split
  · exact one.joined new (List.eraseP_sublist.append_right _) (joins _)
  split
  · exact one.joined new (List.sublist_append_left s.rif.routine _) List.perm_append_comm
  · exact one

/-- Settles O60: the newer item is written over the waiting one wherever that stands, and another finds its place by the table
of R186. -/
theorem newestSetpointReplacesTheWaitingOne : Obligations.NewestSetpointReplacesTheWaitingOne := by
  intro s o one
  refine ⟨queueRoutine_oneEach o one, fun waits => ?_, fun new room => ?_, fun new notice full => ?_, fun new item full => ?_⟩
  · rw [queueRoutine_replaces one waits]
    exact ⟨renewed_items s.rif o, List.length_map _, rfl, rfl⟩
  · rw [queueRoutine_new new, if_pos room]
    rfl
  · rw [queueRoutine_new new, if_neg (Nat.not_lt.2 full), if_pos notice]
  · rw [queueRoutine_new new, if_neg (Nat.not_lt.2 full), if_neg (by simp [item])]
    refine ⟨fun notices => if_pos notices, fun none free => ?_, fun none taken => ?_⟩
    · rw [if_neg (by simp [none]), if_pos (by simp [free])]
      rfl
    · rw [if_neg (by simp [none]), if_neg (by simpa [← Option.isSome_iff_ne_none] using taken)]
      rfl

end Sys2Proof.Machine
end

section
namespace Sys2Proof.Machine

/-- No other entry of a table satisfies a test. -/
theorem othersAny_none {α : Type} {n i : Nat} {v : Vector α n} {test : α → Bool}
    (h : ∀ j x, j ≠ i → v[j]? = some x → test x = false) : othersAny v.toList i test = false := by
  refine List.any_eq_false.2 fun ⟨x, j⟩ hx taken => ?_
  have entry : v[j]? = some x := by simpa using List.mem_zipIdx_iff_getElem?.1 hx
  simp only [Bool.and_eq_true, bne_iff_ne] at taken
  simp [h j x taken.1 entry] at taken

/-! ### LOAD_STATION (R176) -/

/-- The contents of a LOAD_STATION, of a role, pass the checks of R176 but for those against the other entries. -/
structure StationFieldsOk (c : StationFields) (role : Role) : Prop where
  named : c.role = some role
  code : 1 ≤ c.code ∧ c.code ≤ 62
  level : c.level ≤ 2
  rank : ∀ n, roleLevel role = some n → c.level = n

section
variable {s : State} {a : StationArgs}

theorem loadStation_empties (entry : a.entry ≤ 31) (h : a.contents = none) :
    s.loadStation a = (s.onIrt fun r => { r with stations := put r.stations a.entry none }, bare .ok) := by
  rw [State.loadStation, if_neg (Nat.not_lt.2 entry), h]

theorem loadStation_fills {c : StationFields} {role : Role} (entry : a.entry ≤ 31) (h : a.contents = some c)
    (ok : StationFieldsOk c role)
    (alone : ∀ j e, j ≠ a.entry → s.irt.stations[j]? = some (some e) →
      e.code ≠ c.code ∧ (role = .own ∨ role = .lineMaster → e.role ≠ role)) :
    s.loadStation a = (s.onIrt fun r =>
      { r with stations := put r.stations a.entry (some { code := c.code, role := role, level := c.level }) }, bare .ok) := by
  have others {test : StationEntry → Bool}
      (free : ∀ j e, j ≠ a.entry → s.irt.stations[j]? = some (some e) → test e = false) :
      othersAny s.irt.stations.toList a.entry (fun e => e.any test) = false :=
    othersAny_none fun j e other he => by
      cases e with
      | none => rfl
      | some e => exact free j e other he
  have code : othersAny s.irt.stations.toList a.entry (fun e => e.any fun e => e.code == c.code) = false :=
    others fun j e other he => beq_eq_false_iff_ne.2 (alone j e other he).1
  have single : ¬((role == .own || role == .lineMaster)
      && othersAny s.irt.stations.toList a.entry fun e => e.any fun e => e.role == role) = true := by
    rw [Bool.and_eq_true]
    rintro ⟨one, taken⟩
    have one : role = .own ∨ role = .lineMaster := by simpa using one
    rw [others fun j e other he => beq_eq_false_iff_ne.2 ((alone j e other he).2 one)] at taken
    cases taken
  have rank : (roleLevel role).any (· != c.level) = false := by
    cases h : roleLevel role with
    | none => rfl
    | some n => simp [(ok.rank n h).symm]
  unfold State.loadStation
  rw [if_neg (Nat.not_lt.2 entry), h]
  dsimp only
  rw [if_neg (by simp [within, ok.code]), ok.named]
  dsimp only
  rw [if_neg (by simp [rank, ok.level]), if_neg (by simp [code]), if_neg single]

end

/-- Settles O13: the load passes its tests and writes the entry, and hands no fault. -/
theorem loadStationReplacesAnEntry : Obligations.LoadStationReplacesAnEntry := by
  intro s q a handed grants entry
  refine ⟨fun contents => ?_, fun c role contents named least most level rank alone => ?_⟩
  · exact exec_granted_plain grants (loadStation_empties (s := s.asked q) entry contents) handed rfl
  · have loaded := loadStation_fills (s := s.asked q) entry contents ⟨named, ⟨least, most⟩, level, rank⟩ alone
    exact exec_granted_plain grants loaded handed rfl

/-! ### LOAD_SUBSCRIPTION (R178) -/

/-- A new entry of the subscription table: STALE, its counter at the reload, and at 0 for an emptied one. -/
def SubEntry.loaded (cfg : Option SubCfg) : SubEntry :=
  { cfg := cfg, counter := (cfg.map fun c => c.reload).getD 0, fresh := false }

/-- The contents of a LOAD_SUBSCRIPTION, of a kind, pass the checks of R178 but for those against the other entries. -/
structure SubscriptionFieldsOk (c : SubscriptionFields) (kind : StationKind) : Prop where
  named : c.kind = some kind
  owner : c.owner = some (kindOwner kind)
  source : 1 ≤ c.source ∧ c.source ≤ 62
  inst : c.inst ≤ 15
  index : indexOk kind c.index = true
  reload : 1 ≤ c.reload ∧ c.reload ≤ 255

/-- A subscription as its fields give it. -/
def subCfgOf (c : SubscriptionFields) (kind : StationKind) : SubCfg :=
  { source := c.source, kind := kind, inst := c.inst, owner := kindOwner kind, index := c.index, reload := c.reload }

section
variable {s : State} {a : SubscriptionArgs}

theorem loadSubscription_empties (entry : a.entry ≤ 47) (h : a.contents = none) :
    s.loadSubscription a = (s.replaceEntry a.entry none, bare .ok) := by
  rw [State.loadSubscription, if_neg (Nat.not_lt.2 entry), h]

theorem loadSubscription_fills {c : SubscriptionFields} {kind : StationKind} (entry : a.entry ≤ 47)
    (h : a.contents = some c) (ok : SubscriptionFieldsOk c kind)
    (alone : ∀ j e x, j ≠ a.entry → s.irt.subs[j]? = some e → e.cfg = some x →
      ¬(x.source = c.source ∧ x.kind = kind ∧ x.inst = c.inst) ∧ ¬(x.kind = kind ∧ x.index = c.index)) :
    s.loadSubscription a = (s.replaceEntry a.entry (some (subCfgOf c kind)), bare .ok) := by
  have others {test : SubCfg → Bool}
      (free : ∀ j e x, j ≠ a.entry → s.irt.subs[j]? = some e → e.cfg = some x → test x = false) :
      othersAny s.irt.subs.toList a.entry (fun e => e.cfg.any test) = false :=
    othersAny_none fun j e other he => by
      cases hx : e.cfg with
      | none => rfl
      | some x => exact free j e x other he hx
  have key : othersAny s.irt.subs.toList a.entry
      (fun e => e.cfg.any fun e => e.source == c.source && e.kind == kind && e.inst == c.inst) = false :=
    others fun j e x other he hx => by simpa [and_assoc] using (alone j e x other he hx).1
  have index : othersAny s.irt.subs.toList a.entry (fun e => e.cfg.any fun e => e.kind == kind && e.index == c.index) = false :=
    others fun j e x other he hx => by simpa using (alone j e x other he hx).2
  unfold State.loadSubscription
  rw [if_neg (Nat.not_lt.2 entry), h]
  dsimp only
  rw [if_neg (by simp [within, ok.source]), ok.named]
  dsimp only
  rw [if_neg (Nat.not_lt.2 ok.inst), if_neg (by simp [ok.owner]), if_neg (by simp [ok.index]),
    if_neg (by simp [within, ok.reload]), if_neg (by simp [key]), if_neg (by simp [index])]
  rfl

end

/-! #### The entry replaced (R178, R179) -/

section
variable {s : State} {i : Nat} {e : SubEntry} {cfg : Option SubCfg} {c : SubCfg}

theorem put_put {α : Type} {n : Nat} (v : Vector α n) (i : Nat) (x y : α) : put (put v i x) i y = put v i y := by
  simp [put]

theorem entry_place (he : s.irt.subs[i]? = some e) : ∃ k : Fin 48, (k : Nat) = i ∧ s.irt.subs[k] = e := by
  obtain ⟨hi, h⟩ := Vector.getElem?_eq_some_iff.1 he
  exact ⟨⟨i, hi⟩, rfl, h⟩

/-- An entry that is not FRESH, or empty, is replaced without a report. -/
theorem replaceEntry_quiet (he : s.irt.subs[i]? = some e) (h : e.fresh = false ∨ e.cfg = none) :
    s.replaceEntry i cfg = s.onIrt fun r => { r with subs := put r.subs i (.loaded cfg) } := by
  obtain ⟨k, rfl, rfl⟩ := entry_place he
  rw [State.replaceEntry, lapse_quiet h]
  rfl

/-- Of a FRESH entry the old owner is told first. -/
theorem replaceEntry_fresh (he : s.irt.subs[i]? = some e) (fresh : e.fresh = true) (hc : e.cfg = some c) :
    s.replaceEntry i cfg
      = { (s.lapsed i c).staleReport c with irt := { s.irt with subs := put s.irt.subs i (.loaded cfg) } } := by
  obtain ⟨k, rfl, rfl⟩ := entry_place he
  have told : ((s.lapsed k c).staleReport c).irt = (s.lapsed k c).irt := (Webs.router _).staleReport c rfl
  rw [State.replaceEntry, lapse_fresh fresh hc, State.onIrt, told]
  simp only [State.lapsed, State.onIrt_irt, put_put]
  rfl

/-- Whatever the entry was, the table holds the new one, and the line constants stand. -/
theorem replaceEntry_kept (hi : i ≤ 47) : (s.replaceEntry i cfg).irt = { s.irt with subs := put s.irt.subs i (.loaded cfg) }
    ∧ (s.replaceEntry i cfg).line = s.line := by
  have he : s.irt.subs[i]? = some s.irt.subs[i] := Vector.getElem?_eq_getElem _
  refine ⟨?_, congrArg Configuration.line ((Rings.configuration s.configuration).lapse i rfl)⟩
  by_cases quiet : s.irt.subs[i].fresh = false ∨ s.irt.subs[i].cfg = none
  · rw [replaceEntry_quiet he quiet]
    rfl
  · rw [not_or, Bool.not_eq_false] at quiet
    obtain ⟨fresh, held⟩ := quiet
    obtain ⟨c, hc⟩ := Option.ne_none_iff_exists'.1 held
    rw [replaceEntry_fresh he fresh hc]

end

/-! #### What the old owner makes of the stale report (R180) -/

theorem diameterStale_notice {s : State} {i : Nat} (h : (s.stand i).cfg.isSome = true) :
    ((s.diameterStale i).stand i).staleNotice = true := by
  obtain ⟨c, hc⟩ := Option.isSome_iff_exists.1 h
  rw [State.diameterStale, hc]
  dsimp only
  rw [stand_onStand, if_pos ⟨rfl, stand_lt h⟩]

theorem staleReport_owner {s : State} (c : SubCfg) (handed : s.handed = []) :
    (c.kind = .feedCount → (s.staleReport c).wtr.firstCount = true ∧ (s.staleReport c).wtr.debt = 0
        ∧ (s.staleReport c).handed = [{ code := .encoderLost, detail := .one 0 }])
    ∧ (c.kind = .lineStatus → (s.staleReport c).lsc.status = .unknown ∧ (s.staleReport c).holds .lineStatusStale 0 = true)
    ∧ (c.kind = .reelDiameter → (s.stand (c.index - 1)).cfg.isSome = true →
        ((s.staleReport c).stand (c.index - 1)).staleNotice = true)
    ∧ (c.kind = .zoneValue → c.index ≤ 15 → ((s.staleReport c).channel c.index).stale = true)
    ∧ (c.kind = .slitterState → (s.staleReport c).chg.stateOf (if c.index = 1 then .a else .b) = .unknown)
    ∧ (c.kind = .stackState → (s.staleReport c).stk.state = .unknown) := by
  refine ⟨fun k => ?_, fun k => ?_, fun k hs => ?_, fun k hi => ?_, fun k => ?_, fun k => ?_⟩
  all_goals simp only [State.staleReport, k]
  · exact ⟨rfl, rfl, by simp [State.feedStale, State.hand, handed]⟩
  · exact ⟨by simp [State.statusStale], raise_holds ..⟩
  · exact diameterStale_notice hs
  · exact channelStale_stale s true hi
  · exact slitterStale_stateOf ..
  · rfl

/-- Settles O14: the owner's part is the entry replaced, quietly or after the old owner's report. -/
theorem loadSubscriptionReplacesAnEntry : Obligations.LoadSubscriptionReplacesAnEntry := by
  intro s q a cfg handed grants entry contents loaded
  have loads : owned q (.loadSubscription a) (s.asked q) = ((s.asked q).replaceEntry a.entry cfg, bare .ok) := by
    rcases contents with ⟨emptied, rfl⟩
      | ⟨c, kind, filled, named, owner, least, most, inst, index, least', most', alone, rfl⟩
    · exact loadSubscription_empties entry emptied
    · have ok : SubscriptionFieldsOk c kind := ⟨named, owner, ⟨least, most⟩, inst, index, least', most'⟩
      exact loadSubscription_fills (s := s.asked q) entry filled ok alone
  have run : exec (.loadSubscription q a) s
      = .next (((s.asked q).replaceEntry a.entry cfg).takeFaults.withReply (bare .ok)) :=
    (exec_granted grants).trans (by rw [loads, cut_bare _ _ rfl])
  refine ⟨fun e he quiet => ?_, fun e c he fresh hc => ⟨?_, ?_⟩, _, run, rfl, ?_⟩
  · rw [run, replaceEntry_quiet (s := s.asked q) he quiet, takeFaults_nothing (s := (s.asked q).onIrt _) handed]
    rfl
  · rw [run, replaceEntry_fresh (s := s.asked q) he fresh hc]
    rfl
  · exact staleReport_owner (s := (s.asked q).lapsed a.entry c) c handed
  · obtain ⟨irt, line⟩ := replaceEntry_kept (s := s.asked q) (cfg := cfg) entry
    have table := (Webs.router _).takeFaults irt
    refine ⟨table, ?_, ?_⟩
    · exact (congrArg Configuration.line (takeFaults_configuration _)).trans line
    · refine (congrArg (fun r : Irt => r.subs.toList.map fun e => e.cfg) table).trans ?_
      rw [put_toList, List.map_set]
      rfl

end Sys2Proof.Machine
end

section
namespace Sys2Proof.Machine

/-! ### Fields among bytes (R202) -/

section
variable {back : List Byte} {offset n v w : Nat}

/-- A field that stands behind a number is one of what follows the number. -/
theorem fieldAt_past (h : w ≤ offset) (v : Int) : fieldAt offset n (writeInt w v ++ back) = fieldAt (offset - w) n back := by
  rw [fieldAt, fieldAt, List.drop_append, writeInt_length, List.drop_eq_nil_of_le (by rwa [writeInt_length]), List.nil_append]

/-- A number is read as it was written, whatever follows it. -/
theorem fieldAt_head (h : v < 256 ^ n) : fieldAt 0 n (writeInt n v ++ back) = v := by
  rw [fieldAt, List.drop_zero, List.take_left' (writeInt_length n v), readNat_writeInt n v h]

/-- A field lies among the first bytes that hold it. -/
theorem fieldAt_take {m : Nat} (l : List Byte) (h : offset + n ≤ m) : fieldAt offset n (l.take m) = fieldAt offset n l := by
  rw [fieldAt, fieldAt, List.drop_take, List.take_take, min_eq_left (by omega)]

end

/-! ### Items written and read (R203) -/

/-- An item of a telegram: its source station, kind code, the header byte between that and the length, and its payload. -/
abbrev RawItem := Nat × Nat × Nat × List Byte

/-- An item's bytes: its header and its payload. -/
def RawItem.bytes (i : RawItem) : List Byte :=
  writeInt 1 i.1 ++ writeInt 1 i.2.1 ++ writeInt 1 i.2.2.1 ++ writeInt 2 i.2.2.2.length ++ i.2.2.2

/-- An item that an item header can stand for. -/
structure RawItem.Ok (i : RawItem) : Prop where
  source : i.1 < 256
  kind : i.2.1 < 256
  inst : i.2.2.1 < 256
  length : i.2.2.2.length < 65536

section
variable {i : RawItem}

theorem rawBytes_length (i : RawItem) : i.bytes.length = 5 + i.2.2.2.length := by
  simp [RawItem.bytes, writeInt_length]
  omega

/-- Items end to end are no fewer bytes than items, and no fewer than any payload's. -/
theorem rawItems_length (l : List RawItem) : l.length ≤ (l.flatMap RawItem.bytes).length
    ∧ ∀ i ∈ l, i.2.2.2.length ≤ (l.flatMap RawItem.bytes).length := by
  have sum : (l.flatMap RawItem.bytes).length = (l.map fun i => 5 + i.2.2.2.length).sum := by
    rw [List.length_flatMap]
    exact congrArg List.sum (List.map_congr_left fun i _ => rawBytes_length i)
  rw [sum]
  refine ⟨(List.length_map _).symm.trans_le (List.length_le_sum_of_one_le _ (by simp; omega)), fun i hi => ?_⟩
  have part := List.single_le_sum (by simp) _ (List.mem_map_of_mem (f := fun i : RawItem => 5 + i.2.2.2.length) hi)
  omega

/-- The fields of an item that stands at the head of bytes. -/
theorem rawBytes_fields (ok : i.Ok) (back : List Byte) :
    fieldAt 0 1 (i.bytes ++ back) = i.1 ∧ fieldAt 1 1 (i.bytes ++ back) = i.2.1
    ∧ fieldAt 2 1 (i.bytes ++ back) = i.2.2.1 ∧ fieldAt 3 2 (i.bytes ++ back) = i.2.2.2.length := by
  simp only [RawItem.bytes, List.append_assoc]
  simp [fieldAt_past, fieldAt_head, ok.source, ok.kind, ok.inst, ok.length]

/-- Items end to end fill their bytes, and are split where each ends. -/
theorem items_written {l : List RawItem} (ok : ∀ i ∈ l, i.Ok) {fuel : Nat} (h : l.length ≤ fuel) :
    itemsFill fuel (l.flatMap RawItem.bytes) = true ∧ splitItems fuel (l.flatMap RawItem.bytes) = l.map RawItem.bytes := by
  induction l generalizing fuel with
  | nil => cases fuel <;> exact ⟨rfl, rfl⟩
  | cons i l ih =>
    obtain ⟨fuel, rfl⟩ : ∃ k, fuel = k + 1 := ⟨fuel - 1, by simp at h; omega⟩
    obtain ⟨fill, split⟩ := ih (fun x hx => ok x (List.mem_cons_of_mem _ hx)) (fuel := fuel) (by simpa using h)
    obtain ⟨-, -, -, length⟩ := rawBytes_fields (ok i List.mem_cons_self) (l.flatMap RawItem.bytes)
    have whole := rawBytes_length i
    have some : ¬(i.bytes ++ l.flatMap RawItem.bytes).isEmpty = true := by simp [← List.length_eq_zero_iff, whole]
    rw [List.flatMap_cons, itemsFill, splitItems, if_neg some, if_neg some, length,
      if_pos (by rw [List.length_append, whole]; omega)]
    dsimp only
    rw [← whole, List.drop_left, List.take_left, if_pos (by simp), fill, split]
    exact ⟨rfl, rfl⟩

/-- An item as it is read from its bytes. -/
def RawItem.item (i : RawItem) (c : Contents) : Item :=
  { source := i.1, inst := i.2.2.1, length := i.2.2.2.length, payload := readPayload i.2.1 i.2.2.2 c }

theorem readItem_written (ok : i.Ok) (c : Contents) : readItem i.bytes c = i.item c := by
  obtain ⟨source, kind, inst, length⟩ := rawBytes_fields ok []
  rw [List.append_nil] at source kind inst length
  have payload : i.bytes.drop 5 = i.2.2.2 := List.drop_left' (by simp [writeInt_length])
  rw [readItem, source, kind, inst, length, payload, List.take_length]
  rfl

/-- Each item is read with its entry of the contents, and with none where nothing is said. -/
theorem readItems_written {l : List RawItem} (ok : ∀ i ∈ l, i.Ok) (contents : List Contents) {n : Nat} (h : l.length ≤ n) :
    readItems (l.map RawItem.bytes) contents
      = (l.zip (contents ++ List.replicate n .nothing)).map fun y => y.1.item y.2 := by
  induction l generalizing contents n with
  | nil => rfl
  | cons i l ih =>
    have rest {m : Nat} (contents : List Contents) (h : l.length ≤ m) :=
      ih (fun x hx => ok x (List.mem_cons_of_mem _ hx)) contents h
    obtain ⟨n, rfl⟩ : ∃ k, n = k + 1 := ⟨n - 1, by simp at h; omega⟩
    have fits : l.length ≤ n := by simpa using h
    cases contents with
    | nil => exact congrArg₂ List.cons (readItem_written (ok i List.mem_cons_self) _) (rest [] fits)
    | cons c contents =>
      exact congrArg₂ List.cons (readItem_written (ok i List.mem_cons_self) c) (rest contents (fits.trans (Nat.le_succ n)))

end

/-! ### A telegram written and read (R173, R203) -/

/-- The bytes of a telegram: its header, of a total length, and its items. -/
def telegramBytes (cls origin cycle total : Nat) (body : List Byte) : List Byte :=
  writeInt 1 cls ++ writeInt 1 origin ++ writeInt 2 cycle ++ writeInt 2 total ++ body

section
variable {cls origin cycle total : Nat} {body : List Byte}

theorem telegramBytes_length : (telegramBytes cls origin cycle total body).length = 6 + body.length := by
  simp [telegramBytes, writeInt_length]
  omega

theorem telegramBytes_body : (telegramBytes cls origin cycle total body).drop 6 = body :=
  List.drop_left' (by simp [writeInt_length])

theorem telegramBytes_fields (origin' : origin < 256) (cycle' : cycle < 65536) (total' : total < 65536) :
    fieldAt 1 1 (telegramBytes cls origin cycle total body) = origin
    ∧ fieldAt 2 2 (telegramBytes cls origin cycle total body) = cycle
    ∧ fieldAt 4 2 (telegramBytes cls origin cycle total body) = total := by
  simp only [telegramBytes, List.append_assoc]
  simp [fieldAt_past, fieldAt_head, origin', cycle', total']

theorem telegramBytes_class (h : cls = 1 ∨ cls = 2) : headerClass (telegramBytes cls origin cycle total body) = some cls := by
  rcases h with rfl | rfl <;> rfl

theorem telegramBytes_wellFormed (class' : cls = 1 ∨ cls = 2) (origin' : origin < 256) (cycle' : cycle < 65536)
    (whole : total = 6 + body.length) (short : total ≤ 1500) (items : itemsFill total body = true) :
    bytesWellFormed (telegramBytes cls origin cycle total body) = true := by
  obtain ⟨-, -, length⟩ := telegramBytes_fields (cls := cls) (body := body) origin' cycle' (by omega : total < 65536)
  have header : headerLength (telegramBytes cls origin cycle total body) = some total := by
    rw [headerLength, if_pos (by rw [telegramBytes_length]; omega), length]
  rw [bytesWellFormed, header, telegramBytes_class class', telegramBytes_length, telegramBytes_body, ← whole]
  rcases class' with rfl | rfl <;> simp [short, items]

end

/-- A header followed by items end to end is read as that telegram. -/
theorem readTelegram_written {cls origin cycle : Nat} {l : List RawItem} (contents : List Contents)
    (class' : cls = 1 ∨ cls = 2) (origin' : origin < 256) (cycle' : cycle < 65536)
    (ok : ∀ i ∈ l, i.1 < 256 ∧ i.2.1 < 256 ∧ i.2.2.1 < 256) (short : 6 + (l.flatMap RawItem.bytes).length ≤ 1500) :
    let total := 6 + (l.flatMap RawItem.bytes).length
    let bytes := telegramBytes cls origin cycle total (l.flatMap RawItem.bytes)
    readTelegram cls { bytes := bytes, contents := contents } = some {
      bytes := bytes, origin := origin, cycle := cycle, total := total,
      items := (l.zip (contents ++ List.replicate l.length .nothing)).map fun y => y.1.item y.2 } := by
  intro total bytes
  obtain ⟨count, payloads⟩ := rawItems_length l
  have ok : ∀ i ∈ l, i.Ok := fun i hi => by
    obtain ⟨source, kind, inst⟩ := ok i hi
    have part := payloads i hi
    exact ⟨source, kind, inst, by omega⟩
  obtain ⟨originField, cycleField, totalField⟩ :=
    telegramBytes_fields (cls := cls) (body := l.flatMap RawItem.bytes) origin' cycle' (by omega : total < 65536)
  have wellFormed : bytesWellFormed bytes = true :=
    telegramBytes_wellFormed class' origin' cycle' rfl short (items_written ok (by omega)).1
  have items : itemsOf bytes = l.map RawItem.bytes := by
    rw [itemsOf, telegramBytes_length, telegramBytes_body, (items_written ok (by omega)).2]
  rw [readTelegram, if_pos (by simp [wellFormed, bytes, telegramBytes_class class']), originField, cycleField, totalField, items,
    readItems_written ok contents (le_refl _)]

/-! ### Bytes that are no well-formed telegram (R173) -/

theorem exec_badTelegram (s : State) (p : RingPort) (bytes : List Byte) :
    exec (.badTelegram p bytes) s = .next { s with
      rif := { s.rif with routine := s.rif.routine ++ (if s.rif.routine.length < 48 then
        [.notice (.badTelegram (headerClass bytes) (headerLength bytes))] else []) },
      passed := some { port := s.wayOut p, bytes := bytes } } :=
  congrArg _ (notify_appends (s.leave p bytes) _)

theorem cycleArrives_bad {s : State} {p : RingPort} {x : Arrival} (h : bytesWellFormed x.bytes = false) :
    s.cycleArrives p x = s.badTelegram p x.bytes := by
  rw [State.cycleArrives, readTelegram_none (.inl h)]

theorem managementArrives_bad {s : State} {p : RingPort} {pins : BitVec 6} {x : Arrival} (h : bytesWellFormed x.bytes = false) :
    s.managementArrives p pins x = ({ s with commStation := pins } : State).badTelegram p x.bytes := by
  rw [State.managementArrives, readTelegram_none (.inl h)]

/-- Settles O38: what leaves by the notice, the other commands by reading no telegram, and the reading by splitting what was
written. -/
theorem badTelegramPassesUntouched : Obligations.BadTelegramPassesUntouched := by
  refine ⟨fun s p bytes => ⟨exec_badTelegram s p bytes, fun bad contents => ?_⟩, ?_⟩
  · exact ⟨congrArg _ (cycleArrives_bad bad), congrArg _ (cycleArrives_bad bad),
      fun pins => congrArg _ (managementArrives_bad bad)⟩
  · intro cls origin cycle l contents body total bytes class' origin' cycle' ok short
    exact readTelegram_written (l := l) contents class' origin' cycle' ok short

end Sys2Proof.Machine
end

section
namespace Sys2Proof.Machine

/-! ### The items of a well-formed telegram (R203) -/

theorem itemsFill_of_wellFormed {l : List Byte} (h : bytesWellFormed l = true) : itemsFill l.length (l.drop 6) = true := by
  unfold bytesWellFormed at h
  split at h
  · cases h
  · simp only [Bool.and_eq_true] at h
    exact h.2

/-- Bytes that are items end to end are those items and no more, each as long as its header says. -/
theorem splitItems_whole {fuel : Nat} {l : List Byte} (h : itemsFill fuel l = true) :
    (splitItems fuel l).flatten = l ∧ ∀ x ∈ splitItems fuel l, x.length = 5 + fieldAt 3 2 x := by
  induction fuel generalizing l with
  | zero => exact ⟨(List.isEmpty_iff.1 h).symm, nofun⟩
  | succ fuel ih =>
    unfold itemsFill at h
    unfold splitItems
    split at h
    · rename_i empty
      rw [if_pos empty]
      exact ⟨(List.isEmpty_iff.1 empty).symm, nofun⟩
    · rename_i some
      rw [if_neg some]
      dsimp only at h ⊢
      split at h
      · split at h
        · rename_i fits
          obtain ⟨rest, each⟩ := ih h
          refine ⟨by rw [List.flatten_cons, rest, List.take_append_drop], List.forall_mem_cons.2 ⟨?_, each⟩⟩
          rw [fieldAt_take l (by omega), List.length_take_of_le fits]
        · cases h
      · cases h

theorem readItems_length (l : List (List Byte)) (contents : List Contents) : (readItems l contents).length = l.length := by
  induction l generalizing contents with
  | nil => rfl
  | cons x l ih => rw [readItems, List.length_cons, List.length_cons, ih]

/-- A telegram of one item is its header, the item's header and the payload. -/
theorem readTelegram_single {cls : Nat} {y : Arrival} {t : Telegram} {it : Item} (read : readTelegram cls y = some t)
    (one : t.items = [it]) : y.bytes.length = 11 + it.length := by
  obtain ⟨wellFormed, -, -, -, -, total, least, -, items⟩ := readTelegram_some read
  obtain ⟨flatten, each⟩ := splitItems_whole (itemsFill_of_wellFormed wellFormed)
  rw [one] at items
  have count : (itemsOf y.bytes).length = 1 := by rw [← readItems_length _ y.contents, ← items]; rfl
  obtain ⟨x, single⟩ := List.length_eq_one_iff.1 count
  rw [single] at items
  have length : it.length = fieldAt 3 2 x := congrArg Item.length (List.cons.inj items).1
  rw [itemsOf] at single
  rw [single, List.flatten_singleton] at flatten
  have whole := each x (by rw [single]; exact List.mem_cons_self)
  rw [flatten, List.length_drop, ← flatten] at whole
  omega

/-! ### Replies fit their space (R191, R204) -/

theorem missingField_data {r : Request} {n : Nat} {x : Reply} (h : missingField r n = some x) : x.data = [] := by
  unfold missingField at h
  repeat' split at h
  all_goals cases h
  all_goals rfl

theorem checkRequest_data {s : State} {q : Asker} {r : Request} {x : Reply} (h : s.checkRequest q r = some x) :
    x.data = [] := by
  unfold State.checkRequest at h
  split at h
  · cases h; rfl
  · split at h
    · cases h; rfl
    · split at h
      · cases h; rfl
      · exact missingField_data h

theorem writeReply_bare {space : Nat} {x : Reply} (room : 4 ≤ space) (data : x.data = []) :
    (writeReply space x).length = space :=
  writeReply_length (by simpa [data] using room)

/-- What MGR answers fills the reply space: a refusal has no data, and the owner's data is cut. -/
theorem serve_fills {s : State} {q : Asker} {r : Request} {f : State → State × Reply} (room : 4 ≤ q.space) :
    (writeReply q.space (s.serve q r f).2).length = q.space := by
  unfold State.serve
  split
  · rename_i refused
    exact writeReply_bare room (checkRequest_data refused)
  · exact writeReply_length (Nat.add_le_of_le_sub' room (fitData_fits (dataRoom q.space) _))

theorem unknownRequest_eq (s : State) (q : Asker) : s.unknownRequest q
    = if s.authority q.comm q.requester = .unknown then bare .unknownStation else badField 0 0 := by
  unfold State.unknownRequest
  split
  · rename_i h; rw [if_pos h]
  · rename_i h; rw [if_neg (by simp [h])]
  · rename_i h; rw [if_neg (by simp [h])]

theorem unknownRequest_data (s : State) (q : Asker) : (s.unknownRequest q).data = [] := by
  rw [unknownRequest_eq]
  split <;> rfl

/-- A request with room for the reply header is served. -/
theorem exec_served {s : State} {q : Asker} {r : Request} (room : 4 ≤ q.space) :
    exec (carrying q r) s = .next (((s.asked q).serve q r (owned q r)).1.withReply ((s.asked q).serve q r (owned q r)).2) := by
  rw [exec_carrying, State.answer, if_neg (Nat.not_lt.2 room)]
  rfl

/-! ### The items of a management telegram (R175, R188) -/

theorem noticeBadItem_none {s : State} {l : List Item} (h : ∀ it ∈ l, s.isBadItem it = false) : s.noticeBadItem l = s := by
  rw [State.noticeBadItem, List.find?_eq_none.2 fun it hit => by simp [h it hit]]

theorem isBadItem_request {s : State} {it : Item} {x : RequestItem} (h : it.payload = .request x) : s.isBadItem it = false := by
  simp [State.isBadItem, itemMalformed, payloadKind, h]

/-- A request item for the part, not answered before it came, with a reply space that holds the reply header. -/
structure RequestTaken (own : Option Nat) (it : Item) (x : RequestItem) (space : Nat) : Prop where
  payload : it.payload = .request x
  inst : it.inst ≤ 15
  dest : own = some x.dest ∨ x.dest = 63
  unanswered : x.replyCode = 0
  length : it.length = 4 + x.argLength + space
  room : 4 ≤ space

section
variable {s : State} {own : Option Nat} {pins : BitVec 6} {it : Item} {x : RequestItem} {space : Nat}

theorem takeRequest_taken (h : RequestTaken own it x space) :
    s.takeRequest own pins it =
      ((s.serveAsked (askerOf pins it x space) x.asked).1.withReply (s.serveAsked (askerOf pins it x space) x.asked).2,
        some (9 + x.argLength, writeReply space (s.serveAsked (askerOf pins it x space) x.asked).2)) := by
  have reply : replySpace it x = space := by rw [replySpace, h.length]; omega
  have dest : addressed own x.dest = true := by simpa [addressed] using h.dest
  unfold State.takeRequest
  rw [h.payload]
  dsimp only
  rw [reply, if_pos ⟨h.inst, by rw [h.length]; omega, dest, .inl h.unanswered⟩, if_neg (Nat.not_lt.2 h.room)]
  rfl

theorem takeRequest_passed (h : ∀ x, it.payload = .request x → x.dest ≠ 63 ∧ own ≠ some x.dest) :
    s.takeRequest own pins it = (s, none) := by
  unfold State.takeRequest
  split
  · rename_i x payload
    obtain ⟨all, self⟩ := h x payload
    exact if_neg fun taken => by simp [addressed, all, self] at taken
  · rfl

theorem takeRequests_passed {l : List Item}
    (h : ∀ it ∈ l, ∀ x, it.payload = .request x → x.dest ≠ 63 ∧ own ≠ some x.dest) (offset : Nat) :
    s.takeRequests own pins offset l = (s, []) := by
  induction l generalizing offset with
  | nil => rfl
  | cons it l ih =>
    rw [State.takeRequests, takeRequest_passed (h it List.mem_cons_self), ih fun y hy => h y (List.mem_cons_of_mem _ hy)]
    rfl

end

/-- Bytes written over the last ones. -/
theorem overwrite_last {offset : Nat} {new l : List Byte} (h : offset + new.length = l.length) :
    overwrite offset new l = l.take offset ++ new := by
  rw [overwrite, h, List.drop_length, List.append_nil]

section
variable {s : State} {p : RingPort} {pins : BitVec 6} {y : Arrival} {t : Telegram}

/-- A telegram with nothing for the part and no malformed item leaves as it came. -/
theorem managementArrives_passed (read : readTelegram 2 y = some t) (h : ∀ it ∈ t.items, s.isBadItem it = false
      ∧ ∀ x, it.payload = .request x → x.dest ≠ 63 ∧ s.selfCode ≠ some x.dest) :
    s.managementArrives p pins y = { s with commStation := pins, passed := some { port := s.wayOut p, bytes := y.bytes } } := by
  have bytes := (readTelegram_some read).2.2.1
  have quiet := noticeBadItem_none (s := { s with commStation := pins }) fun it hit => (h it hit).1
  have passed := takeRequests_passed (s := { s with commStation := pins }) (pins := pins) (fun it hit => (h it hit).2) 6
  rw [State.managementArrives, read]
  dsimp only
  rw [State.takeManagement, quiet, show ({ s with commStation := pins } : State).selfCode = s.selfCode from rfl, passed,
    ← bytes]
  rfl

/-- A telegram of one request that is taken leaves with what its serving answers written over its reply space. -/
theorem managementArrives_taken {it : Item} {x : RequestItem} {space : Nat} (read : readTelegram 2 y = some t)
    (one : t.items = [it]) (taken : RequestTaken s.selfCode it x space) {u : State} {R : Reply}
    (served : ({ s with commStation := pins } : State).serveAsked (askerOf pins it x space) x.asked = (u, R))
    (fills : (writeReply space R).length = space) :
    s.managementArrives p pins y = { u.withReply R with
      passed := some { port := u.wayOut p, bytes := y.bytes.take (15 + x.argLength) ++ writeReply space R } } := by
  have bytes := (readTelegram_some read).2.2.1
  have whole := readTelegram_single read one
  rw [taken.length] at whole
  have written : overwrite (6 + (9 + x.argLength)) (writeReply space R) y.bytes
      = y.bytes.take (15 + x.argLength) ++ writeReply space R := by
    rw [overwrite_last (by omega), ← Nat.add_assoc]
  have quiet : ({ s with commStation := pins } : State).noticeBadItem t.items = { s with commStation := pins } :=
    noticeBadItem_none (by rw [one]; simpa using isBadItem_request taken.payload)
  have item := takeRequest_taken (s := { s with commStation := pins }) (pins := pins) taken
  rw [served] at item
  rw [State.managementArrives, read]
  dsimp only
  rw [State.takeManagement, quiet, one, State.takeRequests,
    show ({ s with commStation := pins } : State).selfCode = s.selfCode from rfl, item, bytes]
  exact congrArg (State.leave _ p) written

end

/-! ### What a REQUEST item's payload asks for (R204) -/

theorem requestCode_range (r : Request) : 1 ≤ requestCode r ∧ requestCode r ≤ 27 := by
  cases r <;> simp [requestCode]

theorem readAsked_bare {r : Request} (h : r ∈ bareRequests) (args : List Byte) (c : Contents) :
    readAsked (requestCode r) args c = .known r := by
  simp only [bareRequests, List.mem_cons, List.not_mem_nil, or_false] at h
  rcases h with rfl | rfl | rfl | rfl | rfl | rfl | rfl <;> rfl

theorem readAsked_arguments {r : Request} (h : ∀ bytes, r ≠ .loadOrder bytes) (args : List Byte) (n : Nat) :
    readAsked (requestCode r) args (.arguments r n) = .known r := by
  cases r
  case loadOrder bytes => exact absurd rfl (h bytes)
  all_goals rfl

/-- A code that no request has names none, whatever the bytes spell. -/
theorem readAsked_unknown {code : Nat} (h : ∀ r, requestCode r ≠ code) (args : List Byte) (c : Contents) :
    readAsked code args c = .unknown code := by
  have none : bareRequests.find? (fun r => requestCode r == code) = none :=
    List.find?_eq_none.2 fun r _ => by simpa using h r
  unfold readAsked
  rw [if_neg (h _).symm, none]
  cases c with
  | nothing => rfl
  | report r => rfl
  | arguments r n => exact if_neg (h r)

/-- What a REQUEST item's payload holds before the arguments. -/
def requestHeader (dest code length : Nat) : List Byte := writeInt 1 dest ++ writeInt 1 code ++ writeInt 2 length

theorem requestHeader_length (dest code length : Nat) : (requestHeader dest code length).length = 4 := by
  simp [requestHeader, writeInt_length]

theorem requestHeader_fields {dest code length : Nat} (back : List Byte) (dest' : dest < 256) (code' : code < 256)
    (length' : length < 65536) : fieldAt 0 1 (requestHeader dest code length ++ back) = dest
      ∧ fieldAt 1 1 (requestHeader dest code length ++ back) = code
      ∧ fieldAt 2 2 (requestHeader dest code length ++ back) = length := by
  simp only [requestHeader, List.append_assoc]
  simp [fieldAt_past, fieldAt_head, dest', code', length']

/-- A REQUEST item's payload is read as its destination, code, arguments and the first byte of the reply space. -/
theorem readRequest_written {dest code : Nat} {args : List Byte} (space : List Byte) (c : Contents) (dest' : dest < 256)
    (code' : code < 256) (args' : args.length < 65536) :
    readRequest (requestHeader dest code args.length ++ args ++ space) c = some {
      dest := dest, argLength := args.length, present := fieldsHeld args c,
      replyCode := (space.head?.map fun b => b.toNat).getD 0, asked := readAsked code args c } := by
  have header := requestHeader_length dest code args.length
  obtain ⟨destField, codeField, lengthField⟩ := requestHeader_fields (args ++ space) dest' code' args'
  have arguments : ((requestHeader dest code args.length ++ (args ++ space)).drop 4).take args.length = args := by
    rw [List.drop_left' header, List.take_left]
  have answered : fieldAt (4 + args.length) 1 (requestHeader dest code args.length ++ (args ++ space))
      = (space.head?.map fun b => b.toNat).getD 0 := by
    rw [fieldAt, ← List.append_assoc, List.drop_left' (by simp [header])]
    cases space <;> simp [readNat]
  unfold readRequest
  rw [List.append_assoc, if_pos (by rw [List.length_append, header]; omega), destField, codeField, lengthField]
  dsimp only
  rw [arguments, answered]

/-- The kind code 112 is a REQUEST item's. -/
theorem readPayload_request {l : List Byte} {c : Contents} {x : RequestItem} (read : readRequest l c = some x) :
    readPayload 112 l c = .request x :=
  (if_pos rfl : readPayload 112 l c = (readRequest l c).elim (.other 112) .request).trans (by rw [read]; rfl)

theorem exec_managementTelegram (s : State) (p : RingPort) (pins : BitVec 6) (y : Arrival) :
    exec (.managementTelegram p pins y) s = .next (s.managementArrives p pins y) := rfl

/-- Settles O39: the one item is the telegram's last bytes, and its serving is that of the request's command. -/
theorem managementTelegramServesItsRequest : Obligations.ManagementTelegramServesItsRequest := by
  refine ⟨fun s p pins y t read => ⟨?_, fun nothing => congrArg _ (managementArrives_passed read nothing)⟩,
    fun dest code args space c dest' code' args' => readPayload_request (readRequest_written space c dest' code' args'),
    fun args c => ⟨rfl, fun r hr => readAsked_bare hr args c, fun code outside => ?_⟩,
    fun args r n h => ⟨readAsked_arguments h args n, rfl⟩⟩
  · intro it x space one payload inst short dest unanswered length room q written
    have taken : RequestTaken s.selfCode it x space := ⟨payload, inst, dest, unanswered, length, room⟩
    rw [exec_managementTelegram]
    refine ⟨fun r known => ?_, fun code unknown => ?_, fun R => rfl⟩
    · have fills := serve_fills (s := s.asked q) (q := q) (r := r) (f := owned q r) room
      have arrives := managementArrives_taken (p := p) (pins := pins) read one taken (by rw [known]; rfl) fills
      exact ⟨_, _, exec_served room, rfl, fills, congrArg _ arrives⟩
    · have fills := writeReply_bare room (unknownRequest_data s q)
      have arrives := managementArrives_taken (p := p) (pins := pins) read one taken (by rw [unknown]; rfl) fills
      rw [unknownRequest_eq] at fills arrives
      exact ⟨fills, congrArg _ arrives⟩
  · refine readAsked_unknown (fun r same => ?_) args c
    have range := requestCode_range r
    omega

end Sys2Proof.Machine
end

section
namespace Sys2Proof.Machine

/-! ### A refused request changes nothing (R188, R189, R191) -/

/-- An owner's part that leaves the state as it was wherever its reply is a refusal: neither OK nor TRUNCATED (R191). -/
def State.StandsIfRefused (s : State) (x : State × Reply) : Prop :=
  x.2.code ≠ .ok → x.2.code ≠ .truncated → x.1 = s

namespace State.StandsIfRefused

variable {s : State} {r : Reply} {x : State × Reply}

theorem unchanged : s.StandsIfRefused (s, r) := fun _ _ => rfl

theorem served (h : x.2.code = .ok) : s.StandsIfRefused x := fun refused _ => absurd h refused

/-- A test that refuses stands before the rest. -/
theorem guard {c : Prop} [Decidable c] (h : s.StandsIfRefused x) : s.StandsIfRefused (if c then s.refuse r else x) := by
  split
  · exact unchanged
  · exact h

/-! #### The configuration -/

theorem loadStation (a : StationArgs) : s.StandsIfRefused (s.loadStation a) := by
  refine guard ?_
  split
  · exact served rfl
  · refine guard ?_
    split
    · exact unchanged
    · exact guard (guard (guard (served rfl)))

theorem loadSubscription (a : SubscriptionArgs) : s.StandsIfRefused (s.loadSubscription a) := by
  refine guard ?_
  split
  · exact served rfl
  · refine guard ?_
    split
    · exact unchanged
    · exact guard (guard (guard (guard (guard (guard (served rfl))))))

theorem setLine (a : LineArgs) : s.StandsIfRefused (s.setLine a) := by
  unfold State.setLine
  split
  · exact unchanged
  · exact unchanged
  · exact served rfl

theorem loadStand (a : StandArgs) : s.StandsIfRefused (s.loadStand a) := by
  refine guard ?_
  dsimp only
  split
  · exact guard (served rfl)
  · split
    · exact unchanged
    · exact guard (guard (served rfl))

theorem loadPoint (a : PointArgs) : s.StandsIfRefused (s.loadPoint a) := by
  unfold State.loadPoint
  split
  · exact unchanged
  · exact unchanged
  · dsimp only
    split
    · exact served rfl
    · split
      · exact served rfl
      · exact served rfl

theorem loadChannel (a : ChannelArgs) : s.StandsIfRefused (s.loadChannel a) := by
  unfold State.loadChannel
  split
  · exact unchanged
  · exact served rfl

theorem loadScan (l : List Nat) : s.StandsIfRefused (s.loadScan l) := by
  refine guard ?_
  split
  · exact unchanged
  · exact served rfl

theorem loadGrade (a : GradeArgs) : s.StandsIfRefused (s.loadGrade a) := by
  refine guard ?_
  split
  · exact unchanged
  · exact guard (served rfl)

/-! #### The orders -/

theorem loadOrder (a : OrderArgs) : s.StandsIfRefused (s.loadOrder a) := by
  cases a with
  | noSlot => exact unchanged
  | short _ i => exact unchanged
  | badCount slot i record =>
    unfold State.loadOrder
    dsimp only
    split
    · exact unchanged
    · exact unchanged
    · exact unchanged
  | whole slot quality record =>
    unfold State.loadOrder
    dsimp only
    split
    · exact unchanged
    · exact unchanged
    · exact guard (served rfl)

theorem withdrawOrder (i : Nat) : s.StandsIfRefused (s.withdrawOrder i) := by
  refine guard ?_
  dsimp only
  cases (s.slot i).state with
  | empty | onWeb | suspended => exact unchanged
  | loaded | complete | short | queued => exact served rfl

theorem queueAppend (i : Nat) : s.StandsIfRefused (s.queueAppend i) := by
  refine guard (guard (guard (guard ?_)))
  split
  · exact unchanged
  · exact served rfl

theorem queueRemove (position i : Nat) : s.StandsIfRefused (s.queueRemove position i) := by
  refine guard ?_
  split
  · exact unchanged
  · exact guard (served rfl)

theorem insertRush (i : Nat) : s.StandsIfRefused (s.insertRush i) := by
  refine guard (guard (guard (guard (guard ?_))))
  split
  · exact unchanged
  · exact served rfl

/-! #### The log, the line and the web -/

/-- Records leave the log only with a reply of OK or TRUNCATED. -/
theorem readLog (space count : Nat) : s.StandsIfRefused (s.readLog space count) := by
  refine guard (guard fun notOk notTruncated => ?_)
  dsimp only at notOk notTruncated
  split at notTruncated
  · exact absurd rfl notTruncated
  · rename_i whole
    exact absurd (if_neg whole) notOk

theorem logModeRequest (mode : Option LogMode) (empty : Bool) : s.StandsIfRefused (s.logModeRequest mode empty) := by
  cases mode with
  | none => exact unchanged
  | some m => exact served rfl

theorem startRequest (new : LineState) (code : Nat) : s.StandsIfRefused (s.startRequest new code) := by
  unfold State.startRequest
  split
  · exact unchanged
  · exact served rfl

theorem lineResetRequest : s.StandsIfRefused s.lineResetRequest := guard (served rfl)

theorem manualSplice (k : Nat) : s.StandsIfRefused (s.manualSplice k) := by
  refine guard ?_
  dsimp only
  split
  · exact unchanged
  · exact guard (guard (served rfl))

theorem operatorCutout (requester : Nat) (d l : Int) : s.StandsIfRefused (s.operatorCutout requester d l) :=
  guard (guard (served rfl))

/-- No owner changes anything for a request that it refuses. -/
theorem owned (q : Asker) (r : Request) : s.StandsIfRefused (Machine.owned q r s) := by
  cases r with
  | loadStation a => exact loadStation a
  | loadSubscription a => exact loadSubscription a
  | setLine a => exact setLine a
  | loadStand a => exact loadStand a
  | loadPoint a => exact loadPoint a
  | loadChannel a => exact loadChannel a
  | loadScan l => exact loadScan l
  | loadGrade a => exact loadGrade a
  | loadOrder bytes => exact loadOrder (readOrder bytes)
  | withdrawOrder i => exact withdrawOrder i
  | queueAppend i => exact queueAppend i
  | queueRemove position i => exact queueRemove position i
  | insertRush i => exact insertRush i
  | readLog count => exact readLog q.space count
  | logMode mode empty => exact logModeRequest mode empty
  | startThreading => exact startRequest .threading 22
  | startProduction => exact startRequest .producing 23
  | halt => exact served rfl
  | lineReset => exact lineResetRequest
  | manualSplice k => exact manualSplice k
  | operatorCutout d l => exact operatorCutout q.requester d l
  | verifyOrder | readOrder | queueRead | readStatus | readMap | readStands => exact unchanged

end State.StandsIfRefused

section
variable {s : State} {q : Asker} {r : Request} {x : Reply}

/-- A request without room for the reply header is only noticed. -/
theorem exec_unserved (short : q.space < 4) :
    exec (carrying q r) s = .next ((s.asked q).notify (.badRequest q.requester (requestCode r))) := by
  rw [exec_carrying, State.answer, if_pos short]
  rfl

/-- A check's refusal is written as it is, and the owner is not asked. -/
theorem exec_check_refuses (room : 4 ≤ q.space) (check : s.checkRequest q r = some x) :
    exec (carrying q r) s = .next (s.replied q x) := by
  have check : (s.asked q).checkRequest q r = some x := check
  rw [exec_served room, State.serve, check]
  rfl

/-- An owner's refusal is written as far as it fits, and the owner has handed no fault. -/
theorem exec_owner_refuses (handed : s.handed = []) (grants : s.Grants q r)
    (notOk : (owned q r (s.asked q)).2.code ≠ .ok) (notTruncated : (owned q r (s.asked q)).2.code ≠ .truncated) :
    exec (carrying q r) s = .next (s.replied q ((owned q r (s.asked q)).2.cut q.space)) := by
  have stands : (owned q r (s.asked q)).1 = s.asked q := State.StandsIfRefused.owned q r notOk notTruncated
  exact exec_read grants handed (Prod.ext stands rfl)

end

/-- Settles O8: a request ends without room for its reply, at its checks or at its owner, and an owner that refuses has left the
state as it was. -/
theorem refusedRequestsChangeNothing : Obligations.RefusedRequestsChangeNothing :=
  fun _ _ _ => ⟨exec_unserved, fun _ => exec_check_refuses, exec_owner_refuses⟩

end Sys2Proof.Machine
end

section
namespace Sys2Proof.Machine

/-! ### A step takes the front of the queue -/

/-- The command at the front leaves the queue before it runs. -/
theorem step_of_pending_cons {s : State} {c : Instr} {rest : List Instr} (waiting : s.pending = c :: rest) :
    step s = exec c { s with pending := rest } := by
  rw [step, waiting]

/-- With no command waiting the part idles (assumption 1). -/
theorem step_of_pending_nil {s : State} (idle : s.pending = []) : step s = .next s := by
  rw [step, idle]

/-- Settles O1: the two cases of the queue. -/
theorem stepRunsTheFrontCommand : Obligations.StepRunsTheFrontCommand :=
  fun _ => ⟨fun _ _ => step_of_pending_cons, step_of_pending_nil⟩

end Sys2Proof.Machine
end
